-- ==== Sys2Proof/Word.lean ====
section
/-! DEFINITION. The widths of the machine's words (00 R19, 10, 20 R71). -/

namespace Sys2Proof

/-- One byte (00 R16). -/
abbrev Byte := BitVec 8

/-- A 16-bit quantity: `wValue`, `wIndex`, `wLength`, `bytes_remaining` (00 R19). -/
abbrev Half := BitVec 16

/-- A 32-bit quantity: tags, residues, LBAs, `dCBWDataTransferLength` (00 R19). -/
abbrev Word := BitVec 32

/-- A buffer, RAM or ROM address: a natural below `2 ^ ADDR_W`. `ADDR_W` is a parameter of the machine (00 R15, 92 D2),
so every computed address is taken modulo `2 ^ ADDR_W` (`Machine.place`, log 8). -/
abbrev Addr := Nat

/-- An endpoint number, 4 bits (00 R9, 10 R46). -/
abbrev Ep := BitVec 4

/-- A BD `count` field, 10 bits (10 R49). -/
abbrev Count := BitVec 10

/-- A device address, 7 bits (10 R28, R41). -/
abbrev DevAddr := BitVec 7

end Sys2Proof
end

