-- ==== Sys2Proof/Config.lean ====
section
/-! DEFINITION. The enumerations of the spec, the configuration record (00 section 4) and the free values
(opaque constants: nothing in Lean can evaluate them). -/

namespace Sys2Proof

/-- The contents of one address space: (address, byte) pairs. -/
abbrev Memory := List Host.Cell

/-- `dir`: OUT is host to device, IN is device to host (00 R17). -/
inductive Dir where
  | out
  | inp
  deriving DecidableEq, Repr, Inhabited

/-- Which of the two BDs of a ping-ponged endpoint direction (00 glossary). -/
inductive Parity where
  | even
  | odd
  deriving DecidableEq, Repr, Inhabited

/-- The opposite parity. -/
def Parity.other : Parity → Parity
  | .even => .odd
  | .odd => .even

/-- `PP_MODE` (00 R8). -/
inductive PpMode where
  | none
  | ep0OutOnly
  | allNonzero
  | all
  deriving DecidableEq, Repr, Inhabited

/-- `EP0_MAX`, one of 8, 16, 32, 64 (00 R7). -/
inductive Ep0Max where
  | b8
  | b16
  | b32
  | b64
  deriving DecidableEq, Repr, Inhabited

/-- The size in bytes that an `EP0_MAX` stands for. -/
def Ep0Max.bytes : Ep0Max → Nat
  | .b8 => 8
  | .b16 => 16
  | .b32 => 32
  | .b64 => 64

/-- `FUNCTION`: which function is plugged into the function port (00 R12). -/
inductive FunctionKind where
  | msc
  | cdc
  | hid
  | user
  deriving DecidableEq, Repr, Inhabited

/-- `stage`, the control-transfer stage (10 R20). -/
inductive Stage where
  | setup
  | dataIn
  | dataOut
  | statusIn
  | statusOut
  deriving DecidableEq, Repr, Inhabited

/-- `bot_state`, the Bulk-Only Transport state (10 R21, 44 R291). -/
inductive BotState where
  | cbw
  | noDataStage
  | readData
  | writeData
  | readFinished
  | dataSent
  | csw
  | waitIllegal
  | waitInvalid
  deriving DecidableEq, Repr, Inhabited

/-- `device_state` (10 R22). -/
inductive DeviceState where
  | detached
  | attached
  | powered
  | dflt
  | address
  | suspended
  | configured
  deriving DecidableEq, Repr, Inhabited

/-- `ctl.source`: the space the DATA_IN stage reads from (10 R25). -/
inductive Source where
  | rom
  | ram
  deriving DecidableEq, Repr, Inhabited

/-- The device's expected direction `Dn`, `Di`, `Do` (00 glossary, 44 R299). -/
inductive Expect where
  | dn
  | di
  | dO
  deriving DecidableEq, Repr, Inhabited

/-- `bot.src`: where IN data comes from (10 R35). -/
inductive Src where
  | resp
  | zeros
  | backend
  deriving DecidableEq, Repr, Inhabited

/-- `bot.end_action`: what follows the data stage (10 R35). -/
inductive EndAction where
  | sendCsw
  | stallThenCsw
  deriving DecidableEq, Repr, Inhabited

/-- `csw.status` (10 R32). -/
inductive CswStatus where
  | passed
  | failed
  | phaseError
  deriving DecidableEq, Repr, Inhabited

/-- `bCSWStatus`: PASSED 0, FAILED 1, PHASE_ERROR 2 (30 R136). -/
def CswStatus.code : CswStatus → Byte
  | .passed => 0
  | .failed => 1
  | .phaseError => 2

/-- The BD status byte, bits 7 to 2, in both its views (30 R120): bit 7 `OWN`, bit 6 `DTV`, bits 5 and 4 (`PID[3:2]`),
bit 3 `DTEN` or `PID[1]`, bit 2 `STALL` or `PID[0]`. Bits 1:0 are `count[9:8]` and live in the BD's `count`. -/
structure BdStat where
  own : Bool
  dtv : Bool
  b5 : Bool
  b4 : Bool
  b3 : Bool
  b2 : Bool
  deriving DecidableEq, Repr, Inhabited

/-- A buffer descriptor: `status_byte`, `count`, `address` (20 R71). -/
structure Bd where
  stat : BdStat
  count : Count
  address : Addr
  deriving DecidableEq, Repr, Inhabited

/-- `EPS(ep, dir)`: the endpoint status record (10 R36 to R39). -/
structure Eps where
  toggle : Bool
  halted : Bool
  lastParity : Parity
  deriving DecidableEq, Repr, Inhabited

/-- `sie.ep_ctrl[ep]`: the three endpoint enables (10 R44). -/
structure EpCtrl where
  handshake : Bool
  inEn : Bool
  outEn : Bool
  deriving DecidableEq, Repr, Inhabited

/-- The eight event flags `ev.*` (10 R45). -/
structure Events where
  reset : Bool
  idle : Bool
  activity : Bool
  trn : Bool
  sof : Bool
  error : Bool
  attach : Bool
  detach : Bool
  deriving DecidableEq, Repr, Inhabited

/-- The SIE's answer to a token, what the host observes (20 R88, R90 to R94). -/
inductive Answer where
  | none
  | nak
  | stall
  | ack
  | data (toggle : Bool) (bytes : List Byte)
  deriving DecidableEq, Repr, Inhabited

/-- `kind` of a class request's response record (41 R196). -/
inductive RespKind where
  | noData
  | dataIn (src : Source) (ptr : Addr) (len : Nat)
  | dataOut (target : Addr) (len : Nat)
  deriving DecidableEq, Repr, Inhabited

/-- What a hook of the function port returns: `accepted` (or `ok`), `kind`, the alternate setting of
`get_interface`, the list of `interface_endpoints` (43 R271 to R276, R282). -/
structure FnReply where
  accepted : Bool
  kind : RespKind
  alt : Byte
  endpoints : List (Ep × Dir)
  deriving DecidableEq, Repr, Inhabited

/-- The hooks of the function port (43 R270, R282) and the SOF handler (60 R415). -/
inductive Hook where
  | classRequest
  | getClassDescriptor
  | init
  | tasks
  | clearHalt
  | setInterface
  | getInterface
  | outControlFinished
  | interfaceEndpoints
  | sof
  deriving DecidableEq, Repr, Inhabited

/-- What a function outside the block may do through the HAL to its own non-zero endpoints (43 R278), the enables that its
`init()` alone may write (`setCtrl`, 43 R273), and the bytes it makes resident in the buffer of its own BD before an arm
(40 R163). -/
inductive FnCall where
  | reclaim (ep : Ep) (dir : Dir) (par : Parity)
  | armOut (ep : Ep) (par : Parity) (tog : Bool) (n : Nat)
  | armIn (ep : Ep) (par : Parity) (tog : Bool) (n : Nat)
  | rearmOut (ep : Ep) (par : Parity) (tog : Bool) (n : Nat)
  | rearmIn (ep : Ep) (par : Parity) (tog : Bool) (n : Nat)
  | stallEp (ep : Ep) (dir : Dir)
  | setCtrl (ep : Ep) (c : EpCtrl)
  | fill (ep : Ep) (dir : Dir) (par : Parity) (bytes : List Byte)
  deriving DecidableEq, Repr, Inhabited

/-- Which class OUT transfer of the CDC function is in progress (46 R371). -/
inductive CdcPending where
  | none
  | lineCoding
  | encapsulated
  deriving DecidableEq, Repr, Inhabited

/-- The registers of the CDC function (46 R371, R373, R374): the control lines, the class OUT transfer in progress, what
`data_out_completed` told the application (how many bytes, in which buffer), what `data_in_completed` told it; carrier detect
and DSR, which the notifications convey. -/
structure Cdc where
  dtr : Bool
  rts : Bool
  pending : CdcPending
  rxCount : Nat
  rxParity : Parity
  txReady : Bool
  dcd : Bool
  dsr : Bool
  deriving DecidableEq, Repr, Inhabited

/-- Which report the SET_REPORT in progress is committed to (46 R375). -/
inductive HidPending where
  | none
  | output (i : Nat)
  | feature (i : Nat)
  deriving DecidableEq, Repr, Inhabited

/-- The registers of the HID function (46 R375, R376): for each IN report its 1 ms counter, `idle_expired`, 'send now' and
`per_report_sent`, `report_sent_global`, the report in flight, and the SET_REPORT in progress. -/
structure Hid where
  counters : List Nat
  expired : List Bool
  sendNow : List Bool
  sent : List Bool
  sentGlobal : Bool
  inFlight : Option Nat
  pending : HidPending
  deriving DecidableEq, Repr, Inhabited

/-- What a hook of a function outside the block depends on: the function's own state (its private state, the registers of
CDC and HID, the bytes of its own RAM objects and of its own buffers), the arguments, `setup`, `ctl.bytes_received` and
`device_state`; nothing else (43 R278, R280). -/
structure FnView where
  function : FunctionKind
  st : Nat
  cdc : Cdc
  hid : Hid
  ram : List (List Byte)
  bufs : List (List Byte)
  args : List Nat
  setup : List Byte
  bytesReceived : Half
  deviceState : DeviceState
  deriving DecidableEq, Repr, Inhabited

/-- What a hook of a function outside the block does: its new private state, what it returns, its HAL calls, its
writes of its own RAM (43 R278, R280). -/
structure FnAnswer where
  st : Nat
  reply : FnReply
  calls : List FnCall
  ram : List (Addr × Byte)
  deriving DecidableEq, Repr, Inhabited

/-- The parameters of a CDC function (46 R370, R371, R374): endpoints, bulk size, the places of its RAM objects; the 8-byte
header of its SERIAL_STATE notifications, none where they are not enabled. -/
structure CdcConfig where
  notifyEp : Ep
  dataOutEp : Ep
  dataInEp : Ep
  max : Nat
  lineCoding : Addr
  staging : Addr
  encapsulated : Addr
  serialHeader : Option (List Byte)
  deriving DecidableEq, Repr, Inhabited

/-- The parameters of a HID function (46 R375): endpoints, the reports' sizes and places in RAM, whether report ids
are used, the place of the idle durations and of the staging copy of SET_REPORT, its two descriptors, the request codes
(not in the source, 91 N13). -/
structure HidConfig where
  inEp : Ep
  outEp : Option Ep
  max : Nat
  useIds : Bool
  inSizes : List Nat
  outSizes : List Nat
  featureSizes : List Nat
  inAddrs : List Addr
  outAddrs : List Addr
  featureAddrs : List Addr
  idleAddr : Addr
  staging : Addr
  hidDesc : List Byte
  reportDesc : List Byte
  getReport : Byte
  getIdle : Byte
  getProtocol : Byte
  setReport : Byte
  setIdle : Byte
  setProtocol : Byte
  deriving DecidableEq, Repr, Inhabited

/-- The configuration record (00 section 4). No step of the machine changes it. -/
structure Config where
  /-- `EP0_MAX` (R7). -/
  ep0Max : Ep0Max
  /-- `PP_MODE` (R8). -/
  ppMode : PpMode
  /-- `NUM_EP` (R9). -/
  numEp : Nat
  /-- `ADDR_W`, the width of every address in bits (R15, 92 D2). -/
  addrW : Nat
  /-- `DEVICE_DESC`, `CONFIG_DESC[i]`, `STRING_DESC[i]`; their counts are the lists' lengths (R10). -/
  deviceDesc : List Byte
  configDescs : List (List Byte)
  stringDescs : List (List Byte)
  /-- `NUM_INTERFACES` (R10). -/
  numInterfaces : Nat
  /-- `SELF_POWERED` (R11). -/
  selfPowered : Bool
  /-- `FUNCTION` (R12). -/
  function : FunctionKind
  /-- The MSC parameters (R13). -/
  bulkOutEp : Ep
  bulkInEp : Ep
  bulkMax : Nat
  blockSize : Nat
  capacity : Nat
  writeEnabled : Bool
  inqVendor : List Byte
  inqProduct : List Byte
  inqRev : List Byte
  /-- `BUF(ep, dir, par)`, listed by `bd_index` (R15, 20 R82). -/
  bufAddrs : List Addr
  /-- `BDT_BASE` (20 R71). -/
  bdtBase : Nat
  /-- The address of the first byte of the descriptor store in ROM (20 R82). -/
  romBase : Addr
  /-- `SCRATCH` (42 R231) and the address of `bot.lun_byte` (44 R314), both in RAM. -/
  scratch : Addr
  lunAddr : Addr
  /-- The functions outside the block (46). -/
  cdc : CdcConfig
  hid : HidConfig
  /-- A user-written function (00 R12, 43 R278): its own endpoint directions and its own RAM objects, each with its size. -/
  userEps : List (Ep × Dir)
  userRam : List (Addr × Nat)
  deriving DecidableEq, Repr, Inhabited

namespace Config

/-- FREE VALUE (93 U8): bit 6 of a status byte written back by the SIE. -/
opaque writeBackBit6 : Nat → Bool

/-- FREE VALUE (20 R95, 93 U3): the fields of a BD after a packet longer than its `count`. -/
opaque overrunBd : Nat → Bd

/-- FREE VALUE (20 R95, 93 U3): a buffer byte beyond `count` after such a packet. -/
opaque overrunByte : Nat → Nat → Byte

/-- FREE VALUE (20 R95): the handshake that such a packet gets. -/
opaque overrunAnswer : Nat → Answer

/-- FREE VALUE (70 R445): the `count` the SIE sees where an owned BD's `count` is written. -/
opaque hazardCount : Nat → Count

/-- FREE VALUE (70 R445): the `address` the SIE sees where an owned BD's `address` is written. -/
opaque hazardAddr : Nat → Nat

/-- FREE VALUE (70 R446, 20 R98): a byte of a buffer that is written while the SIE owns its BD. -/
opaque hazardByte : Nat → Nat → Byte

/-- FREE VALUE (30 R142): the last LBA that READ CAPACITY reports where `CAPACITY = 0`, which the spec leaves open. -/
opaque noLastLba : Word

/-- FREE VALUE (70 R460, 93 U12): a byte read from a backend whose media is absent. -/
opaque absentMediaByte : Nat → Nat → Byte

/-- FREE VALUE (70 R460, 93 U12): whether a write to absent or protected media lands. -/
opaque blockedWriteLands : Nat → Bool

/-- FREE VALUE (70 R440, 93 U7): a BD's address after `power_on_init()`. -/
opaque powerOnAddr : Nat → Nat → Nat

/-- FREE VALUE (70 R440, 93 U7): a byte of the setup store after `power_on_init()`. -/
opaque powerOnSetup : Nat → Nat → Byte

/-- FREE VALUE (70 R440, 93 U7): a byte of `BUF` (true) or `RAM` (false) after `power_on_init()`. -/
opaque powerOnByte : Nat → Bool → Nat → Byte

/-- FREE VALUE (10 R46, 93 U7): the latch `sie.last_trn` after `power_on_init()` and after a bus reset. -/
opaque powerOnLatch : Nat → Ep × Dir × Parity

/-- FREE VALUE (43 R280, 93 U16): what a hook of a function outside the block does. -/
opaque oracle : Hook → FnView → FnAnswer

/-- Test configuration A (95 section 0), the configuration of `State.reset`. DESIGN CHOICE (log 5); the parameters
that 95 section 0 does not give (addresses, the CDC and HID records) are PRESUMED. -/
def configA : Config where
  ep0Max := .b8
  ppMode := .none
  numEp := 2
  addrW := 16
  deviceDesc := [0x12, 0x01, 0x00, 0x02, 0x00, 0x00, 0x00, 0x08, 0xD8, 0x04, 0x09, 0x00, 0x00, 0x01, 0x01, 0x02, 0x00, 0x01]
  configDescs :=
    [[0x09, 0x02, 0x20, 0x00, 0x01, 0x01, 0x00, 0x80, 0x32] ++
     [0x09, 0x04, 0x00, 0x00, 0x02, 0x08, 0x06, 0x50, 0x00] ++
     [0x07, 0x05, 0x01, 0x02, 0x40, 0x00, 0x00] ++ [0x07, 0x05, 0x81, 0x02, 0x40, 0x00, 0x00]]
  stringDescs :=
    [[0x04, 0x03, 0x09, 0x04],
     [0x10, 0x03, 0x43, 0x00, 0x39, 0x00, 0x42, 0x00, 0x4F, 0x00, 0x54, 0x00, 0x20, 0x00, 0x31, 0x00],
     [0x0A, 0x03, 0x44, 0x00, 0x69, 0x00, 0x73, 0x00, 0x6B, 0x00]]
  numInterfaces := 1
  selfPowered := false
  function := .msc
  bulkOutEp := 1
  bulkInEp := 1
  bulkMax := 64
  blockSize := 512
  capacity := 64
  writeEnabled := true
  inqVendor := [0x43, 0x39, 0x42, 0x4F, 0x54, 0x20, 0x20, 0x20]
  inqProduct := [0x4D, 0x61, 0x73, 0x73, 0x20, 0x53, 0x74, 0x6F, 0x72, 0x61, 0x67, 0x65, 0x20, 0x20, 0x20, 0x20]
  inqRev := [0x31, 0x2E, 0x30, 0x30]
  bufAddrs := [0x0100, 0x0140, 0x0180, 0x01C0]
  bdtBase := 0
  romBase := 0x1000
  scratch := 0x0000
  lunAddr := 0x0002
  cdc :=
    { notifyEp := 2, dataOutEp := 1, dataInEp := 1, max := 64,
      lineCoding := 0x0010, staging := 0x0018, encapsulated := 0x0020,
      serialHeader := some [0xA1, 0x20, 0x00, 0x00, 0x00, 0x00, 0x02, 0x00] }
  hid :=
    { inEp := 1, outEp := some 1, max := 64, useIds := false,
      inSizes := [8], outSizes := [1], featureSizes := [],
      inAddrs := [0x0040], outAddrs := [0x0048], featureAddrs := [], idleAddr := 0x0050, staging := 0x0058,
      hidDesc := [0x09, 0x21, 0x11, 0x01, 0x00, 0x01, 0x22, 0x04, 0x00],
      reportDesc := [0x05, 0x01, 0x09, 0x06],
      getReport := 0x01, getIdle := 0x02, getProtocol := 0x03, setReport := 0x09, setIdle := 0x0A, setProtocol := 0x0B }
  userEps := [(1, .out), (1, .inp)]
  userRam := [(0x0060, 16)]

end Config

end Sys2Proof
end

