-- ==== Sys2Proof/Machine/Bdt.lean ====
section
/-! DEFINITION. The shape of the BDT (20 R70, R80), the views of the BD status byte (30 R120 to R122) and the byte
layout of a BD (20 R71). -/

namespace Sys2Proof.Machine

/-- `pp(ep, dir)`: this endpoint direction has an even and an odd BD (00 R8). -/
def pp (m : PpMode) (ep : Ep) (dir : Dir) : Bool :=
  match m with
  | .none => false
  | .ep0OutOnly => ep == 0 && dir == .out
  | .allNonzero => ep != 0
  | .all => true

/-- `parities(ep, dir)` (00 R17). -/
def parities (m : PpMode) (ep : Ep) (dir : Dir) : List Parity :=
  if pp m ep dir then [.even, .odd] else [.even]

/-- `d`: 0 for OUT, 1 for IN (20 R80). -/
def dirBit : Dir → Nat
  | .out => 0
  | .inp => 1

/-- `p`: 0 for EVEN, 1 for ODD (20 R80). -/
def parBit : Parity → Nat
  | .even => 0
  | .odd => 1

/-- `bd_index(ep, dir, par)` (20 R80). -/
def bdIndex (m : PpMode) (ep : Ep) (dir : Dir) (par : Parity) : Nat :=
  match m with
  | .none => 2 * ep.toNat + dirBit dir
  | .ep0OutOnly =>
    if ep = 0 then
      match dir with
      | .out => parBit par
      | .inp => 2
    else 2 * ep.toNat + dirBit dir + 1
  | .allNonzero =>
    if ep = 0 then dirBit dir else 4 * ep.toNat + 2 * dirBit dir + parBit par - 2
  | .all => 4 * ep.toNat + 2 * dirBit dir + parBit par

/-- How many BDs endpoint 0 has: they come first in the table (20 R80). -/
def ep0Entries : PpMode → Nat
  | .none => 2
  | .ep0OutOnly => 3
  | .allNonzero => 2
  | .all => 4

/-- The number of entries of the BDT (20 R70). -/
def bdtEntries (m : PpMode) (numEp : Nat) : Nat :=
  match m with
  | .none => 2 * numEp
  | .ep0OutOnly => 2 * numEp + 1
  | .allNonzero => 4 * numEp - 2
  | .all => 4 * numEp

/-- The place of `EPS(ep, dir)` and of `sie.ptr(ep, dir)` in their tables. -/
def epsIndex (ep : Ep) (dir : Dir) : Nat := 2 * ep.toNat + dirBit dir

/-! The status byte (30 R120). -/

/-- `0x00`: reclaimed (30 R122). -/
def statClear : BdStat := ⟨false, false, false, false, false, false⟩

/-- `0x08` or `0x48` without `OWN`, `0x88` or `0xC8` with it (30 R122). -/
def statArmed (own tog : Bool) : BdStat := ⟨own, tog, false, false, true, false⟩

/-- `0x84`: `STALL | OWN` (30 R122). -/
def statStalled : BdStat := ⟨true, false, false, false, false, true⟩

/-- The `STALL` bit of a byte the engine wrote (30 R120). -/
def BdStat.stallBit (b : BdStat) : Bool := b.b2

/-- The `DTEN` bit of a byte the engine wrote (30 R120). -/
def BdStat.dten (b : BdStat) : Bool := b.b3

/-- `PID[3:0]`, bits 5:2 (30 R120). -/
def BdStat.pid (b : BdStat) : BitVec 4 :=
  BitVec.ofBool b.b5 ++ BitVec.ofBool b.b4 ++ BitVec.ofBool b.b3 ++ BitVec.ofBool b.b2

/-- The token PIDs (30 R121). -/
def pidSetup : BitVec 4 := 0b1101

/-- The OUT token PID (30 R121). -/
def pidOut : BitVec 4 := 0b0001

/-- The IN token PID (30 R121). -/
def pidIn : BitVec 4 := 0b1001

/-- A byte that the SIE writes back: `OWN = 0`, bit 6 unspecified, the PID (30 R120). -/
def statWritten (bit6 : Bool) (pid : BitVec 4) : BdStat :=
  ⟨false, bit6, pid.getLsbD 3, pid.getLsbD 2, pid.getLsbD 1, pid.getLsbD 0⟩

/-- The status byte as 8 bits; bits 1:0 are `count[9:8]` (30 R120). -/
def Bd.statusByte (b : Bd) : Byte :=
  BitVec.ofBool b.stat.own ++ BitVec.ofBool b.stat.dtv ++ BitVec.ofBool b.stat.b5 ++ BitVec.ofBool b.stat.b4 ++
    BitVec.ofBool b.stat.b3 ++ BitVec.ofBool b.stat.b2 ++ b.count.extractLsb' 8 2

/-- The four bytes of a BD (20 R71): the layout of `ADDR_W = 16`, the one that the spec gives. No rule depends on it. -/
def Bd.toBytes (b : Bd) : List Byte :=
  [Bd.statusByte b, b.count.extractLsb' 0 8, BitVec.ofNat 8 b.address, BitVec.ofNat 8 (b.address / 256)]

/-- The byte of the BDT at an absolute address: entry `i` at `BDT_BASE + 4*i` (20 R71). -/
def bdtByte (base : Nat) (t : List Bd) (a : Nat) : Option Byte :=
  if a < base then none
  else (t[(a - base) / 4]?).map (fun b => (Bd.toBytes b).getD ((a - base) % 4) 0)

end Sys2Proof.Machine
end

