-- ==== Sys2Proof/Machine/Bytes.lean ====
section
/-! DEFINITION. Byte-order helpers (00 R16, 20 R73, R74) and the fields of a SETUP packet (30 R110 to R115). -/

namespace Sys2Proof.Machine

/-- `LE16(b0, b1) = b0 + 256*b1` (00 R16). -/
def le16 (b0 b1 : Byte) : Half := b1 ++ b0

/-- `LE32(b0..b3)` (00 R16). -/
def le32 (b0 b1 b2 b3 : Byte) : Word := b3 ++ b2 ++ b1 ++ b0

/-- `BE16(b0, b1) = 256*b0 + b1` (00 R16). -/
def be16 (b0 b1 : Byte) : Half := b0 ++ b1

/-- `BE32(b0..b3)` (00 R16). -/
def be32 (b0 b1 b2 b3 : Byte) : Word := b0 ++ b1 ++ b2 ++ b3

/-- `le32(v)`, the byte list (00 R16). -/
def le32Bytes (v : Word) : List Byte :=
  [v.extractLsb' 0 8, v.extractLsb' 8 8, v.extractLsb' 16 8, v.extractLsb' 24 8]

/-- `be32(v)`, the byte list (00 R16). -/
def be32Bytes (v : Word) : List Byte :=
  [v.extractLsb' 24 8, v.extractLsb' 16 8, v.extractLsb' 8 8, v.extractLsb' 0 8]

/-- `v[7:0]`. -/
def loByte (v : Half) : Byte := v.extractLsb' 0 8

/-- `v[15:8]`. -/
def hiByte (v : Half) : Byte := v.extractLsb' 8 8

/-- Byte `i` of a byte list that is at least that long (0 beyond its end, which no rule reads). -/
def byteAt (b : List Byte) (i : Nat) : Byte := b.getD i 0

/-- The little-endian halves of a byte list at offset `i`. -/
def halfAt (b : List Byte) (i : Nat) : Half := le16 (byteAt b i) (byteAt b (i + 1))

/-- The little-endian word of a byte list at offset `i`. -/
def wordAt (b : List Byte) (i : Nat) : Word :=
  le32 (byteAt b i) (byteAt b (i + 1)) (byteAt b (i + 2)) (byteAt b (i + 3))

/-- The big-endian half of a byte list at offset `i` (20 R74). -/
def beHalfAt (b : List Byte) (i : Nat) : Half := be16 (byteAt b i) (byteAt b (i + 1))

/-- The big-endian word of a byte list at offset `i` (20 R74). -/
def beWordAt (b : List Byte) (i : Nat) : Word :=
  be32 (byteAt b i) (byteAt b (i + 1)) (byteAt b (i + 2)) (byteAt b (i + 3))

/-- Exactly `n` bytes: the list cut or padded with zeros. -/
def fit (n : Nat) (b : List Byte) : List Byte := (List.range n).map (byteAt b)

/-! The SETUP packet (30 R110). -/

/-- `bmRequestType` (30 R110). -/
def bmRequestType (b : List Byte) : Byte := byteAt b 0

/-- `bRequest` (30 R110). -/
def bRequest (b : List Byte) : Byte := byteAt b 1

/-- `wValue` (30 R110). -/
def wValue (b : List Byte) : Half := halfAt b 2

/-- `wIndex` (30 R110). -/
def wIndex (b : List Byte) : Half := halfAt b 4

/-- `wLength` (30 R110). -/
def wLength (b : List Byte) : Half := halfAt b 6

/-- `type = bmRequestType[6:5]` (30 R111). -/
def reqType (b : List Byte) : BitVec 2 := (bmRequestType b).extractLsb' 5 2

/-- `recipient = bmRequestType[4:0]` (30 R111). -/
def recipient (b : List Byte) : BitVec 5 := (bmRequestType b).extractLsb' 0 5

/-- Endpoint number `wIndex[3:0]` (30 R115). -/
def indexEp (b : List Byte) : Ep := (wIndex b).extractLsb' 0 4

/-- Endpoint direction `wIndex[7]`, 1 = IN (30 R115). -/
def indexDir (b : List Byte) : Dir := if (wIndex b).getLsbD 7 then .inp else .out

/-- The endpoint address byte: the number, plus 0x80 for IN (30 R151). -/
def epAddress (ep : Ep) (dir : Dir) : Byte :=
  match dir with
  | .out => ep.setWidth 8
  | .inp => ep.setWidth 8 ||| 0x80

end Sys2Proof.Machine
end

