-- ==== Sys2Proof/Syntax.lean ====
section
/-! DEFINITION. The instructions: one constructor for each row of spec/opcode_table.json (00 R2: an instruction is an
operation of the block), with the operands its rule names. -/

namespace Sys2Proof

/-- The fields of a 31-byte CBW behind its signature (30 R135). -/
structure Cbw where
  tag : Word
  h : Word
  flags : Byte
  lun : Byte
  cbLength : Byte
  cb : List Byte
  deriving DecidableEq, Repr, Inhabited

/-- The operations of the block. -/
inductive Instr where
  /-- ISR (EVENT): 60 R401: the interrupt service routine, the whole loop. -/
  | isr
  /-- ATTACH (EVENT): 60 R410. -/
  | attach
  /-- DETACH (EVENT): 60 R411. -/
  | detach
  /-- RESET (EVENT): 60 R412, 70 R430 to R435. -/
  | reset
  /-- IDLE (EVENT): 60 R413. -/
  | idle
  /-- ACTIVITY (EVENT): 60 R414. -/
  | activity
  /-- SOF (EVENT): 60 R415. -/
  | sof
  /-- ERROR (EVENT): 60 R415. -/
  | error
  /-- TRN (EVENT): 41 R191. -/
  | trn
  /-- POWER_ON_INIT (ENGINE): 70 R440. -/
  | powerOnInit
  /-- EP0_SETUP (TRN): 41 R194; `par` names the completed EP0 OUT BD. -/
  | ep0Setup (par : Parity)
  /-- EP0_OUT_DATA (TRN): 41 R203. -/
  | ep0OutData (par : Parity) (n : Nat)
  /-- EP0_OUT_STATUS (TRN): 41 R207. -/
  | ep0OutStatus
  /-- EP0_OUT_EARLY_STATUS (TRN): 41 R208 (a). -/
  | ep0OutEarlyStatus
  /-- EP0_OUT_STRAY (TRN): 41 R208 (b). -/
  | ep0OutStray
  /-- EP0_IN_DATA (TRN): 41 R201. -/
  | ep0InData
  /-- EP0_IN_STATUS (TRN): 41 R207. -/
  | ep0InStatus
  /-- EP0_IN_STRAY (TRN): 41 R208 (c). -/
  | ep0InStray
  /-- EPN_COMPLETION (TRN): 43 R274. -/
  | epnCompletion (ep : Ep) (dir : Dir) (par : Parity) (n : Nat)
  /-- EP_OUT_OF_RANGE (TRN): 41 R191 (the latched endpoint does not exist). -/
  | epOutOfRange (ep : Ep)
  /-- ep0_dispatch (ENGINE): 41 R192. -/
  | ep0Dispatch (dir : Dir) (pid : BitVec 4) (par : Parity) (n : Nat)
  /-- type_dispatch (ENGINE): 41 R195. -/
  | typeDispatch
  /-- class_dispatch (ENGINE): 41 R196. -/
  | classDispatch
  /-- standard_dispatch (ENGINE): 42 R230. -/
  | standardDispatch
  /-- start_data_in (ENGINE): 41 R200. -/
  | startDataIn (src : Source) (ptr : Addr) (d : Nat)
  /-- data_in_next (ENGINE): 41 R201. -/
  | dataInNext
  /-- start_data_out (ENGINE): 41 R202. -/
  | startDataOut (target : Addr) (len : Nat)
  /-- data_out_step (ENGINE): 41 R203. -/
  | dataOutStep (par : Parity) (n : Nat)
  /-- status_complete (ENGINE): 41 R207. -/
  | statusComplete
  /-- VENDOR_REQUEST (SETUP16): 41 R195. -/
  | vendorRequest
  /-- RESERVED_TYPE_REQUEST (SETUP16): 41 R195. -/
  | reservedTypeRequest
  /-- GET_STATUS_DEVICE (SETUP16): 42 R231. -/
  | getStatusDevice
  /-- GET_STATUS_INTERFACE (SETUP16): 42 R232. -/
  | getStatusInterface (iface : Byte)
  /-- GET_STATUS_ENDPOINT (SETUP16): 42 R233. -/
  | getStatusEndpoint (ep : Ep) (dir : Dir)
  /-- GET_STATUS_OTHER (SETUP16): 42 R234. -/
  | getStatusOther
  /-- CLEAR_FEATURE_DEVICE (SETUP16): 42 R235. -/
  | clearFeatureDevice (sel : Half)
  /-- CLEAR_FEATURE_ENDPOINT (SETUP16): 42 R237. -/
  | clearFeatureEndpoint (sel : Half) (ep : Ep) (dir : Dir)
  /-- CLEAR_FEATURE_OTHER (SETUP16): 42 R239. -/
  | clearFeatureOther
  /-- RESERVED_REQUEST_2 (SETUP16): 42 R252. -/
  | reservedRequest2
  /-- SET_FEATURE_DEVICE (SETUP16): 42 R236. -/
  | setFeatureDevice (sel : Half)
  /-- SET_FEATURE_ENDPOINT (SETUP16): 42 R238. -/
  | setFeatureEndpoint (sel : Half) (ep : Ep) (dir : Dir)
  /-- SET_FEATURE_OTHER (SETUP16): 42 R239. -/
  | setFeatureOther
  /-- RESERVED_REQUEST_4 (SETUP16): 42 R252. -/
  | reservedRequest4
  /-- SET_ADDRESS (SETUP16): 42 R240; `a` is `wValue & 0x7F`. -/
  | setAddress (a : DevAddr)
  /-- GET_DESCRIPTOR (SETUP16): 42 R241. -/
  | getDescriptor (dtype didx : Byte)
  /-- SET_DESCRIPTOR (SETUP16): 42 R246. -/
  | setDescriptor
  /-- GET_CONFIGURATION (SETUP16): 42 R247. -/
  | getConfiguration
  /-- SET_CONFIGURATION (SETUP16): 42 R248, R249. -/
  | setConfiguration (c : Byte)
  /-- GET_INTERFACE (SETUP16): 42 R250. -/
  | getInterface (iface : Byte)
  /-- SET_INTERFACE (SETUP16): 42 R251. -/
  | setInterface (alt iface : Byte)
  /-- SYNC_FRAME (SETUP16): 42 R253. -/
  | syncFrame
  /-- RESERVED_REQUEST_13_255 (SETUP16): 42 R252. -/
  | reservedRequest13To255 (code : Byte)
  /-- CLASS_REQUEST (SETUP16): 41 R196 (a SETUP of type CLASS). -/
  | classRequest
  /-- GET_DESCRIPTOR_DEVICE (GETDESC8): 42 R242. -/
  | getDescriptorDevice
  /-- GET_DESCRIPTOR_CONFIGURATION (GETDESC8): 42 R243. -/
  | getDescriptorConfiguration (didx : Byte)
  /-- GET_DESCRIPTOR_STRING (GETDESC8): 42 R244. -/
  | getDescriptorString (didx : Byte)
  /-- GET_DESCRIPTOR_CLASS_OR_UNKNOWN (GETDESC8): 42 R245; the hook reads `wValue` and `wIndex` from the setup store (43 R272). -/
  | getDescriptorClassOrUnknown
  /-- SET_CONFIGURATION_ZERO (SETCFG8): 42 R249. -/
  | setConfigurationZero
  /-- SET_CONFIGURATION_NONZERO (SETCFG8): 42 R248. -/
  | setConfigurationNonzero (c : Byte)
  /-- BOMSR (CLASS16): 44 R313. -/
  | bomsr
  /-- GET_MAX_LUN (CLASS16): 44 R314. -/
  | getMaxLun
  /-- MSC_CLASS_OTHER (CLASS16): 43 R271: refused. -/
  | mscClassOther
  /-- CDC_SET_LINE_CODING (CLASS16): 46 R371. -/
  | cdcSetLineCoding
  /-- CDC_GET_LINE_CODING (CLASS16): 46 R371. -/
  | cdcGetLineCoding
  /-- CDC_SET_CONTROL_LINE_STATE (CLASS16): 46 R371. -/
  | cdcSetControlLineState (dtr rts : Bool)
  /-- CDC_SEND_ENCAPSULATED_COMMAND (CLASS16): 46 R371. -/
  | cdcSendEncapsulatedCommand
  /-- CDC_GET_ENCAPSULATED_RESPONSE (CLASS16): 46 R371. -/
  | cdcGetEncapsulatedResponse
  /-- HID_GET_REPORT (CLASS16): 46 R375. -/
  | hidGetReport (rtype rid : Byte)
  /-- HID_SET_REPORT (CLASS16): 46 R375. -/
  | hidSetReport (rtype rid : Byte)
  /-- HID_GET_IDLE (CLASS16): 46 R375. -/
  | hidGetIdle (rid : Byte)
  /-- HID_SET_IDLE (CLASS16): 46 R375. -/
  | hidSetIdle (duration rid : Byte)
  /-- HID_GET_PROTOCOL (CLASS16): 46 R375: unsupported. -/
  | hidGetProtocol
  /-- HID_SET_PROTOCOL (CLASS16): 46 R375: unsupported. -/
  | hidSetProtocol
  /-- class_request (HOOK): 43 R271. -/
  | hookClassRequest
  /-- get_class_descriptor (HOOK): 43 R272. -/
  | hookGetClassDescriptor
  /-- init (HOOK): 43 R273. -/
  | hookInit
  /-- tasks (HOOK): 43 R274. -/
  | hookTasks (ep : Ep) (dir : Dir) (par : Parity) (n : Nat)
  /-- clear_halt (HOOK): 43 R275. -/
  | hookClearHalt (index : Nat) (ep : Ep) (dir : Dir)
  /-- set_interface (HOOK): 43 R276. -/
  | hookSetInterface (alt iface : Byte)
  /-- get_interface (HOOK): 43 R276. -/
  | hookGetInterface (iface : Byte)
  /-- out_control_finished (HOOK): 43 R277. -/
  | hookOutControlFinished
  /-- interface_endpoints (HOOK): 43 R282. -/
  | hookInterfaceEndpoints (iface : Byte)
  /-- reclaim (BDSTAT): 40 R161. -/
  | reclaim (ep : Ep) (dir : Dir) (par : Parity)
  /-- arm_out (BDSTAT): 40 R162. -/
  | armOut (ep : Ep) (par : Parity) (tog : Bool) (n : Nat)
  /-- arm_in (BDSTAT): 40 R163. -/
  | armIn (ep : Ep) (par : Parity) (tog : Bool) (n : Nat)
  /-- stall (BDSTAT): 40 R165. -/
  | stall (ep : Ep) (dir : Dir) (par : Parity)
  /-- arm_status_in (HAL): 40 R164. -/
  | armStatusIn
  /-- rearm_out (HAL): 40 R166. -/
  | rearmOut (ep : Ep) (par : Parity) (tog : Bool) (n : Nat)
  /-- rearm_in (HAL): 40 R166. -/
  | rearmIn (ep : Ep) (par : Parity) (tog : Bool) (n : Nat)
  /-- stall_ep (HAL): 40 R167. -/
  | stallEp (ep : Ep) (dir : Dir)
  /-- request_error (HAL): 40 R168. -/
  | requestError
  /-- unstall_ep (HAL): 40 R169. -/
  | unstallEp (ep : Ep) (dir : Dir)
  /-- note_completion (HAL): 40 R170. -/
  | noteCompletion (ep : Ep) (dir : Dir) (par : Parity)
  /-- pp_reset (HAL): 40 R171. -/
  | ppReset
  /-- ep0_arm_setup (HAL): 40 R172. -/
  | ep0ArmSetup
  /-- ep0_arm_status_out (HAL): 40 R173. -/
  | ep0ArmStatusOut
  /-- ep0_arm_data_out (HAL): 40 R174. -/
  | ep0ArmDataOut
  /-- ep0_send_in (HAL): 40 R175. -/
  | ep0SendIn (n : Nat)
  /-- bulk_arm_out (HAL): 40 R176. -/
  | bulkArmOut (n : Nat)
  /-- bulk_arm_in (HAL): 40 R176. -/
  | bulkArmIn (n : Nat)
  /-- msd_tasks (BOT): 44 R294. -/
  | msdTasks
  /-- bot_enqueue (BOT): 44 R292. -/
  | botEnqueue (ep : Ep) (dir : Dir) (par : Parity) (n : Nat)
  /-- BOT_CBW_RECEIVED (BOTSTEP): 44 R296. -/
  | botCbwReceived (par : Parity) (n : Nat)
  /-- BOT_DATA_OUT_CHUNK (BOTSTEP): 44 R306. -/
  | botDataOutChunk (par : Parity) (n : Nat)
  /-- BOT_DATA_IN_NEXT (BOTSTEP): 44 R304. -/
  | botDataInNext
  /-- BOT_DATA_IN_END (BOTSTEP): 44 R305. -/
  | botDataInEnd
  /-- BOT_CSW_SENT (BOTSTEP): 44 R308. -/
  | botCswSent
  /-- BOT_STALE_ENTRY (BOTSTEP): 44 R295 (last row). -/
  | botStaleEntry
  /-- CBW_VALID (CBW32): 44 R296. -/
  | cbwValid (c : Cbw)
  /-- CBW_INVALID (CBW32): 44 R297. -/
  | cbwInvalid
  /-- arbitrate (BOT): 44 R299. -/
  | arbitrate (e : Expect) (d : Word) (src : Src)
  /-- BOT_CASE_1 (BOT13): 44 R300. -/
  | botCase1
  /-- BOT_CASE_2 (BOT13): 44 R300. -/
  | botCase2
  /-- BOT_CASE_3 (BOT13): 44 R300. -/
  | botCase3
  /-- BOT_CASE_4 (BOT13): 44 R300. -/
  | botCase4
  /-- BOT_CASE_5 (BOT13): 44 R300. -/
  | botCase5 (d : Word) (src : Src)
  /-- BOT_CASE_6 (BOT13): 44 R300. -/
  | botCase6 (d : Word) (src : Src)
  /-- BOT_CASE_7 (BOT13): 44 R300. -/
  | botCase7 (src : Src)
  /-- BOT_CASE_8 (BOT13): 44 R300. -/
  | botCase8
  /-- BOT_CASE_9 (BOT13): 44 R300. -/
  | botCase9
  /-- BOT_CASE_10 (BOT13): 44 R300. -/
  | botCase10
  /-- BOT_CASE_11 (BOT13): 44 R300. -/
  | botCase11 (d : Word)
  /-- BOT_CASE_12 (BOT13): 44 R300. -/
  | botCase12 (d : Word)
  /-- BOT_CASE_13 (BOT13): 44 R300. -/
  | botCase13
  /-- start_in (BOT): 44 R301. -/
  | startIn (src : Src) (total : Word) (act : EndAction)
  /-- start_out (BOT): 44 R302. -/
  | startOut (total : Word) (act : EndAction)
  /-- stall_and_wait (BOT): 44 R303. -/
  | stallAndWait (dir : Dir)
  /-- send_in_chunk (BOT): 44 R304. -/
  | sendInChunk
  /-- end_of_data_in (BOT): 44 R305. -/
  | endOfDataIn
  /-- data_out_chunk (BOT): 44 R306. -/
  | dataOutChunk (par : Parity) (n : Nat)
  /-- send_csw (BOT): 44 R307. -/
  | sendCsw
  /-- csw_complete (BOT): 44 R308. -/
  | cswComplete
  /-- fail_command (BOT): 44 R309. -/
  | failCommand (e : Expect) (key : BitVec 4) (asc ascq : Byte)
  /-- phase_fail (BOT): 44 R310. -/
  | phaseFail
  /-- bot_clear_halt (BOT): 44 R311. -/
  | botClearHalt (index : Nat) (ep : Ep) (dir : Dir)
  /-- bot_init (BOT): 44 R315. -/
  | botInit
  /-- CSW (BOT): 30 R136, 44 R307: the 13 bytes of the wrapper. -/
  | cswWrapper
  /-- TEST_UNIT_READY (CDB8): 45 R344. -/
  | testUnitReady
  /-- REQUEST_SENSE (CDB8): 45 R358. -/
  | requestSense (alloc : Byte)
  /-- INQUIRY (CDB8): 45 R346. -/
  | inquiry
  /-- MODE_SENSE_6 (CDB8): 45 R348. -/
  | modeSense6
  /-- READ_CAPACITY_10 (CDB8): 45 R350. -/
  | readCapacity10 (lba : Word) (pmi : Bool)
  /-- READ_10 (CDB8): 45 R352. -/
  | read10 (lba : Word) (len : Half)
  /-- WRITE_10 (CDB8): 45 R356. -/
  | write10 (lba : Word) (len : Half)
  /-- SCSI_UNKNOWN_OPCODE (CDB8): 45 R360. -/
  | scsiUnknownOpcode
  /-- scsi_dispatch (SCSI): 45 R340. -/
  | scsiDispatch
  /-- respond (SCSI): 45 R341. -/
  | respond (bytes : List Byte) (d : Nat)
  /-- sense_on_complete (SCSI): 45 R343. -/
  | senseOnComplete
  /-- rw_parse (SCSI): 45 R354. -/
  | rwParse
  /-- CLEAR_HALT (PSEUDO): 30 R151. -/
  | pseudoClearHalt (ea : Byte)
  /-- SET_HALT (PSEUDO): 30 R151. -/
  | pseudoSetHalt (ea : Byte)
  /-- BOMSR_SEQ (PSEUDO): 30 R151. -/
  | bomsrSeq
  /-- SET_ADDRESS_SEQ (PSEUDO): 30 R151. -/
  | setAddressSeq (a : Byte)
  /-- SET_CONFIG_SEQ (PSEUDO): 30 R151. -/
  | setConfigSeq (c : Byte)
  /-- CBW_SEQ (PSEUDO): 30 R151. -/
  | cbwSeq (tag h : Word) (flags : Byte) (cdb : List Byte)
  deriving DecidableEq, Repr, Inhabited

end Sys2Proof
end

