-- ==== Sys2Proof/Machine/Memory.lean ====
section
/-! DEFINITION. The byte store of an address space: a list of (address, byte) pairs in one canonical form. An unlisted
address reads as 0 (DESIGN CHOICE, log 2; 10 section 8: contents unspecified). -/

namespace Sys2Proof.Machine

/-- What an unlisted address reads as (log 2). -/
def blank : Byte := 0

/-- The byte at an address. -/
def memRead (m : Memory) (a : Nat) : Byte :=
  match m with
  | [] => blank
  | (k, v) :: r => if k = a then v else memRead r a

/-- One byte written: the list stays sorted and lists no blank byte. -/
def memWrite (m : Memory) (a : Nat) (v : Byte) : Memory :=
  match m with
  | [] => if v = blank then [] else [(a, v)]
  | (k, w) :: r =>
    if a < k then if v = blank then (k, w) :: r else (a, v) :: (k, w) :: r
    else if a = k then if v = blank then r else (a, v) :: r
    else (k, w) :: memWrite r a v

/-- The canonical form: addresses strictly rising, no entry that reads as an unlisted address does. -/
abbrev memWf (m : Memory) : Prop := m.Pairwise (fun x y => x.1 < y.1) ∧ ∀ c ∈ m, c.2 ≠ blank

/-- `n` bytes from key `k` on. -/
def bytesFrom (m : Memory) (k n : Nat) : List Byte := (List.range n).map (fun i => memRead m (k + i))

/-- Bytes written from key `k` on. -/
def putFrom (m : Memory) (k : Nat) : List Byte → Memory
  | [] => m
  | b :: r => putFrom (memWrite m k b) (k + 1) r

/-- The address `i` bytes after `a`: addresses have `w = ADDR_W` bits and wrap (00 R15, log 8). -/
def place (w : Nat) (a : Addr) (i : Nat) : Addr := (a + i) % 2 ^ w

/-- `MemRead(space, addr, n)` (00 R17). -/
def readBytes (w : Nat) (m : Memory) (a : Addr) (n : Nat) : List Byte :=
  (List.range n).map (fun i => memRead m (place w a i))

/-- `MemWrite(space, addr, n, bytes)` (00 R17). -/
def writeBytes (w : Nat) (m : Memory) (a : Addr) : List Byte → Memory
  | [] => m
  | b :: r => writeBytes w (memWrite m (place w a 0) b) (a + 1) r

/-- Objects of the given places and sizes zeroed (43 R273). -/
def zeroObjects (w : Nat) (l : List (Addr × Nat)) (m : Memory) : Memory :=
  l.foldl (fun m x => writeBytes w m x.1 (List.replicate x.2 0)) m

/-- The bytes that the SET_REPORT staging copy takes: the longest OUT or Feature report (46 R375). -/
def stagingSize (h : HidConfig) : Nat := (h.outSizes ++ h.featureSizes).foldl max 0

/-- The RAM objects of the bound function's own, each with its size (10 R35, 43 R278, 46 R371, R375). -/
def functionRam (c : Config) : List (Addr × Nat) :=
  match c.function with
  | .msc => []
  | .cdc => [(c.cdc.lineCoding, 7), (c.cdc.staging, 7), (c.cdc.encapsulated, 8)]
  | .hid =>
    c.hid.inAddrs.zip c.hid.inSizes ++ c.hid.outAddrs.zip c.hid.outSizes ++ c.hid.featureAddrs.zip c.hid.featureSizes ++
      [(c.hid.idleAddr, c.hid.inSizes.length), (c.hid.staging, stagingSize c.hid)]
  | .user => c.userRam

/-- Object `x` holds the `n` bytes from its place `a` on. -/
def holds (x : Addr × Nat) (a : Addr) (n : Nat) : Bool := x.1 ≤ a && a < x.1 + x.2 && a + n ≤ x.1 + x.2

/-- The endpoint directions of the bound function's own (43 R278, R279, 46 R370, R375). -/
def functionEps (c : Config) : List (Ep × Dir) :=
  match c.function with
  | .msc => [(c.bulkOutEp, .out), (c.bulkInEp, .inp)]
  | .cdc => [(c.cdc.notifyEp, .inp), (c.cdc.dataOutEp, .out), (c.cdc.dataInEp, .inp)]
  | .hid => (c.hid.inEp, .inp) :: c.hid.outEp.toList.map (fun e => (e, .out))
  | .user => c.userEps

/-- A store of `2 ^ w` bytes with the given contents, in canonical form. -/
def memOf (w : Nat) (f : Nat → Byte) : Memory :=
  ((List.range (2 ^ w)).map (fun a => (a, f a))).filter (fun c => c.2 != blank)

end Sys2Proof.Machine
end

