-- ==== Sys2Proof/WellFormed.lean ====
section
/-! DEFINITION. What the spec requires of a configuration (00 R7 to R15, 70 R442) and of an instruction's operands. -/

namespace Sys2Proof

namespace Config

/-- `1 <= NUM_EP <= 16` (00 R9). -/
def numEpOk (c : Config) : Bool := 1 ≤ c.numEp && c.numEp ≤ 16

/-- `ADDR_W` is open (00 R15, 92 D2). DESIGN CHOICE (log 22): at least 10 bits, so that the bytes of any `count` have
addresses of their own. -/
def addrWOk (c : Config) : Bool := 10 ≤ c.addrW

/-- An 18-byte device descriptor, at least one configuration and one string, each configuration with its own
`wTotalLength` in bytes 2 and 3 and each string with its own length in byte 0 (00 R10, 42 R244). DESIGN CHOICE (log 22):
at most 255 configurations and 256 strings, which is what a byte can select. The spec gives no upper bound. -/
def descriptorsOk (c : Config) : Bool :=
  c.deviceDesc.length == 18 && !c.configDescs.isEmpty && !c.stringDescs.isEmpty && c.configDescs.length ≤ 255 &&
    c.stringDescs.length ≤ 256 &&
    c.configDescs.all (fun d => 4 ≤ d.length && (d.getD 2 0).toNat + 256 * (d.getD 3 0).toNat == d.length) &&
    c.stringDescs.all (fun d => 1 ≤ d.length && (d.getD 0 0).toNat == d.length)

/-- `NUM_INTERFACES >= 1` (00 R10). -/
def interfacesOk (c : Config) : Bool := 1 ≤ c.numInterfaces

/-- The bulk endpoint numbers are at least 1 (00 R13). -/
def bulkNonzero (c : Config) : Bool := 1 ≤ c.bulkOutEp.toNat && 1 ≤ c.bulkInEp.toNat

/-- The bulk endpoints exist and are not endpoint 0 (00 R9, R13), which a machine with MSC bound needs (00 R12). -/
def bulkEpsOk (c : Config) : Bool :=
  1 ≤ c.bulkOutEp.toNat && c.bulkOutEp.toNat < c.numEp && 1 ≤ c.bulkInEp.toNat && c.bulkInEp.toNat < c.numEp

/-- `1 <= BULK_MAX <= 64` ("in this block `count <= 64`", 20 R71); `BLOCK_SIZE mod BULK_MAX = 0`;
`65535 * BLOCK_SIZE < 2^32`; the last LBA fits 32 bits (00 R13, 30 R142). `CAPACITY = 0` is not shut out (log 22). -/
def sizesOk (c : Config) : Bool :=
  1 ≤ c.bulkMax && c.bulkMax ≤ 64 && 1 ≤ c.blockSize && c.blockSize % c.bulkMax == 0 &&
    65535 * c.blockSize < 2 ^ 32 && c.capacity ≤ 2 ^ 32

/-- The INQUIRY strings have 8, 16 and 4 bytes (00 R13). -/
def inquiryOk (c : Config) : Bool :=
  c.inqVendor.length == 8 && c.inqProduct.length == 16 && c.inqRev.length == 4

/-- How many bytes a buffer must hold: `EP0_MAX` (at least 8) or `BULK_MAX` (00 R15, 70 R442); buffer `i` is that of
BDT entry `i`. -/
def bufSize (c : Config) (i : Nat) : Nat :=
  if i < Machine.ep0Entries c.ppMode then c.ep0Max.bytes else c.bulkMax

/-- One buffer for each BD, in the address space and without overlap (00 R15). -/
def buffersOk (c : Config) : Bool :=
  c.bufAddrs.length == Machine.bdtEntries c.ppMode c.numEp &&
    (List.range c.bufAddrs.length).all (fun i =>
      c.bufAddrs.getD i 0 + c.bufSize i ≤ 2 ^ c.addrW &&
        (List.range i).all (fun j =>
          c.bufAddrs.getD i 0 + c.bufSize i ≤ c.bufAddrs.getD j 0 ||
            c.bufAddrs.getD j 0 + c.bufSize j ≤ c.bufAddrs.getD i 0))

/-- The engine's own bytes `ctl.scratch[0..1]` and `bot.lun_byte` (10 R27, R35) and the RAM objects of the bound function
lie in RAM, apart from each other: a function writes its own RAM and not `ctl.*` (43 R278). -/
def ramOk (c : Config) : Bool :=
  let l := (c.scratch, 2) :: (c.lunAddr, 1) :: Machine.functionRam c
  l.all (fun x => x.1 + x.2 ≤ 2 ^ c.addrW) && decide (l.Pairwise (fun x y => x.1 + x.2 ≤ y.1 ∨ y.1 + y.2 ≤ x.1))

/-- The descriptor store fits the ROM space (00 R15, 20 R82). -/
def romOk (c : Config) : Bool :=
  c.romBase + c.deviceDesc.length + c.configDescs.flatten.length + c.stringDescs.flatten.length +
    c.hid.hidDesc.length + c.hid.reportDesc.length ≤ 2 ^ c.addrW

/-- The six HID request codes differ from each other (46 R375: six requests). -/
def hidCodesOk (c : Config) : Bool :=
  [c.hid.getReport, c.hid.getIdle, c.hid.getProtocol, c.hid.setReport, c.hid.setIdle, c.hid.setProtocol].Nodup

/-- An existing endpoint other than 0 (43 R278). -/
def nonzeroEp (c : Config) (ep : Ep) : Bool := 1 ≤ ep.toNat && ep.toNat < c.numEp

/-- A packet size of a function outside the block fits its buffers, which hold `BULK_MAX` bytes (00 R15). -/
def packetOk (c : Config) (n : Nat) : Bool := 1 ≤ n && n ≤ c.bulkMax

/-- The SERIAL_STATE notification of CDC, where enabled: an 8-byte header and 2 bytes, which a buffer holds (46 R374). -/
def notifyOk (c : Config) : Bool := c.cdc.serialHeader.all (fun h => h.length == 8 && 10 ≤ c.bulkMax)

/-- A CDC function: two interfaces, its three endpoints (46 R370). -/
def cdcOk (c : Config) : Bool :=
  c.numInterfaces == 2 && c.nonzeroEp c.cdc.notifyEp && c.nonzeroEp c.cdc.dataOutEp && c.nonzeroEp c.cdc.dataInEp &&
    c.cdc.notifyEp != c.cdc.dataInEp && c.packetOk c.cdc.max && c.notifyOk

/-- A HID function: one interface, its endpoints of 8 to 64 bytes, a place for each report (46 R375; 64 bounds `BULK_MAX`). DESIGN CHOICE (log 12): an IN report
fits one packet. -/
def hidOk (c : Config) : Bool :=
  c.numInterfaces == 1 && c.nonzeroEp c.hid.inEp && c.hid.outEp.all c.nonzeroEp && c.packetOk c.hid.max && 8 ≤ c.hid.max &&
    c.hid.inSizes.length == c.hid.inAddrs.length && c.hid.outSizes.length == c.hid.outAddrs.length &&
    c.hid.featureSizes.length == c.hid.featureAddrs.length && c.hid.inSizes.all (fun n => n ≤ c.hid.max)

/-- What the bound function needs: its endpoints exist and are not endpoint 0 (00 R13, 43 R278), its parameters fit. -/
def functionOk (c : Config) : Bool :=
  match c.function with
  | .msc => c.bulkEpsOk
  | .cdc => c.cdcOk
  | .hid => c.hidOk
  | .user => c.userEps.all (fun e => c.nonzeroEp e.1)

/-- A well-formed configuration. -/
def wf (c : Config) : Bool :=
  c.numEpOk && c.addrWOk && c.descriptorsOk && c.interfacesOk && c.bulkNonzero && c.sizesOk && c.inquiryOk &&
    c.buffersOk && c.ramOk && c.romOk && c.hidCodesOk && c.functionOk

end Config

namespace Instr

/-- The operand is an existing endpoint (00 R9). -/
def epOk (c : Config) (ep : Ep) : Bool := ep.toNat < c.numEp

/-- The triple names a BD: ODD only where ping-ponged (20 R80). -/
def bdOk (c : Config) (ep : Ep) (dir : Dir) (par : Parity) : Bool :=
  epOk c ep && (par == .even || Machine.pp c.ppMode ep dir)

/-- A byte count, `0 <= n <= 1023` (40 R160). -/
def countOk (n : Nat) : Bool := n ≤ 1023

/-- What an instruction's operands must satisfy for its rule and its encoding to apply. -/
def wf (c : Config) : Instr → Bool
  | .isr => true
  | .attach => true
  | .detach => true
  | .reset => true
  | .idle => true
  | .activity => true
  | .sof => true
  | .error => true
  | .trn => true
  | .powerOnInit => true
  | .ep0Setup par => bdOk c 0 .out par
  | .ep0OutData par n => bdOk c 0 .out par && countOk n
  | .ep0OutStatus => true
  | .ep0OutEarlyStatus => true
  | .ep0OutStray => true
  | .ep0InData => true
  | .ep0InStatus => true
  | .ep0InStray => true
  | .epnCompletion ep dir par n => bdOk c ep dir par && ep != 0 && countOk n
  | .epOutOfRange ep => !epOk c ep
  | .ep0Dispatch dir _ par n => bdOk c 0 dir par && countOk n
  | .typeDispatch => true
  | .classDispatch => true
  | .standardDispatch => true
  | .startDataIn _ ptr d => ptr < 2 ^ c.addrW && d < 2 ^ 16
  | .dataInNext => true
  | .startDataOut target len => target < 2 ^ c.addrW && len < 2 ^ 16
  | .dataOutStep par n => bdOk c 0 .out par && countOk n
  | .statusComplete => true
  | .vendorRequest => true
  | .reservedTypeRequest => true
  | .getStatusDevice => true
  | .getStatusInterface _ => true
  | .getStatusEndpoint _ _ => true
  | .getStatusOther => true
  | .clearFeatureDevice _ => true
  | .clearFeatureEndpoint _ _ _ => true
  | .clearFeatureOther => true
  | .reservedRequest2 => true
  | .setFeatureDevice _ => true
  | .setFeatureEndpoint _ _ _ => true
  | .setFeatureOther => true
  | .reservedRequest4 => true
  | .setAddress _ => true
  | .getDescriptor _ _ => true
  | .setDescriptor => true
  | .getConfiguration => true
  | .setConfiguration _ => true
  | .getInterface _ => true
  | .setInterface _ _ => true
  | .syncFrame => true
  | .reservedRequest13To255 code => 13 ≤ code.toNat
  | .classRequest => true
  | .getDescriptorDevice => true
  | .getDescriptorConfiguration _ => true
  | .getDescriptorString _ => true
  | .getDescriptorClassOrUnknown => true
  | .setConfigurationZero => true
  | .setConfigurationNonzero c' => c' != 0
  | .bomsr => true
  | .getMaxLun => true
  | .mscClassOther => true
  | .cdcSetLineCoding => true
  | .cdcGetLineCoding => true
  | .cdcSetControlLineState _ _ => true
  | .cdcSendEncapsulatedCommand => true
  | .cdcGetEncapsulatedResponse => true
  | .hidGetReport _ _ => true
  | .hidSetReport _ _ => true
  | .hidGetIdle _ => true
  | .hidSetIdle _ _ => true
  | .hidGetProtocol => true
  | .hidSetProtocol => true
  | .hookClassRequest => true
  | .hookGetClassDescriptor => true
  | .hookInit => true
  | .hookTasks ep dir par n => bdOk c ep dir par && ep != 0 && countOk n
  | .hookClearHalt _ ep _ => epOk c ep && ep != 0
  | .hookSetInterface _ _ => true
  | .hookGetInterface _ => true
  | .hookOutControlFinished => true
  | .hookInterfaceEndpoints _ => true
  | .reclaim ep dir par => bdOk c ep dir par
  | .armOut ep par _ n => bdOk c ep .out par && countOk n
  | .armIn ep par _ n => bdOk c ep .inp par && countOk n
  | .stall ep dir par => bdOk c ep dir par
  | .armStatusIn => true
  | .rearmOut ep par _ n => bdOk c ep .out par && countOk n
  | .rearmIn ep par _ n => bdOk c ep .inp par && countOk n
  | .stallEp ep _ => epOk c ep
  | .requestError => true
  | .unstallEp ep _ => epOk c ep
  | .noteCompletion ep dir par => bdOk c ep dir par
  | .ppReset => true
  | .ep0ArmSetup => true
  | .ep0ArmStatusOut => true
  | .ep0ArmDataOut => true
  | .ep0SendIn n => n ≤ c.ep0Max.bytes
  | .bulkArmOut n => n ≤ c.bulkMax
  | .bulkArmIn n => n ≤ c.bulkMax
  | .msdTasks => true
  | .botEnqueue ep dir par n => bdOk c ep dir par && countOk n
  | .botCbwReceived par n => bdOk c c.bulkOutEp .out par && countOk n
  | .botDataOutChunk par n => bdOk c c.bulkOutEp .out par && countOk n
  | .botDataInNext => true
  | .botDataInEnd => true
  | .botCswSent => true
  | .botStaleEntry => true
  | .cbwValid w => w.cb.length == 16
  | .cbwInvalid => true
  | .arbitrate _ _ _ => true
  | .botCase1 => true
  | .botCase2 => true
  | .botCase3 => true
  | .botCase4 => true
  | .botCase5 d src => 0 < d.toNat && d.toNat + 1 < 2 ^ 32 && src != .zeros
  | .botCase6 d src => 0 < d.toNat && src != .zeros
  | .botCase7 src => src != .zeros
  | .botCase8 => true
  | .botCase9 => true
  | .botCase10 => true
  | .botCase11 d => 0 < d.toNat && d.toNat + 1 < 2 ^ 32
  | .botCase12 d => 0 < d.toNat
  | .botCase13 => true
  | .startIn _ total _ => 0 < total.toNat
  | .startOut total _ => 0 < total.toNat
  | .stallAndWait _ => true
  | .sendInChunk => true
  | .endOfDataIn => true
  | .dataOutChunk par n => bdOk c c.bulkOutEp .out par && countOk n
  | .sendCsw => true
  | .cswComplete => true
  | .failCommand _ _ _ _ => true
  | .phaseFail => true
  | .botClearHalt _ ep _ => epOk c ep && ep != 0
  | .botInit => true
  | .cswWrapper => true
  | .testUnitReady => true
  | .requestSense _ => true
  | .inquiry => true
  | .modeSense6 => true
  | .readCapacity10 _ _ => true
  | .read10 _ _ => true
  | .write10 _ _ => c.writeEnabled
  | .scsiUnknownOpcode => true
  | .scsiDispatch => true
  | .respond bytes d => bytes.length == d && d ≤ 36
  | .senseOnComplete => true
  | .rwParse => true
  | .pseudoClearHalt _ => true
  | .pseudoSetHalt _ => true
  | .bomsrSeq => true
  | .setAddressSeq _ => true
  | .setConfigSeq _ => true
  | .cbwSeq _ _ _ cdb => cdb.length ≤ 16

end Instr

end Sys2Proof
end

