-- ==== Sys2Proof/Decode.lean ====
section
/-! DEFINITION. Decoding: from the word that each format of the operation table matches on (30 R146, R148) to an
operation; and the encoder. -/

namespace Sys2Proof

open Machine

/-- The word that a format of the operation table matches on (30 R148). -/
inductive OpWord where
  /-- The bus-event interrupt line (60 R400). -/
  | irq
  /-- The event flags (format EVENT). -/
  | event (e : Events)
  /-- `(ep, dir, parity, PID, stage, count)` of a completion (format TRN). -/
  | trn (ep : Ep) (dir : Dir) (par : Parity) (pid : BitVec 4) (stage : Stage) (n : Nat)
  /-- The bytes of a SETUP packet (format SETUP16 and its operands). -/
  | setup (b : List Byte)
  /-- `wValue` of a GET_DESCRIPTOR (format GETDESC8 and its index operand). -/
  | getDesc (dtype didx : Byte)
  /-- `wValue[7:0]` of a SET_CONFIGURATION (format SETCFG8). -/
  | setCfg (c : Byte)
  /-- The bytes of a class request and the function that is bound (format CLASS16). -/
  | classReq (f : FunctionKind) (b : List Byte)
  /-- A status byte that an arming operation writes, and its operands (format BDSTAT). -/
  | bdStat (b : Byte) (ep : Ep) (dir : Dir) (par : Parity) (n : Nat)
  /-- `(bot_state, direction)` of a bulk completion, its parity and count (format BOTSTEP). -/
  | botStep (st : BotState) (dir : Dir) (par : Parity) (n : Nat)
  /-- The length and the bytes (at most 31) of a packet received in state CBW (format CBW32). -/
  | cbw (n : Nat) (b : List Byte)
  /-- A command block (format CDB8 and its operands). -/
  | cdb (b : List Byte)
  /-- The cell of the 13-case matrix: device expectation, D, H, host direction (1 = IN), data source (format BOT13). -/
  | bot13 (e : Expect) (d h : Word) (hostIn : Bool) (src : Src)
  deriving DecidableEq, Repr

/-- The service order of the event flags (60 R401). -/
def decodeEvent (e : Events) : Option Instr :=
  if e.detach then some .detach
  else if e.attach then some .attach
  else if e.activity then some .activity
  else if e.reset then some .reset
  else if e.idle then some .idle
  else if e.sof then some .sof
  else if e.error then some .error
  else if e.trn then some .trn
  else none

/-- Levels 2 and 3 of the decode order (30 R146, 41 R191, R192). -/
def decodeTrn (numEp : Nat) (ep : Ep) (dir : Dir) (par : Parity) (pid : BitVec 4) (stage : Stage) (n : Nat) : Instr :=
  if numEp ≤ ep.toNat then .epOutOfRange ep
  else if ep ≠ 0 then .epnCompletion ep dir par n
  else
    match dir with
    | .out =>
      if pid = pidSetup then .ep0Setup par
      else
        match stage with
        | .dataOut => .ep0OutData par n
        | .statusOut => .ep0OutStatus
        | .dataIn => .ep0OutEarlyStatus
        | .setup => .ep0OutStray
        | .statusIn => .ep0OutStray
    | .inp =>
      match stage with
      | .dataIn => .ep0InData
      | .statusIn => .ep0InStatus
      | .setup => .ep0InStray
      | .dataOut => .ep0InStray
      | .statusOut => .ep0InStray

/-- A request of type STANDARD (30 R112 to R115, 42 R230). -/
def decodeStandard (b : List Byte) : Instr :=
  match (bRequest b).toNat with
  | 0 =>
    match (recipient b).toNat with
    | 0 => .getStatusDevice
    | 1 => .getStatusInterface (loByte (wIndex b))
    | 2 => .getStatusEndpoint (indexEp b) (indexDir b)
    | _ => .getStatusOther
  | 1 =>
    match (recipient b).toNat with
    | 0 => .clearFeatureDevice (wValue b)
    | 2 => .clearFeatureEndpoint (wValue b) (indexEp b) (indexDir b)
    | _ => .clearFeatureOther
  | 2 => .reservedRequest2
  | 3 =>
    match (recipient b).toNat with
    | 0 => .setFeatureDevice (wValue b)
    | 2 => .setFeatureEndpoint (wValue b) (indexEp b) (indexDir b)
    | _ => .setFeatureOther
  | 4 => .reservedRequest4
  | 5 => .setAddress ((wValue b).extractLsb' 0 7)
  | 6 => .getDescriptor (hiByte (wValue b)) (loByte (wValue b))
  | 7 => .setDescriptor
  | 8 => .getConfiguration
  | 9 => .setConfiguration (loByte (wValue b))
  | 10 => .getInterface (loByte (wIndex b))
  | 11 => .setInterface (loByte (wValue b)) (loByte (wIndex b))
  | 12 => .syncFrame
  | _ => .reservedRequest13To255 (bRequest b)

/-- A SETUP packet: eight bytes exactly (30 R110, 41 R195). -/
def decodeSetup (b : List Byte) : Option Instr :=
  if b.length = 8 then
    match (reqType b).toNat with
    | 0 => some (decodeStandard b)
    | 1 => some .classRequest
    | 2 => some .vendorRequest
    | _ => some .reservedTypeRequest
  else none

/-- The second level of GET_DESCRIPTOR (42 R241). -/
def decodeGetDesc (dtype didx : Byte) : Instr :=
  match dtype.toNat with
  | 1 => .getDescriptorDevice
  | 2 => .getDescriptorConfiguration didx
  | 3 => .getDescriptorString didx
  | _ => .getDescriptorClassOrUnknown

/-- The second level of SET_CONFIGURATION (42 R248, R249). -/
def decodeSetCfg (c : Byte) : Instr :=
  if c = 0 then .setConfigurationZero else .setConfigurationNonzero c

/-- A class request as the bound function reads it (30 R130, R148, 46 R371, R375); none where the function has no row. -/
def decodeClass (hid : HidConfig) (f : FunctionKind) (b : List Byte) : Option Instr :=
  match f with
  | .msc =>
    some (if bRequest b = 0xFF then .bomsr else if bRequest b = 0xFE then .getMaxLun else .mscClassOther)
  | .cdc =>
    match (bRequest b).toNat with
    | 0x20 => some .cdcSetLineCoding
    | 0x21 => some .cdcGetLineCoding
    | 0x22 => some (.cdcSetControlLineState ((wValue b).getLsbD 0) ((wValue b).getLsbD 1))
    | 0x00 => some .cdcSendEncapsulatedCommand
    | 0x01 => some .cdcGetEncapsulatedResponse
    | _ => none
  | .hid =>
    if bRequest b = hid.getReport then some (.hidGetReport (hiByte (wValue b)) (loByte (wValue b)))
    else if bRequest b = hid.setReport then some (.hidSetReport (hiByte (wValue b)) (loByte (wValue b)))
    else if bRequest b = hid.getIdle then some (.hidGetIdle (loByte (wValue b)))
    else if bRequest b = hid.setIdle then some (.hidSetIdle (hiByte (wValue b)) (loByte (wValue b)))
    else if bRequest b = hid.getProtocol then some .hidGetProtocol
    else if bRequest b = hid.setProtocol then some .hidSetProtocol
    else none
  | .user => none

/-- A status byte that an arming operation writes (30 R122); any other byte is written by none. -/
def decodeBdStat (b : Byte) (ep : Ep) (dir : Dir) (par : Parity) (n : Nat) : Option Instr :=
  if b = 0x00 then some (.reclaim ep dir par)
  else if b = 0x84 then some (.stall ep dir par)
  else if b = 0x88 ∨ b = 0xC8 then
    match dir with
    | .out => some (.armOut ep par (b.getLsbD 6) n)
    | .inp => some (.armIn ep par (b.getLsbD 6) n)
  else none

/-- `bot_step` (44 R295). -/
def decodeBotStep (st : BotState) (dir : Dir) (par : Parity) (n : Nat) : Instr :=
  match st, dir with
  | .cbw, .out => .botCbwReceived par n
  | .writeData, .out => .botDataOutChunk par n
  | .readData, .inp => .botDataInNext
  | .readFinished, .inp => .botDataInEnd
  | .dataSent, .inp => .botDataInEnd
  | .csw, .inp => .botCswSent
  | .cbw, .inp => .botStaleEntry
  | .noDataStage, .out => .botStaleEntry
  | .noDataStage, .inp => .botStaleEntry
  | .readData, .out => .botStaleEntry
  | .writeData, .inp => .botStaleEntry
  | .readFinished, .out => .botStaleEntry
  | .dataSent, .out => .botStaleEntry
  | .csw, .out => .botStaleEntry
  | .waitIllegal, .out => .botStaleEntry
  | .waitIllegal, .inp => .botStaleEntry
  | .waitInvalid, .out => .botStaleEntry
  | .waitInvalid, .inp => .botStaleEntry

/-- `dCBWSignature` (30 R135). -/
def cbwSignature : Word := 0x43425355

/-- The fields of a CBW behind its signature (30 R135). -/
def cbwFields (b : List Byte) : Cbw where
  tag := wordAt b 4
  h := wordAt b 8
  flags := byteAt b 12
  lun := byteAt b 13
  cbLength := byteAt b 14
  cb := (List.range 16).map (fun i => byteAt b (15 + i))

/-- The 31 bytes of a CBW (30 R135). -/
def cbwBytes (c : Cbw) : List Byte :=
  le32Bytes cbwSignature ++ le32Bytes c.tag ++ le32Bytes c.h ++ [c.flags, c.lun, c.cbLength] ++ fit 16 c.cb

/-- The CBW validator: length exactly 31 and the signature, nothing else (44 R296). -/
def decodeCbw (n : Nat) (b : List Byte) : Instr :=
  if n = 31 ∧ wordAt b 0 = cbwSignature then .cbwValid (cbwFields b) else .cbwInvalid

/-- The SCSI opcode map (30 R137, R138, 45 R340): `op` selects, the operands are fields of the command block. -/
def decodeCdb (writeEnabled : Bool) (op : Byte) (b : List Byte) : Instr :=
  match op.toNat with
  | 0x00 => .testUnitReady
  | 0x03 => .requestSense (byteAt b 4)
  | 0x12 => .inquiry
  | 0x1A => .modeSense6
  | 0x25 => .readCapacity10 (beWordAt b 2) ((byteAt b 8).getLsbD 0)
  | 0x28 => .read10 (beWordAt b 2) (beHalfAt b 7)
  | 0x2A => if writeEnabled then .write10 (beWordAt b 2) (beHalfAt b 7) else .scsiUnknownOpcode
  | _ => .scsiUnknownOpcode

/-- The cell of the 13-case matrix, a command of length 0 being `Dn` (44 R299). -/
def decodeCase (e : Expect) (d h : Word) (hostIn : Bool) (src : Src) : Instr :=
  match (if d = 0 then Expect.dn else e) with
  | .dn => if h = 0 then .botCase1 else if hostIn then .botCase4 else .botCase9
  | .di =>
    if h = 0 then .botCase2
    else if hostIn then
      if d < h then .botCase5 d src else if d = h then .botCase6 d src else .botCase7 src
    else .botCase10
  | .dO =>
    if h = 0 then .botCase3
    else if hostIn then .botCase8
    else if d < h then .botCase11 d
    else if d = h then .botCase12 d
    else .botCase13

/-- The decoder: every word of every format; none is a word of no operation. -/
def decode (c : Config) : OpWord → Option Instr
  | .irq => some .isr
  | .event e => decodeEvent e
  | .trn ep dir par pid stage n => some (decodeTrn c.numEp ep dir par pid stage n)
  | .setup b => decodeSetup b
  | .getDesc dtype didx => some (decodeGetDesc dtype didx)
  | .setCfg v => some (decodeSetCfg v)
  | .classReq f b => decodeClass c.hid f b
  | .bdStat b ep dir par n => decodeBdStat b ep dir par n
  | .botStep st dir par n => some (decodeBotStep st dir par n)
  | .cbw n b => some (decodeCbw n b)
  | .cdb b => some (decodeCdb c.writeEnabled (byteAt b 0) b)
  | .bot13 e d h hostIn src => some (decodeCase e d h hostIn src)

/-! The encoder. -/

/-- No event flag. -/
def noEvents : Events := ⟨false, false, false, false, false, false, false, false⟩

/-- The eight bytes of a SETUP packet (30 R110). -/
def setupBytes (reqType req : Byte) (value index length : Half) : List Byte :=
  [reqType, req, loByte value, hiByte value, loByte index, hiByte index, loByte length, hiByte length]

/-- `wIndex` that names an endpoint direction (30 R115). -/
def endpointIndex (ep : Ep) (dir : Dir) : Half := (epAddress ep dir).setWidth 16

/-- A 16-bit operand from its two bytes. -/
def halfOf (hi lo : Byte) : Half := hi ++ lo

/-- A SETUP packet with zero `wLength`. -/
def request (reqType req : Byte) (value index : Half) : Option OpWord :=
  some (.setup (setupBytes reqType req value index 0))

/-- A class SETUP packet with zero `wIndex` and `wLength`, for the named function. -/
def classWord (f : FunctionKind) (reqType req : Byte) (value : Half) : Option OpWord :=
  some (.classReq f (setupBytes reqType req value 0 0))

/-- A six-byte command block (30 R137). -/
def cdb6 (op alloc : Byte) : Option OpWord := some (.cdb [op, 0, 0, 0, alloc, 0])

/-- A ten-byte command block (30 R137). -/
def cdb10 (op : Byte) (lba : Word) (b7 b8 : Byte) : Option OpWord :=
  some (.cdb ([op, 0] ++ be32Bytes lba ++ [0, b7, b8, 0]))

/-- The word of an operation in its format, its ignored fields zero; none for the operations that the table calls
internal and for the trace-script pseudo-operations (30 R148). -/
def encode (c : Config) : Instr → Option OpWord
  | .isr => some .irq
  | .attach => some (.event { noEvents with attach := true })
  | .detach => some (.event { noEvents with detach := true })
  | .reset => some (.event { noEvents with reset := true })
  | .idle => some (.event { noEvents with idle := true })
  | .activity => some (.event { noEvents with activity := true })
  | .sof => some (.event { noEvents with sof := true })
  | .error => some (.event { noEvents with error := true })
  | .trn => some (.event { noEvents with trn := true })
  | .powerOnInit => none
  | .ep0Setup par => some (.trn 0 .out par pidSetup .setup 8)
  | .ep0OutData par n => some (.trn 0 .out par pidOut .dataOut n)
  | .ep0OutStatus => some (.trn 0 .out .even pidOut .statusOut 0)
  | .ep0OutEarlyStatus => some (.trn 0 .out .even pidOut .dataIn 0)
  | .ep0OutStray => some (.trn 0 .out .even pidOut .setup 0)
  | .ep0InData => some (.trn 0 .inp .even pidIn .dataIn 0)
  | .ep0InStatus => some (.trn 0 .inp .even pidIn .statusIn 0)
  | .ep0InStray => some (.trn 0 .inp .even pidIn .setup 0)
  | .epnCompletion ep dir par n => some (.trn ep dir par pidOut .setup n)
  | .epOutOfRange ep => some (.trn ep .out .even pidOut .setup 0)
  | .ep0Dispatch _ _ _ _ => none
  | .typeDispatch => none
  | .classDispatch => none
  | .standardDispatch => none
  | .startDataIn _ _ _ => none
  | .dataInNext => none
  | .startDataOut _ _ => none
  | .dataOutStep _ _ => none
  | .statusComplete => none
  | .vendorRequest => request 0x40 0 0 0
  | .reservedTypeRequest => request 0x60 0 0 0
  | .getStatusDevice => request 0x80 0 0 0
  | .getStatusInterface iface => request 0x81 0 0 (halfOf 0 iface)
  | .getStatusEndpoint ep dir => request 0x82 0 0 (endpointIndex ep dir)
  | .getStatusOther => request 0x83 0 0 0
  | .clearFeatureDevice sel => request 0x00 1 sel 0
  | .clearFeatureEndpoint sel ep dir => request 0x02 1 sel (endpointIndex ep dir)
  | .clearFeatureOther => request 0x01 1 0 0
  | .reservedRequest2 => request 0x80 2 0 0
  | .setFeatureDevice sel => request 0x00 3 sel 0
  | .setFeatureEndpoint sel ep dir => request 0x02 3 sel (endpointIndex ep dir)
  | .setFeatureOther => request 0x01 3 0 0
  | .reservedRequest4 => request 0x80 4 0 0
  | .setAddress a => request 0x00 5 (a.setWidth 16) 0
  | .getDescriptor dtype didx => request 0x80 6 (halfOf dtype didx) 0
  | .setDescriptor => request 0x00 7 0 0
  | .getConfiguration => request 0x80 8 0 0
  | .setConfiguration v => request 0x00 9 (halfOf 0 v) 0
  | .getInterface iface => request 0x81 10 0 (halfOf 0 iface)
  | .setInterface alt iface => request 0x01 11 (halfOf 0 alt) (halfOf 0 iface)
  | .syncFrame => request 0x82 12 0 0
  | .reservedRequest13To255 code => request 0x80 code 0 0
  | .classRequest => request 0x21 0 0 0
  | .getDescriptorDevice => some (.getDesc 1 0)
  | .getDescriptorConfiguration didx => some (.getDesc 2 didx)
  | .getDescriptorString didx => some (.getDesc 3 didx)
  | .getDescriptorClassOrUnknown => some (.getDesc 0 0)
  | .setConfigurationZero => some (.setCfg 0)
  | .setConfigurationNonzero v => some (.setCfg v)
  | .bomsr => classWord .msc 0x21 0xFF 0
  | .getMaxLun => classWord .msc 0xA1 0xFE 0
  | .mscClassOther => classWord .msc 0x21 0 0
  | .cdcSetLineCoding => classWord .cdc 0x21 0x20 0
  | .cdcGetLineCoding => classWord .cdc 0xA1 0x21 0
  | .cdcSetControlLineState dtr rts =>
    classWord .cdc 0x21 0x22 (halfOf 0 ((BitVec.ofBool rts ++ BitVec.ofBool dtr).setWidth 8))
  | .cdcSendEncapsulatedCommand => classWord .cdc 0x21 0x00 0
  | .cdcGetEncapsulatedResponse => classWord .cdc 0xA1 0x01 0
  | .hidGetReport rtype rid => classWord .hid 0xA1 c.hid.getReport (halfOf rtype rid)
  | .hidSetReport rtype rid => classWord .hid 0x21 c.hid.setReport (halfOf rtype rid)
  | .hidGetIdle rid => classWord .hid 0xA1 c.hid.getIdle (halfOf 0 rid)
  | .hidSetIdle duration rid => classWord .hid 0x21 c.hid.setIdle (halfOf duration rid)
  | .hidGetProtocol => classWord .hid 0xA1 c.hid.getProtocol 0
  | .hidSetProtocol => classWord .hid 0x21 c.hid.setProtocol 0
  | .hookClassRequest => none
  | .hookGetClassDescriptor => none
  | .hookInit => none
  | .hookTasks _ _ _ _ => none
  | .hookClearHalt _ _ _ => none
  | .hookSetInterface _ _ => none
  | .hookGetInterface _ => none
  | .hookOutControlFinished => none
  | .hookInterfaceEndpoints _ => none
  | .reclaim ep dir par => some (.bdStat 0x00 ep dir par 0)
  | .armOut ep par tog n => some (.bdStat (if tog then 0xC8 else 0x88) ep .out par n)
  | .armIn ep par tog n => some (.bdStat (if tog then 0xC8 else 0x88) ep .inp par n)
  | .stall ep dir par => some (.bdStat 0x84 ep dir par 0)
  | .armStatusIn => none
  | .rearmOut _ _ _ _ => none
  | .rearmIn _ _ _ _ => none
  | .stallEp _ _ => none
  | .requestError => none
  | .unstallEp _ _ => none
  | .noteCompletion _ _ _ => none
  | .ppReset => none
  | .ep0ArmSetup => none
  | .ep0ArmStatusOut => none
  | .ep0ArmDataOut => none
  | .ep0SendIn _ => none
  | .bulkArmOut _ => none
  | .bulkArmIn _ => none
  | .msdTasks => none
  | .botEnqueue _ _ _ _ => none
  | .botCbwReceived par n => some (.botStep .cbw .out par n)
  | .botDataOutChunk par n => some (.botStep .writeData .out par n)
  | .botDataInNext => some (.botStep .readData .inp .even 0)
  | .botDataInEnd => some (.botStep .dataSent .inp .even 0)
  | .botCswSent => some (.botStep .csw .inp .even 0)
  | .botStaleEntry => some (.botStep .waitInvalid .out .even 0)
  | .cbwValid w => some (.cbw 31 (cbwBytes w))
  | .cbwInvalid => some (.cbw 0 [])
  | .arbitrate _ _ _ => none
  | .botCase1 => some (.bot13 .dn 0 0 false .resp)
  | .botCase2 => some (.bot13 .di 1 0 true .resp)
  | .botCase3 => some (.bot13 .dO 1 0 false .resp)
  | .botCase4 => some (.bot13 .dn 0 1 true .resp)
  | .botCase5 d src => some (.bot13 .di d (d + 1) true src)
  | .botCase6 d src => some (.bot13 .di d d true src)
  | .botCase7 src => some (.bot13 .di 2 1 true src)
  | .botCase8 => some (.bot13 .dO 1 1 true .resp)
  | .botCase9 => some (.bot13 .dn 0 1 false .resp)
  | .botCase10 => some (.bot13 .di 1 1 false .resp)
  | .botCase11 d => some (.bot13 .dO d (d + 1) false .resp)
  | .botCase12 d => some (.bot13 .dO d d false .resp)
  | .botCase13 => some (.bot13 .dO 2 1 false .resp)
  | .startIn _ _ _ => none
  | .startOut _ _ => none
  | .stallAndWait _ => none
  | .sendInChunk => none
  | .endOfDataIn => none
  | .dataOutChunk _ _ => none
  | .sendCsw => none
  | .cswComplete => none
  | .failCommand _ _ _ _ => none
  | .phaseFail => none
  | .botClearHalt _ _ _ => none
  | .botInit => none
  | .cswWrapper => none
  | .testUnitReady => cdb6 0x00 0
  | .requestSense alloc => cdb6 0x03 alloc
  | .inquiry => cdb6 0x12 0
  | .modeSense6 => cdb6 0x1A 0
  | .readCapacity10 lba pmi => cdb10 0x25 lba 0 (if pmi then 1 else 0)
  | .read10 lba len => cdb10 0x28 lba (hiByte len) (loByte len)
  | .write10 lba len => cdb10 0x2A lba (hiByte len) (loByte len)
  | .scsiUnknownOpcode => cdb6 0x1E 0
  | .scsiDispatch => none
  | .respond _ _ => none
  | .senseOnComplete => none
  | .rwParse => none
  | .pseudoClearHalt _ => none
  | .pseudoSetHalt _ => none
  | .bomsrSeq => none
  | .setAddressSeq _ => none
  | .setConfigSeq _ => none
  | .cbwSeq _ _ _ _ => none

/-! The table's own words (30 R148), for `decodeTableWord`. -/

/-- Byte `i` of a word whose bit 0 is the least significant bit of its first byte. -/
def tableByte (w i : Nat) : Byte := BitVec.ofNat 8 (w / 256 ^ i)

/-- The SETUP packet of a 16-bit word `LE16(byte0, byte1)`: its other six bytes are zero (30 R148). -/
def tableSetup (w : Nat) : List Byte := [tableByte w 0, tableByte w 1, 0, 0, 0, 0, 0, 0]

/-- The class codes that a row of format CLASS16 gives in bits; any other code stays at the level of SETUP16. -/
def tableClass (b : List Byte) : Instr :=
  match (bRequest b).toNat with
  | 0xFF => .bomsr
  | 0xFE => .getMaxLun
  | 0x20 => .cdcSetLineCoding
  | 0x21 => .cdcGetLineCoding
  | 0x22 => .cdcSetControlLineState ((wValue b).getLsbD 0) ((wValue b).getLsbD 1)
  | 0x01 => .cdcGetEncapsulatedResponse
  | _ => .classRequest

/-- A 16-bit word of the formats SETUP16 and CLASS16. -/
def tableWord16 (w : Nat) : Option Instr :=
  match decodeSetup (tableSetup w) with
  | some .classRequest => some (tableClass (tableSetup w))
  | r => r

/-- An 8-bit word. The formats GETDESC8, SETCFG8, BDSTAT and CDB8 share the byte values: a SCSI opcode of the table is
tried first, then a descriptor type, then a status byte (of endpoint 1, EVEN), then the unknown opcode (log 9). -/
def tableWord8 (w : Nat) : Option Instr :=
  match decodeCdb true (tableByte w 0) [tableByte w 0] with
  | .scsiUnknownOpcode =>
    match decodeGetDesc (tableByte w 0) 0 with
    | .getDescriptorClassOrUnknown =>
      match decodeBdStat (tableByte w 0) 1 .out .even 0 with
      | some i => some i
      | none => some .scsiUnknownOpcode
    | i => some i
  | i => some i

/-- A 32-bit word: the first four bytes of a 31-byte packet received in state CBW (30 R148). -/
def tableWord32 (w : Nat) : Option Instr :=
  some (decodeCbw 31 (fit 31 [tableByte w 0, tableByte w 1, tableByte w 2, tableByte w 3]))

/-- The instruction read from an instruction whose bits are `w`, numbered as the operation table numbers them. The
row READ_CAPACITY_10 has nine bits there (its opcode and one bit of the reader's), hence the 16-bit words 0x025 and
0x125 (log 9). -/
def decodeTableWord (nbits w : Nat) : Option Instr :=
  if nbits = 8 then tableWord8 w
  else if nbits = 16 then
    if w = 0x025 ∨ w = 0x125 then some (decodeCdb true 0x25 [0x25]) else tableWord16 w
  else if nbits = 32 then tableWord32 w
  else none

end Sys2Proof
end

