-- ==== Sys2Proof/Machine/State.lean ====
section
/-! DEFINITION. The state of the machine as plain data (10), the reasons a step can stop, and the state after reset. -/

namespace Sys2Proof.Machine

/-- The Control Transfer State (10 R25); `ctl.scratch` stands in RAM (R27, 42 R231). -/
structure Ctl where
  source : Source
  ptr : Addr
  bytesRemaining : Half
  bytesReceived : Half
  sendShortZlp : Bool
  deriving DecidableEq, Repr, Inhabited

/-- The pending CSW (10 R32). -/
structure Csw where
  tag : Word
  residue : Word
  status : CswStatus
  deriving DecidableEq, Repr, Inhabited

/-- The sense data (10 R33). -/
structure Sense where
  key : BitVec 4
  asc : Byte
  ascq : Byte
  deriving DecidableEq, Repr, Inhabited

/-- The READ/WRITE(10) working set (10 R34). -/
structure Rw where
  startLba : Word
  currentLba : Word
  transferLenBlocks : Half
  transferLenBytes : Word
  cbwDeclaredBytes : Word
  byteOfSector : Nat
  deriving DecidableEq, Repr, Inhabited

/-- An entry of the MSC task ring (10 R51). -/
structure QEntry where
  dir : Dir
  par : Parity
  n : Nat
  deriving DecidableEq, Repr, Inhabited

/-- The BOT registers (10 R21, R35) and the task ring (R51); `bot.lun_byte` stands in RAM (44 R314). -/
structure Bot where
  state : BotState
  /-- `bmCBWFlags[7]` of the current CBW: true is IN. -/
  dir : Bool
  opcode : Byte
  xferRemaining : Word
  src : Src
  resp : List Byte
  respPtr : Nat
  endAction : EndAction
  stalled : Option Dir
  q : List QEntry
  deriving DecidableEq, Repr, Inhabited

/-- `sie.last_trn` (10 R46). -/
structure LastTrn where
  ep : Ep
  dir : Dir
  parity : Parity
  deriving DecidableEq, Repr, Inhabited

/-- The SIE register-equivalents (10 section 4) and its parity pointers (R50). -/
structure Sie where
  address : DevAddr
  pktDisable : Bool
  epCtrl : List EpCtrl
  lastTrn : LastTrn
  enable : Bool
  ptr : List Parity
  deriving DecidableEq, Repr, Inhabited

/-- The lines of a trace script (30 R150), and a change of the backend's two answers (60 R420(5)). A token without an
address is addressed to the device. -/
inductive Line where
  | attach
  | detach
  | reset
  | idle
  | activity
  | sof
  | error
  | setup (addr : Option DevAddr) (bytes : List Byte)
  | out (addr : Option DevAddr) (ep : Ep) (tog : Bool) (bytes : List Byte)
  | inp (addr : Option DevAddr) (ep : Ep) (ack : Bool)
  | media (present protectd : Bool)
  | hostToggle (tog : Bool)
  | drain
  deriving DecidableEq, Repr, Inhabited

/-- What the application of a function outside the block does from the main loop (43 R278, R281, 46 R373, R374, R376). -/
inductive AppCall where
  /-- `send_report(i)` with the report's bytes; no bytes: the contents as they are. -/
  | sendReport (rid : Byte) (bytes : List Byte)
  /-- The poll of `idle_expired` and 'send now', and the `send_report` that follows (46 R376). -/
  | pollReport (rid : Byte)
  /-- 'Send now' set (46 R376). -/
  | requestReport (rid : Byte)
  /-- The application has taken note of the completed reports (46 R376). -/
  | takeSent
  /-- The next chunk handed to the bulk IN endpoint of CDC (46 R373). -/
  | cdcSend (bytes : List Byte)
  /-- The received bytes taken, bulk OUT armed again (46 R373). -/
  | cdcReceive
  /-- What carrier detect and DSR are now (46 R374). -/
  | serialState (dcd dsr : Bool)
  /-- The periodic SERIAL_STATE notification (46 R374). -/
  | serialNotify
  /-- Bytes put into the buffer of a BD of the function's own (40 R163). -/
  | fill (ep : Ep) (dir : Dir) (par : Parity) (bytes : List Byte)
  /-- A main-loop call of the function's own code, whole: its HAL calls and fills, its writes of its own RAM, its new private
  state (43 R278). -/
  | own (calls : List FnCall) (ram : List (Addr × Byte)) (st : Nat)
  deriving DecidableEq, Repr, Inhabited

/-- One turn of an agent (60 R420). -/
inductive Turn where
  /-- A line of a trace script: it waits until every flag is serviced (30 R150). -/
  | line (l : Line)
  /-- The same while flags are still pending: the SIE, the host and the backend move between two engine steps (00 R18). -/
  | early (l : Line)
  /-- The interrupt routine's next flag (60 R401). -/
  | service
  /-- An operation that software outside the engine may start (43 R278, 60 R428, 70 R442). -/
  | call (i : Instr)
  /-- `close()` (60 R428). -/
  | close
  /-- The application of the function (43 R281). -/
  | app (a : AppCall)
  deriving DecidableEq, Repr, Inhabited

/-- The whole state. -/
structure State where
  /-- The configuration record (00 section 4); no step changes it. -/
  cfg : Config
  stage : Stage
  deviceState : DeviceState
  suspendedFrom : DeviceState
  /-- The setup packet store, 8 bytes (R24). -/
  setup : List Byte
  ctl : Ctl
  pendingAddress : DevAddr
  addressPending : Bool
  currentConfiguration : Byte
  remoteWakeup : Bool
  /-- The CBW store, 31 bytes (R31). -/
  cbw : List Byte
  csw : Csw
  sense : Sense
  rw : Rw
  bot : Bot
  /-- `EPS(ep, dir)` at place `epsIndex ep dir` (R36). -/
  eps : List Eps
  sie : Sie
  /-- The eight event flags (R45). -/
  ev : Events
  /-- The buffer descriptors at place `bdIndex` (R49, 20 R80). -/
  bdt : List Bd
  buf : Memory
  ram : Memory
  /-- The backend's bytes: `(lba, offset)` stands at `lba * BLOCK_SIZE + offset` (R48, 20 R99). -/
  media : Memory
  /-- What the backend's two oracles answer now (60 R420(5)). -/
  mediaPresent : Bool
  writeProtected : Bool
  /-- The current OUT toggle of the host on the bulk OUT endpoint (30 R151, log 10). -/
  hostTog : Bool
  /-- What the last hook of the function port returned (00 R17); the model's own field (log 6). -/
  reply : FnReply
  cdc : Cdc
  hid : Hid
  /-- The private state of a function outside the block (43 R280). -/
  fnState : Nat
  /-- The SIE's answer to the last token; the model's own field (log 6). -/
  wire : Answer
  /-- The turns still to come (log 4). -/
  script : List Turn
  /-- How many free values were used; the model's own field (log 7). -/
  free : Nat
  deriving DecidableEq, Repr, Inhabited

/-- Why a step can fault. -/
inductive Fault where
  /-- A fifth entry for the MSC task ring (44 R292, R293, 93 U6: "treat as `fault`"), raised by `botEnqueue` and by the
  operations that reach it (`tasks`, a completion on a bulk endpoint, `trn`, `isr`, the pseudo-operations). Safe: the
  spec gives no behaviour there and asks for a fault. -/
  | ringOverflow
  deriving DecidableEq, Repr

/-- Why a step can be refused. -/
inductive Refusal where
  /-- An operation without a meaning, by its mnemonic. Raised by no arm. Safe. -/
  | notModelled (mnemonic : String)
  deriving DecidableEq, Repr

/-- The outcome of an operation. -/
abbrev Result := Host.Outcome State Fault Refusal

/-- Go on with the next operation unless the machine stopped. -/
def andThen (r : Result) (f : State → Result) : Result :=
  match r with
  | .next s => f s
  | .fault e => .fault e
  | .refused e => .refused e

/-! Reset values of the register groups (10 R25, R31 to R39, R44, R45). -/

/-- `ctl.*` (10 R25). -/
def ctlReset : Ctl := ⟨.rom, 0, 0, 0, false⟩

/-- `csw` (10 R32). -/
def cswReset : Csw := ⟨0, 0, .passed⟩

/-- "No sense" (10 R33). -/
def noSense : Sense := ⟨0, 0, 0⟩

/-- `rw.*` (10 R34). -/
def rwReset : Rw := ⟨0, 0, 0, 0, 0, 0⟩

/-- `bot.*`, `bot_state` and `bot.q` (10 R21, R35, R51). -/
def botReset : Bot := ⟨.cbw, false, 0, 0, .resp, List.replicate 36 0, 0, .sendCsw, none, []⟩

/-- `cbw[0..30]` (10 R31). -/
def cbwReset : List Byte := List.replicate 31 0

/-- `EPS = {toggle 0, halted 0, last_parity ODD}` (10 R37 to R39). -/
def epsReset : Eps := ⟨false, false, .odd⟩

/-- No enable (10 R44). -/
def ctrlOff : EpCtrl := ⟨false, false, false⟩

/-- No flag (10 R45). -/
def evReset : Events := ⟨false, false, false, false, false, false, false, false⟩

/-- A BD at power-on: `status_byte` 0x00, `count` 0 (10 R49); its address is unspecified there, 0 here (log 1). -/
def bdReset : Bd := ⟨statClear, 0, 0⟩

/-- A refused answer of a hook. -/
def refusedReply : FnReply := ⟨false, .noData, 0, []⟩

/-- The CDC function before anything ran (log 1). -/
def cdcReset : Cdc := ⟨false, false, .none, 0, .even, false, false, false⟩

/-- The HID function before anything ran (log 1). -/
def hidReset (c : Config) : Hid :=
  let no := List.replicate c.hid.inSizes.length false
  ⟨List.replicate c.hid.inSizes.length 0, no, no, no, false, none, .none⟩

/-- The machine at power-on (10 section 8, 70 R440), for any configuration. -/
def State.powerOn (c : Config) : State where
  cfg := c
  stage := .setup
  deviceState := .detached
  suspendedFrom := .dflt
  setup := List.replicate 8 0
  ctl := ctlReset
  pendingAddress := 0
  addressPending := false
  currentConfiguration := 0
  remoteWakeup := false
  cbw := cbwReset
  csw := cswReset
  sense := noSense
  rw := rwReset
  bot := botReset
  eps := List.replicate (2 * c.numEp) epsReset
  sie :=
    { address := 0, pktDisable := false, epCtrl := List.replicate c.numEp ctrlOff, lastTrn := ⟨0, .out, .even⟩,
      enable := false, ptr := List.replicate (2 * c.numEp) .even }
  ev := evReset
  bdt := List.replicate (bdtEntries c.ppMode c.numEp) bdReset
  buf := []
  ram := []
  media := []
  mediaPresent := true
  writeProtected := false
  hostTog := false
  reply := refusedReply
  cdc := cdcReset
  hid := hidReset c
  fnState := 0
  wire := .none
  script := []
  free := 0

/-- The machine right after reset: power-on (10 section 8) of test configuration A (log 5). -/
def State.reset : State := State.powerOn Config.configA

end Sys2Proof.Machine
end

