-- ==== Sys2Proof/Machine/Operands.lean ====
section
/-! DEFINITION. How an operation names its operands: buffer descriptors, endpoint status records, descriptors in ROM,
the fields of the setup packet and of the command block. -/

namespace Sys2Proof.Machine

/-- `BD(ep, dir, par)` (00 R17, 20 R80). -/
def State.bd (s : State) (ep : Ep) (dir : Dir) (par : Parity) : Bd :=
  s.bdt.getD (bdIndex s.cfg.ppMode ep dir par) bdReset

/-- `BD(ep, dir, par) <- b`. -/
def State.setBd (s : State) (ep : Ep) (dir : Dir) (par : Parity) (b : Bd) : State :=
  { s with bdt := s.bdt.set (bdIndex s.cfg.ppMode ep dir par) b }

/-- `EPS(ep, dir)` (10 R36). -/
def State.epsAt (s : State) (ep : Ep) (dir : Dir) : Eps := s.eps.getD (epsIndex ep dir) epsReset

/-- `EPS(ep, dir) <- e`. -/
def State.setEps (s : State) (ep : Ep) (dir : Dir) (e : Eps) : State :=
  { s with eps := s.eps.set (epsIndex ep dir) e }

/-- `sie.ep_ctrl[ep]` (10 R44). -/
def State.ctrlAt (s : State) (ep : Ep) : EpCtrl := s.sie.epCtrl.getD ep.toNat ctrlOff

/-- `sie.ep_ctrl[ep] <- c`. -/
def State.setCtrl (s : State) (ep : Ep) (c : EpCtrl) : State :=
  { s with sie := { s.sie with epCtrl := s.sie.epCtrl.set ep.toNat c } }

/-- `sie.ptr(ep, dir)` (10 R50). -/
def State.ptrAt (s : State) (ep : Ep) (dir : Dir) : Parity := s.sie.ptr.getD (epsIndex ep dir) .even

/-- `pp(ep, dir)` of this machine (00 R8). -/
def State.pp (s : State) (ep : Ep) (dir : Dir) : Bool := Machine.pp s.cfg.ppMode ep dir

/-- `next_par(ep, dir)` (00 R17). -/
def State.nextPar (s : State) (ep : Ep) (dir : Dir) : Parity :=
  if s.pp ep dir then (s.epsAt ep dir).lastParity.other else .even

/-- `BUF(ep, dir, par)` (00 R15). -/
def State.bufAddr (s : State) (ep : Ep) (dir : Dir) (par : Parity) : Addr :=
  s.cfg.bufAddrs.getD (bdIndex s.cfg.ppMode ep dir par) 0

/-- `for par in parities(ep, dir)` (00 R17). -/
def forParities (ep : Ep) (dir : Dir) (f : Parity → State → State) (s : State) : State :=
  (parities s.cfg.ppMode ep dir).foldl (fun t par => f par t) s

/-! The descriptor store in ROM (00 R10, 20 R82). DESIGN CHOICE (log 22): the descriptors stand one after another from
`romBase` on, in the order of `rom`. The spec leaves their places to the platform. -/

/-- The bytes of ROM from `romBase` on; the order and the packing are the model's (log 22). -/
def rom (c : Config) : List Byte :=
  c.deviceDesc ++ c.configDescs.flatten ++ c.stringDescs.flatten ++ c.hid.hidDesc ++ c.hid.reportDesc

/-- `&DEVICE_DESC`. -/
def deviceDescPtr (c : Config) : Addr := c.romBase

/-- `&CONFIG_DESC[i]`. -/
def configDescPtr (c : Config) (i : Nat) : Addr :=
  place c.addrW c.romBase (c.deviceDesc.length + (c.configDescs.take i).flatten.length)

/-- `&STRING_DESC[i]`. -/
def stringDescPtr (c : Config) (i : Nat) : Addr :=
  place c.addrW c.romBase
    (c.deviceDesc.length + c.configDescs.flatten.length + (c.stringDescs.take i).flatten.length)

/-- The HID descriptor (46 R375). -/
def hidDescPtr (c : Config) : Addr :=
  place c.addrW c.romBase (c.deviceDesc.length + c.configDescs.flatten.length + c.stringDescs.flatten.length)

/-- The HID report descriptor (46 R375). -/
def reportDescPtr (c : Config) : Addr :=
  place c.addrW c.romBase
    (c.deviceDesc.length + c.configDescs.flatten.length + c.stringDescs.flatten.length + c.hid.hidDesc.length)

/-- How far the address `a` lies after `romBase` in the ring of `2 ^ ADDR_W` addresses. -/
def romOffset (c : Config) (a : Addr) : Nat := (a + (2 ^ c.addrW - c.romBase)) % 2 ^ c.addrW

/-- `n` bytes of ROM. -/
def romBytes (c : Config) (a : Addr) (n : Nat) : List Byte :=
  (List.range n).map (fun i => byteAt (rom c) (romOffset c (place c.addrW a i)))

/-- `MemRead(space, ptr, n)` of a DATA_IN stage (40 R175). -/
def State.fetchBytes (s : State) (src : Source) (a : Addr) (n : Nat) : List Byte :=
  match src with
  | .rom => romBytes s.cfg a n
  | .ram => readBytes s.cfg.addrW s.ram a n

/-! The engine's bytes in RAM (10 R27, R35). -/

/-- `ctl.scratch[0]`. -/
def State.scratch0 (s : State) : Byte := memRead s.ram (place s.cfg.addrW s.cfg.scratch 0)

/-- `ctl.scratch[1]`. -/
def State.scratch1 (s : State) : Byte := memRead s.ram (place s.cfg.addrW s.cfg.scratch 1)

/-- `bot.lun_byte`. -/
def State.lunByte (s : State) : Byte := memRead s.ram (place s.cfg.addrW s.cfg.lunAddr 0)

/-- `ctl.scratch[0 ..] <- bytes`. -/
def State.setScratch (s : State) (b : List Byte) : State :=
  { s with ram := writeBytes s.cfg.addrW s.ram s.cfg.scratch b }

/-! The command (45: `CB[i]`, `H`). -/

/-- `CB[i] = cbw[15 + i]`. -/
def State.cb (s : State) (i : Nat) : Byte := byteAt s.cbw (15 + i)

/-- `H = LE32(cbw[8..11])`. -/
def State.hostLen (s : State) : Word := wordAt s.cbw 8

/-- `hdir`: IN if `bot.dir = 1` (44). -/
def State.hostDir (s : State) : Dir := if s.bot.dir then .inp else .out

/-- The bulk endpoint of a direction (44 R303). -/
def State.bulkEp (s : State) (dir : Dir) : Ep :=
  match dir with
  | .out => s.cfg.bulkOutEp
  | .inp => s.cfg.bulkInEp

end Sys2Proof.Machine
end

