-- ==== Sys2Proof/Machine/Flags.lean ====
section
/-! DEFINITION. The computation of every flag: toggles, halts, parities, the short-packet flag, the event flags, the
sense reset. -/

namespace Sys2Proof.Machine

/-- `EPS(ep, dir).toggle <- v` (10 R37). -/
def setToggle (ep : Ep) (dir : Dir) (v : Bool) (s : State) : State :=
  s.setEps ep dir { s.epsAt ep dir with toggle := v }

/-- `EPS(ep, dir).halted <- v` (10 R38). -/
def setHalted (ep : Ep) (dir : Dir) (v : Bool) (s : State) : State :=
  s.setEps ep dir { s.epsAt ep dir with halted := v }

/-- `EPS(ep, dir).toggle <- 1 - EPS(ep, dir).toggle` (41 R191). -/
def flipToggle (ep : Ep) (dir : Dir) (s : State) : State :=
  setToggle ep dir (!(s.epsAt ep dir).toggle) s

/-- `note_completion(ep, dir, par)` (40 R170). -/
def noteCompletion (ep : Ep) (dir : Dir) (par : Parity) (s : State) : State :=
  if s.pp ep dir then s.setEps ep dir { s.epsAt ep dir with lastParity := par } else s

/-- The toggle that `trn_service` flips: none for a SETUP (41 R191). -/
def completionToggle (ep : Ep) (dir : Dir) (pid : BitVec 4) (s : State) : State :=
  match dir with
  | .inp => flipToggle ep .inp s
  | .out => if pid = pidSetup then s else flipToggle ep .out s

/-- `send_short_zlp` at the start of a DATA_IN stage: `D < W` and `D mod EP0_MAX = 0` (41 R200). -/
def zlpOwed (c : Config) (d w : Nat) : Bool := d < w && d % c.ep0Max.bytes == 0

/-- `sense_on_complete()` (45 R343). -/
def senseOnComplete (s : State) : State :=
  if s.csw.status = .passed then { s with sense := noSense } else s

/-- The bus-event interrupt: the OR of the eight flags (60 R400). -/
def irq (e : Events) : Bool :=
  e.reset || e.idle || e.activity || e.trn || e.sof || e.error || e.attach || e.detach

/-- SIE parity pointer of an endpoint direction (10 R50). -/
def setPtr (ep : Ep) (dir : Dir) (p : Parity) (s : State) : State :=
  { s with sie := { s.sie with ptr := s.sie.ptr.set (epsIndex ep dir) p } }

/-- The SIE flips its pointer after a completed transaction on a ping-ponged direction (20 R89). -/
def flipPtr (ep : Ep) (dir : Dir) (s : State) : State :=
  if s.pp ep dir then setPtr ep dir (s.ptrAt ep dir).other s else s

end Sys2Proof.Machine
end

