-- ==== Sys2Proof/Machine/Ops.lean ====
section
/-! DEFINITION. The named operations over buffer descriptors and registers (40, L0 and L1), the one shared exception
operation `requestError` (60 R391) and the recovery beside it. -/

namespace Sys2Proof.Machine

/-- `reclaim(bd)` (40 R161). -/
def reclaim (ep : Ep) (dir : Dir) (par : Parity) (s : State) : State :=
  s.setBd ep dir par { s.bd ep dir par with stat := statClear }

/-- The three writes of an arm (40 R162, R163). The `count` of a BD that the SIE owns is a free value (70 R445). -/
def armBd (ep : Ep) (dir : Dir) (par : Parity) (tog : Bool) (n : Nat) (s : State) : State :=
  if (s.bd ep dir par).stat.own then
    { s.setBd ep dir par { s.bd ep dir par with stat := statArmed true tog, count := Config.hazardCount s.free } with
      free := s.free + 1 }
  else s.setBd ep dir par { s.bd ep dir par with stat := statArmed true tog, count := BitVec.ofNat 10 n }

/-- `stall(bd)` (40 R165). -/
def stall (ep : Ep) (dir : Dir) (par : Parity) (s : State) : State :=
  s.setBd ep dir par { s.bd ep dir par with stat := statStalled }

/-- `rearm_out`, `rearm_in`: reclaim an owned BD, then arm it (40 R166). -/
def rearm (ep : Ep) (dir : Dir) (par : Parity) (tog : Bool) (n : Nat) (s : State) : State :=
  armBd ep dir par tog n (if (s.bd ep dir par).stat.own then reclaim ep dir par s else s)

/-- `rearm` of the next BD of an endpoint direction, the form every engine arm but `ep0_send_in` has (40 R172 to
R176). -/
def rearmNext (ep : Ep) (dir : Dir) (tog : Bool) (n : Nat) (s : State) : State :=
  rearm ep dir (s.nextPar ep dir) tog n s

/-- `arm_status_in()` (40 R164). -/
def armStatusIn (s : State) : State := rearmNext 0 .inp true 0 s

/-- "ends with STATUS_IN" (41 R196, 42). -/
def statusIn (s : State) : State := { armStatusIn s with stage := .statusIn }

/-- `stall_ep(ep, dir)` (40 R167). -/
def stallEp (ep : Ep) (dir : Dir) (s : State) : State :=
  let t := forParities ep dir (stall ep dir) s
  if ep = 0 then t else setHalted ep dir true t

/-- `request_error()`, the entry of the `RequestError` condition (40 R168, 60 R391). -/
def requestError (s : State) : State := { stallEp 0 .inp s with stage := .setup }

/-- "Cancel any pending EP0 IN", step 2 of the SETUP handler: the return from `RequestError` (41 R194, 60 R391). -/
def cancelEp0In (s : State) : State := forParities 0 .inp (reclaim 0 .inp) s

/-- A stalled BD of the direction is cleared; an armed one stays armed (40 R169). -/
def unstallBd (ep : Ep) (dir : Dir) (par : Parity) (s : State) : State :=
  if (s.bd ep dir par).stat.own && BdStat.stallBit (s.bd ep dir par).stat then reclaim ep dir par s else s

/-- `unstall_ep(ep, dir)` (40 R169). -/
def unstallEp (ep : Ep) (dir : Dir) (s : State) : State :=
  forParities ep dir (unstallBd ep dir) (setToggle ep dir false (setHalted ep dir false s))

/-- The records of the non-zero endpoints changed, those of endpoint 0 kept. -/
def nonzeroEps (f : Eps → Eps) (l : List Eps) : List Eps := l.take 2 ++ (l.drop 2).map f

/-- The pulse `sie.pp_reset`: pointers of the non-zero endpoints become EVEN (10 R42). -/
def pulsePpReset (s : State) : State :=
  { s with sie := { s.sie with ptr := s.sie.ptr.take 2 ++ (s.sie.ptr.drop 2).map (fun _ => .even) } }

/-- `pp_reset()` (40 R171). -/
def ppReset (s : State) : State :=
  { pulsePpReset s with eps := nonzeroEps (fun e => { e with lastParity := .odd }) s.eps }

/-- "Clear all non-zero endpoints" (42 R248). -/
def clearNonzero (s : State) : State :=
  { s with
    sie := { s.sie with epCtrl := s.sie.epCtrl.take 1 ++ (s.sie.epCtrl.drop 1).map (fun _ => ctrlOff) }
    bdt := s.bdt.take (ep0Entries s.cfg.ppMode) ++
      (s.bdt.drop (ep0Entries s.cfg.ppMode)).map (fun b => { b with stat := statClear })
    eps := nonzeroEps (fun e => { e with toggle := false, halted := false }) s.eps }

/-- `ep0_arm_setup()` (40 R172). -/
def ep0ArmSetup (s : State) : State := rearmNext 0 .out false 8 s

/-- `ep0_arm_status_out()` (40 R173). -/
def ep0ArmStatusOut (s : State) : State := rearmNext 0 .out true 8 s

/-- `ep0_arm_data_out()` (40 R174). -/
def ep0ArmDataOut (s : State) : State :=
  rearmNext 0 .out (s.epsAt 0 .out).toggle (min s.cfg.ep0Max.bytes s.ctl.bytesRemaining.toNat) s

/-- Bytes put into BUF at `a`. Where the SIE owns the BD whose buffer that is, they are free values (70 R446, 20 R98). -/
def putBuf (owned : Bool) (a : Addr) (b : List Byte) (s : State) : State :=
  if owned then
    { s with
      buf := writeBytes s.cfg.addrW s.buf a ((List.range b.length).map (Config.hazardByte s.free))
      free := s.free + 1 }
  else { s with buf := writeBytes s.cfg.addrW s.buf a b }

/-- Bytes put where a BD points (40 R163). -/
def fillBuf (ep : Ep) (dir : Dir) (par : Parity) (b : List Byte) (s : State) : State :=
  putBuf (s.bd ep dir par).stat.own (s.bd ep dir par).address b s

/-- A function's bytes put into the buffer of a BD of its own, `BUF(ep, dir, par)` (00 R15, 43 R278). -/
def fillOwn (ep : Ep) (dir : Dir) (par : Parity) (b : List Byte) (s : State) : State :=
  putBuf (s.bd ep dir par).stat.own (s.bufAddr ep dir par) b s

/-- `BD(ep, dir, par).address <- BUF(ep, dir, par)`, one write of it (43 R273, 70 R434). The address of a BD
that the SIE owns is a free value (70 R445). -/
def writeAddress (ep : Ep) (dir : Dir) (par : Parity) (s : State) : State :=
  if (s.bd ep dir par).stat.own then
    { s.setBd ep dir par { s.bd ep dir par with address := place s.cfg.addrW (Config.hazardAddr s.free) 0 } with
      free := s.free + 1 }
  else s.setBd ep dir par { s.bd ep dir par with address := s.bufAddr ep dir par }

/-- The next `n` bytes of the DATA_IN stage put into the next EP0 IN buffer (40 R175). -/
def loadEp0In (n : Nat) (s : State) : State :=
  fillBuf 0 .inp (s.nextPar 0 .inp) (s.fetchBytes s.ctl.source s.ctl.ptr n) s

/-- `ep0_send_in(n)` (40 R175). -/
def ep0SendIn (n : Nat) (s : State) : State :=
  let t := armBd 0 .inp (s.nextPar 0 .inp) (s.epsAt 0 .inp).toggle n (loadEp0In n s)
  { t with
    ctl :=
      { s.ctl with
        ptr := place s.cfg.addrW s.ctl.ptr n
        bytesRemaining := s.ctl.bytesRemaining - BitVec.ofNat 16 n } }

/-- `bulk_arm_out(n)` (40 R176). -/
def bulkArmOut (n : Nat) (s : State) : State :=
  rearmNext s.cfg.bulkOutEp .out (s.epsAt s.cfg.bulkOutEp .out).toggle n s

/-- `bulk_arm_in(n)` (40 R176). -/
def bulkArmIn (n : Nat) (s : State) : State :=
  rearmNext s.cfg.bulkInEp .inp (s.epsAt s.cfg.bulkInEp .inp).toggle n s

/-- Bytes put into the next bulk IN buffer (44 R304, R307). -/
def loadBulkIn (b : List Byte) (s : State) : State :=
  { s with
    buf := writeBytes s.cfg.addrW s.buf (s.bd s.cfg.bulkInEp .inp (s.nextPar s.cfg.bulkInEp .inp)).address b }

/-- `BD(ep, dir, par).address <- BUF(ep, dir, par)` for both parities (43 R273, 70 R434). -/
def setAddresses (ep : Ep) (dir : Dir) (s : State) : State := forParities ep dir (writeAddress ep dir) s

end Sys2Proof.Machine
end

