-- ==== Sys2Proof/Machine/Bot.lean ====
section
/-! DEFINITION. The Bulk-Only Transport engine: arbiter, data streaming, CSW, failure helpers, recovery (44). -/

namespace Sys2Proof.Machine

/-- `bot_state <- b`. -/
def setBotState (b : BotState) (s : State) : State := { s with bot := { s.bot with state := b } }

/-- `csw.residue <- r`. -/
def setResidue (r : Word) (s : State) : State := { s with csw := { s.csw with residue := r } }

/-- `csw.status <- c`. -/
def setStatus (c : CswStatus) (s : State) : State := { s with csw := { s.csw with status := c } }

/-- `stall_and_wait(d)` (44 R303). -/
def stallAndWait (dir : Dir) (s : State) : State :=
  let t := stallEp (s.bulkEp dir) dir s
  { t with bot := { t.bot with stalled := some dir, state := .waitIllegal } }

/-! The CSW. -/

/-- The 13 bytes of the CSW (30 R136). -/
def cswBytes (c : Csw) : List Byte :=
  [0x55, 0x53, 0x42, 0x53] ++ le32Bytes c.tag ++ le32Bytes c.residue ++ [c.status.code]

/-- The wrapper put into the next bulk IN buffer (44 R307). -/
def loadCsw (s : State) : State := loadBulkIn (cswBytes s.csw) s

/-- `send_csw()` (44 R307). -/
def sendCsw (s : State) : State := setBotState .csw (bulkArmIn 13 (loadCsw (senseOnComplete s)))

/-- `bot_state <- NO_DATA_STAGE; send_csw()` (44 R300, R309). -/
def noDataCsw (s : State) : State := sendCsw (setBotState .noDataStage s)

/-- `csw_complete()` (44 R308). -/
def cswComplete (s : State) : State := setBotState .cbw (bulkArmOut s.cfg.bulkMax s)

/-! Data in. -/

/-- The place of `(current_lba, byte_of_sector)` in MEDIA (20 R99). -/
def mediaKey (s : State) : Nat := s.rw.currentLba.toNat * s.cfg.blockSize + s.rw.byteOfSector

/-- `read_sector_chunk`: with the media absent its bytes are free values (70 R460). -/
def readChunk (n : Nat) (s : State) : List Byte :=
  if s.mediaPresent then bytesFrom s.media (mediaKey s) n else (List.range n).map (Config.absentMediaByte s.free)

/-- `byte_of_sector` and `current_lba` moved on by a chunk (44 R304, R306). -/
def advanceRw (blockSize n : Nat) (r : Rw) : Rw :=
  if r.byteOfSector + n = blockSize then { r with currentLba := r.currentLba + 1, byteOfSector := 0 }
  else { r with byteOfSector := r.byteOfSector + n }

/-- The size of the next IN packet (44 R304). -/
def inChunk (s : State) : Nat :=
  let n := min s.cfg.bulkMax s.bot.xferRemaining.toNat
  match s.bot.src with
  | .backend => min n (s.cfg.blockSize - s.rw.byteOfSector)
  | .resp => n
  | .zeros => n

/-- The bytes of the next IN packet, taken from `bot.src` and put into the buffer (44 R304). -/
def loadChunk (n : Nat) (s : State) : State :=
  match s.bot.src with
  | .resp =>
    let t := loadBulkIn ((List.range n).map (fun i => byteAt s.bot.resp (s.bot.respPtr + i))) s
    { t with bot := { s.bot with respPtr := s.bot.respPtr + n } }
  | .zeros => loadBulkIn (List.replicate n 0) s
  | .backend =>
    let t := loadBulkIn (readChunk n s) s
    { t with
      rw := advanceRw s.cfg.blockSize n s.rw
      free := if s.mediaPresent then s.free else s.free + 1 }

/-- `bot.xfer_remaining` and `rw.cbw_declared_bytes` less a chunk (44 R304, R306). -/
def countDown (n : Nat) (s : State) : State :=
  { s with
    bot := { s.bot with xferRemaining := s.bot.xferRemaining - BitVec.ofNat 32 n }
    rw := { s.rw with cbwDeclaredBytes := s.rw.cbwDeclaredBytes - BitVec.ofNat 32 n } }

/-- The state after an IN packet was armed (44 R304). -/
def inState (s : State) : BotState :=
  if s.bot.xferRemaining ≠ 0 then .readData
  else
    match s.bot.src with
    | .backend => .readFinished
    | .resp => .dataSent
    | .zeros => .dataSent

/-- `send_in_chunk()` (44 R304). -/
def sendInChunk (s : State) : State :=
  let n := inChunk s
  let t := countDown n (bulkArmIn n (loadChunk n s))
  setBotState (inState t) t

/-- `start_in(s, total, act)` (44 R301). -/
def startIn (src : Src) (total : Word) (act : EndAction) (s : State) : State :=
  sendInChunk { s with bot := { s.bot with src := src, xferRemaining := total, endAction := act, respPtr := 0 } }

/-- `end_of_data_in()` (44 R305). -/
def endOfDataIn (s : State) : State :=
  match s.bot.endAction with
  | .stallThenCsw => stallAndWait .inp s
  | .sendCsw => sendCsw s

/-! Data out. -/

/-- `out_count()` (44 R302). -/
def outCount (s : State) : Nat :=
  min (min s.cfg.bulkMax s.bot.xferRemaining.toNat) (s.cfg.blockSize - s.rw.byteOfSector)

/-- `start_out(total, act)` (44 R302). -/
def startOut (total : Word) (act : EndAction) (s : State) : State :=
  let t := { s with bot := { s.bot with xferRemaining := total, endAction := act } }
  setBotState .writeData (bulkArmOut (outCount t) t)

/-- `write_sector_chunk`: whether bytes land on absent or protected media is a free value (70 R460). -/
def writeChunk (b : List Byte) (s : State) : State :=
  if s.mediaPresent && !s.writeProtected then { s with media := putFrom s.media (mediaKey s) b }
  else
    { s with
      media := if Config.blockedWriteLands s.free then putFrom s.media (mediaKey s) b else s.media
      free := s.free + 1 }

/-- The received bytes given to the backend (44 R306). -/
def storeChunk (par : Parity) (n : Nat) (s : State) : State :=
  if n = 0 then s
  else
    let t := writeChunk (readBytes s.cfg.addrW s.buf (s.bd s.cfg.bulkOutEp .out par).address n) s
    { t with rw := advanceRw s.cfg.blockSize n s.rw }

/-- `data_out_chunk(e)` (44 R306). -/
def dataOutChunk (par : Parity) (n : Nat) (s : State) : State :=
  let t := countDown n (storeChunk par n s)
  if t.bot.xferRemaining = 0 then
    match t.bot.endAction with
    | .stallThenCsw => stallAndWait .out t
    | .sendCsw => sendCsw t
  else bulkArmOut (outCount t) t

/-! The thirteen cases (44 R300). -/

/-- Case 1. -/
def case1 (s : State) : State := noDataCsw (setResidue 0 s)

/-- Case 2. -/
def case2 (s : State) : State := noDataCsw (setResidue s.hostLen (setStatus .phaseError s))

/-- Case 3. -/
def case3 (s : State) : State := noDataCsw (setResidue s.hostLen (setStatus .phaseError s))

/-- Case 4. -/
def case4 (s : State) : State := startIn .zeros s.hostLen .sendCsw (setResidue s.hostLen s)

/-- Case 5. -/
def case5 (d : Word) (src : Src) (s : State) : State := startIn src d .stallThenCsw (setResidue (s.hostLen - d) s)

/-- Case 6. -/
def case6 (d : Word) (src : Src) (s : State) : State := startIn src d .sendCsw (setResidue 0 s)

/-- Case 7. -/
def case7 (src : Src) (s : State) : State :=
  startIn src s.hostLen .stallThenCsw (setResidue 0 (setStatus .phaseError s))

/-- Case 8. -/
def case8 (s : State) : State :=
  startIn .zeros s.hostLen .sendCsw (setResidue s.hostLen (setStatus .phaseError s))

/-- Case 9. -/
def case9 (s : State) : State := stallAndWait .out (setResidue s.hostLen s)

/-- Case 10. -/
def case10 (s : State) : State := stallAndWait .out (setResidue s.hostLen (setStatus .phaseError s))

/-- Case 11. -/
def case11 (d : Word) (s : State) : State := startOut d .stallThenCsw (setResidue (s.hostLen - d) s)

/-- Case 12. -/
def case12 (d : Word) (s : State) : State := startOut d .sendCsw (setResidue 0 s)

/-- Case 13. -/
def case13 (s : State) : State := stallAndWait .out (setResidue s.hostLen (setStatus .phaseError s))

/-- `arbitrate(E, D, src)` (44 R299): a length of 0 is normalised to `Dn`. -/
def arbitrate (e : Expect) (d : Word) (src : Src) (s : State) : State :=
  match (if d = 0 then Expect.dn else e) with
  | .dn => if s.hostLen = 0 then case1 s else if s.bot.dir then case4 s else case9 s
  | .di =>
    if s.hostLen = 0 then case2 s
    else if s.bot.dir then
      if d < s.hostLen then case5 d src s else if d = s.hostLen then case6 d src s else case7 src s
    else case10 s
  | .dO =>
    if s.hostLen = 0 then case3 s
    else if s.bot.dir then case8 s
    else if d < s.hostLen then case11 d s
    else if d = s.hostLen then case12 d s
    else case13 s

/-! Failure helpers. -/

/-- The CSW at once when `H = 0`, else a stall of the direction the host declared (44 R309, R310). -/
def failStage (s : State) : State := if s.hostLen = 0 then noDataCsw s else stallAndWait s.hostDir s

/-- `fail_command(dev_expect, key, asc, ascq)`: `dev_expect` selects nothing (44 R309). -/
def failCommand (_e : Expect) (key : BitVec 4) (asc ascq : Byte) (s : State) : State :=
  failStage (setResidue s.hostLen (setStatus .failed { s with sense := ⟨key, asc, ascq⟩ }))

/-- `phase_fail()` (44 R310). -/
def phaseFail (s : State) : State := failStage (setResidue s.hostLen (setStatus .phaseError s))

/-- `invalid_cbw()` (44 R297). -/
def invalidCbw (s : State) : State :=
  setBotState .waitInvalid (stallEp s.cfg.bulkOutEp .out (stallEp s.cfg.bulkInEp .inp s))

/-! Recovery and reset. -/

/-- `bot_clear_halt(bd_index, ep, dir)` (44 R311). -/
def botClearHalt (_index : Nat) (ep : Ep) (dir : Dir) (s : State) : State :=
  match s.bot.state with
  | .waitInvalid => stallEp ep dir s
  | .waitIllegal =>
    if s.bot.stalled = some dir then sendCsw { s with bot := { s.bot with stalled := none } } else s
  | .cbw => if ep = s.cfg.bulkOutEp ∧ dir = .out then bulkArmOut s.cfg.bulkMax s else s
  | .noDataStage => s
  | .readData => s
  | .writeData => s
  | .readFinished => s
  | .dataSent => s
  | .csw => s

/-- The bookkeeping that `bomsr`, `bot_init` and the resets zero (10 R31 to R35, R51, 44 R313). -/
def clearBot (s : State) : State := { s with bot := botReset, cbw := cbwReset, csw := cswReset, rw := rwReset }

/-- What an accepted hook of the MSC function returns. -/
def acceptedReply (k : RespKind) : FnReply := ⟨true, k, 0, []⟩

/-- A bulk direction made ready after BOMSR unless it is halted (44 R313). -/
def readyBulkIn (s : State) : State :=
  if (s.epsAt s.cfg.bulkInEp .inp).halted then s
  else forParities s.cfg.bulkInEp .inp (reclaim s.cfg.bulkInEp .inp) s

/-- Bulk OUT armed for a CBW after BOMSR unless it is halted (44 R313). -/
def readyBulkOut (s : State) : State :=
  if (s.epsAt s.cfg.bulkOutEp .out).halted then s else bulkArmOut s.cfg.bulkMax s

/-- `bomsr()` (44 R313). -/
def bomsr (s : State) : State :=
  { readyBulkOut (readyBulkIn (clearBot s)) with reply := acceptedReply .noData }

/-- `get_max_lun()` (44 R314). -/
def getMaxLun (s : State) : State :=
  { s with
    ram := writeBytes s.cfg.addrW s.ram s.cfg.lunAddr [0]
    reply := acceptedReply (.dataIn .ram s.cfg.lunAddr 1) }

/-- The enables of the bulk endpoints (44 R315). -/
def bulkCtrl (s : State) : State :=
  if s.cfg.bulkOutEp = s.cfg.bulkInEp then s.setCtrl s.cfg.bulkOutEp ⟨true, true, true⟩
  else (s.setCtrl s.cfg.bulkOutEp ⟨true, false, true⟩).setCtrl s.cfg.bulkInEp ⟨true, true, false⟩

/-- `bot_init()` (44 R315). -/
def botInit (s : State) : State :=
  let t := { clearBot s with sense := noSense }
  bulkArmOut s.cfg.bulkMax (bulkCtrl (setAddresses s.cfg.bulkInEp .inp (setAddresses s.cfg.bulkOutEp .out t)))

/-- A new entry at the end of the ring, if it belongs to a bulk direction (44 R292). -/
def botEnqueue (ep : Ep) (dir : Dir) (par : Parity) (n : Nat) (s : State) : Result :=
  if (ep = s.cfg.bulkOutEp ∧ dir = .out) ∨ (ep = s.cfg.bulkInEp ∧ dir = .inp) then
    if 4 ≤ s.bot.q.length then .fault .ringOverflow
    else .next { s with bot := { s.bot with q := s.bot.q ++ [⟨dir, par, n⟩] } }
  else .next s

/-! The meanings of the formats BOT and BOT13. -/

/-- `bot_enqueue` (44 R292). -/
def execBotEnqueue (ep : Ep) (dir : Dir) (par : Parity) (n : Nat) (s : State) : Result := botEnqueue ep dir par n s

/-- `arbitrate` (44 R299). -/
def execArbitrate (e : Expect) (d : Word) (src : Src) (s : State) : Result := .next (arbitrate e d src s)

/-- BOT_CASE_1 (44 R300). -/
def execBotCase1 (s : State) : Result := .next (case1 s)

/-- BOT_CASE_2 (44 R300). -/
def execBotCase2 (s : State) : Result := .next (case2 s)

/-- BOT_CASE_3 (44 R300). -/
def execBotCase3 (s : State) : Result := .next (case3 s)

/-- BOT_CASE_4 (44 R300). -/
def execBotCase4 (s : State) : Result := .next (case4 s)

/-- BOT_CASE_5 (44 R300). -/
def execBotCase5 (d : Word) (src : Src) (s : State) : Result := .next (case5 d src s)

/-- BOT_CASE_6 (44 R300). -/
def execBotCase6 (d : Word) (src : Src) (s : State) : Result := .next (case6 d src s)

/-- BOT_CASE_7 (44 R300). -/
def execBotCase7 (src : Src) (s : State) : Result := .next (case7 src s)

/-- BOT_CASE_8 (44 R300). -/
def execBotCase8 (s : State) : Result := .next (case8 s)

/-- BOT_CASE_9 (44 R300). -/
def execBotCase9 (s : State) : Result := .next (case9 s)

/-- BOT_CASE_10 (44 R300). -/
def execBotCase10 (s : State) : Result := .next (case10 s)

/-- BOT_CASE_11 (44 R300). -/
def execBotCase11 (d : Word) (s : State) : Result := .next (case11 d s)

/-- BOT_CASE_12 (44 R300). -/
def execBotCase12 (d : Word) (s : State) : Result := .next (case12 d s)

/-- BOT_CASE_13 (44 R300). -/
def execBotCase13 (s : State) : Result := .next (case13 s)

/-- `start_in` (44 R301). -/
def execStartIn (src : Src) (total : Word) (act : EndAction) (s : State) : Result := .next (startIn src total act s)

/-- `start_out` (44 R302). -/
def execStartOut (total : Word) (act : EndAction) (s : State) : Result := .next (startOut total act s)

/-- `stall_and_wait` (44 R303). -/
def execStallAndWait (dir : Dir) (s : State) : Result := .next (stallAndWait dir s)

/-- `send_in_chunk` (44 R304). -/
def execSendInChunk (s : State) : Result := .next (sendInChunk s)

/-- `end_of_data_in` (44 R305). -/
def execEndOfDataIn (s : State) : Result := .next (endOfDataIn s)

/-- `data_out_chunk` (44 R306). -/
def execDataOutChunk (par : Parity) (n : Nat) (s : State) : Result := .next (dataOutChunk par n s)

/-- `send_csw` (44 R307). -/
def execSendCsw (s : State) : Result := .next (sendCsw s)

/-- `csw_complete` (44 R308). -/
def execCswComplete (s : State) : Result := .next (cswComplete s)

/-- `fail_command` (44 R309). -/
def execFailCommand (e : Expect) (key : BitVec 4) (asc ascq : Byte) (s : State) : Result :=
  .next (failCommand e key asc ascq s)

/-- `phase_fail` (44 R310). -/
def execPhaseFail (s : State) : Result := .next (phaseFail s)

/-- `bot_clear_halt` (44 R311). -/
def execBotClearHalt (index : Nat) (ep : Ep) (dir : Dir) (s : State) : Result := .next (botClearHalt index ep dir s)

/-- `bot_init` (44 R315). -/
def execBotInit (s : State) : Result := .next (botInit s)

/-- `CSW`: the 13 bytes of the wrapper put into the next bulk IN buffer (30 R136, 44 R307). No re-arm follows here, so where
the SIE owns that BD the bytes are free values (20 R98, 70 R446, log 7). -/
def execCswWrapper (s : State) : Result :=
  .next (fillBuf s.cfg.bulkInEp .inp (s.nextPar s.cfg.bulkInEp .inp) (cswBytes s.csw) s)

end Sys2Proof.Machine
end

