-- ==== Sys2Proof/Machine/Scsi.lean ====
section
/-! DEFINITION. The minimal SCSI responder (45). -/

namespace Sys2Proof.Machine

/-- `respond(bytes, D)` (45 R341). -/
def respond (b : List Byte) (d : Nat) (s : State) : State :=
  arbitrate .di (BitVec.ofNat 32 d) .resp
    { s with bot := { s.bot with resp := fit 36 (b.take d ++ s.bot.resp.drop d) } }

/-- The 18 bytes of sense data (30 R139). -/
def senseBytes (x : Sense) : List Byte :=
  [0x70, 0, x.key.setWidth 8, 0, 0, 0, 0, 0x0A, 0, 0, 0, 0, x.asc, x.ascq, 0, 0, 0, 0]

/-- The 36 bytes of the INQUIRY response (30 R140). -/
def inquiryBytes (c : Config) : List Byte :=
  [0x00, 0x80, 0x04, 0x02, 0x20, 0, 0, 0] ++ c.inqVendor ++ c.inqProduct ++ c.inqRev

/-- The last LBA that READ CAPACITY(10) reports: `CAPACITY - 1` (30 R142). A backend without blocks has none, and the spec
says nothing of it: a free value there (log 22). -/
def lastLba (c : Config) : Word := if c.capacity = 0 then Config.noLastLba else BitVec.ofNat 32 (c.capacity - 1)

/-- The 8 bytes of the READ CAPACITY(10) response (30 R142). -/
def capacityBytes (c : Config) : List Byte :=
  be32Bytes (lastLba c) ++ be32Bytes (BitVec.ofNat 32 c.blockSize)

/-- TEST UNIT READY (45 R344). -/
def testUnitReady (s : State) : State :=
  if s.mediaPresent then arbitrate .dn 0 .resp s else failCommand .dn 0x2 0x3A 0x00 s

/-- REQUEST SENSE (45 R358). -/
def requestSense (alloc : Byte) (s : State) : State :=
  respond (senseBytes s.sense) (min 18 alloc.toNat) { s with sense := noSense }

/-- INQUIRY (45 R346). -/
def inquiry (s : State) : State := respond (inquiryBytes s.cfg) 36 s

/-- MODE SENSE(6) (45 R348). -/
def modeSense6 (s : State) : State := respond [0x03, 0x00, if s.writeProtected then 0x80 else 0x00, 0x00] 4 s

/-- READ CAPACITY(10) (45 R350). -/
def readCapacity10 (lba : Word) (pmi : Bool) (s : State) : State :=
  if pmi = false ∧ lba ≠ 0 then phaseFail s else respond (capacityBytes s.cfg) 8 s

/-- `rw_parse()` on its two operands (45 R354). -/
def rwLoad (lba : Word) (len : Half) (s : State) : State :=
  { s with
    rw :=
      { s.rw with
        startLba := lba
        currentLba := lba
        transferLenBlocks := len
        transferLenBytes := BitVec.ofNat 32 (len.toNat * s.cfg.blockSize)
        byteOfSector := 0 } }

/-- `BE32(CB[2..5])` (30 R137). -/
def State.cbLba (s : State) : Word := be32 (s.cb 2) (s.cb 3) (s.cb 4) (s.cb 5)

/-- `BE16(CB[7..8])` (30 R137). -/
def State.cbLen (s : State) : Half := be16 (s.cb 7) (s.cb 8)

/-- `rw_parse()` (45 R354). -/
def rwParse (s : State) : State := rwLoad s.cbLba s.cbLen s

/-- The range check of READ(10) and WRITE(10), in unbounded naturals (45 R352, 00 R19). -/
def outOfRange (c : Config) (lba : Word) (len : Half) : Bool := c.capacity < lba.toNat + len.toNat

/-- READ(10) (45 R352). -/
def read10 (lba : Word) (len : Half) (s : State) : State :=
  let t := rwLoad lba len s
  if outOfRange s.cfg lba len then failCommand .di 0x5 0x21 0x00 t
  else arbitrate .di t.rw.transferLenBytes .backend t

/-- WRITE(10) (45 R356). -/
def write10 (lba : Word) (len : Half) (s : State) : State :=
  let t := rwLoad lba len s
  if s.writeProtected then failCommand .dO 0x7 0x27 0x00 t
  else if outOfRange s.cfg lba len then failCommand .dO 0x5 0x21 0x00 t
  else arbitrate .dO t.rw.transferLenBytes .backend t

/-- Unknown opcode (45 R360). -/
def unknownOpcode (s : State) : State := failCommand .dn 0x5 0x20 0x00 s

/-- `scsi_dispatch()` (45 R340). -/
def scsiDispatch (s : State) : State :=
  match s.bot.opcode.toNat with
  | 0x00 => testUnitReady s
  | 0x03 => requestSense (s.cb 4) s
  | 0x12 => inquiry s
  | 0x1A => modeSense6 s
  | 0x25 => readCapacity10 s.cbLba ((s.cb 8).getLsbD 0) s
  | 0x28 => read10 s.cbLba s.cbLen s
  | 0x2A => if s.cfg.writeEnabled then write10 s.cbLba s.cbLen s else unknownOpcode s
  | _ => unknownOpcode s

/-! The meanings of the formats CDB8 and SCSI. -/

/-- TEST_UNIT_READY (45 R344). -/
def execTestUnitReady (s : State) : Result := .next (testUnitReady s)

/-- REQUEST_SENSE (45 R358). -/
def execRequestSense (alloc : Byte) (s : State) : Result := .next (requestSense alloc s)

/-- INQUIRY (45 R346). -/
def execInquiry (s : State) : Result := .next (inquiry s)

/-- MODE_SENSE_6 (45 R348). -/
def execModeSense6 (s : State) : Result := .next (modeSense6 s)

/-- READ_CAPACITY_10 (45 R350). -/
def execReadCapacity10 (lba : Word) (pmi : Bool) (s : State) : Result := .next (readCapacity10 lba pmi s)

/-- READ_10 (45 R352). -/
def execRead10 (lba : Word) (len : Half) (s : State) : Result := .next (read10 lba len s)

/-- WRITE_10 (45 R356). -/
def execWrite10 (lba : Word) (len : Half) (s : State) : Result := .next (write10 lba len s)

/-- SCSI_UNKNOWN_OPCODE (45 R360). -/
def execScsiUnknownOpcode (s : State) : Result := .next (unknownOpcode s)

/-- `scsi_dispatch` (45 R340). -/
def execScsiDispatch (s : State) : Result := .next (scsiDispatch s)

/-- `respond` (45 R341). -/
def execRespond (b : List Byte) (d : Nat) (s : State) : Result := .next (respond b d s)

/-- `sense_on_complete` (45 R343). -/
def execSenseOnComplete (s : State) : Result := .next (senseOnComplete s)

/-- `rw_parse` (45 R354). -/
def execRwParse (s : State) : Result := .next (rwParse s)

end Sys2Proof.Machine
end

