-- ==== Sys2Proof/Machine/BotStep.lean ====
section
/-! DEFINITION. The intake of the BOT engine: the CBW validator, `bot_step`, the main-loop drain (44 R294 to R297). -/

namespace Sys2Proof.Machine

/-- What an accepted CBW sets before `scsi_dispatch()` (44 R296). -/
def loadCbw (b : List Byte) (s : State) : State :=
  { s with
    cbw := fit 31 b
    csw := ⟨wordAt b 4, 0, .passed⟩
    bot := { s.bot with dir := (byteAt b 12).getLsbD 7, opcode := byteAt b 15, stalled := none }
    rw := { s.rw with cbwDeclaredBytes := wordAt b 8 } }

/-- A valid CBW of 31 bytes (44 R296). -/
def acceptCbw (b : List Byte) (s : State) : State := scsiDispatch (loadCbw b s)

/-- The bytes that `handle_cbw` reads: at most 31 (44 R296). -/
def cbwPacket (par : Parity) (n : Nat) (s : State) : List Byte :=
  readBytes s.cfg.addrW s.buf (s.bd s.cfg.bulkOutEp .out par).address (min n 31)

/-- `handle_cbw(e)` (44 R296): exactly 31 bytes and the signature. -/
def handleCbw (par : Parity) (n : Nat) (s : State) : State :=
  if n ≠ 31 ∨ wordAt (cbwPacket par n s) 0 ≠ cbwSignature then invalidCbw s else acceptCbw (cbwPacket par n s) s

/-- `bot_step(e)` (44 R295): any pair without a row drops the entry. -/
def botStep (e : QEntry) (s : State) : State :=
  match s.bot.state, e.dir with
  | .cbw, .out => handleCbw e.par e.n s
  | .writeData, .out => dataOutChunk e.par e.n s
  | .readData, .inp => sendInChunk s
  | .readFinished, .inp => endOfDataIn s
  | .dataSent, .inp => endOfDataIn s
  | .csw, .inp => cswComplete s
  | .cbw, .inp => s
  | .writeData, .inp => s
  | .readData, .out => s
  | .readFinished, .out => s
  | .dataSent, .out => s
  | .csw, .out => s
  | .noDataStage, .out => s
  | .noDataStage, .inp => s
  | .waitIllegal, .out => s
  | .waitIllegal, .inp => s
  | .waitInvalid, .out => s
  | .waitInvalid, .inp => s

/-- The head of the ring taken and served; an empty ring changes nothing (44 R294). -/
def serveHead (s : State) : State :=
  match s.bot.q with
  | [] => s
  | e :: r => botStep e { s with bot := { s.bot with q := r } }

/-- `serveHead` as often as the fuel says. -/
def drain : Nat → State → State
  | 0, s => s
  | k + 1, s => drain k (serveHead s)

/-- `msd_tasks()` (44 R294): no `bot_step` enqueues, so the ring's length is fuel enough. -/
def msdTasks (s : State) : State := drain s.bot.q.length s

/-! The meanings of the formats BOTSTEP and CBW32, and of `msd_tasks`. -/

/-- `msd_tasks` (44 R294). -/
def execMsdTasks (s : State) : Result := .next (msdTasks s)

/-- BOT_CBW_RECEIVED (44 R296). -/
def execBotCbwReceived (par : Parity) (n : Nat) (s : State) : Result := .next (handleCbw par n s)

/-- BOT_DATA_OUT_CHUNK (44 R306). -/
def execBotDataOutChunk (par : Parity) (n : Nat) (s : State) : Result := .next (dataOutChunk par n s)

/-- BOT_DATA_IN_NEXT (44 R304). -/
def execBotDataInNext (s : State) : Result := .next (sendInChunk s)

/-- BOT_DATA_IN_END (44 R305). -/
def execBotDataInEnd (s : State) : Result := .next (endOfDataIn s)

/-- BOT_CSW_SENT (44 R308). -/
def execBotCswSent (s : State) : Result := .next (cswComplete s)

/-- BOT_STALE_ENTRY (44 R295): the entry is dropped, nothing changes. -/
def execBotStaleEntry (s : State) : Result := .next s

/-- CBW_VALID (44 R296). -/
def execCbwValid (c : Cbw) (s : State) : Result := .next (acceptCbw (cbwBytes c) s)

/-- CBW_INVALID (44 R297). -/
def execCbwInvalid (s : State) : Result := .next (invalidCbw s)

end Sys2Proof.Machine
end

