-- ==== Sys2Proof/Machine/Functions.lean ====
section
/-! DEFINITION. The function port: the nine hooks (43) and their bindings: MSC (43 R279), CDC and HID (46), a function
outside the block (43 R280, an oracle). -/

namespace Sys2Proof.Machine

/-- `reply <- r`. -/
def setReply (r : FnReply) (s : State) : State := { s with reply := r }

/-- What a refusing hook returns. -/
def refuse (s : State) : State := setReply refusedReply s

/-- What an accepting hook without data returns. -/
def accept (s : State) : State := setReply (acceptedReply .noData) s

/-! A function outside the block: whatever the oracle says, within the rights of R278. -/

/-- An endpoint of the function's own: other than 0, and it exists (43 R278). -/
def ownEp (c : Config) (ep : Ep) : Bool :=
  ep != 0 && ep.toNat < c.numEp && (functionEps c).any (fun e => e.1 == ep)

/-- An endpoint direction of the function's own (43 R278). -/
def ownDir (c : Config) (ep : Ep) (dir : Dir) : Bool := ownEp c ep && (functionEps c).contains (ep, dir)

/-- A BD of the function's own (43 R278). -/
def ownBd (c : Config) (ep : Ep) (dir : Dir) (par : Parity) : Bool :=
  ownDir c ep dir && (par == .even || pp c.ppMode ep dir)

/-- The bytes of a buffer of the function's own; none while the SIE owns its BD (20 R98). -/
def ownBytes (s : State) (ep : Ep) (dir : Dir) (par : Parity) : List Byte :=
  if (s.bd ep dir par).stat.own then [] else readBytes s.cfg.addrW s.buf (s.bufAddr ep dir par) s.cfg.bulkMax

/-- What the function's effect depends on (43 R278, R280). -/
def fnView (args : List Nat) (s : State) : FnView where
  function := s.cfg.function
  st := s.fnState
  cdc := s.cdc
  hid := s.hid
  ram := (functionRam s.cfg).map (fun x => readBytes s.cfg.addrW s.ram x.1 x.2)
  bufs := (functionEps s.cfg).flatMap (fun e => (parities s.cfg.ppMode e.1 e.2).map (ownBytes s e.1 e.2))
  args := args
  setup := s.setup
  bytesReceived := s.ctl.bytesReceived
  deviceState := s.deviceState

/-- Bytes put into a buffer of the function's own, whose size is `BULK_MAX` (00 R15): any other bytes, or a BD that is not
its own, are no such write (43 R278). -/
def fnFill (ep : Ep) (dir : Dir) (par : Parity) (b : List Byte) (s : State) : State :=
  if ownBd s.cfg ep dir par && b.length ≤ s.cfg.bulkMax then fillOwn ep dir par b s else s

/-- One HAL call of a function, made in `init()` or not; dropped where R278 gives no such right. -/
def fnCall (inInit : Bool) (s : State) (f : FnCall) : State :=
  match f with
  | .reclaim ep dir par => if ownBd s.cfg ep dir par then reclaim ep dir par s else s
  | .armOut ep par tog n => if ownBd s.cfg ep .out par then armBd ep .out par tog n s else s
  | .armIn ep par tog n => if ownBd s.cfg ep .inp par then armBd ep .inp par tog n s else s
  | .rearmOut ep par tog n => if ownBd s.cfg ep .out par then rearm ep .out par tog n s else s
  | .rearmIn ep par tog n => if ownBd s.cfg ep .inp par then rearm ep .inp par tog n s else s
  | .stallEp ep dir => if ownDir s.cfg ep dir then stallEp ep dir s else s
  | .setCtrl ep c => if inInit && ownEp s.cfg ep then s.setCtrl ep c else s
  | .fill ep dir par b => fnFill ep dir par b s

/-- The HAL calls of a hook, in their order. -/
def fnCalls (inInit : Bool) (l : List FnCall) (s : State) : State := l.foldl (fnCall inInit) s

/-- A byte of RAM of the function's own (43 R278). -/
def ownRam (c : Config) (a : Addr) : Bool := (functionRam c).any (fun x => holds x a 1)

/-- One write of a function, to its own RAM alone (43 R278). -/
def fnWrite (s : State) (w : Addr × Byte) : State :=
  if ownRam s.cfg w.1 then { s with ram := memWrite s.ram (place s.cfg.addrW w.1 0) w.2 } else s

/-- What a function outside the block does within its rights: its HAL calls, then its RAM writes; its new private state (43
R278). -/
def fnRun (inInit : Bool) (calls : List FnCall) (ram : List (Addr × Byte)) (st : Nat) (s : State) : State :=
  { ram.foldl fnWrite (fnCalls inInit calls s) with fnState := st }

/-- The data that a reply may name: bytes of ROM, or bytes of RAM every one of which is the function's own; for an OUT stage
with data a place of its own, whatever room is left there, which the engine does not know (43 R271, R272, R278, 70 R455). Empty
data names no byte. DESIGN CHOICE (log 18): the length of an OUT stage has no bound here, and `startDataOut` takes it modulo
2^16. -/
def replyOk (c : Config) (k : RespKind) : Bool :=
  match k with
  | .noData => true
  | .dataIn .rom ptr _ => ptr < 2 ^ c.addrW
  | .dataIn .ram ptr len => ptr < 2 ^ c.addrW && (List.range len).all (fun i => ownRam c (place c.addrW ptr i))
  | .dataOut target len => target < 2 ^ c.addrW && (len == 0 || ownRam c target)

/-- A reply within the contract: the endpoints that it reports are the function's own; data that it has no right to is a
refusal (43 R271, R278, R280). -/
def ownReply (c : Config) (r : FnReply) : FnReply :=
  if replyOk c r.kind then { r with endpoints := r.endpoints.filter (fun e => ownDir c e.1 e.2) } else refusedReply

/-- The addresses that `init()` leaves in every BD of the function's own (43 R273, R280). -/
def addressOwn (s : State) : State :=
  (functionEps s.cfg).foldl (fun t e => if ownDir s.cfg e.1 e.2 then setAddresses e.1 e.2 t else t) s

/-- A hook of a function outside the block (43 R280), from the state `t` on. -/
def answerHook (inInit : Bool) (a : FnAnswer) (t : State) : State :=
  setReply (ownReply t.cfg a.reply) (fnRun inInit a.calls a.ram a.st t)

/-- A hook of a function outside the block but `init()` (43 R280). -/
def oracleHook (h : Hook) (args : List Nat) (s : State) : State :=
  answerHook false (Config.oracle h (fnView args s)) s

/-- `init()` of a function outside the block: the addresses first, then its enables, its arms and whatever else it does
(43 R273, R280). -/
def oracleInit (s : State) : State := answerHook true (Config.oracle .init (fnView [] s)) (addressOwn s)

/-- A packet put into the function's own next IN buffer and armed (40 R163, 46 R373, R374, R376). DESIGN CHOICE (log 12): with
the toggle of the EPS record; 43 R275 says that CDC and HID may keep a private toggle copy, 46 gives no register for one, and
the model's hold none. -/
def sendOwn (ep : Ep) (b : List Byte) (s : State) : State :=
  let par := s.nextPar ep .inp
  armBd ep .inp par (s.epsAt ep .inp).toggle b.length (fillOwn ep .inp par b s)

/-! MSC (43 R279). -/

/-- `class_request` of MSC (43 R271). -/
def mscClassRequest (s : State) : State :=
  if bRequest s.setup = 0xFF then bomsr s else if bRequest s.setup = 0xFE then getMaxLun s else refuse s

/-- `interface_endpoints` of MSC (43 R282), which has interface 0 alone. DESIGN CHOICE (log 22): any other interface has no
endpoint. The spec gives the list of interface 0 only. -/
def mscEndpoints (c : Config) (iface : Byte) : List (Ep × Dir) :=
  if iface = 0 then [(c.bulkOutEp, .out), (c.bulkInEp, .inp)] else []

/-! CDC (46 R370 to R374). -/

/-- SET_LINE_CODING: 7 bytes into the staging copy; a longer `wLength` is refused (43 R271, 70 R455). -/
def cdcSetLineCoding (s : State) : State :=
  if 7 < (wLength s.setup).toNat then refuse s
  else
    setReply (acceptedReply (.dataOut s.cfg.cdc.staging 7)) { s with cdc := { s.cdc with pending := .lineCoding } }

/-- GET_LINE_CODING: the last-applied line coding. -/
def cdcGetLineCoding (s : State) : State := setReply (acceptedReply (.dataIn .ram s.cfg.cdc.lineCoding 7)) s

/-- SET_CONTROL_LINE_STATE: DTR and RTS. DESIGN CHOICE (log 12): the board-visible hooks that 46 R371 invokes are these two
registers, which the board reads; no event tells of a value written again. -/
def cdcSetControlLineState (dtr rts : Bool) (s : State) : State :=
  accept { s with cdc := { s.cdc with dtr := dtr, rts := rts } }

/-- SEND_ENCAPSULATED_COMMAND: into the dummy 8-byte buffer. -/
def cdcSendEncapsulated (s : State) : State :=
  if 8 < (wLength s.setup).toNat then refuse s
  else
    setReply (acceptedReply (.dataOut s.cfg.cdc.encapsulated 8)) { s with cdc := { s.cdc with pending := .encapsulated } }

/-- GET_ENCAPSULATED_RESPONSE: from the dummy 8-byte buffer. -/
def cdcGetEncapsulated (s : State) : State := setReply (acceptedReply (.dataIn .ram s.cfg.cdc.encapsulated 8)) s

/-- `class_request` of CDC; others are refused (46 R371). -/
def cdcClassRequest (s : State) : State :=
  match (bRequest s.setup).toNat with
  | 0x20 => cdcSetLineCoding s
  | 0x21 => cdcGetLineCoding s
  | 0x22 => cdcSetControlLineState ((wValue s.setup).getLsbD 0) ((wValue s.setup).getLsbD 1) s
  | 0x00 => cdcSendEncapsulated s
  | 0x01 => cdcGetEncapsulated s
  | _ => refuse s

/-- `out_control_finished` of CDC: the staged line coding is applied (46 R371). DESIGN CHOICE (log 12): all 7 staged bytes,
however many of them were received: `ctl.bytes_received` (43 R277) is not looked at. -/
def cdcOutFinished (s : State) : State :=
  match s.cdc.pending with
  | .lineCoding =>
    accept
      { s with
        ram :=
          writeBytes s.cfg.addrW s.ram s.cfg.cdc.lineCoding (readBytes s.cfg.addrW s.ram s.cfg.cdc.staging 7)
        cdc := { s.cdc with pending := .none } }
  | .encapsulated => accept { s with cdc := { s.cdc with pending := .none } }
  | .none => refuse s

/-- The bound function's RAM objects zeroed (43 R273). DESIGN CHOICE (log 12): the function buffers that R273 zeroes are all of
them. -/
def zeroRam (s : State) : State := { s with ram := zeroObjects s.cfg.addrW (functionRam s.cfg) s.ram }

/-- `init` of CDC (43 R273, 46 R370): buffers zeroed, addresses, enables, bulk OUT armed. DESIGN CHOICE (log 12): the buffers
zeroed include the last-applied line coding, so GET_LINE_CODING returns zeros after a new SET_CONFIGURATION; the registers too
go back to their reset values (DTR, RTS, the OUT transfer in progress, the received count, 'ready', carrier detect, DSR). R273
names none of them. -/
def cdcInit (s : State) : State :=
  let c := s.cfg.cdc
  let t := { zeroRam s with cdc := cdcReset }
  let t := setAddresses c.dataInEp .inp (setAddresses c.dataOutEp .out (setAddresses c.notifyEp .inp t))
  let en (ep : Ep) (u : State) : State :=
    u.setCtrl ep ⟨true, decide (ep = c.notifyEp ∨ ep = c.dataInEp), decide (ep = c.dataOutEp)⟩
  armBd c.dataOutEp .out .even false c.max (en c.dataInEp (en c.dataOutEp (en c.notifyEp t)))

/-- `tasks` of CDC: the two callbacks, `data_out_completed(n)` and `data_in_completed()` (46 R373). DESIGN CHOICE (log 12): a
packet completed on the notification endpoint is ignored; R373 names callbacks for the data endpoints alone. -/
def cdcTasks (ep : Ep) (dir : Dir) (par : Parity) (n : Nat) (s : State) : State :=
  if ep = s.cfg.cdc.dataOutEp ∧ dir = .out then { s with cdc := { s.cdc with rxCount := n, rxParity := par } }
  else if ep = s.cfg.cdc.dataInEp ∧ dir = .inp then { s with cdc := { s.cdc with txReady := true } }
  else s

/-- `interface_endpoints` of CDC: the notification endpoint of interface 0, the data endpoints of interface 1 (43 R282, 46
R370). -/
def cdcEndpoints (c : Config) (iface : Byte) : List (Ep × Dir) :=
  if iface = 0 then [(c.cdc.notifyEp, .inp)]
  else if iface = 1 then [(c.cdc.dataOutEp, .out), (c.cdc.dataInEp, .inp)]
  else []

/-- The application hands the next chunk to bulk IN (46 R373): put into the next buffer and armed, 'ready' taken down.
Nothing while that BD is still the SIE's, or for a chunk longer than a packet. -/
def cdcSend (b : List Byte) (s : State) : State :=
  let c := s.cfg.cdc
  if (s.bd c.dataInEp .inp (s.nextPar c.dataInEp .inp)).stat.own ∨ c.max < b.length then s
  else { sendOwn c.dataInEp b s with cdc := { s.cdc with txReady := false } }

/-- The application has taken the received bytes (46 R373): the next bulk OUT BD is armed, unless it is the SIE's. DESIGN
CHOICE (log 12): with the toggle of the EPS record, as in `sendOwn`. -/
def cdcReceive (s : State) : State :=
  let c := s.cfg.cdc
  let par := s.nextPar c.dataOutEp .out
  let t :=
    if (s.bd c.dataOutEp .out par).stat.own then s
    else armBd c.dataOutEp .out par (s.epsAt c.dataOutEp .out).toggle c.max s
  { t with cdc := { s.cdc with rxCount := 0 } }

/-- The application tells what carrier detect and DSR are (46 R374). -/
def serialState (dcd dsr : Bool) (s : State) : State := { s with cdc := { s.cdc with dcd := dcd, dsr := dsr } }

/-- The SERIAL_STATE packet: the header, then the 2-byte bitfield, little-endian (46 R374). PRESUMED (log 12): carrier detect
is bit 0 and DSR bit 1, as in the CDC class, and the other bits are 0. -/
def serialPacket (header : List Byte) (r : Cdc) : List Byte :=
  header ++ [(if r.dcd then 1 else 0) + (if r.dsr then 2 else 0), 0]

/-- The periodic SERIAL_STATE notification, where enabled (46 R374). DESIGN CHOICE (log 12): each one conveys the lines as they
are, changed or not, and nothing is sent while the notification BD is still the SIE's. -/
def serialNotify (s : State) : State :=
  let ep := s.cfg.cdc.notifyEp
  match s.cfg.cdc.serialHeader with
  | none => s
  | some header =>
    if (s.bd ep .inp (s.nextPar ep .inp)).stat.own then s else sendOwn ep (serialPacket header s.cdc) s

/-! HID (46 R375, R376). -/

/-- The index of a report among `k` reports: with report ids in use, ids count from 1 and 0 is illegal (46 R375). -/
def reportIndex (useIds : Bool) (k : Nat) (rid : Byte) : Option Nat :=
  let i := if useIds then rid.toNat - 1 else rid.toNat
  if (useIds && rid == 0) || k ≤ i then none else some i

/-- GET_REPORT: the contents of an IN (1) or Feature (3) report (46 R375). DESIGN CHOICE (log 12): any other type is refused,
Output (2) too; the stored bytes are sent as they are, with no report id put before them. -/
def hidGetReport (rtype rid : Byte) (s : State) : State :=
  let h := s.cfg.hid
  let answer (sizes : List Nat) (addrs : List Addr) : State :=
    match reportIndex h.useIds sizes.length rid with
    | none => refuse s
    | some i => setReply (acceptedReply (.dataIn .ram (addrs.getD i 0) (sizes.getD i 0))) s
  match rtype.toNat with
  | 1 => answer h.inSizes h.inAddrs
  | 3 => answer h.featureSizes h.featureAddrs
  | _ => refuse s

/-- A report taken by SET_REPORT: its `wLength` bytes are collected in the staging copy, the report is recorded for the
commit (46 R375). A longer `wLength` is refused (43 R271). -/
def takeReport (sizes : List Nat) (rid : Byte) (p : Nat → HidPending) (s : State) : State :=
  let w := (wLength s.setup).toNat
  match reportIndex s.cfg.hid.useIds sizes.length rid with
  | none => refuse s
  | some i =>
    if sizes.getD i 0 < w then refuse s
    else setReply (acceptedReply (.dataOut s.cfg.hid.staging w)) { s with hid := { s.hid with pending := p i } }

/-- SET_REPORT of an OUT (2) or Feature (3) report (46 R375). DESIGN CHOICE (log 12): any other type is refused, Input (1)
too. -/
def hidSetReport (rtype rid : Byte) (s : State) : State :=
  match rtype.toNat with
  | 2 => takeReport s.cfg.hid.outSizes rid .output s
  | 3 => takeReport s.cfg.hid.featureSizes rid .feature s
  | _ => refuse s

/-- The bytes received into the staging copy committed to a report of `size` bytes at `a` (46 R375). DESIGN CHOICE (log 12): as
they came, with no report id taken off. -/
def commitReport (a : Addr) (size : Nat) (s : State) : State :=
  let b := readBytes s.cfg.addrW s.ram s.cfg.hid.staging (min size s.ctl.bytesReceived.toNat)
  accept { s with ram := writeBytes s.cfg.addrW s.ram a b, hid := { s.hid with pending := .none } }

/-- `out_control_finished` of HID: the report collected is committed (46 R375). Nothing is in progress: refused. -/
def hidOutFinished (s : State) : State :=
  let h := s.cfg.hid
  match s.hid.pending with
  | .none => refuse s
  | .output i => commitReport (h.outAddrs.getD i 0) (h.outSizes.getD i 0) s
  | .feature i => commitReport (h.featureAddrs.getD i 0) (h.featureSizes.getD i 0) s

/-- `interface_endpoints` of HID: its one interface (43 R282, 46 R375). -/
def hidEndpoints (c : Config) (iface : Byte) : List (Ep × Dir) :=
  if iface = 0 then (c.hid.inEp, .inp) :: c.hid.outEp.toList.map (fun e => (e, .out)) else []

/-- The place of the idle duration of IN report `i`. -/
def idlePtr (c : Config) (i : Nat) : Addr := place c.addrW c.hid.idleAddr i

/-- GET_IDLE: one byte, the current idle of that report (46 R375). DESIGN CHOICE (log 12): id 0 answers for the first IN
report, and is refused where there is none. -/
def hidGetIdle (rid : Byte) (s : State) : State :=
  let h := s.cfg.hid
  let i := reportIndex (h.useIds && rid != 0) h.inSizes.length rid
  match i with
  | none => refuse s
  | some i => setReply (acceptedReply (.dataIn .ram (idlePtr s.cfg i) 1)) s

/-- The idle duration of one report set and its counter reset (46 R375). A report of duration 0 never auto-fires: its
`idle_expired` is taken down (46 R376). -/
def setIdle (d : Byte) (s : State) (i : Nat) : State :=
  { s with
    ram := memWrite s.ram (idlePtr s.cfg i) d
    hid :=
      { s.hid with
        counters := s.hid.counters.set i 0
        expired := if d = 0 then s.hid.expired.set i false else s.hid.expired } }

/-- SET_IDLE: `id = 0` sets all (46 R375). -/
def hidSetIdle (duration rid : Byte) (s : State) : State :=
  let h := s.cfg.hid
  if rid = 0 then accept ((List.range h.inSizes.length).foldl (setIdle duration) s)
  else
    match reportIndex h.useIds h.inSizes.length rid with
    | none => refuse s
    | some i => accept (setIdle duration s i)

/-- `class_request` of HID; GET_PROTOCOL, SET_PROTOCOL and all others are refused (46 R375). DESIGN CHOICE (log 12):
GET_IDLE and SET_IDLE carry the report id in `wValue[7:0]` and SET_IDLE its duration in `wValue[15:8]`; R375 gives the layout
of `wValue` for GET_REPORT and SET_REPORT alone. -/
def hidClassRequest (s : State) : State :=
  let h := s.cfg.hid
  let hi := hiByte (wValue s.setup)
  let lo := loByte (wValue s.setup)
  if bRequest s.setup = h.getReport then hidGetReport hi lo s
  else if bRequest s.setup = h.setReport then hidSetReport hi lo s
  else if bRequest s.setup = h.getIdle then hidGetIdle lo s
  else if bRequest s.setup = h.setIdle then hidSetIdle hi lo s
  else refuse s

/-- `get_class_descriptor` of HID: "HID, HID Report" (46 R375, 30 R114). DESIGN CHOICE (log 12): the descriptor's type in
`wValue[15:8]` selects alone; the index `wValue[7:0]` and `wIndex` are not looked at. -/
def hidClassDescriptor (s : State) : State :=
  let h := s.cfg.hid
  match (hiByte (wValue s.setup)).toNat with
  | 0x21 => setReply (acceptedReply (.dataIn .rom (hidDescPtr s.cfg) h.hidDesc.length)) s
  | 0x22 => setReply (acceptedReply (.dataIn .rom (reportDescPtr s.cfg) h.reportDesc.length)) s
  | _ => refuse s

/-- `init` of HID (43 R273, 46 R375): storage zeroed, addresses, enables, interrupt OUT armed. DESIGN CHOICE (log 12): the
storage zeroed includes the idle durations, so every report is at idle 0, infinite, after a SET_CONFIGURATION; the registers too
go back to their reset values (the idle counters, `idle_expired`, 'send now', the booleans of sent reports, the report in
flight, the SET_REPORT in progress). R273 names none of them. -/
def hidInit (s : State) : State :=
  let h := s.cfg.hid
  let t := setAddresses h.inEp .inp { zeroRam s with hid := hidReset s.cfg }
  match h.outEp with
  | none => t.setCtrl h.inEp ⟨true, true, false⟩
  | some o =>
    let u := (setAddresses o .out t).setCtrl h.inEp ⟨true, true, decide (o = h.inEp)⟩
    armBd o .out .even false h.max (u.setCtrl o ⟨true, decide (o = h.inEp), true⟩)

/-- `tasks` of HID: the report in flight was sent, its idle counter is reset; of the `per_report_sent` booleans that of
the most recent report alone is set (46 R376). DESIGN CHOICE (log 12): a packet completed on the Interrupt OUT endpoint is
ignored, no report is stored and the endpoint is not armed again; 46 says nothing of it. -/
def hidTasks (ep : Ep) (dir : Dir) (s : State) : State :=
  if ep = s.cfg.hid.inEp ∧ dir = .inp then
    match s.hid.inFlight with
    | none => s
    | some i =>
      { s with
        hid :=
          { s.hid with
            counters := s.hid.counters.set i 0
            sent := (s.hid.sent.map (fun _ => false)).set i true
            sentGlobal := true
            inFlight := none } }
  else s

/-- One SOF for one IN report: a nonzero duration counts, `idle_expired` past `duration_4ms * 4 - 1` (46 R376). DESIGN
CHOICE (log 12): the counter is an unbounded natural, which never wraps; R376 gives it no width. -/
def sofReport (s : State) (i : Nat) : State :=
  let d := (memRead s.ram (idlePtr s.cfg i)).toNat
  let k := s.hid.counters.getD i 0 + 1
  if d = 0 then s
  else
    { s with
      hid :=
        { s.hid with
          counters := s.hid.counters.set i k
          expired := if 4 * d - 1 < k then s.hid.expired.set i true else s.hid.expired } }

/-- The SOF handler of HID (46 R376). -/
def hidSof (s : State) : State := (List.range s.cfg.hid.inSizes.length).foldl sofReport s

/-- `send_report` of IN report `i` with its bytes, if any: they become the report's contents, which are put into the
interrupt IN buffer and armed; `idle_expired`, 'send now' and the booleans of that report are taken down. Nothing while
that BD is still the SIE's (46 R376, R377). DESIGN CHOICE (log 12): the whole report is sent whatever the number of bytes given;
longer bytes are cut at its size, and after shorter ones the rest of the old contents stands; the packet is the stored bytes as
they are, with no report id put before them. -/
def sendReportAt (i : Nat) (b : List Byte) (s : State) : State :=
  let h := s.cfg.hid
  let n := h.inSizes.getD i 0
  if (s.bd h.inEp .inp (s.nextPar h.inEp .inp)).stat.own then s
  else
    let t := { s with ram := writeBytes s.cfg.addrW s.ram (h.inAddrs.getD i 0) (b.take n) }
    { sendOwn h.inEp (readBytes s.cfg.addrW t.ram (h.inAddrs.getD i 0) n) t with
      hid :=
        { s.hid with
          expired := s.hid.expired.set i false
          sendNow := s.hid.sendNow.set i false
          sent := s.hid.sent.set i false
          sentGlobal := false
          inFlight := some i } }

/-- A report named by the application; with report ids in use, 0 is illegal (46 R375). -/
def withReport (rid : Byte) (f : Nat → State → State) (s : State) : State :=
  match reportIndex s.cfg.hid.useIds s.cfg.hid.inSizes.length rid with
  | none => s
  | some i => f i s

/-- `send_report(i)` (46 R376, R377). -/
def sendReport (rid : Byte) (b : List Byte) (s : State) : State := withReport rid (fun i => sendReportAt i b) s

/-- "The application polls `idle_expired` or a 'send now' flag and calls `send_report(i)`" (46 R376). -/
def pollReport (rid : Byte) (s : State) : State :=
  withReport rid
    (fun i t => if t.hid.expired.getD i false || t.hid.sendNow.getD i false then sendReportAt i [] t else t) s

/-- 'Send now' set for a report (46 R376). -/
def requestReport (rid : Byte) (s : State) : State :=
  withReport rid (fun i t => { t with hid := { t.hid with sendNow := t.hid.sendNow.set i true } }) s

/-- The application has taken note: `report_sent_global` and every `per_report_sent` taken down (46 R376). -/
def takeSent (s : State) : State :=
  { s with hid := { s.hid with sent := s.hid.sent.map (fun _ => false), sentGlobal := false } }

/-- A turn of the application, whose function must be bound (43 R281); another function's call does nothing, and MSC, which is
the block's, has no code of its own outside it. -/
def runApp (a : AppCall) (s : State) : State :=
  match a with
  | .sendReport rid b => if s.cfg.function = .hid then sendReport rid b s else s
  | .pollReport rid => if s.cfg.function = .hid then pollReport rid s else s
  | .requestReport rid => if s.cfg.function = .hid then requestReport rid s else s
  | .takeSent => if s.cfg.function = .hid then takeSent s else s
  | .cdcSend b => if s.cfg.function = .cdc then cdcSend b s else s
  | .cdcReceive => if s.cfg.function = .cdc then cdcReceive s else s
  | .serialState dcd dsr => if s.cfg.function = .cdc then serialState dcd dsr s else s
  | .serialNotify => if s.cfg.function = .cdc then serialNotify s else s
  | .fill ep dir par b => fnFill ep dir par b s
  | .own calls ram st => if s.cfg.function = .msc then s else fnRun false calls ram st s

/-! The nine hooks, by the function that is bound. -/

/-- `class_request()` (43 R271). -/
def classRequest (s : State) : State :=
  match s.cfg.function with
  | .msc => mscClassRequest s
  | .cdc => cdcClassRequest s
  | .hid => hidClassRequest s
  | .user => oracleHook .classRequest [] s

/-- `get_class_descriptor()` (43 R272). -/
def getClassDescriptor (s : State) : State :=
  match s.cfg.function with
  | .msc => refuse s
  | .cdc => refuse s
  | .hid => hidClassDescriptor s
  | .user => oracleHook .getClassDescriptor [] s

/-- A hook that returns nothing leaves the return wires. -/
def keepReply (r : FnReply) (s : State) : State := setReply r s

/-- `init()` (43 R273). -/
def fnInit (s : State) : State :=
  match s.cfg.function with
  | .msc => botInit s
  | .cdc => cdcInit s
  | .hid => hidInit s
  | .user => keepReply s.reply (oracleInit s)

/-- `tasks(ep, dir, par, n)` (43 R274). -/
def fnTasks (ep : Ep) (dir : Dir) (par : Parity) (n : Nat) (s : State) : Result :=
  match s.cfg.function with
  | .msc => botEnqueue ep dir par n s
  | .cdc => .next (cdcTasks ep dir par n s)
  | .hid => .next (hidTasks ep dir s)
  | .user => .next (keepReply s.reply (oracleHook .tasks [ep.toNat, dirBit dir, parBit par, n] s))

/-- `clear_halt(bd_index, ep, dir)` (43 R275). -/
def clearHalt (index : Nat) (ep : Ep) (dir : Dir) (s : State) : State :=
  match s.cfg.function with
  | .msc => botClearHalt index ep dir s
  | .cdc => keepReply s.reply (oracleHook .clearHalt [index, ep.toNat, dirBit dir] s)
  | .hid => keepReply s.reply (oracleHook .clearHalt [index, ep.toNat, dirBit dir] s)
  | .user => keepReply s.reply (oracleHook .clearHalt [index, ep.toNat, dirBit dir] s)

/-- `set_interface(alt, iface)` (43 R276). -/
def setInterfaceHook (alt iface : Byte) (s : State) : State :=
  match s.cfg.function with
  | .msc => if alt = 0 ∧ iface = 0 then accept s else refuse s
  | .cdc => oracleHook .setInterface [alt.toNat, iface.toNat] s
  | .hid => oracleHook .setInterface [alt.toNat, iface.toNat] s
  | .user => oracleHook .setInterface [alt.toNat, iface.toNat] s

/-- `get_interface(iface)` (43 R276). -/
def getInterfaceHook (iface : Byte) (s : State) : State :=
  match s.cfg.function with
  | .msc => if iface = 0 then accept s else refuse s
  | .cdc => oracleHook .getInterface [iface.toNat] s
  | .hid => oracleHook .getInterface [iface.toNat] s
  | .user => oracleHook .getInterface [iface.toNat] s

/-- `out_control_finished()` (43 R277). -/
def outControlFinished (s : State) : State :=
  match s.cfg.function with
  | .msc => refuse s
  | .cdc => cdcOutFinished s
  | .hid => hidOutFinished s
  | .user => oracleHook .outControlFinished [] s

/-- `interface_endpoints(iface)` (43 R282). -/
def interfaceEndpoints (iface : Byte) (s : State) : State :=
  match s.cfg.function with
  | .msc => setReply ⟨true, .noData, 0, mscEndpoints s.cfg iface⟩ s
  | .cdc => setReply ⟨true, .noData, 0, cdcEndpoints s.cfg iface⟩ s
  | .hid => setReply ⟨true, .noData, 0, hidEndpoints s.cfg iface⟩ s
  | .user => oracleHook .interfaceEndpoints [iface.toNat] s

/-- The function's SOF handler, if it has one (60 R415). -/
def fnSof (s : State) : State :=
  match s.cfg.function with
  | .msc => s
  | .cdc => s
  | .hid => hidSof s
  | .user => keepReply s.reply (oracleHook .sof [] s)

/-! The meanings of the format HOOK. -/

/-- `class_request` (43 R271). -/
def execHookClassRequest (s : State) : Result := .next (classRequest s)

/-- `get_class_descriptor` (43 R272). -/
def execHookGetClassDescriptor (s : State) : Result := .next (getClassDescriptor s)

/-- `init` (43 R273). -/
def execHookInit (s : State) : Result := .next (fnInit s)

/-- `tasks` (43 R274). -/
def execHookTasks (ep : Ep) (dir : Dir) (par : Parity) (n : Nat) (s : State) : Result := fnTasks ep dir par n s

/-- `clear_halt` (43 R275). -/
def execHookClearHalt (index : Nat) (ep : Ep) (dir : Dir) (s : State) : Result := .next (clearHalt index ep dir s)

/-- `set_interface` (43 R276). -/
def execHookSetInterface (alt iface : Byte) (s : State) : Result := .next (setInterfaceHook alt iface s)

/-- `get_interface` (43 R276). -/
def execHookGetInterface (iface : Byte) (s : State) : Result := .next (getInterfaceHook iface s)

/-- `out_control_finished` (43 R277). -/
def execHookOutControlFinished (s : State) : Result := .next (outControlFinished s)

/-- `interface_endpoints` (43 R282). -/
def execHookInterfaceEndpoints (iface : Byte) (s : State) : Result := .next (interfaceEndpoints iface s)

end Sys2Proof.Machine
end

