-- ==== Sys2Proof/Machine/Control.lean ====
section
/-! DEFINITION. The stages of a control transfer (41 sections 4 to 6). -/

namespace Sys2Proof.Machine

/-- `data_in_next()`, which is also `data_in_step()` (41 R201). -/
def dataInNext (s : State) : State :=
  if s.ctl.bytesRemaining ≠ 0 then ep0SendIn (min s.ctl.bytesRemaining.toNat s.cfg.ep0Max.bytes) s
  else if s.ctl.sendShortZlp then ep0SendIn 0 { s with ctl := { s.ctl with sendShortZlp := false } }
  else { ep0ArmStatusOut s with stage := .statusOut }

/-- `start_data_in(space, ptr, D)` (41 R200). -/
def startDataIn (src : Source) (ptr : Addr) (d : Nat) (s : State) : State :=
  let w := (wLength s.setup).toNat
  if w = 0 then statusIn s
  else
    dataInNext
      { s with
        ctl := ⟨src, ptr, BitVec.ofNat 16 (min d w), 0, zlpOwed s.cfg d w⟩
        stage := .dataIn }

/-- `start_data_out(target, len)` (41 R202). DESIGN CHOICE (log 18): a length of 2^16 or more, which no rule gives (00 R19), is
loaded modulo 2^16 into the 16 bits of `ctl.bytes_remaining`, and the first arm is made for that. -/
def startDataOut (target : Addr) (len : Nat) (s : State) : State :=
  if len = 0 then statusIn s
  else
    ep0ArmDataOut
      { s with
        ctl := { s.ctl with ptr := target, bytesRemaining := BitVec.ofNat 16 len, bytesReceived := 0 }
        stage := .dataOut }

/-- The received bytes put into RAM and counted (41 R203). -/
def storeDataOut (par : Parity) (n : Nat) (s : State) : State :=
  { s with
    ram := writeBytes s.cfg.addrW s.ram s.ctl.ptr (readBytes s.cfg.addrW s.buf (s.bd 0 .out par).address n)
    ctl :=
      { s.ctl with
        ptr := place s.cfg.addrW s.ctl.ptr n
        bytesReceived := s.ctl.bytesReceived + BitVec.ofNat 16 n
        bytesRemaining := s.ctl.bytesRemaining - BitVec.ofNat 16 n } }

/-- The hook's answer ends the control write (41 R203). -/
def finishDataOut (s : State) : State := if s.reply.accepted then statusIn s else requestError s

/-- `data_out_step(bd, n)` (41 R203). -/
def dataOutStep (par : Parity) (n : Nat) (s : State) : State :=
  let t := storeDataOut par n s
  if t.ctl.bytesRemaining = 0 ∨ n < s.cfg.ep0Max.bytes then finishDataOut (outControlFinished (ep0ArmSetup t))
  else ep0ArmDataOut t

/-- The commit of a recorded address (41 R207). -/
def commitAddress (s : State) : State :=
  if s.addressPending then
    { s with
      sie := { s.sie with address := s.pendingAddress }
      deviceState := if s.pendingAddress ≠ 0 then .address else .dflt
      addressPending := false }
  else s

/-- `status_complete()` (41 R207). -/
def statusComplete (s : State) : State := { ep0ArmSetup (commitAddress s) with stage := .setup }

/-- The engine's answer to a class request or a class descriptor: the stage that the hook's reply asks for (41 R196,
42 R245). -/
def respondStage (s : State) : State :=
  if s.reply.accepted then
    match s.reply.kind with
    | .noData => statusIn s
    | .dataIn src ptr len => startDataIn src ptr len s
    | .dataOut target len => startDataOut target len s
  else requestError s

/-- `class_dispatch()` (41 R196). -/
def classDispatch (s : State) : State := respondStage (classRequest s)

/-! The meanings of the stage operations of the format ENGINE. -/

/-- `start_data_in` (41 R200). -/
def execStartDataIn (src : Source) (ptr : Addr) (d : Nat) (s : State) : Result := .next (startDataIn src ptr d s)

/-- `data_in_next` (41 R201). -/
def execDataInNext (s : State) : Result := .next (dataInNext s)

/-- `start_data_out` (41 R202). -/
def execStartDataOut (target : Addr) (len : Nat) (s : State) : Result := .next (startDataOut target len s)

/-- `data_out_step` (41 R203). -/
def execDataOutStep (par : Parity) (n : Nat) (s : State) : Result := .next (dataOutStep par n s)

/-- `status_complete` (41 R207). -/
def execStatusComplete (s : State) : Result := .next (statusComplete s)

/-- `class_dispatch` (41 R196). -/
def execClassDispatch (s : State) : Result := .next (classDispatch s)

/-! The meanings of the format CLASS16: the function's handler and the stage that follows. -/

/-- BOMSR (44 R313, 41 R196). -/
def execBomsr (s : State) : Result := .next (respondStage (bomsr s))

/-- GET_MAX_LUN (44 R314, 41 R196). -/
def execGetMaxLun (s : State) : Result := .next (respondStage (getMaxLun s))

/-- MSC_CLASS_OTHER (43 R271, 41 R196). -/
def execMscClassOther (s : State) : Result := .next (respondStage (refuse s))

/-- CDC_SET_LINE_CODING (46 R371). -/
def execCdcSetLineCoding (s : State) : Result := .next (respondStage (cdcSetLineCoding s))

/-- CDC_GET_LINE_CODING (46 R371). -/
def execCdcGetLineCoding (s : State) : Result := .next (respondStage (cdcGetLineCoding s))

/-- CDC_SET_CONTROL_LINE_STATE (46 R371). -/
def execCdcSetControlLineState (dtr rts : Bool) (s : State) : Result :=
  .next (respondStage (cdcSetControlLineState dtr rts s))

/-- CDC_SEND_ENCAPSULATED_COMMAND (46 R371). -/
def execCdcSendEncapsulatedCommand (s : State) : Result := .next (respondStage (cdcSendEncapsulated s))

/-- CDC_GET_ENCAPSULATED_RESPONSE (46 R371). -/
def execCdcGetEncapsulatedResponse (s : State) : Result := .next (respondStage (cdcGetEncapsulated s))

/-- HID_GET_REPORT (46 R375). -/
def execHidGetReport (rtype rid : Byte) (s : State) : Result := .next (respondStage (hidGetReport rtype rid s))

/-- HID_SET_REPORT (46 R375). -/
def execHidSetReport (rtype rid : Byte) (s : State) : Result := .next (respondStage (hidSetReport rtype rid s))

/-- HID_GET_IDLE (46 R375). -/
def execHidGetIdle (rid : Byte) (s : State) : Result := .next (respondStage (hidGetIdle rid s))

/-- HID_SET_IDLE (46 R375). -/
def execHidSetIdle (duration rid : Byte) (s : State) : Result := .next (respondStage (hidSetIdle duration rid s))

/-- HID_GET_PROTOCOL: unsupported (46 R375). -/
def execHidGetProtocol (s : State) : Result := .next (respondStage (refuse s))

/-- HID_SET_PROTOCOL: unsupported (46 R375). -/
def execHidSetProtocol (s : State) : Result := .next (respondStage (refuse s))

end Sys2Proof.Machine
end

