-- ==== Sys2Proof/Machine/Requests.lean ====
section
/-! DEFINITION. The standard requests (42), the type dispatch (41 R195). -/

namespace Sys2Proof.Machine

/-- An answer built in `ctl.scratch` and sent from RAM (42 R231). -/
def answerScratch (b : List Byte) (s : State) : State := startDataIn .ram s.cfg.scratch b.length (s.setScratch b)

/-- A flag as the low bit of a byte. -/
def bitByte (b : Bool) : Byte := (BitVec.ofBool b).setWidth 8

/-- GET_STATUS of the device (42 R231, 30 R116). -/
def getStatusDevice (s : State) : State :=
  answerScratch [(BitVec.ofBool s.remoteWakeup ++ BitVec.ofBool s.cfg.selfPowered).setWidth 8, 0] s

/-- GET_STATUS of an interface (42 R232). -/
def getStatusInterface (iface : Byte) (s : State) : State :=
  if s.cfg.numInterfaces ≤ iface.toNat then requestError s else answerScratch [0, 0] s

/-- GET_STATUS of an endpoint (42 R233). -/
def getStatusEndpoint (ep : Ep) (dir : Dir) (s : State) : State :=
  if s.cfg.numEp ≤ ep.toNat then requestError s else answerScratch [bitByte (s.epsAt ep dir).halted, 0] s

/-- CLEAR_FEATURE of the device (42 R235, 30 R113). -/
def clearFeatureDevice (sel : Half) (s : State) : State :=
  if sel = 1 then statusIn { s with remoteWakeup := false } else requestError s

/-- SET_FEATURE of the device (42 R236). -/
def setFeatureDevice (sel : Half) (s : State) : State :=
  if sel = 1 then statusIn { s with remoteWakeup := true } else requestError s

/-- The test of both endpoint features (42 R237, R238). -/
def haltRefused (c : Config) (sel : Half) (ep : Ep) : Bool := sel != 0 || ep == 0 || c.numEp ≤ ep.toNat

/-- CLEAR_FEATURE of an endpoint (42 R237). -/
def clearFeatureEndpoint (sel : Half) (ep : Ep) (dir : Dir) (s : State) : State :=
  if haltRefused s.cfg sel ep then requestError s
  else
    let t := unstallEp ep dir s
    statusIn (clearHalt (bdIndex t.cfg.ppMode ep dir (t.nextPar ep dir)) ep dir t)

/-- SET_FEATURE of an endpoint (42 R238). -/
def setFeatureEndpoint (sel : Half) (ep : Ep) (dir : Dir) (s : State) : State :=
  if haltRefused s.cfg sel ep then requestError s else statusIn (stallEp ep dir s)

/-- SET_ADDRESS (42 R240). -/
def setAddress (a : DevAddr) (s : State) : State := statusIn { s with pendingAddress := a, addressPending := true }

/-- GET_DESCRIPTOR DEVICE (42 R242). -/
def getDescDevice (s : State) : State := startDataIn .rom (deviceDescPtr s.cfg) 18 s

/-- GET_DESCRIPTOR CONFIGURATION (42 R243). -/
def getDescConfig (didx : Byte) (s : State) : State :=
  match s.cfg.configDescs[didx.toNat]? with
  | none => requestError s
  | some d => startDataIn .rom (configDescPtr s.cfg didx.toNat) (halfAt d 2).toNat s

/-- GET_DESCRIPTOR STRING (42 R244). -/
def getDescString (didx : Byte) (s : State) : State :=
  match s.cfg.stringDescs[didx.toNat]? with
  | none => requestError s
  | some d => startDataIn .rom (stringDescPtr s.cfg didx.toNat) (byteAt d 0).toNat s

/-- GET_DESCRIPTOR of any other type (42 R245): the hook's reply is `(ok, space, ptr, size)`; a reply that names no
data to send is a refusal. -/
def getDescClass (s : State) : State :=
  let t := getClassDescriptor s
  if t.reply.accepted then
    match t.reply.kind with
    | .dataIn src ptr len => startDataIn src ptr len t
    | .noData => requestError t
    | .dataOut _ _ => requestError t
  else requestError t

/-- GET_DESCRIPTOR (42 R241). -/
def getDescriptor (dtype didx : Byte) (s : State) : State :=
  match dtype.toNat with
  | 1 => getDescDevice s
  | 2 => getDescConfig didx s
  | 3 => getDescString didx s
  | _ => getDescClass s

/-- GET_CONFIGURATION (42 R247). -/
def getConfiguration (s : State) : State :=
  answerScratch [if s.deviceState = .configured then s.currentConfiguration else 0] s

/-- `device_state` in {ADDRESS, CONFIGURED} (42 R248, R249). -/
def addressed (d : DeviceState) : Bool := d == .address || d == .configured

/-- SET_CONFIGURATION of a nonzero value (42 R248). -/
def setConfigNonzero (v : Byte) (s : State) : State :=
  if s.cfg.configDescs.length < v.toNat ∨ addressed s.deviceState = false then requestError s
  else
    let t := fnInit { clearNonzero (ppReset s) with currentConfiguration := v }
    statusIn { t with deviceState := .configured }

/-- SET_CONFIGURATION of zero (42 R249). -/
def setConfigZero (s : State) : State :=
  if addressed s.deviceState then statusIn { s with deviceState := .address, currentConfiguration := 0 }
  else requestError s

/-- SET_CONFIGURATION (42 R248, R249). -/
def setConfiguration (v : Byte) (s : State) : State := if v = 0 then setConfigZero s else setConfigNonzero v s

/-- GET_INTERFACE (42 R250). -/
def getInterface (iface : Byte) (s : State) : State :=
  let t := getInterfaceHook iface s
  if t.reply.accepted then answerScratch [t.reply.alt] t else requestError t

/-- The toggles of the reported endpoints cleared (42 R251). -/
def clearToggles (l : List (Ep × Dir)) (s : State) : State := l.foldl (fun t e => setToggle e.1 e.2 false t) s

/-- SET_INTERFACE (42 R251). -/
def setInterface (alt iface : Byte) (s : State) : State :=
  let t := setInterfaceHook alt iface s
  if t.reply.accepted then
    let u := interfaceEndpoints iface t
    statusIn (clearToggles u.reply.endpoints u)
  else requestError t

/-- GET_STATUS, by recipient (42 R231 to R234). -/
def getStatus (s : State) : State :=
  match (recipient s.setup).toNat with
  | 0 => getStatusDevice s
  | 1 => getStatusInterface (loByte (wIndex s.setup)) s
  | 2 => getStatusEndpoint (indexEp s.setup) (indexDir s.setup) s
  | _ => requestError s

/-- CLEAR_FEATURE, by recipient (42 R235, R237, R239). -/
def clearFeature (s : State) : State :=
  match (recipient s.setup).toNat with
  | 0 => clearFeatureDevice (wValue s.setup) s
  | 2 => clearFeatureEndpoint (wValue s.setup) (indexEp s.setup) (indexDir s.setup) s
  | _ => requestError s

/-- SET_FEATURE, by recipient (42 R236, R238, R239). -/
def setFeature (s : State) : State :=
  match (recipient s.setup).toNat with
  | 0 => setFeatureDevice (wValue s.setup) s
  | 2 => setFeatureEndpoint (wValue s.setup) (indexEp s.setup) (indexDir s.setup) s
  | _ => requestError s

/-- `standard_dispatch()` (42 R230). -/
def standardDispatch (s : State) : State :=
  match (bRequest s.setup).toNat with
  | 0 => getStatus s
  | 1 => clearFeature s
  | 3 => setFeature s
  | 5 => setAddress ((wValue s.setup).extractLsb' 0 7) s
  | 6 => getDescriptor (hiByte (wValue s.setup)) (loByte (wValue s.setup)) s
  | 7 => requestError s
  | 8 => getConfiguration s
  | 9 => setConfiguration (loByte (wValue s.setup)) s
  | 10 => getInterface (loByte (wIndex s.setup)) s
  | 11 => setInterface (loByte (wValue s.setup)) (loByte (wIndex s.setup)) s
  | 12 => requestError s
  | _ => requestError s

/-- `type_dispatch()` (41 R195). -/
def typeDispatch (s : State) : State :=
  match (reqType s.setup).toNat with
  | 0 => standardDispatch s
  | 1 => classDispatch s
  | _ => requestError s

/-! The meanings of the formats SETUP16, GETDESC8 and SETCFG8, and of the dispatchers. -/

/-- `type_dispatch` (41 R195). -/
def execTypeDispatch (s : State) : Result := .next (typeDispatch s)

/-- `standard_dispatch` (42 R230). -/
def execStandardDispatch (s : State) : Result := .next (standardDispatch s)

/-- VENDOR_REQUEST: unsupported (41 R195). -/
def execVendorRequest (s : State) : Result := .next (requestError s)

/-- RESERVED_TYPE_REQUEST (41 R195). -/
def execReservedTypeRequest (s : State) : Result := .next (requestError s)

/-- GET_STATUS_DEVICE (42 R231). -/
def execGetStatusDevice (s : State) : Result := .next (getStatusDevice s)

/-- GET_STATUS_INTERFACE (42 R232). -/
def execGetStatusInterface (iface : Byte) (s : State) : Result := .next (getStatusInterface iface s)

/-- GET_STATUS_ENDPOINT (42 R233). -/
def execGetStatusEndpoint (ep : Ep) (dir : Dir) (s : State) : Result := .next (getStatusEndpoint ep dir s)

/-- GET_STATUS_OTHER (42 R234). -/
def execGetStatusOther (s : State) : Result := .next (requestError s)

/-- CLEAR_FEATURE_DEVICE (42 R235). -/
def execClearFeatureDevice (sel : Half) (s : State) : Result := .next (clearFeatureDevice sel s)

/-- CLEAR_FEATURE_ENDPOINT (42 R237). -/
def execClearFeatureEndpoint (sel : Half) (ep : Ep) (dir : Dir) (s : State) : Result :=
  .next (clearFeatureEndpoint sel ep dir s)

/-- CLEAR_FEATURE_OTHER (42 R239). -/
def execClearFeatureOther (s : State) : Result := .next (requestError s)

/-- RESERVED_REQUEST_2 (42 R252). -/
def execReservedRequest2 (s : State) : Result := .next (requestError s)

/-- SET_FEATURE_DEVICE (42 R236). -/
def execSetFeatureDevice (sel : Half) (s : State) : Result := .next (setFeatureDevice sel s)

/-- SET_FEATURE_ENDPOINT (42 R238). -/
def execSetFeatureEndpoint (sel : Half) (ep : Ep) (dir : Dir) (s : State) : Result :=
  .next (setFeatureEndpoint sel ep dir s)

/-- SET_FEATURE_OTHER (42 R239). -/
def execSetFeatureOther (s : State) : Result := .next (requestError s)

/-- RESERVED_REQUEST_4 (42 R252). -/
def execReservedRequest4 (s : State) : Result := .next (requestError s)

/-- SET_ADDRESS (42 R240). -/
def execSetAddress (a : DevAddr) (s : State) : Result := .next (setAddress a s)

/-- GET_DESCRIPTOR (42 R241). -/
def execGetDescriptor (dtype didx : Byte) (s : State) : Result := .next (getDescriptor dtype didx s)

/-- SET_DESCRIPTOR: unsupported (42 R246). -/
def execSetDescriptor (s : State) : Result := .next (requestError s)

/-- GET_CONFIGURATION (42 R247). -/
def execGetConfiguration (s : State) : Result := .next (getConfiguration s)

/-- SET_CONFIGURATION (42 R248, R249). -/
def execSetConfiguration (c : Byte) (s : State) : Result := .next (setConfiguration c s)

/-- GET_INTERFACE (42 R250). -/
def execGetInterface (iface : Byte) (s : State) : Result := .next (getInterface iface s)

/-- SET_INTERFACE (42 R251). -/
def execSetInterface (alt iface : Byte) (s : State) : Result := .next (setInterface alt iface s)

/-- SYNC_FRAME: unsupported (42 R253). -/
def execSyncFrame (s : State) : Result := .next (requestError s)

/-- RESERVED_REQUEST_13_255: every reserved code gets the same refusal (42 R252). -/
def execReservedRequest13To255 (_code : Byte) (s : State) : Result := .next (requestError s)

/-- CLASS_REQUEST: handed to the function (41 R196). -/
def execClassRequest (s : State) : Result := .next (classDispatch s)

/-- GET_DESCRIPTOR_DEVICE (42 R242). -/
def execGetDescriptorDevice (s : State) : Result := .next (getDescDevice s)

/-- GET_DESCRIPTOR_CONFIGURATION (42 R243). -/
def execGetDescriptorConfiguration (didx : Byte) (s : State) : Result := .next (getDescConfig didx s)

/-- GET_DESCRIPTOR_STRING (42 R244). -/
def execGetDescriptorString (didx : Byte) (s : State) : Result := .next (getDescString didx s)

/-- GET_DESCRIPTOR_CLASS_OR_UNKNOWN (42 R245). -/
def execGetDescriptorClassOrUnknown (s : State) : Result := .next (getDescClass s)

/-- SET_CONFIGURATION_ZERO (42 R249). -/
def execSetConfigurationZero (s : State) : Result := .next (setConfigZero s)

/-- SET_CONFIGURATION_NONZERO (42 R248). -/
def execSetConfigurationNonzero (c : Byte) (s : State) : Result := .next (setConfigNonzero c s)

end Sys2Proof.Machine
end

