-- ==== Sys2Proof/Machine/Trn.lean ====
section
/-! DEFINITION. The SETUP handler and the service of a completed transaction (41 sections 2, 3 and 6). -/

namespace Sys2Proof.Machine

/-- Step 1 of the SETUP handler: the eight bytes copied (41 R194). -/
def copySetup (par : Parity) (s : State) : State := { s with setup := readBytes s.cfg.addrW s.buf (s.bd 0 .out par).address 8 }

/-- Step 3: `sie.pkt_disable <- 0` (41 R194). -/
def enablePackets (s : State) : State := { s with sie := { s.sie with pktDisable := false } }

/-- Step 5: both EP0 toggles to DATA1 (41 R194). -/
def resetEp0Toggles (s : State) : State := setToggle 0 .inp true (setToggle 0 .out true s)

/-- Step 5a: what the previous transfer left is abandoned (41 R194). -/
def abandonTransfer (s : State) : State :=
  { s with
    stage := .setup
    ctl := { s.ctl with sendShortZlp := false, bytesRemaining := 0, bytesReceived := 0 }
    addressPending := false }

/-- Steps 1 to 5a of the SETUP handler, in the source's order (41 R194, 70 R448). -/
def setupSteps (par : Parity) (s : State) : State :=
  abandonTransfer (resetEp0Toggles (ep0ArmSetup (enablePackets (cancelEp0In (copySetup par s)))))

/-- `setup_handler(bd)` (41 R194). -/
def setupHandler (par : Parity) (s : State) : State := typeDispatch (setupSteps par s)

/-- `ep0_dispatch(dir, pid, bd, n)` (41 R192). -/
def ep0Dispatch (dir : Dir) (pid : BitVec 4) (par : Parity) (n : Nat) (s : State) : State :=
  match dir with
  | .out =>
    if pid = pidSetup then setupHandler par s
    else
      match s.stage with
      | .dataOut => dataOutStep par n s
      | .statusOut => statusComplete s
      | .dataIn => statusComplete s
      | .setup => ep0ArmSetup s
      | .statusIn => ep0ArmSetup s
  | .inp =>
    match s.stage with
    | .dataIn => dataInNext s
    | .statusIn => statusComplete s
    | .setup => s
    | .dataOut => s
    | .statusOut => s

/-- `ev.trn <- 0`. -/
def clearTrn (s : State) : State := { s with ev := { s.ev with trn := false } }

/-- The completed BD of the latch (41 R191). -/
def State.latchedBd (s : State) : Bd := s.bd s.sie.lastTrn.ep s.sie.lastTrn.dir s.sie.lastTrn.parity

/-- The bookkeeping of a completion: parity and toggle (41 R191). -/
def bookCompletion (ep : Ep) (dir : Dir) (par : Parity) (pid : BitVec 4) (s : State) : State :=
  completionToggle ep dir pid (noteCompletion ep dir par s)

/-- `trn_service()` (41 R191). A latch that names no existing endpoint is discarded. -/
def trnService (s : State) : Result :=
  let l := s.sie.lastTrn
  let pid := BdStat.pid s.latchedBd.stat
  let n := s.latchedBd.count.toNat
  if s.cfg.numEp ≤ l.ep.toNat then .next (clearTrn s)
  else if l.ep = 0 then .next (ep0Dispatch l.dir pid l.parity n (bookCompletion 0 l.dir l.parity pid (clearTrn s)))
  else fnTasks l.ep l.dir l.parity n (bookCompletion l.ep l.dir l.parity pid (clearTrn s))

/-! The meanings of the formats EVENT (`TRN`) and TRN. -/

/-- TRN (41 R191). -/
def execTrn (s : State) : Result := trnService s

/-- `ep0_dispatch` (41 R192). -/
def execEp0Dispatch (dir : Dir) (pid : BitVec 4) (par : Parity) (n : Nat) (s : State) : Result :=
  .next (ep0Dispatch dir pid par n s)

/-- EP0_SETUP (41 R194). -/
def execEp0Setup (par : Parity) (s : State) : Result := .next (setupHandler par s)

/-- EP0_OUT_DATA (41 R203). -/
def execEp0OutData (par : Parity) (n : Nat) (s : State) : Result := .next (dataOutStep par n s)

/-- EP0_OUT_STATUS (41 R207). -/
def execEp0OutStatus (s : State) : Result := .next (statusComplete s)

/-- EP0_OUT_EARLY_STATUS: treated as the host's status packet (41 R208(a)). -/
def execEp0OutEarlyStatus (s : State) : Result := .next (statusComplete s)

/-- EP0_OUT_STRAY: the data is discarded, the arm restored (41 R208(b)). -/
def execEp0OutStray (s : State) : Result := .next (ep0ArmSetup s)

/-- EP0_IN_DATA (41 R201). -/
def execEp0InData (s : State) : Result := .next (dataInNext s)

/-- EP0_IN_STATUS (41 R207). -/
def execEp0InStatus (s : State) : Result := .next (statusComplete s)

/-- EP0_IN_STRAY: no effect (41 R208(c)). -/
def execEp0InStray (s : State) : Result := .next s

/-- EPN_COMPLETION: to the function's `tasks()` (41 R191, 43 R274). -/
def execEpnCompletion (ep : Ep) (dir : Dir) (par : Parity) (n : Nat) (s : State) : Result := fnTasks ep dir par n s

/-- EP_OUT_OF_RANGE: the event is discarded (41 R191). -/
def execEpOutOfRange (_ep : Ep) (s : State) : Result := .next s

end Sys2Proof.Machine
end

