-- ==== Sys2Proof/Machine/Events.lean ====
section
/-! DEFINITION. The eight events and their service (60 section 2), bus reset and power-on (70). -/

namespace Sys2Proof.Machine

/-! The bus-reset sequence (70 R430 to R435). -/

/-- Step 1, state registers (70 R430). -/
def resetRegisters (s : State) : State :=
  { (s.setScratch [0, 0]) with
    deviceState := .dflt
    suspendedFrom := .dflt
    stage := .setup
    ctl := ctlReset
    pendingAddress := 0
    addressPending := false
    currentConfiguration := 0
    remoteWakeup := false }

/-- Step 2, SIE registers (70 R431); the latch is unspecified then, a free value (10 R46). -/
def resetSie (s : State) : State :=
  { s with
    sie :=
      { s.sie with
        address := 0
        pktDisable := false
        epCtrl := s.sie.epCtrl.take 1 ++ (s.sie.epCtrl.drop 1).map (fun _ => ctrlOff)
        lastTrn :=
          ⟨(Config.powerOnLatch s.free).1, (Config.powerOnLatch s.free).2.1, (Config.powerOnLatch s.free).2.2⟩ }
    free := s.free + 1 }

/-- Step 3, every BD (70 R432). -/
def resetBdt (s : State) : State := { s with bdt := s.bdt.map (fun b => { b with stat := statClear }) }

/-- Step 4, endpoint status table and parities (70 R433). -/
def resetEps (s : State) : State :=
  { s with
    eps := s.eps.map (fun _ => epsReset)
    sie := { s.sie with ptr := s.sie.ptr.map (fun _ => .even) } }

/-- Step 5, endpoint 0 (70 R434). -/
def resetEp0 (s : State) : State :=
  ep0ArmSetup ((setAddresses 0 .inp (setAddresses 0 .out s)).setCtrl 0 ⟨true, true, true⟩)

/-- Step 6, the function (70 R435). -/
def resetFunction (s : State) : State :=
  match s.cfg.function with
  | .msc => { clearBot s with sense := noSense }
  | .cdc => s
  | .hid => s
  | .user => s

/-- The bus-reset sequence (70 R430 to R435). -/
def busReset (s : State) : State :=
  resetFunction (resetEp0 (resetEps (resetBdt (resetSie (resetRegisters s)))))

/-! Power-on (70 R440). -/

/-- `power_on_init()`: what the spec leaves unspecified becomes a free value; the media keeps its bytes. -/
def powerOnInit (s : State) : State :=
  let k := s.free
  let t :=
    { s with
      deviceState := .detached
      suspendedFrom := .dflt
      stage := .setup
      setup := (List.range 8).map (Config.powerOnSetup k)
      ctl := ctlReset
      pendingAddress := 0
      addressPending := false
      currentConfiguration := 0
      remoteWakeup := false
      eps := s.eps.map (fun _ => epsReset)
      sie :=
        { address := 0
          pktDisable := false
          epCtrl := s.sie.epCtrl.map (fun _ => ctrlOff)
          lastTrn := ⟨(Config.powerOnLatch k).1, (Config.powerOnLatch k).2.1, (Config.powerOnLatch k).2.2⟩
          enable := false
          ptr := s.sie.ptr.map (fun _ => .even) }
      ev := evReset
      bdt := (List.range s.bdt.length).map (fun i => ⟨statClear, 0, place s.cfg.addrW (Config.powerOnAddr k i) 0⟩)
      buf := memOf s.cfg.addrW (Config.powerOnByte k true)
      ram := writeBytes s.cfg.addrW
        (writeBytes s.cfg.addrW (memOf s.cfg.addrW (Config.powerOnByte k false)) s.cfg.scratch [0, 0]) s.cfg.lunAddr [0]
      free := k + 1 }
  match s.cfg.function with
  | .msc => { clearBot t with sense := noSense }
  | .cdc => t
  | .hid => t
  | .user => t

/-! The eight events. -/

/-- `on_attach()` (60 R410). -/
def onAttach (s : State) : State :=
  if s.deviceState = .detached then { s with sie := { s.sie with enable := true }, deviceState := .powered } else s

/-- `on_detach()`, also `close()` (60 R411, R428). -/
def onDetach (s : State) : State := powerOnInit { s with sie := { s.sie with enable := false } }

/-- `on_reset()`: not accepted in DETACHED (60 R412). -/
def onReset (s : State) : State := if s.deviceState = .detached then s else busReset s

/-- The device states that idle suspends (60 R413). -/
def suspendable (d : DeviceState) : Bool := d == .powered || d == .dflt || d == .address || d == .configured

/-- `on_idle()` (60 R413). -/
def onIdle (s : State) : State :=
  if suspendable s.deviceState then { s with suspendedFrom := s.deviceState, deviceState := .suspended } else s

/-- `on_activity()` (60 R414). -/
def onActivity (s : State) : State :=
  if s.deviceState = .suspended then { s with deviceState := s.suspendedFrom } else s

/-- `ev.detach <- 0; on_detach()` (60 R401). -/
def serviceDetach (s : State) : State := onDetach { s with ev := { s.ev with detach := false } }

/-- `ev.attach <- 0; on_attach()` (60 R401). -/
def serviceAttach (s : State) : State := onAttach { s with ev := { s.ev with attach := false } }

/-- `ev.activity <- 0; on_activity()` (60 R401). -/
def serviceActivity (s : State) : State := onActivity { s with ev := { s.ev with activity := false } }

/-- `ev.reset <- 0; ev.trn <- 0; ev.idle <- 0; on_reset()` (60 R401). -/
def serviceReset (s : State) : State :=
  onReset { s with ev := { s.ev with reset := false, trn := false, idle := false } }

/-- `ev.idle <- 0; on_idle()` (60 R401). -/
def serviceIdle (s : State) : State := onIdle { s with ev := { s.ev with idle := false } }

/-- `ev.sof <- 0; on_sof()` (60 R401, R415). -/
def serviceSof (s : State) : State := fnSof { s with ev := { s.ev with sof := false } }

/-- `ev.error <- 0` (60 R401, R415). -/
def serviceError (s : State) : State := { s with ev := { s.ev with error := false } }

/-- One turn of the loop of `isr()`: the first set flag in the service order (60 R401). -/
def serviceOne (s : State) : Result :=
  if s.ev.detach then .next (serviceDetach s)
  else if s.ev.attach then .next (serviceAttach s)
  else if s.ev.activity then .next (serviceActivity s)
  else if s.ev.reset then .next (serviceReset s)
  else if s.ev.idle then .next (serviceIdle s)
  else if s.ev.sof then .next (serviceSof s)
  else if s.ev.error then .next (serviceError s)
  else if s.ev.trn then trnService s
  else .next s

/-- The loop of `isr()` (60 R401): no service sets a flag, so eight turns empty it. -/
def isrLoop : Nat → State → Result
  | 0, s => .next s
  | k + 1, s => if irq s.ev then andThen (serviceOne s) (isrLoop k) else .next s

/-- `isr()` (60 R401). -/
def isr (s : State) : Result := isrLoop 8 s

/-! The meanings of the format EVENT, and of POWER_ON_INIT. -/

/-- ISR (60 R401). -/
def execIsr (s : State) : Result := isr s

/-- ATTACH (60 R410). -/
def execAttach (s : State) : Result := .next (serviceAttach s)

/-- DETACH (60 R411). -/
def execDetach (s : State) : Result := .next (serviceDetach s)

/-- RESET (60 R412). -/
def execReset (s : State) : Result := .next (serviceReset s)

/-- IDLE (60 R413). -/
def execIdle (s : State) : Result := .next (serviceIdle s)

/-- ACTIVITY (60 R414). -/
def execActivity (s : State) : Result := .next (serviceActivity s)

/-- SOF (60 R415). -/
def execSof (s : State) : Result := .next (serviceSof s)

/-- ERROR (60 R415). -/
def execError (s : State) : Result := .next (serviceError s)

/-- POWER_ON_INIT (70 R440). -/
def execPowerOnInit (s : State) : Result := .next (powerOnInit s)

end Sys2Proof.Machine
end

