-- ==== Sys2Proof/Machine/Hal.lean ====
section
/-! DEFINITION. The meanings of the formats BDSTAT and HAL (40). -/

namespace Sys2Proof.Machine

/-- `reclaim` (40 R161). -/
def execReclaim (ep : Ep) (dir : Dir) (par : Parity) (s : State) : Result := .next (reclaim ep dir par s)

/-- `arm_out` (40 R162). -/
def execArmOut (ep : Ep) (par : Parity) (tog : Bool) (n : Nat) (s : State) : Result := .next (armBd ep .out par tog n s)

/-- `arm_in` (40 R163). -/
def execArmIn (ep : Ep) (par : Parity) (tog : Bool) (n : Nat) (s : State) : Result := .next (armBd ep .inp par tog n s)

/-- `stall` (40 R165). -/
def execStall (ep : Ep) (dir : Dir) (par : Parity) (s : State) : Result := .next (stall ep dir par s)

/-- `arm_status_in` (40 R164). -/
def execArmStatusIn (s : State) : Result := .next (armStatusIn s)

/-- `rearm_out` (40 R166). -/
def execRearmOut (ep : Ep) (par : Parity) (tog : Bool) (n : Nat) (s : State) : Result :=
  .next (rearm ep .out par tog n s)

/-- `rearm_in` (40 R166). -/
def execRearmIn (ep : Ep) (par : Parity) (tog : Bool) (n : Nat) (s : State) : Result :=
  .next (rearm ep .inp par tog n s)

/-- `stall_ep` (40 R167). -/
def execStallEp (ep : Ep) (dir : Dir) (s : State) : Result := .next (stallEp ep dir s)

/-- `request_error` (40 R168). -/
def execRequestError (s : State) : Result := .next (requestError s)

/-- `unstall_ep` (40 R169). -/
def execUnstallEp (ep : Ep) (dir : Dir) (s : State) : Result := .next (unstallEp ep dir s)

/-- `note_completion` (40 R170). -/
def execNoteCompletion (ep : Ep) (dir : Dir) (par : Parity) (s : State) : Result := .next (noteCompletion ep dir par s)

/-- `pp_reset` (40 R171). -/
def execPpReset (s : State) : Result := .next (ppReset s)

/-- `ep0_arm_setup` (40 R172). -/
def execEp0ArmSetup (s : State) : Result := .next (ep0ArmSetup s)

/-- `ep0_arm_status_out` (40 R173). -/
def execEp0ArmStatusOut (s : State) : Result := .next (ep0ArmStatusOut s)

/-- `ep0_arm_data_out` (40 R174). -/
def execEp0ArmDataOut (s : State) : Result := .next (ep0ArmDataOut s)

/-- `ep0_send_in` (40 R175). -/
def execEp0SendIn (n : Nat) (s : State) : Result := .next (ep0SendIn n s)

/-- `bulk_arm_out` (40 R176). -/
def execBulkArmOut (n : Nat) (s : State) : Result := .next (bulkArmOut n s)

/-- `bulk_arm_in` (40 R176). -/
def execBulkArmIn (n : Nat) (s : State) : Result := .next (bulkArmIn n s)

end Sys2Proof.Machine
end

