-- ==== Sys2Proof/Machine/Sie.lean ====
section
/-! DEFINITION. The environment: the SIE (20 R86 to R97), the host's tokens, the backend's oracles, the software around
the block. Each turn is one atomic step (00 R18, 20 R97). -/

namespace Sys2Proof.Machine

/-- What the host observes. -/
def answer (a : Answer) (s : State) : State := { s with wire := a }

/-- The parity of the one BD that the SIE consults (20 R87). -/
def State.siePar (s : State) (ep : Ep) (dir : Dir) : Parity := if s.pp ep dir then s.ptrAt ep dir else .even

/-- The enable of an endpoint direction (10 R44). DESIGN CHOICE (log 23): the handshake enable has no effect of its own; the
spec names the bit and gives it none. -/
def State.dirEnabled (s : State) (ep : Ep) (dir : Dir) : Bool :=
  match dir with
  | .out => (s.ctrlAt ep).outEn
  | .inp => (s.ctrlAt ep).inEn

/-- The SIE answers this token at all: attached, at this address (10 R41, R47), an existing endpoint whose direction
is enabled (10 R44). -/
def State.hears (s : State) (addr : Option DevAddr) (ep : Ep) (dir : Dir) : Bool :=
  s.sie.enable && addr.getD s.sie.address == s.sie.address && ep.toNat < s.cfg.numEp && s.dirEnabled ep dir

/-- The SIE performs no transaction: `sie.pkt_disable`, or a BD that it does not own (20 R88, R96). -/
def State.mute (s : State) (ep : Ep) (dir : Dir) : Bool :=
  s.sie.pktDisable || !(s.bd ep dir (s.siePar ep dir)).stat.own

/-- Bus traffic on a suspended device is activity (60 R426). -/
def wake (s : State) : State :=
  if s.sie.enable && s.deviceState == .suspended then { s with ev := { s.ev with activity := true } } else s

/-- A transaction completed on the consulted BD: latch, flag, pointer (20 R89 to R92). -/
def complete (ep : Ep) (dir : Dir) (b : Bd) (s : State) : State :=
  let par := s.siePar ep dir
  let t := s.setBd ep dir par b
  flipPtr ep dir
    { t with
      sie := { t.sie with lastTrn := ⟨ep, dir, par⟩ }
      ev := { t.ev with trn := true }
      free := t.free + 1 }

/-- OUT or SETUP reception of at most `count` bytes (20 R90, R91). -/
def receive (ep : Ep) (pid : BitVec 4) (bytes : List Byte) (s : State) : State :=
  let b := s.bd ep .out (s.siePar ep .out)
  complete ep .out ⟨statWritten (Config.writeBackBit6 s.free) pid, BitVec.ofNat 10 bytes.length, b.address⟩
    { s with buf := writeBytes s.cfg.addrW s.buf b.address bytes }

/-- A packet longer than `count` (20 R95, 93 U3): `ev.error`, the BD, the bytes and the answer are free values; the BD's
address has `ADDR_W` bits (00 R15, 10 R49). -/
def overrun (ep : Ep) (n : Nat) (s : State) : State :=
  let par := s.siePar ep .out
  let b := s.bd ep .out par
  let x := Config.overrunBd s.free
  let t := s.setBd ep .out par { x with address := place s.cfg.addrW x.address 0 }
  { t with
    buf := writeBytes s.cfg.addrW s.buf b.address ((List.range n).map (Config.overrunByte s.free))
    ev := { s.ev with error := true }
    wire := Config.overrunAnswer s.free
    free := s.free + 1 }

/-- A SETUP transaction to endpoint 0 (20 R91): dropped without an answer where it cannot be taken (R88), and while a
completion is pending (R97). DESIGN CHOICE (log 23): it gets no answer then, and sets no `ev.error` where the BD is armed for
fewer than 8 bytes (R95). The toggle and the STALL bit are ignored. -/
def setupToken (addr : Option DevAddr) (bytes : List Byte) (s : State) : State :=
  if s.hears addr 0 .out = false ∨ s.mute 0 .out = true ∨ s.ev.trn = true then answer .none s
  else if (s.bd 0 .out (s.siePar 0 .out)).count.toNat < 8 then overrun 0 8 s
  else
    let t := receive 0 pidSetup (fit 8 bytes) s
    answer .ack { t with sie := { t.sie with pktDisable := true } }

/-- An OUT transaction (20 R88, R90, R93 to R95). What would complete waits while a completion is pending (R97). DESIGN CHOICE
(log 23): NAK then, and the same for a packet longer than `count` (R95), which sets no `ev.error` and leaves the BD. -/
def outToken (addr : Option DevAddr) (ep : Ep) (tog : Bool) (bytes : List Byte) (s : State) : State :=
  let b := s.bd ep .out (s.siePar ep .out)
  if s.hears addr ep .out = false then answer .none s
  else if s.mute ep .out then answer .nak s
  else if BdStat.stallBit b.stat then answer .stall s
  else if BdStat.dten b.stat && tog != b.stat.dtv then answer .ack s
  else if s.ev.trn then answer .nak s
  else if bytes.length ≤ b.count.toNat then answer .ack (receive ep pidOut bytes s)
  else overrun ep bytes.length s

/-- An IN transaction; without an acknowledge nothing changes (20 R88, R92, R93). While a completion is pending none is
made (R97): NAK then, DESIGN CHOICE (log 23). -/
def inToken (addr : Option DevAddr) (ep : Ep) (ack : Bool) (s : State) : State :=
  let b := s.bd ep .inp (s.siePar ep .inp)
  if s.hears addr ep .inp = false then answer .none s
  else if s.mute ep .inp then answer .nak s
  else if BdStat.stallBit b.stat then answer .stall s
  else if s.ev.trn then answer .nak s
  else
    let t := answer (.data b.stat.dtv (readBytes s.cfg.addrW s.buf b.address b.count.toNat)) s
    if ack then complete ep .inp ⟨statWritten (Config.writeBackBit6 s.free) pidIn, b.count, b.address⟩ t else t

/-! The host's own OUT toggle on the bulk OUT endpoint (30 R151). DESIGN CHOICE (log 10): when it moves; the spec says of the
host only that a Clear-Feature resets it (70 R456). -/

/-- The requests after which the host's toggle is DATA0 again: CLEAR_FEATURE(ENDPOINT_HALT) of the bulk OUT endpoint (70 R456),
SET_CONFIGURATION and SET_INTERFACE, which clear the device's (42 R248, R251). -/
def hostRestarts (c : Config) (b : List Byte) : Bool :=
  reqType b == 0 &&
    match (bRequest b).toNat with
    | 1 => recipient b == 2 && wValue b == 0 && indexEp b == c.bulkOutEp && indexDir b == .out
    | 9 => true
    | 11 => true
    | _ => false

/-- The host after an OUT packet with toggle `tog`: an acknowledged one moves its toggle on. -/
def hostAfterOut (ep : Ep) (tog : Bool) (t : State) : State :=
  if ep = t.cfg.bulkOutEp ∧ t.wire = .ack then { t with hostTog := !tog } else t

/-- The host got a data packet, perhaps an empty one. -/
def gotData (a : Answer) : Bool :=
  match a with
  | .data _ _ => true
  | _ => false

/-- The host after an IN packet: the status packet of a request of `hostRestarts`, which it acknowledges. -/
def hostAfterIn (ep : Ep) (ack : Bool) (t : State) : State :=
  if ack ∧ ep = 0 ∧ t.stage = .statusIn ∧ gotData t.wire ∧ hostRestarts t.cfg t.setup then { t with hostTog := false } else t

/-- The SIE sets an event flag (30 R150). -/
def raise (f : Events → Events) (s : State) : State := { s with ev := f s.ev }

/-- One line of a trace script (30 R150). -/
def applyLine (l : Line) (s : State) : State :=
  match l with
  | .attach => raise (fun e => { e with attach := true }) s
  | .detach => raise (fun e => { e with detach := true }) s
  | .reset => { (if s.sie.enable then raise (fun e => { e with reset := true }) s else s) with hostTog := false }
  | .idle => raise (fun e => { e with idle := true }) s
  | .activity => raise (fun e => { e with activity := true }) s
  | .sof => raise (fun e => { e with sof := true }) s
  | .error => raise (fun e => { e with error := true }) s
  | .setup addr bytes => setupToken addr bytes (wake s)
  | .out addr ep tog bytes => hostAfterOut ep tog (outToken addr ep tog bytes (wake s))
  | .inp addr ep ack => hostAfterIn ep ack (inToken addr ep ack (wake s))
  | .media present protectd => { s with mediaPresent := present, writeProtected := protectd }
  | .hostToggle tog => { s with hostTog := tog }
  | .drain => msdTasks s

/-- A turn of an agent outside the engine, or of the software around it. The turns `service` and `call` have no such
part. -/
def applyTurn (a : Turn) (s : State) : State :=
  match a with
  | .line l => applyLine l s
  | .early l => applyLine l s
  | .service => s
  | .call _ => s
  | .close => onDetach s
  | .app a => runApp a s

end Sys2Proof.Machine
end

