-- ==== Sys2Proof/Machine/Pseudo.lean ====
section
/-! DEFINITION. The pseudo-operations of a trace script (30 R150, R151): each line applied and followed by the engine's
service of the flags it raised. -/

namespace Sys2Proof.Machine

/-- The lines of a trace script in order, each followed by `isr()` (30 R150). -/
def runLines : List Line → State → Result
  | [], s => .next s
  | l :: r, s => andThen (isr (applyLine l s)) (runLines r)

/-- A control request without a data stage and its status packet (30 R151). -/
def requestLines (b : List Byte) : List Line := [.setup none b, .inp none 0 true]

/-- CLEAR_HALT (30 R151). -/
def execPseudoClearHalt (ea : Byte) (s : State) : Result :=
  runLines (requestLines [0x02, 0x01, 0, 0, ea, 0, 0, 0]) s

/-- SET_HALT (30 R151). -/
def execPseudoSetHalt (ea : Byte) (s : State) : Result := runLines (requestLines [0x02, 0x03, 0, 0, ea, 0, 0, 0]) s

/-- BOMSR as a sequence (30 R151). -/
def execBomsrSeq (s : State) : Result := runLines (requestLines [0x21, 0xFF, 0, 0, 0, 0, 0, 0]) s

/-- SET_ADDRESS as a sequence (30 R151). -/
def execSetAddressSeq (a : Byte) (s : State) : Result := runLines (requestLines [0x00, 0x05, a, 0, 0, 0, 0, 0]) s

/-- SET_CONFIG as a sequence (30 R151). -/
def execSetConfigSeq (c : Byte) (s : State) : Result := runLines (requestLines [0x00, 0x09, c, 0, 0, 0, 0, 0]) s

/-- The 31 bytes of the CBW of a trace script (30 R151). -/
def cbwSeqBytes (tag h : Word) (flags : Byte) (cdb : List Byte) : List Byte :=
  cbwBytes ⟨tag, h, flags, 0, BitVec.ofNat 8 cdb.length, cdb⟩

/-- CBW as a sequence, with the current OUT toggle of the host (30 R151). -/
def execCbwSeq (tag h : Word) (flags : Byte) (cdb : List Byte) (s : State) : Result :=
  runLines [.out none s.cfg.bulkOutEp s.hostTog (cbwSeqBytes tag h flags cdb)] s

end Sys2Proof.Machine
end

