-- ==== Sys2Proof/Machine/Dispatch.lean ====
section
/-! DEFINITION. Which meaning each operation has: one arm for each row of spec/opcode_table.json. -/

namespace Sys2Proof.Machine

def exec (i : Instr) (s : State) : Host.Outcome State Fault Refusal :=
  match i with
  | .isr => Sys2Proof.Machine.execIsr s
  | .attach => Sys2Proof.Machine.execAttach s
  | .detach => Sys2Proof.Machine.execDetach s
  | .reset => Sys2Proof.Machine.execReset s
  | .idle => Sys2Proof.Machine.execIdle s
  | .activity => Sys2Proof.Machine.execActivity s
  | .sof => Sys2Proof.Machine.execSof s
  | .error => Sys2Proof.Machine.execError s
  | .trn => Sys2Proof.Machine.execTrn s
  | .powerOnInit => Sys2Proof.Machine.execPowerOnInit s
  | .ep0Setup par => Sys2Proof.Machine.execEp0Setup par s
  | .ep0OutData par n => Sys2Proof.Machine.execEp0OutData par n s
  | .ep0OutStatus => Sys2Proof.Machine.execEp0OutStatus s
  | .ep0OutEarlyStatus => Sys2Proof.Machine.execEp0OutEarlyStatus s
  | .ep0OutStray => Sys2Proof.Machine.execEp0OutStray s
  | .ep0InData => Sys2Proof.Machine.execEp0InData s
  | .ep0InStatus => Sys2Proof.Machine.execEp0InStatus s
  | .ep0InStray => Sys2Proof.Machine.execEp0InStray s
  | .epnCompletion ep dir par n => Sys2Proof.Machine.execEpnCompletion ep dir par n s
  | .epOutOfRange ep => Sys2Proof.Machine.execEpOutOfRange ep s
  | .ep0Dispatch dir pid par n => Sys2Proof.Machine.execEp0Dispatch dir pid par n s
  | .typeDispatch => Sys2Proof.Machine.execTypeDispatch s
  | .classDispatch => Sys2Proof.Machine.execClassDispatch s
  | .standardDispatch => Sys2Proof.Machine.execStandardDispatch s
  | .startDataIn src ptr d => Sys2Proof.Machine.execStartDataIn src ptr d s
  | .dataInNext => Sys2Proof.Machine.execDataInNext s
  | .startDataOut target len => Sys2Proof.Machine.execStartDataOut target len s
  | .dataOutStep par n => Sys2Proof.Machine.execDataOutStep par n s
  | .statusComplete => Sys2Proof.Machine.execStatusComplete s
  | .vendorRequest => Sys2Proof.Machine.execVendorRequest s
  | .reservedTypeRequest => Sys2Proof.Machine.execReservedTypeRequest s
  | .getStatusDevice => Sys2Proof.Machine.execGetStatusDevice s
  | .getStatusInterface iface => Sys2Proof.Machine.execGetStatusInterface iface s
  | .getStatusEndpoint ep dir => Sys2Proof.Machine.execGetStatusEndpoint ep dir s
  | .getStatusOther => Sys2Proof.Machine.execGetStatusOther s
  | .clearFeatureDevice sel => Sys2Proof.Machine.execClearFeatureDevice sel s
  | .clearFeatureEndpoint sel ep dir => Sys2Proof.Machine.execClearFeatureEndpoint sel ep dir s
  | .clearFeatureOther => Sys2Proof.Machine.execClearFeatureOther s
  | .reservedRequest2 => Sys2Proof.Machine.execReservedRequest2 s
  | .setFeatureDevice sel => Sys2Proof.Machine.execSetFeatureDevice sel s
  | .setFeatureEndpoint sel ep dir => Sys2Proof.Machine.execSetFeatureEndpoint sel ep dir s
  | .setFeatureOther => Sys2Proof.Machine.execSetFeatureOther s
  | .reservedRequest4 => Sys2Proof.Machine.execReservedRequest4 s
  | .setAddress a => Sys2Proof.Machine.execSetAddress a s
  | .getDescriptor dtype didx => Sys2Proof.Machine.execGetDescriptor dtype didx s
  | .setDescriptor => Sys2Proof.Machine.execSetDescriptor s
  | .getConfiguration => Sys2Proof.Machine.execGetConfiguration s
  | .setConfiguration c => Sys2Proof.Machine.execSetConfiguration c s
  | .getInterface iface => Sys2Proof.Machine.execGetInterface iface s
  | .setInterface alt iface => Sys2Proof.Machine.execSetInterface alt iface s
  | .syncFrame => Sys2Proof.Machine.execSyncFrame s
  | .reservedRequest13To255 code => Sys2Proof.Machine.execReservedRequest13To255 code s
  | .classRequest => Sys2Proof.Machine.execClassRequest s
  | .getDescriptorDevice => Sys2Proof.Machine.execGetDescriptorDevice s
  | .getDescriptorConfiguration didx => Sys2Proof.Machine.execGetDescriptorConfiguration didx s
  | .getDescriptorString didx => Sys2Proof.Machine.execGetDescriptorString didx s
  | .getDescriptorClassOrUnknown => Sys2Proof.Machine.execGetDescriptorClassOrUnknown s
  | .setConfigurationZero => Sys2Proof.Machine.execSetConfigurationZero s
  | .setConfigurationNonzero c => Sys2Proof.Machine.execSetConfigurationNonzero c s
  | .bomsr => Sys2Proof.Machine.execBomsr s
  | .getMaxLun => Sys2Proof.Machine.execGetMaxLun s
  | .mscClassOther => Sys2Proof.Machine.execMscClassOther s
  | .cdcSetLineCoding => Sys2Proof.Machine.execCdcSetLineCoding s
  | .cdcGetLineCoding => Sys2Proof.Machine.execCdcGetLineCoding s
  | .cdcSetControlLineState dtr rts => Sys2Proof.Machine.execCdcSetControlLineState dtr rts s
  | .cdcSendEncapsulatedCommand => Sys2Proof.Machine.execCdcSendEncapsulatedCommand s
  | .cdcGetEncapsulatedResponse => Sys2Proof.Machine.execCdcGetEncapsulatedResponse s
  | .hidGetReport rtype rid => Sys2Proof.Machine.execHidGetReport rtype rid s
  | .hidSetReport rtype rid => Sys2Proof.Machine.execHidSetReport rtype rid s
  | .hidGetIdle rid => Sys2Proof.Machine.execHidGetIdle rid s
  | .hidSetIdle duration rid => Sys2Proof.Machine.execHidSetIdle duration rid s
  | .hidGetProtocol => Sys2Proof.Machine.execHidGetProtocol s
  | .hidSetProtocol => Sys2Proof.Machine.execHidSetProtocol s
  | .hookClassRequest => Sys2Proof.Machine.execHookClassRequest s
  | .hookGetClassDescriptor => Sys2Proof.Machine.execHookGetClassDescriptor s
  | .hookInit => Sys2Proof.Machine.execHookInit s
  | .hookTasks ep dir par n => Sys2Proof.Machine.execHookTasks ep dir par n s
  | .hookClearHalt index ep dir => Sys2Proof.Machine.execHookClearHalt index ep dir s
  | .hookSetInterface alt iface => Sys2Proof.Machine.execHookSetInterface alt iface s
  | .hookGetInterface iface => Sys2Proof.Machine.execHookGetInterface iface s
  | .hookOutControlFinished => Sys2Proof.Machine.execHookOutControlFinished s
  | .hookInterfaceEndpoints iface => Sys2Proof.Machine.execHookInterfaceEndpoints iface s
  | .reclaim ep dir par => Sys2Proof.Machine.execReclaim ep dir par s
  | .armOut ep par tog n => Sys2Proof.Machine.execArmOut ep par tog n s
  | .armIn ep par tog n => Sys2Proof.Machine.execArmIn ep par tog n s
  | .stall ep dir par => Sys2Proof.Machine.execStall ep dir par s
  | .armStatusIn => Sys2Proof.Machine.execArmStatusIn s
  | .rearmOut ep par tog n => Sys2Proof.Machine.execRearmOut ep par tog n s
  | .rearmIn ep par tog n => Sys2Proof.Machine.execRearmIn ep par tog n s
  | .stallEp ep dir => Sys2Proof.Machine.execStallEp ep dir s
  | .requestError => Sys2Proof.Machine.execRequestError s
  | .unstallEp ep dir => Sys2Proof.Machine.execUnstallEp ep dir s
  | .noteCompletion ep dir par => Sys2Proof.Machine.execNoteCompletion ep dir par s
  | .ppReset => Sys2Proof.Machine.execPpReset s
  | .ep0ArmSetup => Sys2Proof.Machine.execEp0ArmSetup s
  | .ep0ArmStatusOut => Sys2Proof.Machine.execEp0ArmStatusOut s
  | .ep0ArmDataOut => Sys2Proof.Machine.execEp0ArmDataOut s
  | .ep0SendIn n => Sys2Proof.Machine.execEp0SendIn n s
  | .bulkArmOut n => Sys2Proof.Machine.execBulkArmOut n s
  | .bulkArmIn n => Sys2Proof.Machine.execBulkArmIn n s
  | .msdTasks => Sys2Proof.Machine.execMsdTasks s
  | .botEnqueue ep dir par n => Sys2Proof.Machine.execBotEnqueue ep dir par n s
  | .botCbwReceived par n => Sys2Proof.Machine.execBotCbwReceived par n s
  | .botDataOutChunk par n => Sys2Proof.Machine.execBotDataOutChunk par n s
  | .botDataInNext => Sys2Proof.Machine.execBotDataInNext s
  | .botDataInEnd => Sys2Proof.Machine.execBotDataInEnd s
  | .botCswSent => Sys2Proof.Machine.execBotCswSent s
  | .botStaleEntry => Sys2Proof.Machine.execBotStaleEntry s
  | .cbwValid c => Sys2Proof.Machine.execCbwValid c s
  | .cbwInvalid => Sys2Proof.Machine.execCbwInvalid s
  | .arbitrate e d src => Sys2Proof.Machine.execArbitrate e d src s
  | .botCase1 => Sys2Proof.Machine.execBotCase1 s
  | .botCase2 => Sys2Proof.Machine.execBotCase2 s
  | .botCase3 => Sys2Proof.Machine.execBotCase3 s
  | .botCase4 => Sys2Proof.Machine.execBotCase4 s
  | .botCase5 d src => Sys2Proof.Machine.execBotCase5 d src s
  | .botCase6 d src => Sys2Proof.Machine.execBotCase6 d src s
  | .botCase7 src => Sys2Proof.Machine.execBotCase7 src s
  | .botCase8 => Sys2Proof.Machine.execBotCase8 s
  | .botCase9 => Sys2Proof.Machine.execBotCase9 s
  | .botCase10 => Sys2Proof.Machine.execBotCase10 s
  | .botCase11 d => Sys2Proof.Machine.execBotCase11 d s
  | .botCase12 d => Sys2Proof.Machine.execBotCase12 d s
  | .botCase13 => Sys2Proof.Machine.execBotCase13 s
  | .startIn src total act => Sys2Proof.Machine.execStartIn src total act s
  | .startOut total act => Sys2Proof.Machine.execStartOut total act s
  | .stallAndWait dir => Sys2Proof.Machine.execStallAndWait dir s
  | .sendInChunk => Sys2Proof.Machine.execSendInChunk s
  | .endOfDataIn => Sys2Proof.Machine.execEndOfDataIn s
  | .dataOutChunk par n => Sys2Proof.Machine.execDataOutChunk par n s
  | .sendCsw => Sys2Proof.Machine.execSendCsw s
  | .cswComplete => Sys2Proof.Machine.execCswComplete s
  | .failCommand e key asc ascq => Sys2Proof.Machine.execFailCommand e key asc ascq s
  | .phaseFail => Sys2Proof.Machine.execPhaseFail s
  | .botClearHalt index ep dir => Sys2Proof.Machine.execBotClearHalt index ep dir s
  | .botInit => Sys2Proof.Machine.execBotInit s
  | .cswWrapper => Sys2Proof.Machine.execCswWrapper s
  | .testUnitReady => Sys2Proof.Machine.execTestUnitReady s
  | .requestSense alloc => Sys2Proof.Machine.execRequestSense alloc s
  | .inquiry => Sys2Proof.Machine.execInquiry s
  | .modeSense6 => Sys2Proof.Machine.execModeSense6 s
  | .readCapacity10 lba pmi => Sys2Proof.Machine.execReadCapacity10 lba pmi s
  | .read10 lba len => Sys2Proof.Machine.execRead10 lba len s
  | .write10 lba len => Sys2Proof.Machine.execWrite10 lba len s
  | .scsiUnknownOpcode => Sys2Proof.Machine.execScsiUnknownOpcode s
  | .scsiDispatch => Sys2Proof.Machine.execScsiDispatch s
  | .respond bytes d => Sys2Proof.Machine.execRespond bytes d s
  | .senseOnComplete => Sys2Proof.Machine.execSenseOnComplete s
  | .rwParse => Sys2Proof.Machine.execRwParse s
  | .pseudoClearHalt ea => Sys2Proof.Machine.execPseudoClearHalt ea s
  | .pseudoSetHalt ea => Sys2Proof.Machine.execPseudoSetHalt ea s
  | .bomsrSeq => Sys2Proof.Machine.execBomsrSeq s
  | .setAddressSeq a => Sys2Proof.Machine.execSetAddressSeq a s
  | .setConfigSeq c => Sys2Proof.Machine.execSetConfigSeq c s
  | .cbwSeq tag h flags cdb => Sys2Proof.Machine.execCbwSeq tag h flags cdb s

end Sys2Proof.Machine
end

