-- ==== Sys2Proof/Machine/Fetch.lean ====
section
/-! DEFINITION. Where the next operation comes from: the turn at the head of the script, the event flags decoded in the
service order (60 R401), the main loop (43 R281), the software around the block (43 R278, 70 R442). -/

namespace Sys2Proof.Machine

/-- The operations that software outside the engine may start: HAL calls on its own non-zero endpoints (43 R278),
`init()` (60 R428), `msd_tasks` (43 R281), the interrupt's routine (70 R442), the pseudo-operations of a trace script
(30 R151). -/
def callable (c : Config) (i : Instr) : Bool :=
  match i with
  | .reclaim ep dir par => ownBd c ep dir par
  | .armOut ep par _ _ => ownBd c ep .out par
  | .armIn ep par _ _ => ownBd c ep .inp par
  | .rearmOut ep par _ _ => ownBd c ep .out par
  | .rearmIn ep par _ _ => ownBd c ep .inp par
  | .stallEp ep dir => ownDir c ep dir
  | .powerOnInit => true
  | .msdTasks => true
  | .isr => true
  | .pseudoClearHalt _ => true
  | .pseudoSetHalt _ => true
  | .bomsrSeq => true
  | .setAddressSeq _ => true
  | .setConfigSeq _ => true
  | .cbwSeq _ _ _ _ => true
  | _ => false

/-- A line of the SIE, the host or the backend, which needs no engine step before it (00 R18). -/
def Line.outside : Line → Bool
  | .drain => false
  | .attach => true
  | .detach => true
  | .reset => true
  | .idle => true
  | .activity => true
  | .sof => true
  | .error => true
  | .setup _ _ => true
  | .out _ _ _ _ => true
  | .inp _ _ _ => true
  | .media _ _ => true
  | .hostToggle _ => true

/-- While the flag of `i` is pending: the engine services it, unless the turn is the SIE's, the host's or the backend's,
or a call of the whole `isr()` (70 R442). Every main-loop turn waits until no flag is being serviced (43 R281, 20 R85),
every line of a trace script until the flags of the line before are (30 R150). -/
def fetchPending (i : Instr) (s : State) : Option (Instr × State) :=
  match s.script with
  | .service :: r => some (i, { s with script := r })
  | .early l :: _ => if l.outside then none else some (i, s)
  | .call j :: r => if j = .isr then some (.isr, { s with script := r }) else some (i, s)
  | _ => some (i, s)

/-- With no flag set: the main loop's turn, if it is next; with nothing scripted the main loop drains the ring (70
R442). -/
def fetchIdle (s : State) : Option (Instr × State) :=
  match s.script with
  | [] => if s.bot.q = [] then none else some (.msdTasks, s)
  | .line .drain :: r => some (.msdTasks, { s with script := r })
  | .early .drain :: r => some (.msdTasks, { s with script := r })
  | .call i :: r => if callable s.cfg i then some (i, { s with script := r }) else none
  | _ => none

/-- The operation that runs next and the state it runs on; none where the turn is not the engine's. -/
def fetch (s : State) : Option (Instr × State) :=
  match decodeEvent s.ev with
  | some i => fetchPending i s
  | none => fetchIdle s

/-- A turn of an agent outside the engine (60 R420). An empty script, no flag, an empty ring: the machine is quiescent (10
R52). -/
def environment (s : State) : State :=
  match s.script with
  | [] => s
  | a :: r => applyTurn a { s with script := r }

/-! Placing an instruction word where `step` takes its next operation from (log 4, log 9). -/

/-- A SETUP packet received and about to be served: the eight bytes in the EP0 OUT buffer, the BD written back with
PID SETUP, the latch and `ev.trn` (20 R91). -/
def placeSetup (b : List Byte) (s : State) : State :=
  let d := s.bd 0 .out .even
  let t := s.setBd 0 .out .even ⟨statWritten false pidSetup, 8, d.address⟩
  { t with
    buf := writeBytes t.cfg.addrW t.buf d.address b
    sie := { t.sie with lastTrn := ⟨0, .out, .even⟩ }
    ev := { evReset with trn := true }
    script := .service :: t.script }

/-- A 31-byte packet received in state CBW and about to be drained; no flag is pending. -/
def placeCbw (b : List Byte) (s : State) : State :=
  let a := (s.bd s.cfg.bulkOutEp .out .even).address
  { s with
    buf := writeBytes s.cfg.addrW s.buf a (fit 31 b)
    bot := { s.bot with state := .cbw, q := [⟨.out, .even, 31⟩] }
    ev := evReset
    script := .line .drain :: s.script }

/-- A call of software around the engine, next; no flag is pending. -/
def placeCall (i : Instr) (s : State) : State := { s with ev := evReset, script := .call i :: s.script }

/-- The CDC function bound, with its two interfaces (46 R370). -/
def bindCdc (s : State) : State := { s with cfg := { s.cfg with function := .cdc, numInterfaces := 2 } }

/-- The function that a class request of format CLASS16 belongs to (30 R148). -/
def bindFor (i : Instr) (s : State) : State :=
  match i with
  | .cdcSetLineCoding => bindCdc s
  | .cdcGetLineCoding => bindCdc s
  | .cdcSetControlLineState _ _ => bindCdc s
  | .cdcSendEncapsulatedCommand => bindCdc s
  | .cdcGetEncapsulatedResponse => bindCdc s
  | _ => s

/-- An 8-bit word: a SCSI opcode in a CBW, a descriptor type in a GET_DESCRIPTOR, a status byte in a HAL call, the status
byte of a stall in a SET_FEATURE(ENDPOINT_HALT), which the engine stalls. -/
def placeByte (w : Nat) (s : State) : State :=
  match decodeTableWord 8 w with
  | none => s
  | some i =>
    match i with
    | .getDescriptorDevice => placeSetup [0x80, 6, 0, tableByte w 0, 0, 0, 0, 0] s
    | .getDescriptorConfiguration _ => placeSetup [0x80, 6, 0, tableByte w 0, 0, 0, 0, 0] s
    | .getDescriptorString _ => placeSetup [0x80, 6, 0, tableByte w 0, 0, 0, 0, 0] s
    | .reclaim _ _ _ => placeCall i s
    | .armOut _ _ _ _ => placeCall i s
    | .armIn _ _ _ _ => placeCall i s
    | .stall _ _ _ => placeSetup [0x02, 3, 0, 0, epAddress s.cfg.bulkOutEp .out, 0, 0, 0] s
    | _ => placeCbw (le32Bytes cbwSignature ++ List.replicate 11 0 ++ [tableByte w 0]) s

/-- `s` with an instruction of the operation table placed so that the next step runs it. -/
def placeWord (nbits w : Nat) (s : State) : State :=
  if nbits = 8 then placeByte w s
  else if nbits = 16 then
    if w = 0x025 ∨ w = 0x125 then placeCbw (le32Bytes cbwSignature ++ List.replicate 11 0 ++ [0x25]) s
    else
      match decodeTableWord 16 w with
      | none => s
      | some i => placeSetup (tableSetup w) (bindFor i s)
  else if nbits = 32 then placeCbw (fit 31 [tableByte w 0, tableByte w 1, tableByte w 2, tableByte w 3]) s
  else s

end Sys2Proof.Machine
end

