-- ==== Sys2Proof/Machine/Step.lean ====
section
/-! DEFINITION. One step: the next operation run, or a turn of an agent outside the engine. -/

namespace Sys2Proof.Machine

/-- One step of the machine: one turn of one agent (60 R420), atomic (00 R18). -/
def step (s : State) : Host.Outcome State Fault Refusal :=
  match fetch s with
  | some (i, t) => exec i t
  | none => .next (environment s)

/-- `s` with that instruction placed so that the next step runs it (log 4). -/
def State.withFetchWord (s : State) (nbits w : Nat) : State := placeWord nbits w s

end Sys2Proof.Machine
end

