-- ==== Sys2Proof/Safety.lean ====
section
/-! DEFINITION. What a safe state is: the invariants that statements name, and what a step may leave unchanged. -/

namespace Sys2Proof.Machine

/-- Every table has the size that the configuration gives it (20 R70, 10 R24, R31, R35, R36, R44, R50), the ring at
most four entries (R51). -/
structure State.Shaped (s : State) : Prop where
  bdt : s.bdt.length = bdtEntries s.cfg.ppMode s.cfg.numEp
  eps : s.eps.length = 2 * s.cfg.numEp
  ptr : s.sie.ptr.length = 2 * s.cfg.numEp
  ctrl : s.sie.epCtrl.length = s.cfg.numEp
  setup : s.setup.length = 8
  cbw : s.cbw.length = 31
  resp : s.bot.resp.length = 36
  ring : s.bot.q.length ≤ 4

/-- Every memory is in its canonical form, so that equal contents are equal data. -/
structure State.Canonical (s : State) : Prop where
  buf : memWf s.buf
  ram : memWf s.ram
  media : memWf s.media

/-- The address of every BD has `ADDR_W` bits (00 R15, 10 R49). -/
def State.BdsFit (s : State) : Prop := ∀ b ∈ s.bdt, @LT.lt Nat _ b.address (2 ^ s.cfg.addrW)

/-- Endpoint 0 is never halted (10 R38). -/
def State.Ep0Clear (s : State) : Prop := ∀ dir, (s.epsAt 0 dir).halted = false

/-- The device states and the SIE's attachment agree (60 R410 to R416, 10 R47): DETACHED exactly while the module is
off, no completion is pending then, ATTACHED is never left behind by a step, a suspend returns to a state that can be
suspended. -/
structure State.BusState (s : State) : Prop where
  enable : s.deviceState = .detached ↔ s.sie.enable = false
  quiet : s.sie.enable = false → s.ev.trn = false
  transient : s.deviceState ≠ .attached
  back : suspendable s.suspendedFrom = true

/-- Engine and SIE agree on the next parity of a ping-ponged direction (10 R50), but for the one completion that is
latched and not yet serviced (20 R89, 41 R191). -/
def State.InStep (s : State) : Prop :=
  ∀ ep dir, s.pp ep dir = true → ep.toNat < s.cfg.numEp →
    if s.ev.trn = true ∧ s.sie.lastTrn.ep = ep ∧ s.sie.lastTrn.dir = dir then
      s.nextPar ep dir = s.sie.lastTrn.parity ∧ s.ptrAt ep dir = s.sie.lastTrn.parity.other
    else s.ptrAt ep dir = s.nextPar ep dir

/-- Nothing is left to do but for the SIE: no flag is set and the ring is empty; BDs may be armed (10 R52). -/
def State.Quiescent (s : State) : Prop := decodeEvent s.ev = none ∧ s.bot.q = []

/-- EP0 OUT is ready for the next packet of the host: the BD at `next_par(0, OUT)` is armed, and no other EP0 OUT BD
is (70 R441). -/
def State.Ep0OutArmed (s : State) : Prop :=
  ∀ par ∈ parities s.cfg.ppMode 0 .out, (s.bd 0 .out par).stat.own = decide (par = s.nextPar 0 .out)

/-- Only the named BD may differ. -/
def SameBdsBut (ep : Ep) (dir : Dir) (par : Parity) (s t : State) : Prop :=
  ∀ e d p, bdIndex s.cfg.ppMode e d p ≠ bdIndex s.cfg.ppMode ep dir par → t.bd e d p = s.bd e d p

/-- Only the BDs of the named endpoint direction may differ. -/
def SameBdsButEp (ep : Ep) (dir : Dir) (s t : State) : Prop :=
  ∀ e d p, (e ≠ ep ∨ d ≠ dir) → t.bd e d p = s.bd e d p

/-- Only the record of the named endpoint direction may differ. -/
def SameEpsBut (ep : Ep) (dir : Dir) (s t : State) : Prop :=
  ∀ e d, (e ≠ ep ∨ d ≠ dir) → t.epsAt e d = s.epsAt e d

/-- Every byte outside the `n` bytes at `a` reads as before; addresses have `w` bits (log 8). -/
def SameBytesBut (w : Nat) (a : Addr) (n : Nat) (m m' : Memory) : Prop :=
  ∀ k, (∀ i, i < n → k ≠ place w a i) → memRead m' k = memRead m k

/-- The triple names a BD of this machine (20 R80). -/
def State.validBd (s : State) (ep : Ep) (dir : Dir) (par : Parity) : Prop :=
  ep.toNat < s.cfg.numEp ∧ (par = .even ∨ s.pp ep dir = true)

/-- What every state of a configured machine meets: a well-formed configuration, tables of its sizes, canonical
memories. -/
structure State.Sound (s : State) : Prop where
  cfg : s.cfg.wf = true
  shaped : s.Shaped
  canonical : s.Canonical

/-- EP0 OUT between its completion and the service of that completion, and otherwise (70 R441). -/
def State.Ep0OutReady (s : State) : Prop :=
  if s.ev.trn = true ∧ s.sie.lastTrn.ep = 0 ∧ s.sie.lastTrn.dir = .out then
    ∀ par ∈ parities s.cfg.ppMode 0 .out, (s.bd 0 .out par).stat.own = false
  else s.Ep0OutArmed

/-! What an operation did, from the state `s` (with its other updates already made) to the state `t`. Each says all of
it: the last field is the frame. -/

/-- A BD handed to the SIE (40 R162, R163). -/
def armedBd (tog : Bool) (n : Nat) (a : Addr) : Bd := ⟨statArmed true tog, BitVec.ofNat 10 n, a⟩

/-- The address of the BD that the next arm of an endpoint direction uses. -/
def State.nextAddr (s : State) (ep : Ep) (dir : Dir) : Addr := (s.bd ep dir (s.nextPar ep dir)).address

/-- One BD became `b`; nothing else changed. -/
structure WritesBd (ep : Ep) (dir : Dir) (par : Parity) (b : Bd) (s t : State) : Prop where
  bd : t.bd ep dir par = b
  others : SameBdsBut ep dir par s t
  rest : t = { s with bdt := t.bdt }

/-- The next BD of an endpoint direction was armed; nothing else changed (40 R166). -/
def ArmsNext (ep : Ep) (dir : Dir) (tog : Bool) (n : Nat) (s t : State) : Prop :=
  WritesBd ep dir (s.nextPar ep dir) (armedBd tog n (s.nextAddr ep dir)) s t

/-- "Ends with STATUS_IN" (42): a zero-length DATA1 packet armed on EP0 IN, `stage = STATUS_IN`. -/
def EndsStatusIn (s t : State) : Prop := ArmsNext 0 .inp true 0 { s with stage := .statusIn } t

/-- `RequestError` (40 R168, 60 R391): EP0 IN stalled on every parity, `stage = SETUP`. -/
structure RefusesRequest (s t : State) : Prop where
  stalled : ∀ par ∈ parities s.cfg.ppMode 0 .inp, t.bd 0 .inp par = { s.bd 0 .inp par with stat := statStalled }
  others : SameBdsButEp 0 .inp s t
  rest : t = { s with stage := .setup, bdt := t.bdt }

/-- Every BD of an endpoint direction was stalled; a non-zero endpoint is halted (40 R167). -/
structure StallsEp (ep : Ep) (dir : Dir) (s t : State) : Prop where
  stalled : ∀ par ∈ parities s.cfg.ppMode ep dir, t.bd ep dir par = { s.bd ep dir par with stat := statStalled }
  others : SameBdsButEp ep dir s t
  halted : t.epsAt ep dir = { s.epsAt ep dir with halted := if ep = 0 then (s.epsAt ep dir).halted else true }
  otherEps : SameEpsBut ep dir s t
  rest : t = { s with bdt := t.bdt, eps := t.eps }

/-- The bytes `b` were put into a memory at the address `a`, of `w` bits; every other byte reads as before. -/
structure HoldsAt (w : Nat) (a : Addr) (b : List Byte) (m m' : Memory) : Prop where
  bytes : ∀ i, i < b.length → memRead m' (place w a i) = byteAt b i
  others : SameBytesBut w a b.length m m'

/-- The packet `b` was put into the next IN buffer of an endpoint and armed with the endpoint's toggle (40 R175, R176);
nothing else changed. -/
structure SendsIn (ep : Ep) (b : List Byte) (s t : State) : Prop where
  bytes : HoldsAt s.cfg.addrW (s.nextAddr ep .inp) b s.buf t.buf
  armed : t.bd ep .inp (s.nextPar ep .inp) = armedBd (s.epsAt ep .inp).toggle b.length (s.nextAddr ep .inp)
  others : SameBdsBut ep .inp (s.nextPar ep .inp) s t
  rest : t = { s with bdt := t.bdt, buf := t.buf }

/-- A function's packet `b` was put into its own next IN buffer, `BUF(ep, IN, par)`, and the BD armed with the endpoint's
toggle, its address as it was (43 R278); nothing else changed. -/
structure SendsOwn (ep : Ep) (b : List Byte) (s t : State) : Prop where
  bytes : HoldsAt s.cfg.addrW (s.bufAddr ep .inp (s.nextPar ep .inp)) b s.buf t.buf
  armed : t.bd ep .inp (s.nextPar ep .inp) = armedBd (s.epsAt ep .inp).toggle b.length (s.nextAddr ep .inp)
  others : SameBdsBut ep .inp (s.nextPar ep .inp) s t
  rest : t = { s with bdt := t.bdt, buf := t.buf }

/-- What a write of `BUF(ep, dir, par)` to that BD's address leaves there: the address of the buffer, and no known one where
the SIE owns the BD (43 R273, 70 R445). -/
def State.Addressed (s : State) (ep : Ep) (dir : Dir) (par : Parity) (a : Addr) : Prop :=
  (s.bd ep dir par).stat.own = false → a = s.bufAddr ep dir par

/-- Objects of the given places and sizes read zero; every byte outside them reads as before (43 R273). -/
structure ZeroesObjects (w : Nat) (l : List (Addr × Nat)) (m m' : Memory) : Prop where
  zero : ∀ x ∈ l, ∀ i, i < x.2 → memRead m' (place w x.1 i) = 0
  others : ∀ k, (∀ x ∈ l, ∀ i, i < x.2 → k ≠ place w x.1 i) → memRead m' k = memRead m k

/-- An answer of the engine was built in `ctl.scratch` and its DATA_IN stage started (42 R231). -/
def AnswersScratch (b : List Byte) (s t : State) : Prop :=
  ∃ u, HoldsAt s.cfg.addrW s.cfg.scratch b s.ram u.ram ∧ u = { s with ram := u.ram } ∧
    exec (.startDataIn .ram s.cfg.scratch b.length) u = .next t

/-- The operations that reach the commit of a device address, a bus reset or a re-initialisation (41 R209(d)). -/
def mayReaddress : Instr → Bool
  | .isr => true
  | .detach => true
  | .reset => true
  | .trn => true
  | .powerOnInit => true
  | .ep0Dispatch _ _ _ _ => true
  | .ep0OutStatus => true
  | .ep0OutEarlyStatus => true
  | .ep0InStatus => true
  | .statusComplete => true
  | .pseudoClearHalt _ => true
  | .pseudoSetHalt _ => true
  | .bomsrSeq => true
  | .setAddressSeq _ => true
  | .setConfigSeq _ => true
  | .cbwSeq _ _ _ _ => true
  | _ => false

/-- The hooks of the function port (43 R270, R282). -/
def isHook : Instr → Bool
  | .hookClassRequest => true
  | .hookGetClassDescriptor => true
  | .hookInit => true
  | .hookTasks _ _ _ _ => true
  | .hookClearHalt _ _ _ => true
  | .hookSetInterface _ _ => true
  | .hookGetInterface _ => true
  | .hookOutControlFinished => true
  | .hookInterfaceEndpoints _ => true
  | _ => false

/-- The SIE hears a token: attached (10 R47), at its address (R41), an existing endpoint whose direction is enabled
(R44). -/
def State.listens (s : State) (addr : Option DevAddr) (ep : Ep) (dir : Dir) : Prop :=
  s.sie.enable = true ∧ (addr = none ∨ addr = some s.sie.address) ∧ ep.toNat < s.cfg.numEp ∧
    (dir = .out → (s.ctrlAt ep).outEn = true) ∧ (dir = .inp → (s.ctrlAt ep).inEn = true)

/-- A completed transaction: the BD handed back with `PID` and count, latch, flag and pointer written, the host's
answer; nothing else changed but the buffer and the host's own toggle (20 R89 to R92). -/
structure Completes (ep : Ep) (dir : Dir) (par : Parity) (pid : BitVec 4) (n : Nat) (pkt : Bool) (w : Answer)
    (s t : State) : Prop where
  own : (t.bd ep dir par).stat.own = false
  pid : BdStat.pid (t.bd ep dir par).stat = pid
  count : (t.bd ep dir par).count = BitVec.ofNat 10 n
  address : (t.bd ep dir par).address = (s.bd ep dir par).address
  bds : SameBdsBut ep dir par s t
  ptr : t.ptrAt ep dir = if s.pp ep dir then (s.ptrAt ep dir).other else s.ptrAt ep dir
  ptrs : ∀ e d, (e ≠ ep ∨ d ≠ dir) → t.ptrAt e d = s.ptrAt e d
  rest : t =
    { s with
      bdt := t.bdt
      buf := t.buf
      sie := { s.sie with lastTrn := ⟨ep, dir, par⟩, ptr := t.sie.ptr, pktDisable := pkt }
      ev := { s.ev with trn := true }
      wire := w
      hostTog := t.hostTog
      free := t.free }

end Sys2Proof.Machine
end

