-- ==== Sys2Proof/Certificates/Slice0/Obligations.lean ====
section
/-! DEFINITION. The statements for the provers. -/

open Sys2Proof Sys2Proof.Machine

/-! Encodings. -/

/-- Every well-formed instruction that has a word decodes from it, with every operand; and whatever the decoder reads has
a word (30 R146, R148). -/
def Obligations.DecodeEncodeRoundTrip : Prop :=
  (∀ (c : Config) (i : Instr) (w : OpWord), c.wf = true → i.wf c = true → encode c i = some w → decode c w = some i) ∧
    ∀ (c : Config) (w : OpWord) (i : Instr), decode c w = some i → ∃ w', encode c i = some w'

/-- Words written out from the spec's encodings decode to what they stand for, and words of no operation are refused
(30 R110 to R122, R135 to R138, 95). -/
def Obligations.SpecWordsDecode : Prop :=
  ∀ c : Config, c.numEp = 2 →
    decode c (.setup [0x80, 0x06, 0x00, 0x01, 0x00, 0x00, 0x40, 0x00]) = some (.getDescriptor 1 0) ∧
    decode c (.setup [0x00, 0x05, 0x05, 0x00, 0x00, 0x00, 0x00, 0x00]) = some (.setAddress 5) ∧
    decode c (.setup [0x02, 0x01, 0x00, 0x00, 0x81, 0x00, 0x00, 0x00]) = some (.clearFeatureEndpoint 0 1 .inp) ∧
    decode c (.setup [0x40, 0x01, 0x00, 0x00, 0x00, 0x00, 0x00, 0x00]) = some .vendorRequest ∧
    decode c (.setup [0x21, 0xFF, 0x00, 0x00, 0x00, 0x00, 0x00, 0x00]) = some .classRequest ∧
    decode c (.setup [0x80, 0x06, 0x00, 0x01, 0x00, 0x00, 0x40]) = none ∧
    decode c (.classReq .msc [0xA1, 0xFE, 0x00, 0x00, 0x00, 0x00, 0x01, 0x00]) = some .getMaxLun ∧
    decode c (.classReq .cdc [0x21, 0x02, 0x00, 0x00, 0x00, 0x00, 0x00, 0x00]) = none ∧
    decode c (.bdStat 0xC8 0 .inp .even 18) = some (.armIn 0 .even true 18) ∧
    decode c (.bdStat 0x84 1 .inp .even 0) = some (.stall 1 .inp .even) ∧
    decode c (.bdStat 0x48 1 .inp .even 0) = none ∧
    decode c (.trn 0 .out .even 0b1101 .dataIn 8) = some (.ep0Setup .even) ∧
    decode c (.trn 1 .out .even 0b0001 .setup 31) = some (.epnCompletion 1 .out .even 31) ∧
    decode c (.trn 2 .out .even 0b0001 .setup 31) = some (.epOutOfRange 2) ∧
    decode c (.botStep .waitIllegal .inp .even 0) = some .botStaleEntry ∧
    decode c (.cdb [0x28, 0x00, 0x00, 0x00, 0x00, 0x10, 0x00, 0x01, 0x02, 0x00]) = some (.read10 0x10 0x102) ∧
    decode c (.bot13 .di 36 255 true .resp) = some (.botCase5 36 .resp) ∧
    decode c (.bot13 .dO 0 0 false .backend) = some .botCase1 ∧
    decode c (.event ⟨false, false, false, true, true, false, false, false⟩) = some .sof

/-! A step runs what was decoded. -/

/-- What a turn comes to. While a flag is pending the interrupt routine serves it, unless the turn is the SIE's, the host's or
the backend's; the main loop and the next line of a script wait. With no flag the turn is taken, an empty script drains the
ring, and a state with no flag and an empty ring rests (60 R401, R420, R428, 10 R52, 20 R85, 30 R150). The model's choices: the
order of the turns (log 4); which calls software outside the engine may make (`callable`), and that any other call of a script
is skipped (log 19). -/
def Obligations.StepRunsTheDecodedOperation : Prop :=
  ∀ (s : State) (r : List Turn),
    let u : State := { s with script := r }
    (∀ i, decodeEvent s.ev = some i →
      (s.script = [] → step s = exec i s) ∧
      (s.script = .service :: r → step s = exec i u) ∧
      (s.script = .call .isr :: r → step s = exec .isr u) ∧
      (∀ j, j ≠ .isr → s.script = .call j :: r → step s = exec i s) ∧
      (∀ l, l ≠ .drain → s.script = .early l :: r → step s = .next (applyLine l u)) ∧
      (∀ a, (∃ l, a = .line l) ∨ a = .early .drain ∨ a = .close ∨ (∃ b, a = .app b) → s.script = a :: r →
        step s = exec i s)) ∧
    (decodeEvent s.ev = none →
      (s.script = [] → s.bot.q ≠ [] → step s = exec .msdTasks s) ∧
      (s.script = .service :: r → step s = .next u) ∧
      (∀ j, s.script = .call j :: r → callable s.cfg j = true → step s = exec j u) ∧
      (∀ j, s.script = .call j :: r → callable s.cfg j = false → step s = .next u) ∧
      (∀ a, a = .line .drain ∨ a = .early .drain → s.script = a :: r → step s = exec .msdTasks u) ∧
      (∀ a l, l ≠ .drain → a = .line l ∨ a = .early l → s.script = a :: r → step s = .next (applyLine l u)) ∧
      (s.script = .close :: r → step s = exec .powerOnInit { u with sie := { s.sie with enable := false } }) ∧
      (∀ a, s.script = .app a :: r → step s = .next (runApp a u))) ∧
    (s.Quiescent → s.script = [] → step s = .next s)

/-- The service of a completion runs the operation that its latch, PID and stage decode to, after the bookkeeping of
R191 (41 R191, R192). -/
def Obligations.TransactionRunsDecoded : Prop :=
  ∀ (s : State), s.Shaped →
    let l := s.sie.lastTrn
    let pid := BdStat.pid (s.bd l.ep l.dir l.parity).stat
    let n := (s.bd l.ep l.dir l.parity).count.toNat
    (∀ dir x par m, 1 ≤ s.cfg.numEp →
      ∃ t, exec (.ep0Dispatch dir x par m) s = .next t ∧
        exec (decodeTrn s.cfg.numEp 0 dir par x s.stage m) s = .next t) ∧
    (s.bot.q.length < 4 → ∃ t, exec .trn s = .next t) ∧
    (s.cfg.numEp ≤ l.ep.toNat → exec .trn s = .next { s with ev := { s.ev with trn := false } }) ∧
    (l.ep.toNat < s.cfg.numEp →
      ∃ u, exec .trn s = exec (decodeTrn s.cfg.numEp l.ep l.dir l.parity pid s.stage n) u ∧
        u = { s with ev := { s.ev with trn := false }, eps := u.eps } ∧
        SameEpsBut l.ep l.dir s u ∧
        u.epsAt l.ep l.dir =
          { s.epsAt l.ep l.dir with
            toggle :=
              if l.dir = .out ∧ pid = pidSetup then (s.epsAt l.ep l.dir).toggle else !(s.epsAt l.ep l.dir).toggle
            lastParity := if s.pp l.ep l.dir then l.parity else (s.epsAt l.ep l.dir).lastParity })

/-- A request runs the operation that its SETUP packet decodes to, level by level; a class request that the bound
function has no row for is refused (41 R195, R196, 42 R230, R241, R248, 43 R271). -/
def Obligations.RequestRunsDecoded : Prop :=
  ∀ (s : State) (i : Instr), s.Sound →
    (∃ j, decode s.cfg (.setup s.setup) = some j) ∧
    (decode s.cfg (.setup s.setup) = some i →
      ∃ t, exec .typeDispatch s = .next t ∧ exec i s = .next t ∧
        (reqType s.setup = 0 → exec .standardDispatch s = .next t)) ∧
    (∀ dtype didx, ∃ t, exec (.getDescriptor dtype didx) s = .next t ∧ exec (decodeGetDesc dtype didx) s = .next t) ∧
    (∀ v, ∃ t, exec (.setConfiguration v) s = .next t ∧ exec (decodeSetCfg v) s = .next t) ∧
    (∃ t, exec .classRequest s = .next t ∧ exec .classDispatch s = .next t) ∧
    (decode s.cfg (.classReq s.cfg.function s.setup) = some i →
      ∃ t, exec .classDispatch s = .next t ∧ exec i s = .next t) ∧
    (s.cfg.function ≠ .user → decode s.cfg (.classReq s.cfg.function s.setup) = none →
      ∃ t, exec .classDispatch s = .next t ∧ RefusesRequest { s with reply := t.reply } t)

/-- A bulk packet, a command block and a cell of the 13-case matrix run the operation they decode to (44 R295, R296,
R299, 45 R340). -/
def Obligations.CommandRunsDecoded : Prop :=
  ∀ (s : State) (par : Parity) (n : Nat) (e : Expect) (d : Word) (src : Src), s.Shaped →
    (∃ t, exec .scsiDispatch s = .next t ∧
      exec (decodeCdb s.cfg.writeEnabled s.bot.opcode (s.cbw.drop 15)) s = .next t) ∧
    (∃ t, exec (.arbitrate e d src) s = .next t ∧ exec (decodeCase e d s.hostLen s.bot.dir src) s = .next t) ∧
    (∃ t, exec (.botCbwReceived par n) s = .next t ∧
      exec (decodeCbw n (readBytes s.cfg.addrW s.buf (s.bd s.cfg.bulkOutEp .out par).address (min n 31))) s = .next t) ∧
    (∀ st dir, ∃ t, exec .msdTasks { s with bot := { s.bot with state := st, q := [⟨dir, par, n⟩] } } = .next t ∧
      exec (decodeBotStep st dir par n) { s with bot := { s.bot with state := st, q := [] } } = .next t)

/-! Whole-machine rules. -/

/-- No step changes the configuration or a table's size; every memory keeps its canonical form; endpoint 0 is never
halted; the address of every BD keeps to `ADDR_W` bits (00 R15, 10 R24, R31, R36, R38, R44, R49, R50, R51, R53, 20 R70; the
form of memory is the model's, log 2). -/
def Obligations.StepKeepsShapeAndConfiguration : Prop :=
  ∀ s t : State, step s = .next t →
    t.cfg = s.cfg ∧ (s.Shaped → t.Shaped) ∧ (s.Canonical → t.Canonical) ∧ (s.Ep0Clear → t.Ep0Clear) ∧
      (s.cfg.wf = true → s.BdsFit → t.BdsFit)

/-- The device state and the SIE's attachment stay in agreement (60 R410 to R416, 10 R47). -/
def Obligations.StepKeepsBusState : Prop := ∀ s t : State, s.Shaped → s.BusState → step s = .next t → t.BusState

/-- Engine and SIE stay in step on every ping-ponged endpoint direction (10 R50). -/
def Obligations.StepKeepsParityInStep : Prop :=
  ∀ s t : State, s.Shaped → s.BusState → s.InStep → step s = .next t → t.InStep

/-- The machine right after reset meets every invariant (its configuration is the model's choice, log 5). -/
def Obligations.ResetMeetsTheInvariants : Prop :=
  State.reset.Sound ∧ State.reset.BdsFit ∧ State.reset.Ep0Clear ∧ State.reset.BusState ∧ State.reset.InStep

/-- EP0 OUT stays armed (70 R441): from a state in which it is ready for the host, whatever flag is serviced next and
whatever the main loop drains, it is ready again; a detach alone takes it away. -/
def Obligations.Ep0OutStaysArmed : Prop :=
  ∀ (s t : State) (i : Instr), s.Sound → s.BusState → s.deviceState ≠ .detached → s.Ep0OutReady →
    (decodeEvent s.ev = some i ∧ i ≠ .detach ∨ i = .msdTasks) → exec i s = .next t → t.Ep0OutReady

/-- `sie.address` changes only where an address is committed, at a bus reset and at a re-initialisation; the operations
of an EP0 completion commit the pending address and no other (41 R209(d), R207). -/
def Obligations.AddressChangesOnlyByCommitOrReset : Prop :=
  ∀ (s t : State) (i : Instr), exec i s = .next t →
    (mayReaddress i = false → t.sie.address = s.sie.address) ∧
    ((i = .trn ∨ i = .ep0OutStatus ∨ i = .ep0OutEarlyStatus ∨ i = .ep0InStatus ∨ i = .statusComplete ∨
        ∃ dir pid par n, i = .ep0Dispatch dir pid par n) →
      t.sie.address = s.sie.address ∨ (s.addressPending = true ∧ t.sie.address = s.pendingAddress))

/-- Ordinary data ends no run: nothing is refused, and the one fault is a fifth entry for the ring of MSC (44 R292,
R293, 70 R452). -/
def Obligations.OnlyAFullRingFaults : Prop :=
  ∀ (s : State) (i : Instr), (∀ r, exec i s ≠ .refused r) ∧
    (∀ e, exec i s = .fault e → e = .ringOverflow ∧ 4 ≤ s.bot.q.length)

/-! Buffer descriptors and endpoint records (20, 40). -/

/-- `bd_index` is R80's formula in each mode, and numbers the BDs of a machine without gap or overlap (20 R80). -/
def Obligations.BdIndexNumbersTheTable : Prop :=
  (∀ (ep : Ep) (dir : Dir) (par : Parity),
    let d := if dir = .out then 0 else 1
    let p := if par = .even then 0 else 1
    bdIndex .none ep dir par = 2 * ep.toNat + d ∧ bdIndex .all ep dir par = 4 * ep.toNat + 2 * d + p ∧
      bdIndex .ep0OutOnly ep dir par =
        (if ep = 0 then if dir = .out then p else 2 else 2 * ep.toNat + d + 1) ∧
      bdIndex .allNonzero ep dir par = (if ep = 0 then d else 4 * ep.toNat + 2 * d + p - 2)) ∧
    ∀ (m : PpMode) (numEp : Nat), 1 ≤ numEp → numEp ≤ 16 →
      (∀ (ep : Ep) (dir : Dir) (par : Parity), ep.toNat < numEp → par ∈ parities m ep dir →
        bdIndex m ep dir par < bdtEntries m numEp) ∧
      (∀ i, i < bdtEntries m numEp → ∃ (ep : Ep) (dir : Dir) (par : Parity),
        ep.toNat < numEp ∧ par ∈ parities m ep dir ∧ bdIndex m ep dir par = i) ∧
      (∀ (ep ep' : Ep) (dir dir' : Dir) (par par' : Parity), par ∈ parities m ep dir → par' ∈ parities m ep' dir' →
        bdIndex m ep dir par = bdIndex m ep' dir' par' → ep = ep' ∧ dir = dir' ∧ par = par')

/-- `reclaim` clears the status, `stall` writes `STALL | OWN`; both in any state of ownership, keeping count and address
(40 R161, R165). -/
def Obligations.ReclaimAndStallWriteTheStatus : Prop :=
  ∀ (s : State) (ep : Ep) (dir : Dir) (par : Parity), s.Shaped → s.validBd ep dir par →
    (∃ t, exec (.reclaim ep dir par) s = .next t ∧
      WritesBd ep dir par { s.bd ep dir par with stat := statClear } s t) ∧
    ∃ t, exec (.stall ep dir par) s = .next t ∧
      WritesBd ep dir par { s.bd ep dir par with stat := statStalled } s t ∧
      ((s.bd ep dir par).count.toNat < 256 → Bd.statusByte (t.bd ep dir par) = 0x84)

/-- `arm_out` and `arm_in` of a BD that the engine owns: toggle, count and `OWN` written, the address kept; the byte
is 0x88 or 0xC8 (40 R162, R163). -/
def Obligations.ArmHandsTheBdToTheSie : Prop :=
  ∀ (s : State) (ep : Ep) (par : Parity) (tog : Bool) (n : Nat), s.Shaped → n ≤ 1023 →
    (s.validBd ep .out par → (s.bd ep .out par).stat.own = false →
      ∃ t, exec (.armOut ep par tog n) s = .next t ∧
        WritesBd ep .out par (armedBd tog n (s.bd ep .out par).address) s t ∧
        (n < 256 → Bd.statusByte (t.bd ep .out par) = if tog then 0xC8 else 0x88)) ∧
    (s.validBd ep .inp par → (s.bd ep .inp par).stat.own = false →
      ∃ t, exec (.armIn ep par tog n) s = .next t ∧
        WritesBd ep .inp par (armedBd tog n (s.bd ep .inp par).address) s t ∧
        (n < 256 → Bd.statusByte (t.bd ep .inp par) = if tog then 0xC8 else 0x88))

/-- An arm of a BD that the SIE owns, which 70 R445 leaves open: the status is written, the count is a free value, the
address and everything else are kept (the model's reading of R445, log 7). -/
def Obligations.ArmingAnOwnedBdLeavesTheCountOpen : Prop :=
  ∀ (s : State) (ep : Ep) (par : Parity) (tog : Bool) (n : Nat), s.Shaped →
    (s.validBd ep .out par → (s.bd ep .out par).stat.own = true →
      ∃ t c, exec (.armOut ep par tog n) s = .next t ∧
        WritesBd ep .out par ⟨statArmed true tog, c, (s.bd ep .out par).address⟩ { s with free := t.free } t) ∧
    (s.validBd ep .inp par → (s.bd ep .inp par).stat.own = true →
      ∃ t c, exec (.armIn ep par tog n) s = .next t ∧
        WritesBd ep .inp par ⟨statArmed true tog, c, (s.bd ep .inp par).address⟩ { s with free := t.free } t)

/-- `rearm_out` and `rearm_in` arm the BD whoever owns it (40 R166). -/
def Obligations.RearmArmsWhoeverOwnsTheBd : Prop :=
  ∀ (s : State) (ep : Ep) (par : Parity) (tog : Bool) (n : Nat), s.Shaped → n ≤ 1023 →
    (s.validBd ep .out par →
      ∃ t, exec (.rearmOut ep par tog n) s = .next t ∧
        WritesBd ep .out par (armedBd tog n (s.bd ep .out par).address) s t) ∧
    (s.validBd ep .inp par →
      ∃ t, exec (.rearmIn ep par tog n) s = .next t ∧
        WritesBd ep .inp par (armedBd tog n (s.bd ep .inp par).address) s t)

/-- The engine's arms, each of the next BD whoever owns it: status IN, SETUP, status OUT and DATA_OUT on endpoint 0, the
two bulk arms with their own toggles (40 R164, R172, R173, R174, R176). -/
def Obligations.EngineArmsUseTheNextBd : Prop :=
  ∀ s : State, s.Shaped → 1 ≤ s.cfg.numEp →
    (∃ t, exec .armStatusIn s = .next t ∧ ArmsNext 0 .inp true 0 s t) ∧
    (∃ t, exec .ep0ArmSetup s = .next t ∧ ArmsNext 0 .out false 8 s t) ∧
    (∃ t, exec .ep0ArmStatusOut s = .next t ∧ ArmsNext 0 .out true 8 s t) ∧
    (∃ t, exec .ep0ArmDataOut s = .next t ∧
      ArmsNext 0 .out (s.epsAt 0 .out).toggle (min s.cfg.ep0Max.bytes s.ctl.bytesRemaining.toNat) s t) ∧
    ∀ n, s.cfg.bulkEpsOk = true → n ≤ s.cfg.bulkMax →
      (∃ t, exec (.bulkArmOut n) s = .next t ∧
        ArmsNext s.cfg.bulkOutEp .out (s.epsAt s.cfg.bulkOutEp .out).toggle n s t) ∧
      (∃ t, exec (.bulkArmIn n) s = .next t ∧
        ArmsNext s.cfg.bulkInEp .inp (s.epsAt s.cfg.bulkInEp .inp).toggle n s t)

/-- `stall_ep` stalls every parity and halts a non-zero endpoint; `request_error` does so to EP0 IN, halts nothing and
returns to stage SETUP (40 R167, R168). -/
def Obligations.StallEpAndRequestError : Prop :=
  ∀ (s : State) (ep : Ep) (dir : Dir), s.Shaped →
    (ep.toNat < s.cfg.numEp → ∃ t, exec (.stallEp ep dir) s = .next t ∧ StallsEp ep dir s t) ∧
    (1 ≤ s.cfg.numEp → ∃ t, exec .requestError s = .next t ∧ RefusesRequest s t)

/-- `unstall_ep` clears halt and toggle and the stalled BDs, and leaves an armed BD armed (40 R169). -/
def Obligations.UnstallEpClearsHaltToggleAndStall : Prop :=
  ∀ (s : State) (ep : Ep) (dir : Dir), s.Shaped → ep.toNat < s.cfg.numEp →
    ∃ t, exec (.unstallEp ep dir) s = .next t ∧
      t.epsAt ep dir = { s.epsAt ep dir with halted := false, toggle := false } ∧
      SameEpsBut ep dir s t ∧
      (∀ par ∈ parities s.cfg.ppMode ep dir,
        t.bd ep dir par =
          if (s.bd ep dir par).stat.own ∧ BdStat.stallBit (s.bd ep dir par).stat then
            { s.bd ep dir par with stat := statClear }
          else s.bd ep dir par) ∧
      SameBdsButEp ep dir s t ∧
      t = { s with bdt := t.bdt, eps := t.eps }

/-- `note_completion` records the parity of a ping-ponged direction, so that the next one is the other; `pp_reset`
makes the next parity of every non-zero endpoint EVEN on both sides and leaves endpoint 0 (40 R170, R171). -/
def Obligations.ParityIsNotedAndReset : Prop :=
  ∀ s : State, s.Shaped →
    (∀ (ep : Ep) (dir : Dir) (par : Parity), ep.toNat < s.cfg.numEp →
      ∃ t, exec (.noteCompletion ep dir par) s = .next t ∧
        t.epsAt ep dir =
          (if s.pp ep dir then { s.epsAt ep dir with lastParity := par } else s.epsAt ep dir) ∧
        (s.pp ep dir = true → t.nextPar ep dir = par.other) ∧
        SameEpsBut ep dir s t ∧ t = { s with eps := t.eps }) ∧
    ∃ t, exec .ppReset s = .next t ∧
      (∀ (ep : Ep) (dir : Dir), ep ≠ 0 → ep.toNat < s.cfg.numEp →
        t.epsAt ep dir = { s.epsAt ep dir with lastParity := .odd } ∧ t.ptrAt ep dir = .even ∧
          t.nextPar ep dir = .even) ∧
      (∀ dir, t.epsAt 0 dir = s.epsAt 0 dir ∧ t.ptrAt 0 dir = s.ptrAt 0 dir) ∧
      t = { s with eps := t.eps, sie := { s.sie with ptr := t.sie.ptr } }

/-- `ep0_send_in(n)`: the next n bytes of the DATA_IN stage put into the buffer and armed with the EP0 IN toggle, the
pointer and the count moved on (40 R175, which says that the BD is free there). That the pointer is taken modulo 2^ADDR_W is
the model's choice (log 8), and changes no pointer that fits `ADDR_W` bits. -/
def Obligations.Ep0SendInSendsTheNextBytes : Prop :=
  ∀ (s : State) (n : Nat), s.Sound → n ≤ s.cfg.ep0Max.bytes → (s.bd 0 .inp (s.nextPar 0 .inp)).stat.own = false →
    ∃ t, exec (.ep0SendIn n) s = .next t ∧
      SendsIn 0 (s.fetchBytes s.ctl.source s.ctl.ptr n)
        { s with
          ctl :=
            { s.ctl with
              ptr := place s.cfg.addrW s.ctl.ptr n
              bytesRemaining := s.ctl.bytesRemaining - BitVec.ofNat 16 n } } t

/-! The control engine (41). -/

/-- Steps 1 to 5a of the SETUP handler, then the dispatch by type (41 R194). -/
def Obligations.SetupHandlerStepsThenDispatch : Prop :=
  ∀ (s : State) (par : Parity), s.Sound → s.validBd 0 .out par →
    ∃ u t, exec (.ep0Setup par) s = .next t ∧ exec .typeDispatch u = .next t ∧
      u.setup = readBytes s.cfg.addrW s.buf (s.bd 0 .out par).address 8 ∧
      (∀ p ∈ parities s.cfg.ppMode 0 .inp, u.bd 0 .inp p = { s.bd 0 .inp p with stat := statClear }) ∧
      u.bd 0 .out (s.nextPar 0 .out) = armedBd false 8 (s.nextAddr 0 .out) ∧
      (∀ p, s.pp 0 .out = true → p ≠ s.nextPar 0 .out → u.bd 0 .out p = s.bd 0 .out p) ∧
      (∀ e d p, e ≠ 0 → u.bd e d p = s.bd e d p ∧ u.epsAt e d = s.epsAt e d) ∧
      (∀ d, u.epsAt 0 d = { s.epsAt 0 d with toggle := true }) ∧
      u =
        { s with
          setup := u.setup
          stage := .setup
          addressPending := false
          ctl := { s.ctl with sendShortZlp := false, bytesRemaining := 0, bytesReceived := 0 }
          sie := { s.sie with pktDisable := false }
          bdt := u.bdt
          eps := u.eps }

/-- The DATA_IN stage: what `start_data_in` loads, and what each packet sends, in the three branches of R201 (41 R200,
R201). The pointer moves on by the bytes sent, a zero-length packet by none; that it is taken modulo 2^ADDR_W is the model's
choice (log 8), and changes no pointer that fits `ADDR_W` bits. -/
def Obligations.DataInStage : Prop :=
  ∀ s : State, s.Sound →
    (∀ (src : Source) (ptr : Addr) (d : Nat),
      (wLength s.setup = 0 → ∃ t, exec (.startDataIn src ptr d) s = .next t ∧ EndsStatusIn s t) ∧
      (wLength s.setup ≠ 0 →
        ∃ t, exec (.startDataIn src ptr d) s = .next t ∧
          exec .dataInNext
            { s with
              ctl :=
                ⟨src, ptr, BitVec.ofNat 16 (min d (wLength s.setup).toNat), 0,
                  decide (d < (wLength s.setup).toNat ∧ d % s.cfg.ep0Max.bytes = 0)⟩
              stage := .dataIn } = .next t)) ∧
    ∀ i ∈ [Instr.dataInNext, .ep0InData],
      let n := min s.ctl.bytesRemaining.toNat s.cfg.ep0Max.bytes
      (s.ctl.bytesRemaining ≠ 0 → (s.bd 0 .inp (s.nextPar 0 .inp)).stat.own = false →
        ∃ t, exec i s = .next t ∧
          SendsIn 0 (s.fetchBytes s.ctl.source s.ctl.ptr n)
            { s with
              ctl :=
                { s.ctl with
                  ptr := place s.cfg.addrW s.ctl.ptr n
                  bytesRemaining := s.ctl.bytesRemaining - BitVec.ofNat 16 n } } t) ∧
      (s.ctl.bytesRemaining = 0 → s.ctl.sendShortZlp = true → (s.bd 0 .inp (s.nextPar 0 .inp)).stat.own = false →
        ∃ t, exec i s = .next t ∧
          SendsIn 0 []
            { s with ctl := { s.ctl with ptr := place s.cfg.addrW s.ctl.ptr 0, sendShortZlp := false } } t) ∧
      (s.ctl.bytesRemaining = 0 → s.ctl.sendShortZlp = false →
        ∃ t, exec i s = .next t ∧ ArmsNext 0 .out true 8 { s with stage := .statusOut } t)

/-- The DATA_OUT stage: what `start_data_out` loads, and what each received chunk does: stored in RAM and counted, then
the next arm or, on the final chunk, the hook and the stage its answer asks for (41 R202, R203). That the pointer is taken
modulo 2^ADDR_W is the model's choice (log 8), and changes no pointer that fits `ADDR_W` bits. -/
def Obligations.DataOutStage : Prop :=
  ∀ s : State, s.Sound →
    (∀ (target : Addr) (len : Nat), len < 2 ^ 16 →
      (len = 0 → ∃ t, exec (.startDataOut target len) s = .next t ∧ EndsStatusIn s t) ∧
      (len ≠ 0 → ∃ t, exec (.startDataOut target len) s = .next t ∧
        ArmsNext 0 .out (s.epsAt 0 .out).toggle (min s.cfg.ep0Max.bytes len)
          { s with
            ctl := { s.ctl with ptr := target, bytesRemaining := BitVec.ofNat 16 len, bytesReceived := 0 }
            stage := .dataOut } t)) ∧
    ∀ (par : Parity) (n : Nat), n ≤ 1023 → ∀ i ∈ [Instr.dataOutStep par n, .ep0OutData par n],
      ∃ u, HoldsAt s.cfg.addrW s.ctl.ptr (readBytes s.cfg.addrW s.buf (s.bd 0 .out par).address n) s.ram u.ram ∧
        u =
          { s with
            ram := u.ram
            ctl :=
              { s.ctl with
                ptr := place s.cfg.addrW s.ctl.ptr n
                bytesReceived := s.ctl.bytesReceived + BitVec.ofNat 16 n
                bytesRemaining := s.ctl.bytesRemaining - BitVec.ofNat 16 n } } ∧
        (u.ctl.bytesRemaining ≠ 0 → s.cfg.ep0Max.bytes ≤ n →
          ∃ t, exec i s = .next t ∧
            ArmsNext 0 .out (s.epsAt 0 .out).toggle (min s.cfg.ep0Max.bytes u.ctl.bytesRemaining.toNat) u t) ∧
        (u.ctl.bytesRemaining = 0 ∨ n < s.cfg.ep0Max.bytes →
          ∃ v x t, ArmsNext 0 .out false 8 u v ∧ exec .hookOutControlFinished v = .next x ∧ exec i s = .next t ∧
            (x.reply.accepted = true → EndsStatusIn x t) ∧ (x.reply.accepted = false → RefusesRequest x t))

/-- The end of a status stage commits a recorded address, arms EP0 OUT for a SETUP and returns to stage SETUP; a stray
OUT restores the arm; a stray IN and a latch that names no endpoint change nothing (41 R191, R207, R208). -/
def Obligations.StatusAndStrayCompletions : Prop :=
  ∀ s : State, s.Shaped → 1 ≤ s.cfg.numEp →
    (∀ i ∈ [Instr.statusComplete, .ep0OutStatus, .ep0OutEarlyStatus, .ep0InStatus],
      ∃ t, exec i s = .next t ∧
        ArmsNext 0 .out false 8
          (if s.addressPending then
            { s with
              stage := .setup
              sie := { s.sie with address := s.pendingAddress }
              deviceState := if s.pendingAddress ≠ 0 then .address else .dflt
              addressPending := false }
          else { s with stage := .setup }) t) ∧
    (∃ t, exec .ep0OutStray s = .next t ∧ ArmsNext 0 .out false 8 s t) ∧
    (exec .ep0InStray s = .next s) ∧ (∀ ep, s.cfg.numEp ≤ ep.toNat → exec (.epOutOfRange ep) s = .next s)

/-! The requests (42). -/

/-- Every request that the block refuses stalls EP0 IN and changes nothing else but the stage (41 R195, 42 R234, R239,
R246, R252, R253). -/
def Obligations.UnsupportedRequestsAreRefused : Prop :=
  ∀ (s : State) (code : Byte), s.Shaped → 1 ≤ s.cfg.numEp →
    ∀ i ∈ [Instr.vendorRequest, .reservedTypeRequest, .getStatusOther, .clearFeatureOther, .setFeatureOther,
        .setDescriptor, .syncFrame, .reservedRequest2, .reservedRequest4, .reservedRequest13To255 code],
      ∃ t, exec i s = .next t ∧ RefusesRequest s t

/-- GET_STATUS of the device, of an interface and of an endpoint, and GET_CONFIGURATION (42 R231, R232, R233, R247). -/
def Obligations.StatusAndConfigurationAnswers : Prop :=
  ∀ s : State, s.Sound →
    (∃ t, exec .getStatusDevice s = .next t ∧
      AnswersScratch
        [(if s.cfg.selfPowered then 1 else 0) ||| (if s.remoteWakeup then 2 else 0), 0] s t) ∧
    (∀ iface : Byte,
      (iface.toNat < s.cfg.numInterfaces → ∃ t, exec (.getStatusInterface iface) s = .next t ∧ AnswersScratch [0, 0] s t) ∧
      (s.cfg.numInterfaces ≤ iface.toNat → ∃ t, exec (.getStatusInterface iface) s = .next t ∧ RefusesRequest s t)) ∧
    (∀ (ep : Ep) (dir : Dir),
      (ep.toNat < s.cfg.numEp → ∃ t, exec (.getStatusEndpoint ep dir) s = .next t ∧
        AnswersScratch [if (s.epsAt ep dir).halted then 1 else 0, 0] s t) ∧
      (s.cfg.numEp ≤ ep.toNat → ∃ t, exec (.getStatusEndpoint ep dir) s = .next t ∧ RefusesRequest s t)) ∧
    (∃ t, exec .getConfiguration s = .next t ∧
      AnswersScratch [if s.deviceState = .configured then s.currentConfiguration else 0] s t)

/-- CLEAR_FEATURE and SET_FEATURE of the device serve DEVICE_REMOTE_WAKEUP alone; SET_ADDRESS records the address and arms
the status stage, the SIE's address stays (42 R235, R236, R240). -/
def Obligations.DeviceFeaturesAndAddress : Prop :=
  ∀ (s : State) (sel : Half), s.Shaped → 1 ≤ s.cfg.numEp →
    (sel = 1 →
      (∃ t, exec (.clearFeatureDevice sel) s = .next t ∧ EndsStatusIn { s with remoteWakeup := false } t) ∧
      (∃ t, exec (.setFeatureDevice sel) s = .next t ∧ EndsStatusIn { s with remoteWakeup := true } t)) ∧
    (sel ≠ 1 →
      (∃ t, exec (.clearFeatureDevice sel) s = .next t ∧ RefusesRequest s t) ∧
      (∃ t, exec (.setFeatureDevice sel) s = .next t ∧ RefusesRequest s t)) ∧
    ∀ a : DevAddr,
      ∃ t, exec (.setAddress a) s = .next t ∧ EndsStatusIn { s with pendingAddress := a, addressPending := true } t

/-- CLEAR_FEATURE and SET_FEATURE of an endpoint: ENDPOINT_HALT of an existing non-zero endpoint alone; the clear
unstalls and tells the function, the set stalls (42 R237, R238). -/
def Obligations.EndpointFeatures : Prop :=
  ∀ (s : State) (sel : Half) (ep : Ep) (dir : Dir), s.Sound →
    (sel = 0 → ep ≠ 0 → ep.toNat < s.cfg.numEp →
      (∃ u v t, exec (.unstallEp ep dir) s = .next u ∧
        exec (.hookClearHalt (bdIndex u.cfg.ppMode ep dir (u.nextPar ep dir)) ep dir) u = .next v ∧
        exec (.clearFeatureEndpoint sel ep dir) s = .next t ∧ EndsStatusIn v t) ∧
      (∃ u t, StallsEp ep dir s u ∧ exec (.setFeatureEndpoint sel ep dir) s = .next t ∧ EndsStatusIn u t)) ∧
    (sel ≠ 0 ∨ ep = 0 ∨ s.cfg.numEp ≤ ep.toNat →
      (∃ t, exec (.clearFeatureEndpoint sel ep dir) s = .next t ∧ RefusesRequest s t) ∧
      (∃ t, exec (.setFeatureEndpoint sel ep dir) s = .next t ∧ RefusesRequest s t))

/-- GET_DESCRIPTOR: the stage of the named descriptor at its place in ROM, which holds its bytes; an index out of range
is refused; any other type asks the function (42 R242 to R245, 41 R209(e)). -/
def Obligations.DescriptorsAreSentFromRom : Prop :=
  ∀ s : State, s.Sound →
    (∃ t, exec .getDescriptorDevice s = .next t ∧ exec (.startDataIn .rom (deviceDescPtr s.cfg) 18) s = .next t) ∧
    romBytes s.cfg (deviceDescPtr s.cfg) 18 = s.cfg.deviceDesc ∧
    (∀ (i : Byte) (d : List Byte), s.cfg.configDescs[i.toNat]? = some d →
      (∃ t, exec (.getDescriptorConfiguration i) s = .next t ∧
        exec (.startDataIn .rom (configDescPtr s.cfg i.toNat) (le16 (byteAt d 2) (byteAt d 3)).toNat) s = .next t) ∧
      romBytes s.cfg (configDescPtr s.cfg i.toNat) (le16 (byteAt d 2) (byteAt d 3)).toNat = d) ∧
    (∀ i : Byte, s.cfg.configDescs.length ≤ i.toNat →
      ∃ t, exec (.getDescriptorConfiguration i) s = .next t ∧ RefusesRequest s t) ∧
    (∀ (i : Byte) (d : List Byte), s.cfg.stringDescs[i.toNat]? = some d →
      (∃ t, exec (.getDescriptorString i) s = .next t ∧
        exec (.startDataIn .rom (stringDescPtr s.cfg i.toNat) (byteAt d 0).toNat) s = .next t) ∧
      romBytes s.cfg (stringDescPtr s.cfg i.toNat) (byteAt d 0).toNat = d) ∧
    (∀ i : Byte, s.cfg.stringDescs.length ≤ i.toNat →
      ∃ t, exec (.getDescriptorString i) s = .next t ∧ RefusesRequest s t) ∧
    ∃ u t, exec .hookGetClassDescriptor s = .next u ∧ exec .getDescriptorClassOrUnknown s = .next t ∧
      (u.reply.accepted = false → RefusesRequest u t) ∧
      (∀ src ptr len, u.reply.accepted = true → u.reply.kind = .dataIn src ptr len →
        exec (.startDataIn src ptr len) u = .next t)

/-- SET_CONFIGURATION: refused out of range or out of state; of zero, back to ADDRESS with nothing torn down; else
parities reset, the non-zero endpoints cleared, the function's `init()`, CONFIGURED (42 R248, R249). -/
def Obligations.SetConfigurationByValueAndState : Prop :=
  (∀ s : State, s.Shaped → 1 ≤ s.cfg.numEp → ∀ i ∈ [Instr.setConfiguration 0, .setConfigurationZero],
    (s.deviceState = .address ∨ s.deviceState = .configured →
      ∃ t, exec i s = .next t ∧ EndsStatusIn { s with deviceState := .address, currentConfiguration := 0 } t) ∧
    (s.deviceState ≠ .address → s.deviceState ≠ .configured → ∃ t, exec i s = .next t ∧ RefusesRequest s t)) ∧
    ∀ (s : State) (v : Byte), s.Sound → v ≠ 0 → ∀ i ∈ [Instr.setConfiguration v, .setConfigurationNonzero v],
      (s.cfg.configDescs.length < v.toNat ∨ (s.deviceState ≠ .address ∧ s.deviceState ≠ .configured) →
        ∃ t, exec i s = .next t ∧ RefusesRequest s t) ∧
      (v.toNat ≤ s.cfg.configDescs.length → s.deviceState = .address ∨ s.deviceState = .configured →
        ∃ u x t, exec .hookInit u = .next x ∧ exec i s = .next t ∧ EndsStatusIn { x with deviceState := .configured } t ∧
          (∀ (ep : Ep) (dir : Dir), ep ≠ 0 → ep.toNat < s.cfg.numEp →
            u.epsAt ep dir = ⟨false, false, .odd⟩ ∧ u.ptrAt ep dir = .even ∧ u.ctrlAt ep = ctrlOff ∧
              ∀ par ∈ parities s.cfg.ppMode ep dir, u.bd ep dir par = { s.bd ep dir par with stat := statClear }) ∧
          (∀ dir par, u.epsAt 0 dir = s.epsAt 0 dir ∧ u.ptrAt 0 dir = s.ptrAt 0 dir ∧ u.ctrlAt 0 = s.ctrlAt 0 ∧
            u.bd 0 dir par = s.bd 0 dir par) ∧
          u =
            { s with
              currentConfiguration := v
              bdt := u.bdt
              eps := u.eps
              sie := { s.sie with ptr := u.sie.ptr, epCtrl := u.sie.epCtrl } })

/-- GET_INTERFACE and SET_INTERFACE: the function decides; an accepted setting clears that interface's toggles (42
R250, R251). -/
def Obligations.InterfaceRequests : Prop :=
  ∀ (s : State) (alt iface : Byte), s.Sound →
    (∃ u t, exec (.hookGetInterface iface) s = .next u ∧ exec (.getInterface iface) s = .next t ∧
      (u.reply.accepted = true → AnswersScratch [u.reply.alt] u t) ∧
      (u.reply.accepted = false → RefusesRequest u t)) ∧
    (∃ u t, exec (.hookSetInterface alt iface) s = .next u ∧ exec (.setInterface alt iface) s = .next t ∧
      (u.reply.accepted = false → RefusesRequest u t) ∧
      (u.reply.accepted = true →
        ∃ x y, exec (.hookInterfaceEndpoints iface) u = .next x ∧ EndsStatusIn y t ∧
          (∀ e ∈ x.reply.endpoints, e.1.toNat < s.cfg.numEp →
            y.epsAt e.1 e.2 = { x.epsAt e.1 e.2 with toggle := false }) ∧
          (∀ ep dir, (ep, dir) ∉ x.reply.endpoints → y.epsAt ep dir = x.epsAt ep dir) ∧
          y = { x with eps := y.eps }))

/-! The function port (43, 46). -/

/-- What each hook does when MSC is bound (43 R279, R272, R276, R277, R282). -/
def Obligations.MscHookBindings : Prop :=
  ∀ s : State, s.cfg.function = .msc →
    exec .hookGetClassDescriptor s = .next { s with reply := ⟨false, .noData, 0, []⟩ } ∧
    exec .hookInit s = exec .botInit s ∧
    (∀ ep dir par n, exec (.hookTasks ep dir par n) s = exec (.botEnqueue ep dir par n) s) ∧
    (∀ index ep dir, exec (.hookClearHalt index ep dir) s = exec (.botClearHalt index ep dir) s) ∧
    (∀ alt iface, exec (.hookSetInterface alt iface) s =
      .next { s with reply := ⟨decide (alt = 0 ∧ iface = 0), .noData, 0, []⟩ }) ∧
    (∀ iface, exec (.hookGetInterface iface) s = .next { s with reply := ⟨decide (iface = 0), .noData, 0, []⟩ }) ∧
    exec .hookOutControlFinished s = .next { s with reply := ⟨false, .noData, 0, []⟩ } ∧
    exec (.hookInterfaceEndpoints 0) s =
      .next { s with reply := ⟨true, .noData, 0, [(s.cfg.bulkOutEp, .out), (s.cfg.bulkInEp, .inp)]⟩ } ∧
    (bRequest s.setup ≠ 0xFF → bRequest s.setup ≠ 0xFE →
      exec .hookClassRequest s = .next { s with reply := ⟨false, .noData, 0, []⟩ })

/-- Whatever function is bound, no hook touches what belongs to the control engine: the stage, the control-transfer
registers with `ctl.scratch`, the setup store, the device address and state, endpoint 0's BDs, records and enables; it writes
no RAM but the function's own (MSC: `bot.lun_byte`); a function outside the block writes no buffer, BD, record or enable of an
endpoint direction that is not its own; every hook returns; and `init()`, made with no BD of a function owned by the SIE,
leaves every BD of the function's own with the address of its buffer, and arms no BD without (43 R278, R280; that a write
outside these rights is dropped is the model's form of the contract, log 18). -/
def Obligations.HooksKeepToTheirWriteRights : Prop :=
  ∀ (s : State) (i : Instr), s.Sound → isHook i = true → i.wf s.cfg = true →
    (∀ ep dir par n, exec (.epnCompletion ep dir par n) s = exec (.hookTasks ep dir par n) s) ∧
    (s.bot.q.length < 4 → ∃ t, exec i s = .next t) ∧
    ∀ t, exec i s = .next t →
      t.stage = s.stage ∧ t.ctl = s.ctl ∧ t.setup = s.setup ∧ t.deviceState = s.deviceState ∧
      t.pendingAddress = s.pendingAddress ∧ t.addressPending = s.addressPending ∧ t.ev = s.ev ∧
      t.sie.address = s.sie.address ∧ t.sie.pktDisable = s.sie.pktDisable ∧ t.sie.enable = s.sie.enable ∧
      t.sie.ptr = s.sie.ptr ∧
      (∀ dir, t.epsAt 0 dir = s.epsAt 0 dir) ∧ (∀ dir par, t.bd 0 dir par = s.bd 0 dir par) ∧
      t.ctrlAt 0 = s.ctrlAt 0 ∧ t.scratch0 = s.scratch0 ∧ t.scratch1 = s.scratch1 ∧
      (∀ k, (∀ x ∈ functionRam s.cfg, ∀ j, j < x.2 → k ≠ place s.cfg.addrW x.1 j) →
        (s.cfg.function = .msc → k ≠ place s.cfg.addrW s.cfg.lunAddr 0) → memRead t.ram k = memRead s.ram k) ∧
      (s.cfg.function ≠ .msc →
        (∀ k, (∀ e d p, (e, d) ∈ functionEps s.cfg → s.validBd e d p → ∀ j, j < s.cfg.bulkMax →
          k ≠ place s.cfg.addrW (s.bufAddr e d p) j) → memRead t.buf k = memRead s.buf k) ∧
        (∀ e d, (e, d) ∉ functionEps s.cfg → t.epsAt e d = s.epsAt e d ∧ ∀ p, t.bd e d p = s.bd e d p) ∧
        ∀ e, (∀ d, (e, d) ∉ functionEps s.cfg) → t.ctrlAt e = s.ctrlAt e) ∧
      (i = .hookInit → (∀ e d p, e ≠ 0 → (s.bd e d p).stat.own = false) →
        (∀ e d p, (e, d) ∈ functionEps s.cfg → s.validBd e d p → (t.bd e d p).address = s.bufAddr e d p) ∧
        ∀ e d p, e ≠ 0 → s.validBd e d p → (t.bd e d p).stat.own = true → BdStat.stallBit (t.bd e d p).stat = false →
          (t.bd e d p).address = s.bufAddr e d p)

/-- The CDC requests and the hooks of CDC: a staged line coding applied, `init()`, `tasks()`, the endpoints of an interface (46
R370, R371, R373, R374, 43 R273, R282). The model's choices, all of them in log 12: the refusal of a longer `wLength`; the
refusal of `out_control_finished` with nothing pending, and its acceptance however many bytes were received, with all 7 staged
bytes applied; a packet completed on the notification endpoint changes nothing; an interface other than 0 and 1 has no
endpoints; the board sees the control lines as the registers DTR and RTS; `init()` zeroes the line coding with the other
objects, and takes the registers back to their reset values (DTR, RTS, the transfer in progress, the received count, 'ready',
carrier detect, DSR). -/
def Obligations.CdcRequests : Prop :=
  ∀ s : State, s.Sound →
    let c := s.cfg.cdc
    ((wLength s.setup).toNat ≤ 7 →
      ∃ t, exec .cdcSetLineCoding s = .next t ∧
        exec (.startDataOut c.staging 7)
          { s with cdc := { s.cdc with pending := .lineCoding }, reply := ⟨true, .dataOut c.staging 7, 0, []⟩ } = .next t) ∧
    (7 < (wLength s.setup).toNat →
      ∃ t, exec .cdcSetLineCoding s = .next t ∧ RefusesRequest { s with reply := ⟨false, .noData, 0, []⟩ } t) ∧
    (∃ t, exec .cdcGetLineCoding s = .next t ∧
      exec (.startDataIn .ram c.lineCoding 7) { s with reply := ⟨true, .dataIn .ram c.lineCoding 7, 0, []⟩ } = .next t) ∧
    (∀ dtr rts, ∃ t, exec (.cdcSetControlLineState dtr rts) s = .next t ∧
      EndsStatusIn { s with cdc := { s.cdc with dtr := dtr, rts := rts }, reply := ⟨true, .noData, 0, []⟩ } t) ∧
    ((wLength s.setup).toNat ≤ 8 →
      ∃ t, exec .cdcSendEncapsulatedCommand s = .next t ∧
        exec (.startDataOut c.encapsulated 8)
          { s with cdc := { s.cdc with pending := .encapsulated }, reply := ⟨true, .dataOut c.encapsulated 8, 0, []⟩ } =
          .next t) ∧
    (8 < (wLength s.setup).toNat →
      ∃ t, exec .cdcSendEncapsulatedCommand s = .next t ∧ RefusesRequest { s with reply := ⟨false, .noData, 0, []⟩ } t) ∧
    (∃ t, exec .cdcGetEncapsulatedResponse s = .next t ∧
      exec (.startDataIn .ram c.encapsulated 8) { s with reply := ⟨true, .dataIn .ram c.encapsulated 8, 0, []⟩ } = .next t) ∧
    (s.cfg.function = .cdc → s.cdc.pending = .lineCoding →
      ∃ t, exec .hookOutControlFinished s = .next t ∧ t.reply.accepted = true ∧
        HoldsAt s.cfg.addrW c.lineCoding (readBytes s.cfg.addrW s.ram c.staging 7) s.ram t.ram ∧
        t = { s with ram := t.ram, reply := t.reply, cdc := { s.cdc with pending := .none } }) ∧
    (s.cfg.function = .cdc →
      (s.cdc.pending = .encapsulated → exec .hookOutControlFinished s =
        .next { s with reply := ⟨true, .noData, 0, []⟩, cdc := { s.cdc with pending := .none } }) ∧
      (s.cdc.pending = .none →
        exec .hookOutControlFinished s = .next { s with reply := ⟨false, .noData, 0, []⟩ })) ∧
    (s.cfg.function = .cdc →
      let eps := [(c.notifyEp, Dir.inp), (c.dataOutEp, Dir.out), (c.dataInEp, Dir.inp)]
      ∃ t, exec .hookInit s = .next t ∧
        ZeroesObjects s.cfg.addrW [(c.lineCoding, 7), (c.staging, 7), (c.encapsulated, 8)] s.ram t.ram ∧
        (∃ n a, t.bd c.dataOutEp .out .even = ⟨statArmed true false, n, a⟩ ∧ s.Addressed c.dataOutEp .out .even a ∧
          ((s.bd c.dataOutEp .out .even).stat.own = false → n = BitVec.ofNat 10 c.max)) ∧
        (∀ x ∈ eps, ∀ par ∈ parities s.cfg.ppMode x.1 x.2, ¬(x.2 = .out ∧ par = .even) →
          ∃ a, s.Addressed x.1 x.2 par a ∧ t.bd x.1 x.2 par = { s.bd x.1 x.2 par with address := a }) ∧
        (∀ e d p, (e, d) ∉ eps → t.bd e d p = s.bd e d p) ∧
        (∀ e, t.ctrlAt e =
          if e ∈ [c.notifyEp, c.dataOutEp, c.dataInEp] then
            ⟨true, decide (e = c.notifyEp ∨ e = c.dataInEp), decide (e = c.dataOutEp)⟩
          else s.ctrlAt e) ∧
        t =
          { s with
            ram := t.ram
            bdt := t.bdt
            cdc := ⟨false, false, .none, 0, .even, false, false, false⟩
            sie := { s.sie with epCtrl := t.sie.epCtrl }
            free := t.free }) ∧
    (s.cfg.function = .cdc → ∀ (ep : Ep) (dir : Dir) (par : Parity) (n : Nat),
      exec (.hookTasks ep dir par n) s =
        .next
          (if ep = c.dataOutEp ∧ dir = .out then { s with cdc := { s.cdc with rxCount := n, rxParity := par } }
          else if ep = c.dataInEp ∧ dir = .inp then { s with cdc := { s.cdc with txReady := true } }
          else s)) ∧
    (s.cfg.function = .cdc → ∀ iface : Byte,
      exec (.hookInterfaceEndpoints iface) s =
        .next
          { s with
            reply :=
              ⟨true, .noData, 0,
                if iface = 0 then [(c.notifyEp, .inp)]
                else if iface = 1 then [(c.dataOutEp, .out), (c.dataInEp, .inp)] else []⟩ })

/-- The HID requests and the hooks of HID that answer or finish one: a report is sent from its storage or collected and then
committed to it, an idle duration is read and set, a descriptor is sent, the rest is refused; and the SOF count of a report (46
R375, R376). The model's choices, all of them in log 12: GET_REPORT of a type but Input and Feature, and SET_REPORT of a type
but Output and Feature, refused; no report id among a report's bytes; how an id names a report, what id 0 stands for, and that
GET_IDLE of id 0 is refused where there is no IN report; a longer `wLength` refused; the staging copy, of which `min(size,
received)` bytes are committed; the refusal of `out_control_finished` with nothing pending; `idle_expired` taken down where the
duration becomes 0; an idle counter that never wraps; the places of the operands of GET_IDLE and SET_IDLE in `wValue`; that the
descriptor index and `wIndex` are not read. -/
def Obligations.HidRequests : Prop :=
  ∀ s : State, s.Sound →
    let h := s.cfg.hid
    let w := (wLength s.setup).toNat
    let answered (k : RespKind) : State := { s with reply := ⟨true, k, 0, []⟩ }
    let refused := { s with reply := ⟨false, .noData, 0, []⟩ }
    (∀ (rtype rid : Byte) (i : Nat) (sizes : List Nat) (addrs : List Addr),
      (rtype, sizes, addrs) ∈ [((1 : Byte), h.inSizes, h.inAddrs), (3, h.featureSizes, h.featureAddrs)] →
      (reportIndex h.useIds sizes.length rid = some i →
        ∃ t, exec (.hidGetReport rtype rid) s = .next t ∧
          exec (.startDataIn .ram (addrs.getD i 0) (sizes.getD i 0))
            (answered (.dataIn .ram (addrs.getD i 0) (sizes.getD i 0))) = .next t) ∧
      (reportIndex h.useIds sizes.length rid = none →
        ∃ t, exec (.hidGetReport rtype rid) s = .next t ∧ RefusesRequest refused t)) ∧
    (∀ (rtype rid : Byte) (i : Nat) (sizes : List Nat) (p : Nat → HidPending),
      (rtype, sizes, p) ∈ [((2 : Byte), h.outSizes, HidPending.output), (3, h.featureSizes, .feature)] →
      (reportIndex h.useIds sizes.length rid = some i → w ≤ sizes.getD i 0 →
        ∃ t, exec (.hidSetReport rtype rid) s = .next t ∧
          exec (.startDataOut h.staging w)
            { answered (.dataOut h.staging w) with hid := { s.hid with pending := p i } } = .next t) ∧
      (reportIndex h.useIds sizes.length rid = none ∨
          (reportIndex h.useIds sizes.length rid = some i ∧ sizes.getD i 0 < w) →
        ∃ t, exec (.hidSetReport rtype rid) s = .next t ∧ RefusesRequest refused t)) ∧
    (s.cfg.function = .hid →
      (s.hid.pending = .none → exec .hookOutControlFinished s = .next refused) ∧
      ∀ (i : Nat) (sizes : List Nat) (addrs : List Addr) (p : Nat → HidPending),
        (sizes, addrs, p) ∈
          [(h.outSizes, h.outAddrs, HidPending.output), (h.featureSizes, h.featureAddrs, .feature)] →
        i < sizes.length → s.hid.pending = p i →
        ∃ t, exec .hookOutControlFinished s = .next t ∧
          HoldsAt s.cfg.addrW (addrs.getD i 0)
            (readBytes s.cfg.addrW s.ram h.staging (min (sizes.getD i 0) s.ctl.bytesReceived.toNat)) s.ram t.ram ∧
          t = { answered .noData with ram := t.ram, hid := { s.hid with pending := .none } }) ∧
    (∀ rid : Byte, rid ≠ 0 → reportIndex h.useIds h.inSizes.length rid = none →
      (∃ t, exec (.hidGetIdle rid) s = .next t ∧ RefusesRequest refused t) ∧
        ∀ d, ∃ t, exec (.hidSetIdle d rid) s = .next t ∧ RefusesRequest refused t) ∧
    (∀ rtype rid : Byte, rtype ≠ 1 → rtype ≠ 3 →
      ∃ t, exec (.hidGetReport rtype rid) s = .next t ∧ RefusesRequest refused t) ∧
    (∀ rtype rid : Byte, rtype ≠ 2 → rtype ≠ 3 →
      ∃ t, exec (.hidSetReport rtype rid) s = .next t ∧ RefusesRequest refused t) ∧
    (h.inSizes = [] → ∃ t, exec (.hidGetIdle 0) s = .next t ∧ RefusesRequest refused t) ∧
    (∀ (rid : Byte) (i : Nat),
      (rid = 0 ∧ h.inSizes ≠ [] ∧ i = 0) ∨ (rid ≠ 0 ∧ reportIndex h.useIds h.inSizes.length rid = some i) →
      ∃ t, exec (.hidGetIdle rid) s = .next t ∧
        exec (.startDataIn .ram (idlePtr s.cfg i) 1) (answered (.dataIn .ram (idlePtr s.cfg i) 1)) = .next t) ∧
    (∀ (d rid : Byte) (i : Nat), rid ≠ 0 → reportIndex h.useIds h.inSizes.length rid = some i →
      ∃ u t, exec (.hidSetIdle d rid) s = .next t ∧ EndsStatusIn u t ∧
        HoldsAt s.cfg.addrW (idlePtr s.cfg i) [d] s.ram u.ram ∧
        u =
          { answered .noData with
            ram := u.ram
            hid :=
              { s.hid with
                counters := s.hid.counters.set i 0
                expired := if d = 0 then s.hid.expired.set i false else s.hid.expired } }) ∧
    (∀ d : Byte, ∃ u t, exec (.hidSetIdle d 0) s = .next t ∧ EndsStatusIn u t ∧
      (∀ i, i < h.inSizes.length →
        memRead u.ram (idlePtr s.cfg i) = d ∧ u.hid.counters.getD i 0 = 0 ∧
          u.hid.expired.getD i false = (s.hid.expired.getD i false && d != 0)) ∧
      (∀ k, (∀ i, i < h.inSizes.length → k ≠ idlePtr s.cfg i) → memRead u.ram k = memRead s.ram k) ∧
      (∀ i, h.inSizes.length ≤ i →
        u.hid.counters.getD i 0 = s.hid.counters.getD i 0 ∧ u.hid.expired.getD i false = s.hid.expired.getD i false) ∧
      u =
        { answered .noData with
          ram := u.ram, hid := { s.hid with counters := u.hid.counters, expired := u.hid.expired } }) ∧
    (∀ i ∈ [Instr.hidGetProtocol, .hidSetProtocol], ∃ t, exec i s = .next t ∧ RefusesRequest refused t) ∧
    (s.cfg.function = .hid →
      (hiByte (wValue s.setup) = 0x21 →
        exec .hookGetClassDescriptor s = .next (answered (.dataIn .rom (hidDescPtr s.cfg) h.hidDesc.length))) ∧
      (hiByte (wValue s.setup) = 0x22 →
        exec .hookGetClassDescriptor s = .next (answered (.dataIn .rom (reportDescPtr s.cfg) h.reportDesc.length))) ∧
      (hiByte (wValue s.setup) ≠ 0x21 → hiByte (wValue s.setup) ≠ 0x22 →
        exec .hookGetClassDescriptor s = .next refused)) ∧
    romBytes s.cfg (hidDescPtr s.cfg) h.hidDesc.length = h.hidDesc ∧
    romBytes s.cfg (reportDescPtr s.cfg) h.reportDesc.length = h.reportDesc ∧
    (s.cfg.function = .hid → s.hid.counters.length = h.inSizes.length → s.hid.expired.length = h.inSizes.length →
      ∃ t, exec .sof s = .next t ∧ t = { s with ev := { s.ev with sof := false }, hid := t.hid } ∧
        t.hid = { s.hid with counters := t.hid.counters, expired := t.hid.expired } ∧
        ∀ i, i < h.inSizes.length →
          let d := (memRead s.ram (idlePtr s.cfg i)).toNat
          let k := s.hid.counters.getD i 0
          t.hid.counters.getD i 0 = (if d = 0 then k else k + 1) ∧
          t.hid.expired.getD i false = (s.hid.expired.getD i false || (d != 0 && decide (4 * d - 1 < k + 1))))

/-- The rest of the HID function and what an application does from the main loop: `init()`, `tasks()`, the endpoints of its
interface; `send_report` and the poll before it, 'send now', the note of what was sent; the two moves of a CDC application and
its SERIAL_STATE notification; bytes put into a buffer of the function's own; a main-loop call of the function's own code: HAL
calls, then writes of its own RAM, and its private state (43 R273, R278, R281, R282, 46 R373, R374, R375, R376, R377). The
model's choices. Log 19: the turns themselves, the order within a call, and that the turn of a function that is not bound, of
an unknown report, or on what is not the function's own does nothing. Log 12: how an id names a report; `init()` zeroes the
idle durations with the report storage, and takes the registers of HID back to their reset values; the drop where the SIE owns
the BD; the long chunk dropped; the flags that a send takes down; the packets armed with the EPS toggle; bytes longer than the
report cut, shorter ones followed by the rest of the old contents; no report id in a packet; which `per_report_sent` booleans
are set and taken down; a completion on the Interrupt OUT endpoint changes nothing; a HID interface other than 0 has no
endpoints; the bytes of `send_report` are stored as the report's contents first; a SERIAL_STATE notification conveys the lines
changed or not, carrier detect as bit 0 and DSR as bit 1. Log 7: the free bytes of a buffer that is filled while the SIE owns
its BD. -/
def Obligations.FunctionAndApplicationTurns : Prop :=
  ∀ s : State, s.Sound →
    let h := s.cfg.hid
    let c := s.cfg.cdc
    let no := List.replicate h.inSizes.length false
    (s.cfg.function = .hid →
      (∃ t, exec .hookInit s = .next t ∧ ZeroesObjects s.cfg.addrW (functionRam s.cfg) s.ram t.ram ∧
        (∀ par ∈ parities s.cfg.ppMode h.inEp .inp,
          ∃ a, s.Addressed h.inEp .inp par a ∧ t.bd h.inEp .inp par = { s.bd h.inEp .inp par with address := a }) ∧
        (∀ o, h.outEp = some o →
          t.ctrlAt o = ⟨true, decide (o = h.inEp), true⟩ ∧
          (∃ n a, t.bd o .out .even = ⟨statArmed true false, n, a⟩ ∧ s.Addressed o .out .even a ∧
            ((s.bd o .out .even).stat.own = false → n = BitVec.ofNat 10 h.max)) ∧
          ∀ par ∈ parities s.cfg.ppMode o .out, par ≠ .even →
            ∃ a, s.Addressed o .out par a ∧ t.bd o .out par = { s.bd o .out par with address := a }) ∧
        (∀ e d p, ¬(e = h.inEp ∧ d = .inp) → ¬(h.outEp = some e ∧ d = .out) → t.bd e d p = s.bd e d p) ∧
        t.ctrlAt h.inEp = ⟨true, true, decide (h.outEp = some h.inEp)⟩ ∧
        (∀ e, e ≠ h.inEp → h.outEp ≠ some e → t.ctrlAt e = s.ctrlAt e) ∧
        t =
          { s with
            ram := t.ram
            bdt := t.bdt
            hid := ⟨List.replicate h.inSizes.length 0, no, no, no, false, none, .none⟩
            sie := { s.sie with epCtrl := t.sie.epCtrl }
            free := t.free }) ∧
      (∀ (ep : Ep) (dir : Dir) (par : Parity) (n : Nat),
        (∀ i, ep = h.inEp → dir = .inp → s.hid.inFlight = some i →
          ∃ t, exec (.hookTasks ep dir par n) s = .next t ∧
            (∀ j, t.hid.sent.getD j false = (decide (j = i) && decide (i < s.hid.sent.length))) ∧
            t =
              { s with
                hid :=
                  { s.hid with
                    counters := s.hid.counters.set i 0, sent := t.hid.sent, sentGlobal := true, inFlight := none } }) ∧
        (¬(ep = h.inEp ∧ dir = .inp) ∨ s.hid.inFlight = none → exec (.hookTasks ep dir par n) s = .next s)) ∧
      (∀ iface : Byte, ∃ t, exec (.hookInterfaceEndpoints iface) s = .next t ∧ t = { s with reply := t.reply } ∧
        t.reply.accepted = true ∧
        ∀ e d, (e, d) ∈ t.reply.endpoints ↔
          iface = 0 ∧ ((e = h.inEp ∧ d = .inp) ∨ (h.outEp = some e ∧ d = .out))) ∧
      (∀ (rid : Byte) (b : List Byte),
        let par := s.nextPar h.inEp .inp
        (reportIndex h.useIds h.inSizes.length rid = none ∨ (s.bd h.inEp .inp par).stat.own = true →
          runApp (.sendReport rid b) s = s) ∧
        (reportIndex h.useIds h.inSizes.length rid = none →
          runApp (.pollReport rid) s = s ∧ runApp (.requestReport rid) s = s) ∧
        ∀ i, reportIndex h.useIds h.inSizes.length rid = some i →
          ((s.bd h.inEp .inp par).stat.own = false →
            ∃ m, HoldsAt s.cfg.addrW (h.inAddrs.getD i 0) (b.take (h.inSizes.getD i 0)) s.ram m ∧
              SendsOwn h.inEp (readBytes s.cfg.addrW m (h.inAddrs.getD i 0) (h.inSizes.getD i 0))
                { s with
                  ram := m
                  hid :=
                    { s.hid with
                      expired := s.hid.expired.set i false
                      sendNow := s.hid.sendNow.set i false
                      sent := s.hid.sent.set i false
                      sentGlobal := false
                      inFlight := some i } } (runApp (.sendReport rid b) s)) ∧
          runApp (.pollReport rid) s =
            (if s.hid.expired.getD i false ∨ s.hid.sendNow.getD i false then runApp (.sendReport rid []) s else s) ∧
          runApp (.requestReport rid) s = { s with hid := { s.hid with sendNow := s.hid.sendNow.set i true } }) ∧
      (∃ l, (∀ j, l.getD j false = false) ∧
        runApp .takeSent s = { s with hid := { s.hid with sent := l, sentGlobal := false } })) ∧
    (s.cfg.function = .cdc →
      (∀ b : List Byte,
        let par := s.nextPar c.dataInEp .inp
        ((s.bd c.dataInEp .inp par).stat.own = true ∨ c.max < b.length → runApp (.cdcSend b) s = s) ∧
        ((s.bd c.dataInEp .inp par).stat.own = false → b.length ≤ c.max →
          SendsOwn c.dataInEp b { s with cdc := { s.cdc with txReady := false } } (runApp (.cdcSend b) s))) ∧
      let par := s.nextPar c.dataOutEp .out
      ((s.bd c.dataOutEp .out par).stat.own = true → runApp .cdcReceive s = { s with cdc := { s.cdc with rxCount := 0 } }) ∧
      ((s.bd c.dataOutEp .out par).stat.own = false →
        ArmsNext c.dataOutEp .out (s.epsAt c.dataOutEp .out).toggle c.max { s with cdc := { s.cdc with rxCount := 0 } }
          (runApp .cdcReceive s))) ∧
    (s.cfg.function = .cdc →
      (∀ dcd dsr, runApp (.serialState dcd dsr) s = { s with cdc := { s.cdc with dcd := dcd, dsr := dsr } }) ∧
      (c.serialHeader = none ∨ (s.bd c.notifyEp .inp (s.nextPar c.notifyEp .inp)).stat.own = true →
        runApp .serialNotify s = s) ∧
      ∀ header, c.serialHeader = some header → header.length = 8 ∧
        ((s.bd c.notifyEp .inp (s.nextPar c.notifyEp .inp)).stat.own = false →
          SendsOwn c.notifyEp (header ++ [(if s.cdc.dcd then 1 else 0) + (if s.cdc.dsr then 2 else 0), 0]) s
            (runApp .serialNotify s))) ∧
    (∀ (ep : Ep) (dir : Dir) (par : Parity) (b : List Byte),
      ((ep, dir) ∉ functionEps s.cfg ∨ ¬s.validBd ep dir par ∨ s.cfg.bulkMax < b.length →
        runApp (.fill ep dir par b) s = s) ∧
      ((ep, dir) ∈ functionEps s.cfg → s.validBd ep dir par → b.length ≤ s.cfg.bulkMax →
        ((s.bd ep dir par).stat.own = false →
          ∃ m, HoldsAt s.cfg.addrW (s.bufAddr ep dir par) b s.buf m ∧ runApp (.fill ep dir par b) s = { s with buf := m }) ∧
        ((s.bd ep dir par).stat.own = true →
          ∃ m, SameBytesBut s.cfg.addrW (s.bufAddr ep dir par) b.length s.buf m ∧
            runApp (.fill ep dir par b) s = { s with buf := m, free := s.free + 1 }))) ∧
    (∀ (l : List FnCall) (r : List (Addr × Byte)) (n : Nat),
      (s.cfg.function = .msc → runApp (.own l r n) s = s) ∧
      (s.cfg.function ≠ .msc →
        runApp (.own [] [] n) s = { s with fnState := n } ∧
        (∀ (a : Addr) (v : Byte),
          ((∃ x ∈ functionRam s.cfg, x.1 ≤ a ∧ a < x.1 + x.2) →
            ∃ m, HoldsAt s.cfg.addrW a [v] s.ram m ∧ runApp (.own [] [(a, v)] n) s = { s with ram := m, fnState := n }) ∧
          ((∀ x ∈ functionRam s.cfg, ¬(x.1 ≤ a ∧ a < x.1 + x.2)) →
            runApp (.own [] [(a, v)] n) s = { s with fnState := n }) ∧
          runApp (.own [] ((a, v) :: r) n) s = runApp (.own [] r n) (runApp (.own [] [(a, v)] n) s)) ∧
        (∀ f, runApp (.own (f :: l) r n) s = runApp (.own l r n) (runApp (.own [f] [] s.fnState) s)) ∧
        ∀ (ep : Ep) (dir : Dir) (par : Parity) (tog : Bool) (k : Nat) (e : EpCtrl) (b : List Byte),
          (∀ p ∈ [(FnCall.reclaim ep dir par, Instr.reclaim ep dir par), (.stallEp ep dir, .stallEp ep dir),
              (.armOut ep par tog k, .armOut ep par tog k), (.armIn ep par tog k, .armIn ep par tog k),
              (.rearmOut ep par tog k, .rearmOut ep par tog k), (.rearmIn ep par tog k, .rearmIn ep par tog k)],
            (callable s.cfg p.2 = true → exec p.2 s = .next (runApp (.own [p.1] [] s.fnState) s)) ∧
            (callable s.cfg p.2 = false → runApp (.own [p.1] [] s.fnState) s = s)) ∧
          runApp (.own [.fill ep dir par b] [] s.fnState) s = runApp (.fill ep dir par b) s ∧
          runApp (.own [.setCtrl ep e] [] s.fnState) s = s)) ∧
    ∀ (rid : Byte) (b : List Byte) (dcd dsr : Bool),
      (s.cfg.function ≠ .hid → ∀ a ∈ [AppCall.sendReport rid b, .pollReport rid, .requestReport rid, .takeSent],
        runApp a s = s) ∧
      (s.cfg.function ≠ .cdc → ∀ a ∈ [AppCall.cdcSend b, .cdcReceive, .serialState dcd dsr, .serialNotify],
        runApp a s = s)

/-! The Bulk-Only Transport engine (44). Its bulk endpoints exist wherever MSC is bound (00 R12, R13). -/

/-- The ring: a bulk completion is appended, a fifth entry is the model's fault, another endpoint is ignored; `msd_tasks`
serves the entries first in, first out, and empties it; a stale entry is dropped (44 R292, R294, R295). -/
def Obligations.RingIsFirstInFirstOut : Prop :=
  ∀ s : State,
    (∀ (ep : Ep) (dir : Dir) (par : Parity) (n : Nat) (i : Instr),
      i = .botEnqueue ep dir par n ∨
          s.cfg.function = .msc ∧ (i = .hookTasks ep dir par n ∨ i = .epnCompletion ep dir par n) →
      (((ep = s.cfg.bulkOutEp ∧ dir = .out) ∨ (ep = s.cfg.bulkInEp ∧ dir = .inp)) →
        (s.bot.q.length < 4 → exec i s = .next { s with bot := { s.bot with q := s.bot.q ++ [⟨dir, par, n⟩] } }) ∧
        (4 ≤ s.bot.q.length → exec i s = .fault .ringOverflow)) ∧
      (¬(ep = s.cfg.bulkOutEp ∧ dir = .out) → ¬(ep = s.cfg.bulkInEp ∧ dir = .inp) → exec i s = .next s)) ∧
    (s.bot.q = [] → exec .msdTasks s = .next s) ∧
    (∀ e r, s.bot.q = e :: r →
      ∃ u, exec (decodeBotStep s.bot.state e.dir e.par e.n) { s with bot := { s.bot with q := r } } = .next u ∧
        u.bot.q = r ∧ exec .msdTasks s = exec .msdTasks u) ∧
    (∃ t, exec .msdTasks s = .next t ∧ t.bot.q = []) ∧
    exec .botStaleEntry s = .next s

/-- The CBW validator: 31 bytes and the signature are accepted, loaded and dispatched; anything else stalls both bulk
directions and waits for a BOMSR, the wrappers unwritten (44 R296, R297). -/
def Obligations.CbwValidation : Prop :=
  ∀ (s : State) (par : Parity) (n : Nat), s.Sound → s.cfg.bulkEpsOk = true →
    let b := readBytes s.cfg.addrW s.buf (s.bd s.cfg.bulkOutEp .out par).address 31
    let loaded (x : List Byte) : State :=
      { s with
        cbw := x
        csw := ⟨le32 (byteAt x 4) (byteAt x 5) (byteAt x 6) (byteAt x 7), 0, .passed⟩
        bot := { s.bot with dir := (byteAt x 12).getLsbD 7, opcode := byteAt x 15, stalled := none }
        rw := { s.rw with cbwDeclaredBytes := le32 (byteAt x 8) (byteAt x 9) (byteAt x 10) (byteAt x 11) } }
    let valid := n = 31 ∧ le32 (byteAt b 0) (byteAt b 1) (byteAt b 2) (byteAt b 3) = 0x43425355
    (valid → ∃ t, exec (.botCbwReceived par n) s = .next t ∧ exec .scsiDispatch (loaded b) = .next t) ∧
    (∀ c : Cbw, c.cb.length = 16 →
      ∃ x t, exec (.cbwValid c) s = .next t ∧ exec .scsiDispatch (loaded x) = .next t ∧ x.length = 31 ∧
        (loaded x).csw.tag = c.tag ∧ (loaded x).hostLen = c.h ∧ (loaded x).bot.dir = c.flags.getLsbD 7 ∧
        (loaded x).bot.opcode = byteAt c.cb 0 ∧ ∀ i, i < 16 → (loaded x).cb i = byteAt c.cb i) ∧
    ∀ i : Instr, i = .cbwInvalid ∨ (i = .botCbwReceived par n ∧ ¬valid) →
      ∃ u v t, StallsEp s.cfg.bulkInEp .inp s u ∧ StallsEp s.cfg.bulkOutEp .out u v ∧ exec i s = .next t ∧
        t = { v with bot := { v.bot with state := .waitInvalid } }

/-- The thirteen cases and the two failure helpers: the status and residue that each sets, and the operation that it then
is; a failure stalls the direction that the host declared, whatever the device expected (44 R300, R309, R310). -/
def Obligations.CasesAndFailures : Prop :=
  (∀ (s : State) (d : Word) (src : Src),
    let h := s.hostLen
    let at_ (status : CswStatus) (residue : Word) : State := { s with csw := ⟨s.csw.tag, residue, status⟩ }
    let noData (status : CswStatus) (residue : Word) : State :=
      { s with csw := ⟨s.csw.tag, residue, status⟩, bot := { s.bot with state := .noDataStage } }
    ∀ c ∈ [(Instr.botCase1, Instr.sendCsw, noData s.csw.status 0),
        (.botCase2, .sendCsw, noData .phaseError h),
        (.botCase3, .sendCsw, noData .phaseError h),
        (.botCase4, .startIn .zeros h .sendCsw, at_ s.csw.status h),
        (.botCase5 d src, .startIn src d .stallThenCsw, at_ s.csw.status (h - d)),
        (.botCase6 d src, .startIn src d .sendCsw, at_ s.csw.status 0),
        (.botCase7 src, .startIn src h .stallThenCsw, at_ .phaseError 0),
        (.botCase8, .startIn .zeros h .sendCsw, at_ .phaseError h),
        (.botCase9, .stallAndWait .out, at_ s.csw.status h),
        (.botCase10, .stallAndWait .out, at_ .phaseError h),
        (.botCase11 d, .startOut d .stallThenCsw, at_ s.csw.status (h - d)),
        (.botCase12 d, .startOut d .sendCsw, at_ s.csw.status 0),
        (.botCase13, .stallAndWait .out, at_ .phaseError h)],
      ∃ t, exec c.1 s = .next t ∧ exec c.2.1 c.2.2 = .next t) ∧
  ∀ (s : State) (e : Expect) (key : BitVec 4) (asc ascq : Byte),
    let h := s.hostLen
    let failed := { s with sense := ⟨key, asc, ascq⟩, csw := ⟨s.csw.tag, h, .failed⟩ }
    let phase := { s with csw := ⟨s.csw.tag, h, .phaseError⟩ }
    ∀ p ∈ [(Instr.failCommand e key asc ascq, failed), (.phaseFail, phase)],
      (h = 0 → ∃ t, exec p.1 s = .next t ∧
        exec .sendCsw { p.2 with bot := { s.bot with state := .noDataStage } } = .next t) ∧
      (h ≠ 0 → ∃ t, exec p.1 s = .next t ∧ exec (.stallAndWait (if s.bot.dir then .inp else .out)) p.2 = .next t)

/-- What the arbiter comes to, for every expectation, length and direction: the tag kept, the status and the residue of
the 13-case table, no residue above H, the BOT state of R317 (44 R299, R300, R316, R317). -/
def Obligations.ArbitrationOutcome : Prop :=
  ∀ (s : State) (e : Expect) (d : Word) (src : Src), s.csw.status = .passed →
    let h := s.hostLen
    ∃ t, exec (.arbitrate e d src) s = .next t ∧ t.csw.tag = s.csw.tag ∧ t.csw.residue.toNat ≤ h.toNat ∧
      (t.csw.status, t.csw.residue) =
        (if d = 0 ∨ e = .dn then (.passed, h)
        else if e = .di then
          if h = 0 then (.phaseError, h)
          else if s.bot.dir = false then (.phaseError, h)
          else if d < h then (.passed, h - d)
          else if d = h then (.passed, 0)
          else (.phaseError, 0)
        else if h = 0 then (.phaseError, h)
        else if s.bot.dir = true then (.phaseError, h)
        else if d < h then (.passed, h - d)
        else if d = h then (.passed, 0)
        else (.phaseError, h)) ∧
      (if h = 0 then t.bot.state = .csw
      else if s.bot.dir = true then t.bot.state ∈ [BotState.readData, .readFinished, .dataSent]
      else if d ≠ 0 ∧ e = .dO ∧ d.toNat ≤ h.toNat then t.bot.state = .writeData
      else t.bot.state = .waitIllegal ∧ t.bot.stalled = some .out)

/-- The data stage to the host: what `start_in` loads; what each packet takes from its source, sends, counts and leads
to; and the place in the media moves on by exactly the bytes sent (44 R301, R304, 10 R34). -/
def Obligations.DataInStreaming : Prop :=
  ∀ s : State, s.Sound → s.cfg.bulkEpsOk = true →
    (∀ (src : Src) (total : Word) (act : EndAction),
      ∃ t, exec (.startIn src total act) s = .next t ∧
        exec .sendInChunk
          { s with bot := { s.bot with src := src, xferRemaining := total, endAction := act, respPtr := 0 } } = .next t) ∧
    ∀ i ∈ [Instr.sendInChunk, .botDataInNext],
      let k := min s.cfg.bulkMax s.bot.xferRemaining.toNat
      let n := if s.bot.src = .backend then min k (s.cfg.blockSize - s.rw.byteOfSector) else k
      let key := s.rw.currentLba.toNat * s.cfg.blockSize + s.rw.byteOfSector
      let wraps := s.rw.byteOfSector + n = s.cfg.blockSize
      ∃ b t, exec i s = .next t ∧ b.length = n ∧
        (s.bot.src = .resp → b = (List.range n).map (fun j => byteAt s.bot.resp (s.bot.respPtr + j))) ∧
        (s.bot.src = .zeros → b = List.replicate n 0) ∧
        (s.bot.src = .backend → s.mediaPresent = true → b = bytesFrom s.media key n) ∧
        (s.bot.src ≠ .backend ∨ s.mediaPresent = true → t.free = s.free) ∧
        SendsIn s.cfg.bulkInEp b
          { s with
            bot :=
              { s.bot with
                xferRemaining := s.bot.xferRemaining - BitVec.ofNat 32 n
                respPtr := if s.bot.src = .resp then s.bot.respPtr + n else s.bot.respPtr
                state :=
                  if s.bot.xferRemaining - BitVec.ofNat 32 n ≠ 0 then .readData
                  else if s.bot.src = .backend then .readFinished
                  else .dataSent }
            rw :=
              { s.rw with
                cbwDeclaredBytes := s.rw.cbwDeclaredBytes - BitVec.ofNat 32 n
                currentLba := if s.bot.src = .backend ∧ wraps then s.rw.currentLba + 1 else s.rw.currentLba
                byteOfSector :=
                  if s.bot.src = .backend then if wraps then 0 else s.rw.byteOfSector + n else s.rw.byteOfSector }
            free := t.free } t ∧
        (s.bot.src = .backend → s.rw.byteOfSector < s.cfg.blockSize → s.rw.currentLba.toNat + 1 < 2 ^ 32 →
          t.rw.currentLba.toNat * s.cfg.blockSize + t.rw.byteOfSector = key + n ∧ t.rw.byteOfSector < s.cfg.blockSize)

/-- The data stage from the host: what `start_out` arms; what each packet stores in the media and counts, and, where the media
is absent or protected, that it is stored whole or not at all (the model's reading of 70 R460, log 7) and no other byte of
the media moves; and what follows it (44 R302, R306). -/
def Obligations.DataOutStreaming : Prop :=
  ∀ s : State, s.Sound → s.cfg.bulkEpsOk = true →
    (∀ (total : Word) (act : EndAction),
      ∃ t, exec (.startOut total act) s = .next t ∧
        ArmsNext s.cfg.bulkOutEp .out (s.epsAt s.cfg.bulkOutEp .out).toggle
          (min (min s.cfg.bulkMax total.toNat) (s.cfg.blockSize - s.rw.byteOfSector))
          { s with bot := { s.bot with xferRemaining := total, endAction := act, state := .writeData } } t) ∧
    ∀ (par : Parity) (n : Nat), n ≤ 1023 → ∀ i ∈ [Instr.dataOutChunk par n, .botDataOutChunk par n],
      let b := readBytes s.cfg.addrW s.buf (s.bd s.cfg.bulkOutEp .out par).address n
      let key := s.rw.currentLba.toNat * s.cfg.blockSize + s.rw.byteOfSector
      ∃ u,
        (n = 0 → u.media = s.media ∧ u.free = s.free) ∧
        (∀ a, a < key ∨ key + n ≤ a → memRead u.media a = memRead s.media a) ∧
        ((∀ j, j < n → memRead u.media (key + j) = byteAt b j) ∨ u.media = s.media) ∧
        (s.mediaPresent = true → s.writeProtected = false →
          u.free = s.free ∧ ∀ j, j < n → memRead u.media (key + j) = byteAt b j) ∧
        u =
          { s with
            media := u.media
            free := u.free
            bot := { s.bot with xferRemaining := s.bot.xferRemaining - BitVec.ofNat 32 n }
            rw :=
              { s.rw with
                cbwDeclaredBytes := s.rw.cbwDeclaredBytes - BitVec.ofNat 32 n
                currentLba :=
                  if n ≠ 0 ∧ s.rw.byteOfSector + n = s.cfg.blockSize then s.rw.currentLba + 1 else s.rw.currentLba
                byteOfSector :=
                  if n ≠ 0 ∧ s.rw.byteOfSector + n = s.cfg.blockSize then 0 else s.rw.byteOfSector + n } } ∧
        (u.bot.xferRemaining = 0 → s.bot.endAction = .stallThenCsw →
          ∃ t, exec i s = .next t ∧ exec (.stallAndWait .out) u = .next t) ∧
        (u.bot.xferRemaining = 0 → s.bot.endAction = .sendCsw →
          ∃ t, exec i s = .next t ∧ exec .sendCsw u = .next t) ∧
        (u.bot.xferRemaining ≠ 0 →
          ∃ t, exec i s = .next t ∧
            ArmsNext s.cfg.bulkOutEp .out (s.epsAt s.cfg.bulkOutEp .out).toggle
              (min (min s.cfg.bulkMax u.bot.xferRemaining.toNat) (s.cfg.blockSize - u.rw.byteOfSector)) u t)

/-- The end of a command: the stall that waits for a clear, the status wrapper byte by byte, the arm for the next CBW
(44 R303, R305, R307, R308, 30 R136, 45 R343). The wrapper put alone into a buffer whose BD the SIE owns is left open (20 R98,
70 R446): the model's reading is that each of its bytes is a free value (log 7). -/
def Obligations.CommandEnd : Prop :=
  ∀ s : State, s.Sound → s.cfg.bulkEpsOk = true →
    let wrapper : List Byte :=
      ([0x55, 0x53, 0x42, 0x53] : List Byte) ++ le32Bytes s.csw.tag ++ le32Bytes s.csw.residue ++
        ([match s.csw.status with | .passed => 0 | .failed => 1 | .phaseError => 2] : List Byte)
    let cleared : Sense := if s.csw.status = .passed then ⟨0, 0, 0⟩ else s.sense
    (∀ dir, ∃ u t, StallsEp (s.bulkEp dir) dir s u ∧ exec (.stallAndWait dir) s = .next t ∧
      t = { u with bot := { u.bot with stalled := some dir, state := .waitIllegal } }) ∧
    (∃ t, exec .sendCsw s = .next t ∧
      SendsIn s.cfg.bulkInEp wrapper { s with sense := cleared, bot := { s.bot with state := .csw } } t) ∧
    (let own := (s.bd s.cfg.bulkInEp .inp (s.nextPar s.cfg.bulkInEp .inp)).stat.own
      ∃ t, exec .cswWrapper s = .next t ∧
        (own = false →
          HoldsAt s.cfg.addrW (s.nextAddr s.cfg.bulkInEp .inp) wrapper s.buf t.buf ∧ t = { s with buf := t.buf }) ∧
        (own = true →
          SameBytesBut s.cfg.addrW (s.nextAddr s.cfg.bulkInEp .inp) 13 s.buf t.buf ∧
            t = { s with buf := t.buf, free := s.free + 1 })) ∧
    exec .senseOnComplete s = .next { s with sense := cleared } ∧
    (∀ i ∈ [Instr.endOfDataIn, .botDataInEnd],
      (s.bot.endAction = .stallThenCsw → ∃ t, exec i s = .next t ∧ exec (.stallAndWait .inp) s = .next t) ∧
      (s.bot.endAction = .sendCsw → ∃ t, exec i s = .next t ∧ exec .sendCsw s = .next t)) ∧
    ∀ i ∈ [Instr.cswComplete, .botCswSent], ∃ t, exec i s = .next t ∧
      ArmsNext s.cfg.bulkOutEp .out (s.epsAt s.cfg.bulkOutEp .out).toggle s.cfg.bulkMax
        { s with bot := { s.bot with state := .cbw } } t

/-- What a Clear-Feature on a bulk endpoint does in each BOT state (44 R311). -/
def Obligations.ClearHaltByBotState : Prop :=
  ∀ (s : State) (index : Nat) (ep : Ep) (dir : Dir), s.Sound → ep ≠ 0 → ep.toNat < s.cfg.numEp →
    let i := Instr.botClearHalt index ep dir
    (s.bot.state = .waitInvalid → ∃ t, exec i s = .next t ∧ StallsEp ep dir s t) ∧
    (s.bot.state = .waitIllegal → s.bot.stalled = some dir →
      ∃ t, exec i s = .next t ∧ exec .sendCsw { s with bot := { s.bot with stalled := none } } = .next t) ∧
    (s.bot.state = .waitIllegal → s.bot.stalled ≠ some dir → exec i s = .next s) ∧
    (s.bot.state = .cbw → ep = s.cfg.bulkOutEp → dir = .out →
      ∃ t, exec i s = .next t ∧ ArmsNext ep dir (s.epsAt ep dir).toggle s.cfg.bulkMax s t) ∧
    (s.bot.state = .cbw → ¬(ep = s.cfg.bulkOutEp ∧ dir = .out) → exec i s = .next s) ∧
    (s.bot.state ≠ .waitInvalid → s.bot.state ≠ .waitIllegal → s.bot.state ≠ .cbw → exec i s = .next s)

/-- The class requests of MSC: BOMSR resets the bookkeeping, readies each direction that is not halted and ends with
STATUS_IN, the sense kept; GET_MAX_LUN sends one zero byte; anything else is refused (44 R313, R314, 43 R271). -/
def Obligations.MscClassRequests : Prop :=
  ∀ s : State, s.Sound → s.cfg.bulkEpsOk = true →
    let inp := s.cfg.bulkInEp
    let out := s.cfg.bulkOutEp
    (∃ u t, exec .bomsr s = .next t ∧ EndsStatusIn u t ∧
      (s.cfg.function = .msc → bRequest s.setup = 0xFF → exec .hookClassRequest s = .next u) ∧
      (∀ par ∈ parities s.cfg.ppMode inp .inp, u.bd inp .inp par =
        if (s.epsAt inp .inp).halted then s.bd inp .inp par else { s.bd inp .inp par with stat := statClear }) ∧
      u.bd out .out (s.nextPar out .out) =
        (if (s.epsAt out .out).halted then s.bd out .out (s.nextPar out .out)
        else armedBd (s.epsAt out .out).toggle s.cfg.bulkMax (s.nextAddr out .out)) ∧
      (∀ e d p, ¬(e = inp ∧ d = .inp) → bdIndex s.cfg.ppMode e d p ≠ bdIndex s.cfg.ppMode out .out (s.nextPar out .out) →
        u.bd e d p = s.bd e d p) ∧
      u =
        { s with
          cbw := List.replicate 31 0
          csw := ⟨0, 0, .passed⟩
          rw := ⟨0, 0, 0, 0, 0, 0⟩
          bot := ⟨.cbw, false, 0, 0, .resp, List.replicate 36 0, 0, .sendCsw, none, []⟩
          reply := ⟨true, .noData, 0, []⟩
          bdt := u.bdt }) ∧
    (∃ u t, exec .getMaxLun s = .next t ∧ exec (.startDataIn .ram s.cfg.lunAddr 1) u = .next t ∧
      (s.cfg.function = .msc → bRequest s.setup = 0xFE → exec .hookClassRequest s = .next u) ∧
      HoldsAt s.cfg.addrW s.cfg.lunAddr [0] s.ram u.ram ∧
      u = { s with ram := u.ram, reply := ⟨true, .dataIn .ram s.cfg.lunAddr 1, 0, []⟩ }) ∧
    ∃ t, exec .mscClassOther s = .next t ∧ RefusesRequest { s with reply := ⟨false, .noData, 0, []⟩ } t

/-- `bot_init`: the bookkeeping and the sense reset, the bulk BDs given their buffers, the bulk endpoints enabled, OUT armed
for a CBW (44 R315; the address of a BD that the SIE owns is left open, 70 R445). -/
def Obligations.BotInitReadiesTheBulkEndpoints : Prop :=
  ∀ s : State, s.Sound → s.cfg.bulkEpsOk = true →
    let inp := s.cfg.bulkInEp
    let out := s.cfg.bulkOutEp
    ∃ t, exec .botInit s = .next t ∧
      (∃ a, s.Addressed out .out (s.nextPar out .out) a ∧
        t.bd out .out (s.nextPar out .out) = armedBd (s.epsAt out .out).toggle s.cfg.bulkMax a) ∧
      (∀ par ∈ parities s.cfg.ppMode out .out, par ≠ s.nextPar out .out →
        ∃ a, s.Addressed out .out par a ∧ t.bd out .out par = { s.bd out .out par with address := a }) ∧
      (∀ par ∈ parities s.cfg.ppMode inp .inp,
        ∃ a, s.Addressed inp .inp par a ∧ t.bd inp .inp par = { s.bd inp .inp par with address := a }) ∧
      (∀ e d p, ¬(e = inp ∧ d = .inp) → ¬(e = out ∧ d = .out) → t.bd e d p = s.bd e d p) ∧
      t.ctrlAt out = ⟨true, decide (inp = out), true⟩ ∧ t.ctrlAt inp = ⟨true, true, decide (inp = out)⟩ ∧
      (∀ e, e ≠ inp → e ≠ out → t.ctrlAt e = s.ctrlAt e) ∧
      t =
        { s with
          cbw := List.replicate 31 0
          csw := ⟨0, 0, .passed⟩
          rw := ⟨0, 0, 0, 0, 0, 0⟩
          bot := ⟨.cbw, false, 0, 0, .resp, List.replicate 36 0, 0, .sendCsw, none, []⟩
          sense := ⟨0, 0, 0⟩
          bdt := t.bdt
          sie := { s.sie with epCtrl := t.sie.epCtrl }
          free := t.free }

/-! The SCSI responder (45). -/

/-- What each command asks of the arbiter or which failure it is, and the bytes of each response (45 R341, R344, R346,
R348, R350, R358, R360, 30 R139 to R142). -/
def Obligations.ScsiResponses : Prop :=
  ∀ s : State, s.Sound →
    (∀ (b : List Byte) (d : Nat), b.length = d → d ≤ 36 →
      ∃ u t, exec (.respond b d) s = .next t ∧ exec (.arbitrate .di (BitVec.ofNat 32 d) .resp) u = .next t ∧
        (∀ i, i < d → byteAt u.bot.resp i = byteAt b i) ∧
        (∀ i, d ≤ i → byteAt u.bot.resp i = byteAt s.bot.resp i) ∧
        u = { s with bot := { s.bot with resp := u.bot.resp } }) ∧
    (∃ t, exec .testUnitReady s = .next t ∧
      (s.mediaPresent = true → exec (.arbitrate .dn 0 .resp) s = .next t) ∧
      (s.mediaPresent = false → exec (.failCommand .dn 2 0x3A 0) s = .next t)) ∧
    (∃ t, exec .inquiry s = .next t ∧
      exec (.respond ([0x00, 0x80, 0x04, 0x02, 0x20, 0, 0, 0] ++ s.cfg.inqVendor ++ s.cfg.inqProduct ++ s.cfg.inqRev) 36) s =
        .next t) ∧
    (∃ t, exec .modeSense6 s = .next t ∧
      exec (.respond [0x03, 0x00, if s.writeProtected then 0x80 else 0x00, 0x00] 4) s = .next t) ∧
    (∀ lba, lba ≠ 0 → ∃ t, exec (.readCapacity10 lba false) s = .next t ∧ exec .phaseFail s = .next t) ∧
    (∀ lba pmi, pmi = true ∨ lba = 0 → ∃ t, exec (.readCapacity10 lba pmi) s = .next t ∧
      ∃ last, (s.cfg.capacity ≠ 0 → last = BitVec.ofNat 32 (s.cfg.capacity - 1)) ∧
        exec (.respond (be32Bytes last ++ be32Bytes (BitVec.ofNat 32 s.cfg.blockSize)) 8) s = .next t) ∧
    (∀ alloc : Byte, ∃ t, exec (.requestSense alloc) s = .next t ∧
      exec
        (.respond
          (([0x70, 0, s.sense.key.setWidth 8, 0, 0, 0, 0, 0x0A, 0, 0, 0, 0, s.sense.asc, s.sense.ascq, 0, 0, 0, 0] :
            List Byte).take (min 18 alloc.toNat))
          (min 18 alloc.toNat)) { s with sense := ⟨0, 0, 0⟩ } = .next t) ∧
    ∃ t, exec .scsiUnknownOpcode s = .next t ∧ exec (.failCommand .dn 5 0x20 0) s = .next t

/-- READ(10) and WRITE(10): the working set, the protection and range checks in their order, made in unbounded
naturals, and the arbiter's operands (45 R352, R354, R356, 00 R19). -/
def Obligations.ReadAndWriteTen : Prop :=
  ∀ (s : State) (lba : Word) (len : Half), s.Sound →
    let bytes := BitVec.ofNat 32 (len.toNat * s.cfg.blockSize)
    let u : State :=
      { s with
        rw :=
          { s.rw with
            startLba := lba
            currentLba := lba
            transferLenBlocks := len
            transferLenBytes := bytes
            byteOfSector := 0 } }
    bytes.toNat = len.toNat * s.cfg.blockSize ∧
    (be32 (s.cb 2) (s.cb 3) (s.cb 4) (s.cb 5) = lba → be16 (s.cb 7) (s.cb 8) = len → exec .rwParse s = .next u) ∧
    (s.cfg.capacity < lba.toNat + len.toNat →
      ∃ t, exec (.read10 lba len) s = .next t ∧ exec (.failCommand .di 5 0x21 0) u = .next t) ∧
    (lba.toNat + len.toNat ≤ s.cfg.capacity →
      ∃ t, exec (.read10 lba len) s = .next t ∧ exec (.arbitrate .di bytes .backend) u = .next t) ∧
    (s.writeProtected = true →
      ∃ t, exec (.write10 lba len) s = .next t ∧ exec (.failCommand .dO 7 0x27 0) u = .next t) ∧
    (s.writeProtected = false → s.cfg.capacity < lba.toNat + len.toNat →
      ∃ t, exec (.write10 lba len) s = .next t ∧ exec (.failCommand .dO 5 0x21 0) u = .next t) ∧
    (s.writeProtected = false → lba.toNat + len.toNat ≤ s.cfg.capacity →
      ∃ t, exec (.write10 lba len) s = .next t ∧ exec (.arbitrate .dO bytes .backend) u = .next t)

/-! Events, resets, the environment (60, 70, 20). -/

/-- Attach, idle, activity, SOF and error: each clears its flag and makes its transition, if any; MSC and CDC have no SOF
handler (60 R401, R410, R413, R414, R415). -/
def Obligations.EventTransitions : Prop :=
  ∀ s : State,
    (s.deviceState = .detached → exec .attach s =
      .next
        { s with
          ev := { s.ev with attach := false }
          sie := { s.sie with enable := true }
          deviceState := .powered }) ∧
    (s.deviceState ≠ .detached → exec .attach s = .next { s with ev := { s.ev with attach := false } }) ∧
    (s.deviceState ∈ [DeviceState.powered, .dflt, .address, .configured] → exec .idle s =
      .next
        { s with ev := { s.ev with idle := false }, suspendedFrom := s.deviceState, deviceState := .suspended }) ∧
    (s.deviceState ∉ [DeviceState.powered, .dflt, .address, .configured] →
      exec .idle s = .next { s with ev := { s.ev with idle := false } }) ∧
    (s.deviceState = .suspended → exec .activity s =
      .next { s with ev := { s.ev with activity := false }, deviceState := s.suspendedFrom }) ∧
    (s.deviceState ≠ .suspended → exec .activity s = .next { s with ev := { s.ev with activity := false } }) ∧
    (s.cfg.function = .msc ∨ s.cfg.function = .cdc →
      exec .sof s = .next { s with ev := { s.ev with sof := false } }) ∧
    (∃ t, exec .sof s = .next t ∧ t.ev = { s.ev with sof := false } ∧ t.deviceState = s.deviceState ∧
      t.stage = s.stage ∧ t.ctl = s.ctl ∧ t.setup = s.setup ∧ t.sie.address = s.sie.address ∧ t.bot = s.bot) ∧
    exec .error s = .next { s with ev := { s.ev with error := false } }

/-- The bus reset, in every state but DETACHED: every register that R430 to R435 name, and nothing else but the latch,
which is unspecified then (60 R401, R412, 70 R430 to R436, R439). -/
def Obligations.BusResetSequence : Prop :=
  ∀ s : State, s.Sound → s.deviceState ≠ .detached →
    ∃ t, exec .reset s = .next t ∧
      HoldsAt s.cfg.addrW s.cfg.scratch [0, 0] s.ram t.ram ∧
      (∀ (ep : Ep) (dir : Dir), ep.toNat < s.cfg.numEp → t.epsAt ep dir = ⟨false, false, .odd⟩ ∧
        t.ptrAt ep dir = .even ∧ t.nextPar ep dir = .even ∧
        t.ctrlAt ep = (if ep = 0 then ⟨true, true, true⟩ else ⟨false, false, false⟩)) ∧
      t.bd 0 .out .even = armedBd false 8 (s.bufAddr 0 .out .even) ∧
      (∀ (ep : Ep) (dir : Dir) (par : Parity), s.validBd ep dir par → ¬(ep = 0 ∧ dir = .out ∧ par = .even) →
        (t.bd ep dir par).stat = statClear ∧ (t.bd ep dir par).count = (s.bd ep dir par).count ∧
        (t.bd ep dir par).address = (if ep = 0 then s.bufAddr ep dir par else (s.bd ep dir par).address)) ∧
      t =
        { s with
          ev := { s.ev with reset := false, trn := false, idle := false }
          deviceState := .dflt
          suspendedFrom := .dflt
          stage := .setup
          ctl := ⟨.rom, 0, 0, 0, false⟩
          pendingAddress := 0
          addressPending := false
          currentConfiguration := 0
          remoteWakeup := false
          cbw := if s.cfg.function = .msc then List.replicate 31 0 else s.cbw
          csw := if s.cfg.function = .msc then ⟨0, 0, .passed⟩ else s.csw
          rw := if s.cfg.function = .msc then ⟨0, 0, 0, 0, 0, 0⟩ else s.rw
          bot :=
            if s.cfg.function = .msc then ⟨.cbw, false, 0, 0, .resp, List.replicate 36 0, 0, .sendCsw, none, []⟩ else s.bot
          sense := if s.cfg.function = .msc then ⟨0, 0, 0⟩ else s.sense
          ram := t.ram
          bdt := t.bdt
          eps := t.eps
          sie :=
            { s.sie with
              address := 0, pktDisable := false, epCtrl := t.sie.epCtrl, ptr := t.sie.ptr, lastTrn := t.sie.lastTrn }
          free := t.free }

/-- A reset flag in DETACHED is cleared without a reset sequence (60 R401, R412; what becomes of the other two flags is
R401's; that nothing else happens is the model's reading, log 14). -/
def Obligations.ResetIsNotAcceptedWhenDetached : Prop :=
  ∀ s : State, s.deviceState = .detached →
    exec .reset s = .next { s with ev := { s.ev with reset := false, trn := false, idle := false } }

/-- Power-on, and a detach, which is the same re-initialisation: every register at its power-on value; BD addresses, the setup
store, the latch and the contents of BUF and RAM are open (70 R440, 60 R411). That the media's bytes, the backend's two
answers, the host's toggle, the turns to come, the wires and the registers of a CDC, HID or outside function stay as they were
is the model's choice (log 11); 10 section 8 leaves them open. -/
def Obligations.PowerOnValues : Prop :=
  ∀ (s : State) (i : Instr), s.Sound → i = .powerOnInit ∨ i = .detach →
    ∃ t, exec i s = .next t ∧ t.Sound ∧ t.scratch0 = 0 ∧ t.scratch1 = 0 ∧ t.lunByte = 0 ∧
      (∀ (ep : Ep) (dir : Dir), t.epsAt ep dir = ⟨false, false, .odd⟩ ∧ t.ptrAt ep dir = .even ∧
        t.ctrlAt ep = ⟨false, false, false⟩) ∧
      (∀ ep dir par, (t.bd ep dir par).stat = statClear ∧ (t.bd ep dir par).count = 0) ∧
      t =
        { s with
          ev := ⟨false, false, false, false, false, false, false, false⟩
          deviceState := .detached
          suspendedFrom := .dflt
          stage := .setup
          setup := t.setup
          ctl := ⟨.rom, 0, 0, 0, false⟩
          pendingAddress := 0
          addressPending := false
          currentConfiguration := 0
          remoteWakeup := false
          cbw := if s.cfg.function = .msc then List.replicate 31 0 else s.cbw
          csw := if s.cfg.function = .msc then ⟨0, 0, .passed⟩ else s.csw
          rw := if s.cfg.function = .msc then ⟨0, 0, 0, 0, 0, 0⟩ else s.rw
          bot :=
            if s.cfg.function = .msc then ⟨.cbw, false, 0, 0, .resp, List.replicate 36 0, 0, .sendCsw, none, []⟩ else s.bot
          sense := if s.cfg.function = .msc then ⟨0, 0, 0⟩ else s.sense
          buf := t.buf
          ram := t.ram
          bdt := t.bdt
          eps := t.eps
          sie := ⟨0, false, t.sie.epCtrl, t.sie.lastTrn, false, t.sie.ptr⟩
          free := t.free }

/-- The values that the spec gives the machine at power-on (10 section 8, 70 R440). -/
def Obligations.ResetStateValues : Prop :=
  let s := State.reset
  s.deviceState = .detached ∧ s.suspendedFrom = .dflt ∧ s.stage = .setup ∧ s.ctl = ⟨.rom, 0, 0, 0, false⟩ ∧
    s.pendingAddress = 0 ∧ s.addressPending = false ∧ s.currentConfiguration = 0 ∧ s.remoteWakeup = false ∧
    s.cbw = List.replicate 31 0 ∧ s.csw = ⟨0, 0, .passed⟩ ∧ s.sense = ⟨0, 0, 0⟩ ∧ s.rw = ⟨0, 0, 0, 0, 0, 0⟩ ∧
    s.bot = ⟨.cbw, false, 0, 0, .resp, List.replicate 36 0, 0, .sendCsw, none, []⟩ ∧
    s.ev = ⟨false, false, false, false, false, false, false, false⟩ ∧
    s.sie.address = 0 ∧ s.sie.pktDisable = false ∧ s.sie.enable = false ∧
    (∀ e ∈ s.eps, e = ⟨false, false, .odd⟩) ∧ (∀ c ∈ s.sie.epCtrl, c = ⟨false, false, false⟩) ∧
    (∀ p ∈ s.sie.ptr, p = .even) ∧ (∀ b ∈ s.bdt, b.stat = statClear ∧ b.count = 0) ∧
    s.scratch0 = 0 ∧ s.scratch1 = 0 ∧ s.lunByte = 0

/-- The interrupt routine: while a flag is set, the first set flag in the service order is serviced; at its end none is
set; it ends unless the ring is full (60 R401). -/
def Obligations.IsrServicesEveryFlag : Prop :=
  ∀ s : State,
    (decodeEvent s.ev = none → exec .isr s = .next s) ∧
    (∀ i, decodeEvent s.ev = some i → exec .isr s = andThen (exec i s) (exec .isr)) ∧
    (∀ t, exec .isr s = .next t → t.ev = ⟨false, false, false, false, false, false, false, false⟩) ∧
    (s.bot.q.length < 4 → ∃ t, exec .isr s = .next t)

/-- The SIE's transactions with the BD that its pointer names: OUT, SETUP and IN completed; and every other token, which
changes nothing but the answer: a token that is not heard (another address, an endpoint that does not exist, a direction that
is not enabled, not attached), `sie.pkt_disable`, a BD that the engine owns, STALL, a repeated packet (20 R86 to R97, 70 R449).
The model's choices: a token on a suspended device is activity first (log 13); what the host sees while a completion is
pending, and that a packet too long for its BD sets no `ev.error` then (log 23); that an OUT packet longer than `count`, and a
SETUP on a BD armed for fewer than 8 bytes, sets `ev.error` and completes nothing (log 16), and what else it may change (log
7); when the host's own toggle moves: on with an acknowledged packet to the bulk OUT endpoint, to DATA0 with the status packet
of a request of `hostRestarts` and with a bus reset, and whenever the host says so (log 10). -/
def Obligations.SieTransactions : Prop :=
  ∀ (s : State) (addr : Option DevAddr) (ep : Ep) (tog : Bool) (b : List Byte), s.Sound →
    let v := if s.sie.enable ∧ s.deviceState = .suspended then { s with ev := { s.ev with activity := true } } else s
    let po := if s.pp ep .out then s.ptrAt ep .out else Parity.even
    let pi := if s.pp ep .inp then s.ptrAt ep .inp else Parity.even
    let o := s.bd ep .out po
    let i := s.bd ep .inp pi
    let out := applyLine (.out addr ep tog b) s
    let inp (ack : Bool) := applyLine (.inp addr ep ack) s
    let setup := applyLine (.setup addr b) s
    let moved := if ep = s.cfg.bulkOutEp then !tog else s.hostTog
    (¬s.listens addr ep .out → out = { v with wire := .none }) ∧
    (s.listens addr ep .out →
      (s.sie.pktDisable = true ∨ o.stat.own = false → out = { v with wire := .nak }) ∧
      (s.sie.pktDisable = false → o.stat.own = true →
        (BdStat.stallBit o.stat = true → out = { v with wire := .stall }) ∧
        (BdStat.stallBit o.stat = false → BdStat.dten o.stat = true → tog ≠ o.stat.dtv →
          out = { v with wire := .ack, hostTog := moved }) ∧
        (BdStat.stallBit o.stat = false → (BdStat.dten o.stat = true → tog = o.stat.dtv) →
          (s.ev.trn = true → out = { v with wire := .nak }) ∧
          (s.ev.trn = false → b.length ≤ o.count.toNat →
            Completes ep .out po pidOut b.length false .ack v out ∧ HoldsAt s.cfg.addrW o.address b s.buf out.buf ∧
              out.hostTog = moved) ∧
          (s.ev.trn = false → o.count.toNat < b.length →
            out =
              { v with
                ev := { v.ev with error := true }
                bdt := out.bdt
                buf := out.buf
                wire := out.wire
                hostTog := if out.wire = .ack then moved else s.hostTog
                free := out.free } ∧
            SameBdsBut ep .out po s out ∧ SameBytesBut s.cfg.addrW o.address b.length s.buf out.buf)))) ∧
    (¬s.listens addr ep .inp → ∀ ack, inp ack = { v with wire := .none }) ∧
    (s.listens addr ep .inp →
      (s.sie.pktDisable = true ∨ i.stat.own = false → ∀ ack, inp ack = { v with wire := .nak }) ∧
      (s.sie.pktDisable = false → i.stat.own = true →
        (BdStat.stallBit i.stat = true → ∀ ack, inp ack = { v with wire := .stall }) ∧
        (BdStat.stallBit i.stat = false →
          (s.ev.trn = true → ∀ ack, inp ack = { v with wire := .nak }) ∧
          (s.ev.trn = false →
            let d := readBytes s.cfg.addrW s.buf i.address i.count.toNat
            Completes ep .inp pi pidIn i.count.toNat false (.data i.stat.dtv d) v (inp true) ∧ (inp true).buf = s.buf ∧
              (inp true).hostTog =
                (if ep = 0 ∧ s.stage = .statusIn ∧ hostRestarts s.cfg s.setup = true then false else s.hostTog) ∧
              inp false = { v with wire := .data i.stat.dtv d })))) ∧
    (ep = 0 →
      (¬s.listens addr 0 .out ∨ s.sie.pktDisable = true ∨ o.stat.own = false ∨ s.ev.trn = true →
        setup = { v with wire := .none }) ∧
      (s.listens addr 0 .out → s.sie.pktDisable = false → o.stat.own = true → s.ev.trn = false → b.length = 8 →
        8 ≤ o.count.toNat →
        Completes 0 .out po pidSetup 8 true .ack v setup ∧ HoldsAt s.cfg.addrW o.address b s.buf setup.buf ∧
          setup.hostTog = s.hostTog) ∧
      (s.listens addr 0 .out → s.sie.pktDisable = false → o.stat.own = true → s.ev.trn = false → o.count.toNat < 8 →
        setup =
          { v with
            ev := { v.ev with error := true }
            bdt := setup.bdt
            buf := setup.buf
            wire := setup.wire
            free := setup.free } ∧
        SameBdsBut 0 .out po s setup ∧ SameBytesBut s.cfg.addrW o.address 8 s.buf setup.buf)) ∧
    applyLine (.hostToggle tog) s = { s with hostTog := tog } ∧ (applyLine .reset s).hostTog = false

/-- The lines of a trace script that the six pseudo-operations stand for, each followed by `isr()`; a CBW is
sent with the current OUT toggle of the host (30 R150, R151). -/
def Obligations.PseudoOperationsRunTheirLines : Prop :=
  ∀ (s : State) (x : Byte) (tag h : Word) (flags : Byte) (cdb : List Byte), s.bot.q.length < 4 →
    (∀ p ∈ [(Instr.pseudoClearHalt x, ([0x02, 0x01, 0x00, 0x00, x, 0x00, 0x00, 0x00] : List Byte)),
        (.pseudoSetHalt x, [0x02, 0x03, 0x00, 0x00, x, 0x00, 0x00, 0x00]),
        (.bomsrSeq, [0x21, 0xFF, 0x00, 0x00, 0x00, 0x00, 0x00, 0x00]),
        (.setAddressSeq x, [0x00, 0x05, x, 0x00, 0x00, 0x00, 0x00, 0x00]),
        (.setConfigSeq x, [0x00, 0x09, x, 0x00, 0x00, 0x00, 0x00, 0x00])],
      ∃ u t, exec .isr (applyLine (.setup none p.2) s) = .next u ∧
        exec .isr (applyLine (.inp none 0 true) u) = .next t ∧ exec p.1 s = .next t) ∧
    (cdb.length ≤ 16 →
      ∃ t, exec (.cbwSeq tag h flags cdb) s = .next t ∧
        exec .isr
          (applyLine
            (.out none s.cfg.bulkOutEp s.hostTog
              ([0x55, 0x53, 0x42, 0x43] ++ le32Bytes tag ++ le32Bytes h ++
                [flags, 0x00, BitVec.ofNat 8 cdb.length] ++ cdb ++ List.replicate (16 - cdb.length) 0)) s) = .next t)

/-- A whole control transfer: a SET_ADDRESS packet and its status packet leave the SIE at the new address, and not
before: the status packet was answered at the old one (41 R194, R207, 42 R240, 70 R450). -/
def Obligations.SetAddressTransferCommitsAfterStatus : Prop :=
  ∀ (s : State) (x : Byte), s.Sound → s.InStep → s.Ep0OutReady →
    s.ev = ⟨false, false, false, false, false, false, false, false⟩ → s.deviceState ≠ .suspended →
    s.sie.enable = true → s.ctrlAt 0 = ⟨true, true, true⟩ → s.sie.pktDisable = false →
    8 ≤ (s.bd 0 .out (s.nextPar 0 .out)).count.toNat →
    ∃ u t, exec .isr (applyLine (.setup none [0x00, 0x05, x, 0x00, 0x00, 0x00, 0x00, 0x00]) s) = .next u ∧
      u.sie.address = s.sie.address ∧ u.pendingAddress = x.extractLsb' 0 7 ∧ u.addressPending = true ∧
      u.stage = .statusIn ∧ u.deviceState = s.deviceState ∧
      exec (.setAddressSeq x) s = .next t ∧ t.wire = .data true [] ∧ t.sie.address = x.extractLsb' 0 7 ∧
      t.addressPending = false ∧ t.stage = .setup ∧
      t.deviceState = (if x.extractLsb' 0 7 = (0 : DevAddr) then .dflt else .address) ∧ t.Ep0OutReady
end

