-- ==== Sys2Proof/Laws/Memory.lean ====
section
/-! SUPPORT. The laws of the byte store: read after write, and every operation keeps the canonical form. -/

namespace Sys2Proof.Machine

theorem memRead_of_lt (m : Memory) (a : Nat) (h : ∀ c ∈ m, a < c.1) : memRead m a = blank := by
  induction m with
  | nil => rfl
  | cons c r ih =>
    have hc := h c (by simp)
    simp only [memRead]
    rw [if_neg (by omega)]
    exact ih (fun c' hc' => h c' (by simp [hc']))

theorem memRead_memWrite_same (m : Memory) (a : Nat) (v : Byte) (h : memWf m) : memRead (memWrite m a v) a = v := by
  induction m with
  | nil => simp only [memWrite]; split <;> simp_all [memRead]
  | cons c r ih =>
    obtain ⟨k, w⟩ := c
    have hr : memWf r := ⟨(List.pairwise_cons.mp h.1).2, fun c hc => h.2 c (by simp [hc])⟩
    have hk := (List.pairwise_cons.mp h.1).1
    have low : ∀ b, b ≤ k → memRead r b = blank := fun b hb => memRead_of_lt r b (fun c hc => by have := hk c hc; simp at this; omega)
    simp only [memWrite]
    split
    · split
      · subst v; simp only [memRead]; rw [if_neg (by omega)]; exact low a (by omega)
      · simp [memRead]
    · split
      · split
        · subst v; subst a; exact low k (by omega)
        · simp [memRead]
      · simp only [memRead]; rw [if_neg (by omega)]; exact ih hr

theorem memRead_memWrite_other (m : Memory) (a b : Nat) (v : Byte) (h : memWf m) (hab : b ≠ a) :
    memRead (memWrite m a v) b = memRead m b := by
  induction m with
  | nil => simp only [memWrite]; split <;> simp [memRead, blank, Ne.symm hab]
  | cons c r ih =>
    obtain ⟨k, w⟩ := c
    have hr : memWf r := ⟨(List.pairwise_cons.mp h.1).2, fun c hc => h.2 c (by simp [hc])⟩
    have hk := (List.pairwise_cons.mp h.1).1
    simp only [memWrite]
    split
    · split <;> simp [memRead, Ne.symm hab]
    · split
      · subst a
        split
        · simp only [memRead]
          rw [if_neg (Ne.symm hab)]
        · simp [memRead, Ne.symm hab]
      · simp only [memRead, ih hr]

theorem memWrite_mem {m : Memory} {a : Nat} {v : Byte} {c : Host.Cell} (h : c ∈ memWrite m a v) : c = (a, v) ∨ c ∈ m := by
  induction m with
  | nil => simp only [memWrite] at h; split at h <;> simp_all
  | cons d r ih =>
    obtain ⟨k, w⟩ := d
    simp only [memWrite] at h
    split at h
    · split at h <;> simp_all
    · split at h
      · split at h
        · exact .inr (by simp [h])
        · simp only [List.mem_cons] at h
          obtain h | h := h
          · exact .inl h
          · exact .inr (by simp [h])
      · simp only [List.mem_cons] at h
        obtain h | h := h
        · exact .inr (by simp [h])
        · obtain h | h := ih h
          · exact .inl h
          · exact .inr (by simp [h])

theorem memWrite_wf {m : Memory} (a : Nat) (v : Byte) (h : memWf m) : memWf (memWrite m a v) := by
  induction m with
  | nil => by_cases hv : v = blank <;> simp [memWrite, hv, memWf]
  | cons c r ih =>
    obtain ⟨k, w⟩ := c
    have hr : memWf r := ⟨(List.pairwise_cons.mp h.1).2, fun c hc => h.2 c (by simp [hc])⟩
    have hk := (List.pairwise_cons.mp h.1).1
    have hw : w ≠ blank := h.2 (k, w) (by simp)
    simp only [memWrite]
    split
    · split
      · exact h
      · rename_i hak hv
        refine ⟨List.pairwise_cons.mpr ⟨?_, h.1⟩, ?_⟩
        · intro c hc
          simp only [List.mem_cons] at hc
          obtain hc | hc := hc
          · subst hc; exact hak
          · exact lt_trans hak (hk c hc)
        · intro c hc
          simp only [List.mem_cons] at hc
          obtain hc | hc | hc := hc
          · subst hc; exact hv
          · subst hc; exact hw
          · exact hr.2 c hc
    · split
      · split
        · exact hr
        · rename_i hak hv
          subst hak
          refine ⟨List.pairwise_cons.mpr ⟨hk, hr.1⟩, ?_⟩
          intro c hc
          simp only [List.mem_cons] at hc
          obtain hc | hc := hc
          · subst hc; exact hv
          · exact hr.2 c hc
      · rename_i h1 h2
        refine ⟨List.pairwise_cons.mpr ⟨?_, (ih hr).1⟩, ?_⟩
        · intro c hc
          obtain hc | hc := memWrite_mem hc
          · subst hc; show k < a; omega
          · exact hk c hc
        · intro c hc
          simp only [List.mem_cons] at hc
          obtain hc | hc := hc
          · subst hc; exact hw
          · exact (ih hr).2 c hc

theorem writeBytes_wf {m : Memory} {w : Nat} (a : Addr) (b : List Byte) (h : memWf m) : memWf (writeBytes w m a b) := by
  induction b generalizing m a with
  | nil => exact h
  | cons v r ih => exact ih _ (memWrite_wf _ _ h)

theorem putFrom_wf {m : Memory} (k : Nat) (b : List Byte) (h : memWf m) : memWf (putFrom m k b) := by
  induction b generalizing m k with
  | nil => exact h
  | cons v r ih => exact ih _ (memWrite_wf _ _ h)

theorem memOf_wf (w : Nat) (f : Nat → Byte) : memWf (memOf w f) := by
  constructor
  · apply List.Pairwise.filter
    rw [List.pairwise_map]
    exact List.pairwise_lt_range
  · intro c hc
    simp only [memOf, List.mem_filter] at hc
    simpa using hc.2

theorem nil_wf : memWf [] := ⟨List.Pairwise.nil, by simp⟩

/-! Addresses of `w` bits (00 R15). -/

theorem place_lt (w : Nat) (a : Nat) (i : Nat) : place w a i < 2 ^ w := Nat.mod_lt _ (Nat.two_pow_pos w)

theorem place_succ (w : Nat) (a : Nat) (i : Nat) : place w (a + 1) i = place w a (i + 1) := by
  simp only [place, Nat.add_assoc, Nat.add_comm 1]

theorem place_place (w : Nat) (a : Nat) (i j : Nat) : place w (place w a i) j = place w a (i + j) := by
  simp only [place, Nat.mod_add_mod, Nat.add_assoc]

/-- An address of `w` bits is its own place. -/
theorem place_zero {w : Nat} {a : Nat} (h : a < 2 ^ w) : place w a 0 = a := Nat.mod_eq_of_lt h

/-- The bytes of an object that fits the address space follow one another. -/
theorem place_of_fits {w : Nat} {a : Nat} {i n : Nat} (h : a + n ≤ 2 ^ w) (hi : i < n) : place w a i = a + i :=
  Nat.mod_eq_of_lt (by omega)

/-- At most `2 ^ w` bytes have places of their own. -/
theorem place_ne {w : Nat} (a : Nat) {i j : Nat} (hij : i < j) (hj : j < i + 2 ^ w) : place w a i ≠ place w a j := by
  intro hc
  have h := Nat.sub_mod_eq_zero_of_mod_eq (Eq.symm hc)
  rw [Nat.add_sub_add_left, Nat.mod_eq_of_lt (by omega)] at h
  omega

/-- A byte outside the written range reads as before. -/
theorem memRead_writeBytes_other (w : Nat) (m : Memory) (a : Nat) (b : List Byte) (k : Nat) (h : memWf m)
    (hk : ∀ i, i < b.length → k ≠ place w a i) : memRead (writeBytes w m a b) k = memRead m k := by
  induction b generalizing m a with
  | nil => rfl
  | cons v r ih =>
    simp only [writeBytes]
    rw [ih _ _ (memWrite_wf _ _ h), memRead_memWrite_other _ _ _ _ h]
    · exact hk 0 (by simp only [List.length_cons]; omega)
    · intro i hi
      rw [place_succ]
      exact hk (i + 1) (by simp only [List.length_cons]; omega)

/-- A written byte reads back. -/
theorem memRead_writeBytes (w : Nat) (m : Memory) (a : Nat) (b : List Byte) (i : Nat) (h : memWf m)
    (hb : b.length ≤ 2 ^ w) (hi : i < b.length) : memRead (writeBytes w m a b) (place w a i) = b.getD i 0 := by
  induction b generalizing m a i with
  | nil => simp at hi
  | cons v r ih =>
    simp only [writeBytes]
    simp only [List.length_cons] at hb hi
    cases i with
    | zero =>
      rw [memRead_writeBytes_other _ _ _ _ _ (memWrite_wf _ _ h)]
      · simp [memRead_memWrite_same _ _ _ h]
      · intro j hj
        rw [place_succ]
        exact place_ne a (by omega) (by omega)
    | succ j =>
      rw [← place_succ, ih _ _ _ (memWrite_wf _ _ h) (by omega) (by omega)]
      simp

/-- Reading back what was written. -/
theorem readBytes_writeBytes (w : Nat) (m : Memory) (a : Nat) (b : List Byte) (h : memWf m) (hb : b.length ≤ 2 ^ w) :
    readBytes w (writeBytes w m a b) a b.length = b := by
  apply List.ext_getElem
  · simp [readBytes]
  · intro i h1 h2
    simp only [readBytes, List.getElem_map, List.getElem_range]
    rw [memRead_writeBytes w m a b i h hb h2]
    simp [h2]

/-- A store leaves the media keys outside its range alone. -/
theorem memRead_putFrom_other (m : Memory) (k : Nat) (b : List Byte) (j : Nat) (h : memWf m)
    (hj : j < k ∨ k + b.length ≤ j) : memRead (putFrom m k b) j = memRead m j := by
  induction b generalizing m k with
  | nil => rfl
  | cons v r ih =>
    simp only [List.length_cons] at hj
    simp only [putFrom]
    rw [ih _ _ (memWrite_wf _ _ h) (by omega), memRead_memWrite_other _ _ _ _ h (by omega)]

/-- A stored media byte reads back. -/
theorem memRead_putFrom (m : Memory) (k : Nat) (b : List Byte) (i : Nat) (h : memWf m) (hi : i < b.length) :
    memRead (putFrom m k b) (k + i) = b.getD i 0 := by
  induction b generalizing m k i with
  | nil => simp at hi
  | cons v r ih =>
    simp only [List.length_cons] at hi
    simp only [putFrom]
    cases i with
    | zero =>
      rw [memRead_putFrom_other _ _ _ _ (memWrite_wf _ _ h) (by omega)]
      simp [memRead_memWrite_same _ _ _ h]
    | succ j =>
      rw [show k + (j + 1) = (k + 1) + j by omega, ih _ _ _ (memWrite_wf _ _ h) (by omega)]
      simp

/-- Reading back a chunk of the media. -/
theorem bytesFrom_putFrom (m : Memory) (k : Nat) (b : List Byte) (h : memWf m) :
    bytesFrom (putFrom m k b) k b.length = b := by
  apply List.ext_getElem
  · simp [bytesFrom]
  · intro i h1 h2
    simp only [bytesFrom, List.getElem_map, List.getElem_range]
    rw [memRead_putFrom m k b i h h2]
    simp [h2]

/-! Objects zeroed (43 R273). -/

theorem zeroObjects_wf {w : Nat} {m : Memory} (l : List (Addr × Nat)) (h : memWf m) : memWf (zeroObjects w l m) := by
  unfold zeroObjects
  induction l generalizing m with
  | nil => exact h
  | cons x r ih => exact ih (writeBytes_wf _ _ h)

/-- A byte outside every object reads as before. -/
theorem memRead_zeroObjects_other (w : Nat) (l : List (Addr × Nat)) (m : Memory) (k : Nat) (h : memWf m)
    (hk : ∀ x ∈ l, ∀ j, j < x.2 → k ≠ place w x.1 j) : memRead (zeroObjects w l m) k = memRead m k := by
  unfold zeroObjects
  induction l generalizing m with
  | nil => rfl
  | cons x r ih =>
    simp only [List.foldl_cons]
    rw [ih _ (writeBytes_wf _ _ h) (fun y hy => hk y (by simp [hy])), memRead_writeBytes_other _ _ _ _ _ h]
    intro j hj
    simp only [List.length_replicate] at hj
    exact hk x (by simp) j hj

/-- Every byte of an object reads 0. -/
theorem memRead_zeroObjects (w : Nat) (l : List (Addr × Nat)) (m : Memory) (h : memWf m)
    (hl : ∀ x ∈ l, x.2 ≤ 2 ^ w) (x : Addr × Nat) (hx : x ∈ l) (j : Nat) (hj : j < x.2) :
    memRead (zeroObjects w l m) (place w x.1 j) = 0 := by
  induction l generalizing m x j with
  | nil => simp at hx
  | cons y r ih =>
    show memRead (zeroObjects w r (writeBytes w m y.1 (List.replicate y.2 0))) (place w x.1 j) = 0
    have hwf := writeBytes_wf (w := w) y.1 (List.replicate y.2 (0 : Byte)) h
    by_cases hr : ∃ z ∈ r, ∃ i, i < z.2 ∧ place w x.1 j = place w z.1 i
    · obtain ⟨z, hz, i, hi, he⟩ := hr
      rw [he]
      exact ih _ hwf (fun u hu => hl u (by simp [hu])) z hz i hi
    · rw [memRead_zeroObjects_other w r _ _ hwf (fun z hz i hi he => hr ⟨z, hz, i, hi, he⟩)]
      simp only [List.mem_cons] at hx
      obtain hx | hx := hx
      · subst hx
        rw [memRead_writeBytes w m x.1 _ j h (by simpa using hl x (by simp)) (by simpa using hj)]
        simp [hj]
      · exact absurd ⟨x, hx, j, hj, rfl⟩ hr

end Sys2Proof.Machine
end

