-- ==== Sys2Proof/Laws/State.lean ====
section
/-! SUPPORT. One lemma for each field and each named update of the state, true by `rfl`, so that no later proof unfolds
a record update. -/

namespace Sys2Proof.Machine

@[simp] theorem setBd_cfg (s : State) (ep : Ep) (dir : Dir) (par : Parity) (b : Bd) : (s.setBd ep dir par b).cfg = s.cfg := rfl
@[simp] theorem setBd_stage (s : State) (ep : Ep) (dir : Dir) (par : Parity) (b : Bd) : (s.setBd ep dir par b).stage = s.stage := rfl
@[simp] theorem setBd_deviceState (s : State) (ep : Ep) (dir : Dir) (par : Parity) (b : Bd) : (s.setBd ep dir par b).deviceState = s.deviceState := rfl
@[simp] theorem setBd_suspendedFrom (s : State) (ep : Ep) (dir : Dir) (par : Parity) (b : Bd) : (s.setBd ep dir par b).suspendedFrom = s.suspendedFrom := rfl
@[simp] theorem setBd_setup (s : State) (ep : Ep) (dir : Dir) (par : Parity) (b : Bd) : (s.setBd ep dir par b).setup = s.setup := rfl
@[simp] theorem setBd_ctl (s : State) (ep : Ep) (dir : Dir) (par : Parity) (b : Bd) : (s.setBd ep dir par b).ctl = s.ctl := rfl
@[simp] theorem setBd_pendingAddress (s : State) (ep : Ep) (dir : Dir) (par : Parity) (b : Bd) : (s.setBd ep dir par b).pendingAddress = s.pendingAddress := rfl
@[simp] theorem setBd_addressPending (s : State) (ep : Ep) (dir : Dir) (par : Parity) (b : Bd) : (s.setBd ep dir par b).addressPending = s.addressPending := rfl
@[simp] theorem setBd_currentConfiguration (s : State) (ep : Ep) (dir : Dir) (par : Parity) (b : Bd) : (s.setBd ep dir par b).currentConfiguration = s.currentConfiguration := rfl
@[simp] theorem setBd_remoteWakeup (s : State) (ep : Ep) (dir : Dir) (par : Parity) (b : Bd) : (s.setBd ep dir par b).remoteWakeup = s.remoteWakeup := rfl
@[simp] theorem setBd_cbw (s : State) (ep : Ep) (dir : Dir) (par : Parity) (b : Bd) : (s.setBd ep dir par b).cbw = s.cbw := rfl
@[simp] theorem setBd_csw (s : State) (ep : Ep) (dir : Dir) (par : Parity) (b : Bd) : (s.setBd ep dir par b).csw = s.csw := rfl
@[simp] theorem setBd_sense (s : State) (ep : Ep) (dir : Dir) (par : Parity) (b : Bd) : (s.setBd ep dir par b).sense = s.sense := rfl
@[simp] theorem setBd_rw (s : State) (ep : Ep) (dir : Dir) (par : Parity) (b : Bd) : (s.setBd ep dir par b).rw = s.rw := rfl
@[simp] theorem setBd_bot (s : State) (ep : Ep) (dir : Dir) (par : Parity) (b : Bd) : (s.setBd ep dir par b).bot = s.bot := rfl
@[simp] theorem setBd_eps (s : State) (ep : Ep) (dir : Dir) (par : Parity) (b : Bd) : (s.setBd ep dir par b).eps = s.eps := rfl
@[simp] theorem setBd_sie (s : State) (ep : Ep) (dir : Dir) (par : Parity) (b : Bd) : (s.setBd ep dir par b).sie = s.sie := rfl
@[simp] theorem setBd_ev (s : State) (ep : Ep) (dir : Dir) (par : Parity) (b : Bd) : (s.setBd ep dir par b).ev = s.ev := rfl
@[simp] theorem setBd_buf (s : State) (ep : Ep) (dir : Dir) (par : Parity) (b : Bd) : (s.setBd ep dir par b).buf = s.buf := rfl
@[simp] theorem setBd_ram (s : State) (ep : Ep) (dir : Dir) (par : Parity) (b : Bd) : (s.setBd ep dir par b).ram = s.ram := rfl
@[simp] theorem setBd_media (s : State) (ep : Ep) (dir : Dir) (par : Parity) (b : Bd) : (s.setBd ep dir par b).media = s.media := rfl
@[simp] theorem setBd_mediaPresent (s : State) (ep : Ep) (dir : Dir) (par : Parity) (b : Bd) : (s.setBd ep dir par b).mediaPresent = s.mediaPresent := rfl
@[simp] theorem setBd_writeProtected (s : State) (ep : Ep) (dir : Dir) (par : Parity) (b : Bd) : (s.setBd ep dir par b).writeProtected = s.writeProtected := rfl
@[simp] theorem setBd_reply (s : State) (ep : Ep) (dir : Dir) (par : Parity) (b : Bd) : (s.setBd ep dir par b).reply = s.reply := rfl
@[simp] theorem setBd_cdc (s : State) (ep : Ep) (dir : Dir) (par : Parity) (b : Bd) : (s.setBd ep dir par b).cdc = s.cdc := rfl
@[simp] theorem setBd_hid (s : State) (ep : Ep) (dir : Dir) (par : Parity) (b : Bd) : (s.setBd ep dir par b).hid = s.hid := rfl
@[simp] theorem setBd_fnState (s : State) (ep : Ep) (dir : Dir) (par : Parity) (b : Bd) : (s.setBd ep dir par b).fnState = s.fnState := rfl
@[simp] theorem setBd_wire (s : State) (ep : Ep) (dir : Dir) (par : Parity) (b : Bd) : (s.setBd ep dir par b).wire = s.wire := rfl
@[simp] theorem setBd_hostTog (s : State) (ep : Ep) (dir : Dir) (par : Parity) (b : Bd) : (s.setBd ep dir par b).hostTog = s.hostTog := rfl
@[simp] theorem setBd_script (s : State) (ep : Ep) (dir : Dir) (par : Parity) (b : Bd) : (s.setBd ep dir par b).script = s.script := rfl
@[simp] theorem setBd_free (s : State) (ep : Ep) (dir : Dir) (par : Parity) (b : Bd) : (s.setBd ep dir par b).free = s.free := rfl

@[simp] theorem setEps_cfg (s : State) (ep : Ep) (dir : Dir) (e : Eps) : (s.setEps ep dir e).cfg = s.cfg := rfl
@[simp] theorem setEps_stage (s : State) (ep : Ep) (dir : Dir) (e : Eps) : (s.setEps ep dir e).stage = s.stage := rfl
@[simp] theorem setEps_deviceState (s : State) (ep : Ep) (dir : Dir) (e : Eps) : (s.setEps ep dir e).deviceState = s.deviceState := rfl
@[simp] theorem setEps_suspendedFrom (s : State) (ep : Ep) (dir : Dir) (e : Eps) : (s.setEps ep dir e).suspendedFrom = s.suspendedFrom := rfl
@[simp] theorem setEps_setup (s : State) (ep : Ep) (dir : Dir) (e : Eps) : (s.setEps ep dir e).setup = s.setup := rfl
@[simp] theorem setEps_ctl (s : State) (ep : Ep) (dir : Dir) (e : Eps) : (s.setEps ep dir e).ctl = s.ctl := rfl
@[simp] theorem setEps_pendingAddress (s : State) (ep : Ep) (dir : Dir) (e : Eps) : (s.setEps ep dir e).pendingAddress = s.pendingAddress := rfl
@[simp] theorem setEps_addressPending (s : State) (ep : Ep) (dir : Dir) (e : Eps) : (s.setEps ep dir e).addressPending = s.addressPending := rfl
@[simp] theorem setEps_currentConfiguration (s : State) (ep : Ep) (dir : Dir) (e : Eps) : (s.setEps ep dir e).currentConfiguration = s.currentConfiguration := rfl
@[simp] theorem setEps_remoteWakeup (s : State) (ep : Ep) (dir : Dir) (e : Eps) : (s.setEps ep dir e).remoteWakeup = s.remoteWakeup := rfl
@[simp] theorem setEps_cbw (s : State) (ep : Ep) (dir : Dir) (e : Eps) : (s.setEps ep dir e).cbw = s.cbw := rfl
@[simp] theorem setEps_csw (s : State) (ep : Ep) (dir : Dir) (e : Eps) : (s.setEps ep dir e).csw = s.csw := rfl
@[simp] theorem setEps_sense (s : State) (ep : Ep) (dir : Dir) (e : Eps) : (s.setEps ep dir e).sense = s.sense := rfl
@[simp] theorem setEps_rw (s : State) (ep : Ep) (dir : Dir) (e : Eps) : (s.setEps ep dir e).rw = s.rw := rfl
@[simp] theorem setEps_bot (s : State) (ep : Ep) (dir : Dir) (e : Eps) : (s.setEps ep dir e).bot = s.bot := rfl
@[simp] theorem setEps_sie (s : State) (ep : Ep) (dir : Dir) (e : Eps) : (s.setEps ep dir e).sie = s.sie := rfl
@[simp] theorem setEps_ev (s : State) (ep : Ep) (dir : Dir) (e : Eps) : (s.setEps ep dir e).ev = s.ev := rfl
@[simp] theorem setEps_bdt (s : State) (ep : Ep) (dir : Dir) (e : Eps) : (s.setEps ep dir e).bdt = s.bdt := rfl
@[simp] theorem setEps_buf (s : State) (ep : Ep) (dir : Dir) (e : Eps) : (s.setEps ep dir e).buf = s.buf := rfl
@[simp] theorem setEps_ram (s : State) (ep : Ep) (dir : Dir) (e : Eps) : (s.setEps ep dir e).ram = s.ram := rfl
@[simp] theorem setEps_media (s : State) (ep : Ep) (dir : Dir) (e : Eps) : (s.setEps ep dir e).media = s.media := rfl
@[simp] theorem setEps_mediaPresent (s : State) (ep : Ep) (dir : Dir) (e : Eps) : (s.setEps ep dir e).mediaPresent = s.mediaPresent := rfl
@[simp] theorem setEps_writeProtected (s : State) (ep : Ep) (dir : Dir) (e : Eps) : (s.setEps ep dir e).writeProtected = s.writeProtected := rfl
@[simp] theorem setEps_reply (s : State) (ep : Ep) (dir : Dir) (e : Eps) : (s.setEps ep dir e).reply = s.reply := rfl
@[simp] theorem setEps_cdc (s : State) (ep : Ep) (dir : Dir) (e : Eps) : (s.setEps ep dir e).cdc = s.cdc := rfl
@[simp] theorem setEps_hid (s : State) (ep : Ep) (dir : Dir) (e : Eps) : (s.setEps ep dir e).hid = s.hid := rfl
@[simp] theorem setEps_fnState (s : State) (ep : Ep) (dir : Dir) (e : Eps) : (s.setEps ep dir e).fnState = s.fnState := rfl
@[simp] theorem setEps_wire (s : State) (ep : Ep) (dir : Dir) (e : Eps) : (s.setEps ep dir e).wire = s.wire := rfl
@[simp] theorem setEps_hostTog (s : State) (ep : Ep) (dir : Dir) (e : Eps) : (s.setEps ep dir e).hostTog = s.hostTog := rfl
@[simp] theorem setEps_script (s : State) (ep : Ep) (dir : Dir) (e : Eps) : (s.setEps ep dir e).script = s.script := rfl
@[simp] theorem setEps_free (s : State) (ep : Ep) (dir : Dir) (e : Eps) : (s.setEps ep dir e).free = s.free := rfl

@[simp] theorem setCtrl_cfg (s : State) (ep : Ep) (c : EpCtrl) : (s.setCtrl ep c).cfg = s.cfg := rfl
@[simp] theorem setCtrl_stage (s : State) (ep : Ep) (c : EpCtrl) : (s.setCtrl ep c).stage = s.stage := rfl
@[simp] theorem setCtrl_deviceState (s : State) (ep : Ep) (c : EpCtrl) : (s.setCtrl ep c).deviceState = s.deviceState := rfl
@[simp] theorem setCtrl_suspendedFrom (s : State) (ep : Ep) (c : EpCtrl) : (s.setCtrl ep c).suspendedFrom = s.suspendedFrom := rfl
@[simp] theorem setCtrl_setup (s : State) (ep : Ep) (c : EpCtrl) : (s.setCtrl ep c).setup = s.setup := rfl
@[simp] theorem setCtrl_ctl (s : State) (ep : Ep) (c : EpCtrl) : (s.setCtrl ep c).ctl = s.ctl := rfl
@[simp] theorem setCtrl_pendingAddress (s : State) (ep : Ep) (c : EpCtrl) : (s.setCtrl ep c).pendingAddress = s.pendingAddress := rfl
@[simp] theorem setCtrl_addressPending (s : State) (ep : Ep) (c : EpCtrl) : (s.setCtrl ep c).addressPending = s.addressPending := rfl
@[simp] theorem setCtrl_currentConfiguration (s : State) (ep : Ep) (c : EpCtrl) : (s.setCtrl ep c).currentConfiguration = s.currentConfiguration := rfl
@[simp] theorem setCtrl_remoteWakeup (s : State) (ep : Ep) (c : EpCtrl) : (s.setCtrl ep c).remoteWakeup = s.remoteWakeup := rfl
@[simp] theorem setCtrl_cbw (s : State) (ep : Ep) (c : EpCtrl) : (s.setCtrl ep c).cbw = s.cbw := rfl
@[simp] theorem setCtrl_csw (s : State) (ep : Ep) (c : EpCtrl) : (s.setCtrl ep c).csw = s.csw := rfl
@[simp] theorem setCtrl_sense (s : State) (ep : Ep) (c : EpCtrl) : (s.setCtrl ep c).sense = s.sense := rfl
@[simp] theorem setCtrl_rw (s : State) (ep : Ep) (c : EpCtrl) : (s.setCtrl ep c).rw = s.rw := rfl
@[simp] theorem setCtrl_bot (s : State) (ep : Ep) (c : EpCtrl) : (s.setCtrl ep c).bot = s.bot := rfl
@[simp] theorem setCtrl_eps (s : State) (ep : Ep) (c : EpCtrl) : (s.setCtrl ep c).eps = s.eps := rfl
@[simp] theorem setCtrl_ev (s : State) (ep : Ep) (c : EpCtrl) : (s.setCtrl ep c).ev = s.ev := rfl
@[simp] theorem setCtrl_bdt (s : State) (ep : Ep) (c : EpCtrl) : (s.setCtrl ep c).bdt = s.bdt := rfl
@[simp] theorem setCtrl_buf (s : State) (ep : Ep) (c : EpCtrl) : (s.setCtrl ep c).buf = s.buf := rfl
@[simp] theorem setCtrl_ram (s : State) (ep : Ep) (c : EpCtrl) : (s.setCtrl ep c).ram = s.ram := rfl
@[simp] theorem setCtrl_media (s : State) (ep : Ep) (c : EpCtrl) : (s.setCtrl ep c).media = s.media := rfl
@[simp] theorem setCtrl_mediaPresent (s : State) (ep : Ep) (c : EpCtrl) : (s.setCtrl ep c).mediaPresent = s.mediaPresent := rfl
@[simp] theorem setCtrl_writeProtected (s : State) (ep : Ep) (c : EpCtrl) : (s.setCtrl ep c).writeProtected = s.writeProtected := rfl
@[simp] theorem setCtrl_reply (s : State) (ep : Ep) (c : EpCtrl) : (s.setCtrl ep c).reply = s.reply := rfl
@[simp] theorem setCtrl_cdc (s : State) (ep : Ep) (c : EpCtrl) : (s.setCtrl ep c).cdc = s.cdc := rfl
@[simp] theorem setCtrl_hid (s : State) (ep : Ep) (c : EpCtrl) : (s.setCtrl ep c).hid = s.hid := rfl
@[simp] theorem setCtrl_fnState (s : State) (ep : Ep) (c : EpCtrl) : (s.setCtrl ep c).fnState = s.fnState := rfl
@[simp] theorem setCtrl_wire (s : State) (ep : Ep) (c : EpCtrl) : (s.setCtrl ep c).wire = s.wire := rfl
@[simp] theorem setCtrl_hostTog (s : State) (ep : Ep) (c : EpCtrl) : (s.setCtrl ep c).hostTog = s.hostTog := rfl
@[simp] theorem setCtrl_script (s : State) (ep : Ep) (c : EpCtrl) : (s.setCtrl ep c).script = s.script := rfl
@[simp] theorem setCtrl_free (s : State) (ep : Ep) (c : EpCtrl) : (s.setCtrl ep c).free = s.free := rfl

@[simp] theorem setScratch_cfg (s : State) (b : List Byte) : (s.setScratch b).cfg = s.cfg := rfl
@[simp] theorem setScratch_stage (s : State) (b : List Byte) : (s.setScratch b).stage = s.stage := rfl
@[simp] theorem setScratch_deviceState (s : State) (b : List Byte) : (s.setScratch b).deviceState = s.deviceState := rfl
@[simp] theorem setScratch_suspendedFrom (s : State) (b : List Byte) : (s.setScratch b).suspendedFrom = s.suspendedFrom := rfl
@[simp] theorem setScratch_setup (s : State) (b : List Byte) : (s.setScratch b).setup = s.setup := rfl
@[simp] theorem setScratch_ctl (s : State) (b : List Byte) : (s.setScratch b).ctl = s.ctl := rfl
@[simp] theorem setScratch_pendingAddress (s : State) (b : List Byte) : (s.setScratch b).pendingAddress = s.pendingAddress := rfl
@[simp] theorem setScratch_addressPending (s : State) (b : List Byte) : (s.setScratch b).addressPending = s.addressPending := rfl
@[simp] theorem setScratch_currentConfiguration (s : State) (b : List Byte) : (s.setScratch b).currentConfiguration = s.currentConfiguration := rfl
@[simp] theorem setScratch_remoteWakeup (s : State) (b : List Byte) : (s.setScratch b).remoteWakeup = s.remoteWakeup := rfl
@[simp] theorem setScratch_cbw (s : State) (b : List Byte) : (s.setScratch b).cbw = s.cbw := rfl
@[simp] theorem setScratch_csw (s : State) (b : List Byte) : (s.setScratch b).csw = s.csw := rfl
@[simp] theorem setScratch_sense (s : State) (b : List Byte) : (s.setScratch b).sense = s.sense := rfl
@[simp] theorem setScratch_rw (s : State) (b : List Byte) : (s.setScratch b).rw = s.rw := rfl
@[simp] theorem setScratch_bot (s : State) (b : List Byte) : (s.setScratch b).bot = s.bot := rfl
@[simp] theorem setScratch_eps (s : State) (b : List Byte) : (s.setScratch b).eps = s.eps := rfl
@[simp] theorem setScratch_sie (s : State) (b : List Byte) : (s.setScratch b).sie = s.sie := rfl
@[simp] theorem setScratch_ev (s : State) (b : List Byte) : (s.setScratch b).ev = s.ev := rfl
@[simp] theorem setScratch_bdt (s : State) (b : List Byte) : (s.setScratch b).bdt = s.bdt := rfl
@[simp] theorem setScratch_buf (s : State) (b : List Byte) : (s.setScratch b).buf = s.buf := rfl
@[simp] theorem setScratch_media (s : State) (b : List Byte) : (s.setScratch b).media = s.media := rfl
@[simp] theorem setScratch_mediaPresent (s : State) (b : List Byte) : (s.setScratch b).mediaPresent = s.mediaPresent := rfl
@[simp] theorem setScratch_writeProtected (s : State) (b : List Byte) : (s.setScratch b).writeProtected = s.writeProtected := rfl
@[simp] theorem setScratch_reply (s : State) (b : List Byte) : (s.setScratch b).reply = s.reply := rfl
@[simp] theorem setScratch_cdc (s : State) (b : List Byte) : (s.setScratch b).cdc = s.cdc := rfl
@[simp] theorem setScratch_hid (s : State) (b : List Byte) : (s.setScratch b).hid = s.hid := rfl
@[simp] theorem setScratch_fnState (s : State) (b : List Byte) : (s.setScratch b).fnState = s.fnState := rfl
@[simp] theorem setScratch_wire (s : State) (b : List Byte) : (s.setScratch b).wire = s.wire := rfl
@[simp] theorem setScratch_hostTog (s : State) (b : List Byte) : (s.setScratch b).hostTog = s.hostTog := rfl
@[simp] theorem setScratch_script (s : State) (b : List Byte) : (s.setScratch b).script = s.script := rfl
@[simp] theorem setScratch_free (s : State) (b : List Byte) : (s.setScratch b).free = s.free := rfl

@[simp] theorem setToggle_cfg (s : State) (ep : Ep) (dir : Dir) (v : Bool) : (setToggle ep dir v s).cfg = s.cfg := rfl
@[simp] theorem setToggle_stage (s : State) (ep : Ep) (dir : Dir) (v : Bool) : (setToggle ep dir v s).stage = s.stage := rfl
@[simp] theorem setToggle_deviceState (s : State) (ep : Ep) (dir : Dir) (v : Bool) : (setToggle ep dir v s).deviceState = s.deviceState := rfl
@[simp] theorem setToggle_suspendedFrom (s : State) (ep : Ep) (dir : Dir) (v : Bool) : (setToggle ep dir v s).suspendedFrom = s.suspendedFrom := rfl
@[simp] theorem setToggle_setup (s : State) (ep : Ep) (dir : Dir) (v : Bool) : (setToggle ep dir v s).setup = s.setup := rfl
@[simp] theorem setToggle_ctl (s : State) (ep : Ep) (dir : Dir) (v : Bool) : (setToggle ep dir v s).ctl = s.ctl := rfl
@[simp] theorem setToggle_pendingAddress (s : State) (ep : Ep) (dir : Dir) (v : Bool) : (setToggle ep dir v s).pendingAddress = s.pendingAddress := rfl
@[simp] theorem setToggle_addressPending (s : State) (ep : Ep) (dir : Dir) (v : Bool) : (setToggle ep dir v s).addressPending = s.addressPending := rfl
@[simp] theorem setToggle_currentConfiguration (s : State) (ep : Ep) (dir : Dir) (v : Bool) : (setToggle ep dir v s).currentConfiguration = s.currentConfiguration := rfl
@[simp] theorem setToggle_remoteWakeup (s : State) (ep : Ep) (dir : Dir) (v : Bool) : (setToggle ep dir v s).remoteWakeup = s.remoteWakeup := rfl
@[simp] theorem setToggle_cbw (s : State) (ep : Ep) (dir : Dir) (v : Bool) : (setToggle ep dir v s).cbw = s.cbw := rfl
@[simp] theorem setToggle_csw (s : State) (ep : Ep) (dir : Dir) (v : Bool) : (setToggle ep dir v s).csw = s.csw := rfl
@[simp] theorem setToggle_sense (s : State) (ep : Ep) (dir : Dir) (v : Bool) : (setToggle ep dir v s).sense = s.sense := rfl
@[simp] theorem setToggle_rw (s : State) (ep : Ep) (dir : Dir) (v : Bool) : (setToggle ep dir v s).rw = s.rw := rfl
@[simp] theorem setToggle_bot (s : State) (ep : Ep) (dir : Dir) (v : Bool) : (setToggle ep dir v s).bot = s.bot := rfl
@[simp] theorem setToggle_sie (s : State) (ep : Ep) (dir : Dir) (v : Bool) : (setToggle ep dir v s).sie = s.sie := rfl
@[simp] theorem setToggle_ev (s : State) (ep : Ep) (dir : Dir) (v : Bool) : (setToggle ep dir v s).ev = s.ev := rfl
@[simp] theorem setToggle_bdt (s : State) (ep : Ep) (dir : Dir) (v : Bool) : (setToggle ep dir v s).bdt = s.bdt := rfl
@[simp] theorem setToggle_buf (s : State) (ep : Ep) (dir : Dir) (v : Bool) : (setToggle ep dir v s).buf = s.buf := rfl
@[simp] theorem setToggle_ram (s : State) (ep : Ep) (dir : Dir) (v : Bool) : (setToggle ep dir v s).ram = s.ram := rfl
@[simp] theorem setToggle_media (s : State) (ep : Ep) (dir : Dir) (v : Bool) : (setToggle ep dir v s).media = s.media := rfl
@[simp] theorem setToggle_mediaPresent (s : State) (ep : Ep) (dir : Dir) (v : Bool) : (setToggle ep dir v s).mediaPresent = s.mediaPresent := rfl
@[simp] theorem setToggle_writeProtected (s : State) (ep : Ep) (dir : Dir) (v : Bool) : (setToggle ep dir v s).writeProtected = s.writeProtected := rfl
@[simp] theorem setToggle_reply (s : State) (ep : Ep) (dir : Dir) (v : Bool) : (setToggle ep dir v s).reply = s.reply := rfl
@[simp] theorem setToggle_cdc (s : State) (ep : Ep) (dir : Dir) (v : Bool) : (setToggle ep dir v s).cdc = s.cdc := rfl
@[simp] theorem setToggle_hid (s : State) (ep : Ep) (dir : Dir) (v : Bool) : (setToggle ep dir v s).hid = s.hid := rfl
@[simp] theorem setToggle_fnState (s : State) (ep : Ep) (dir : Dir) (v : Bool) : (setToggle ep dir v s).fnState = s.fnState := rfl
@[simp] theorem setToggle_wire (s : State) (ep : Ep) (dir : Dir) (v : Bool) : (setToggle ep dir v s).wire = s.wire := rfl
@[simp] theorem setToggle_hostTog (s : State) (ep : Ep) (dir : Dir) (v : Bool) : (setToggle ep dir v s).hostTog = s.hostTog := rfl
@[simp] theorem setToggle_script (s : State) (ep : Ep) (dir : Dir) (v : Bool) : (setToggle ep dir v s).script = s.script := rfl
@[simp] theorem setToggle_free (s : State) (ep : Ep) (dir : Dir) (v : Bool) : (setToggle ep dir v s).free = s.free := rfl

@[simp] theorem setHalted_cfg (s : State) (ep : Ep) (dir : Dir) (v : Bool) : (setHalted ep dir v s).cfg = s.cfg := rfl
@[simp] theorem setHalted_stage (s : State) (ep : Ep) (dir : Dir) (v : Bool) : (setHalted ep dir v s).stage = s.stage := rfl
@[simp] theorem setHalted_deviceState (s : State) (ep : Ep) (dir : Dir) (v : Bool) : (setHalted ep dir v s).deviceState = s.deviceState := rfl
@[simp] theorem setHalted_suspendedFrom (s : State) (ep : Ep) (dir : Dir) (v : Bool) : (setHalted ep dir v s).suspendedFrom = s.suspendedFrom := rfl
@[simp] theorem setHalted_setup (s : State) (ep : Ep) (dir : Dir) (v : Bool) : (setHalted ep dir v s).setup = s.setup := rfl
@[simp] theorem setHalted_ctl (s : State) (ep : Ep) (dir : Dir) (v : Bool) : (setHalted ep dir v s).ctl = s.ctl := rfl
@[simp] theorem setHalted_pendingAddress (s : State) (ep : Ep) (dir : Dir) (v : Bool) : (setHalted ep dir v s).pendingAddress = s.pendingAddress := rfl
@[simp] theorem setHalted_addressPending (s : State) (ep : Ep) (dir : Dir) (v : Bool) : (setHalted ep dir v s).addressPending = s.addressPending := rfl
@[simp] theorem setHalted_currentConfiguration (s : State) (ep : Ep) (dir : Dir) (v : Bool) : (setHalted ep dir v s).currentConfiguration = s.currentConfiguration := rfl
@[simp] theorem setHalted_remoteWakeup (s : State) (ep : Ep) (dir : Dir) (v : Bool) : (setHalted ep dir v s).remoteWakeup = s.remoteWakeup := rfl
@[simp] theorem setHalted_cbw (s : State) (ep : Ep) (dir : Dir) (v : Bool) : (setHalted ep dir v s).cbw = s.cbw := rfl
@[simp] theorem setHalted_csw (s : State) (ep : Ep) (dir : Dir) (v : Bool) : (setHalted ep dir v s).csw = s.csw := rfl
@[simp] theorem setHalted_sense (s : State) (ep : Ep) (dir : Dir) (v : Bool) : (setHalted ep dir v s).sense = s.sense := rfl
@[simp] theorem setHalted_rw (s : State) (ep : Ep) (dir : Dir) (v : Bool) : (setHalted ep dir v s).rw = s.rw := rfl
@[simp] theorem setHalted_bot (s : State) (ep : Ep) (dir : Dir) (v : Bool) : (setHalted ep dir v s).bot = s.bot := rfl
@[simp] theorem setHalted_sie (s : State) (ep : Ep) (dir : Dir) (v : Bool) : (setHalted ep dir v s).sie = s.sie := rfl
@[simp] theorem setHalted_ev (s : State) (ep : Ep) (dir : Dir) (v : Bool) : (setHalted ep dir v s).ev = s.ev := rfl
@[simp] theorem setHalted_bdt (s : State) (ep : Ep) (dir : Dir) (v : Bool) : (setHalted ep dir v s).bdt = s.bdt := rfl
@[simp] theorem setHalted_buf (s : State) (ep : Ep) (dir : Dir) (v : Bool) : (setHalted ep dir v s).buf = s.buf := rfl
@[simp] theorem setHalted_ram (s : State) (ep : Ep) (dir : Dir) (v : Bool) : (setHalted ep dir v s).ram = s.ram := rfl
@[simp] theorem setHalted_media (s : State) (ep : Ep) (dir : Dir) (v : Bool) : (setHalted ep dir v s).media = s.media := rfl
@[simp] theorem setHalted_mediaPresent (s : State) (ep : Ep) (dir : Dir) (v : Bool) : (setHalted ep dir v s).mediaPresent = s.mediaPresent := rfl
@[simp] theorem setHalted_writeProtected (s : State) (ep : Ep) (dir : Dir) (v : Bool) : (setHalted ep dir v s).writeProtected = s.writeProtected := rfl
@[simp] theorem setHalted_reply (s : State) (ep : Ep) (dir : Dir) (v : Bool) : (setHalted ep dir v s).reply = s.reply := rfl
@[simp] theorem setHalted_cdc (s : State) (ep : Ep) (dir : Dir) (v : Bool) : (setHalted ep dir v s).cdc = s.cdc := rfl
@[simp] theorem setHalted_hid (s : State) (ep : Ep) (dir : Dir) (v : Bool) : (setHalted ep dir v s).hid = s.hid := rfl
@[simp] theorem setHalted_fnState (s : State) (ep : Ep) (dir : Dir) (v : Bool) : (setHalted ep dir v s).fnState = s.fnState := rfl
@[simp] theorem setHalted_wire (s : State) (ep : Ep) (dir : Dir) (v : Bool) : (setHalted ep dir v s).wire = s.wire := rfl
@[simp] theorem setHalted_hostTog (s : State) (ep : Ep) (dir : Dir) (v : Bool) : (setHalted ep dir v s).hostTog = s.hostTog := rfl
@[simp] theorem setHalted_script (s : State) (ep : Ep) (dir : Dir) (v : Bool) : (setHalted ep dir v s).script = s.script := rfl
@[simp] theorem setHalted_free (s : State) (ep : Ep) (dir : Dir) (v : Bool) : (setHalted ep dir v s).free = s.free := rfl

@[simp] theorem flipToggle_cfg (s : State) (ep : Ep) (dir : Dir) : (flipToggle ep dir s).cfg = s.cfg := rfl
@[simp] theorem flipToggle_stage (s : State) (ep : Ep) (dir : Dir) : (flipToggle ep dir s).stage = s.stage := rfl
@[simp] theorem flipToggle_deviceState (s : State) (ep : Ep) (dir : Dir) : (flipToggle ep dir s).deviceState = s.deviceState := rfl
@[simp] theorem flipToggle_suspendedFrom (s : State) (ep : Ep) (dir : Dir) : (flipToggle ep dir s).suspendedFrom = s.suspendedFrom := rfl
@[simp] theorem flipToggle_setup (s : State) (ep : Ep) (dir : Dir) : (flipToggle ep dir s).setup = s.setup := rfl
@[simp] theorem flipToggle_ctl (s : State) (ep : Ep) (dir : Dir) : (flipToggle ep dir s).ctl = s.ctl := rfl
@[simp] theorem flipToggle_pendingAddress (s : State) (ep : Ep) (dir : Dir) : (flipToggle ep dir s).pendingAddress = s.pendingAddress := rfl
@[simp] theorem flipToggle_addressPending (s : State) (ep : Ep) (dir : Dir) : (flipToggle ep dir s).addressPending = s.addressPending := rfl
@[simp] theorem flipToggle_currentConfiguration (s : State) (ep : Ep) (dir : Dir) : (flipToggle ep dir s).currentConfiguration = s.currentConfiguration := rfl
@[simp] theorem flipToggle_remoteWakeup (s : State) (ep : Ep) (dir : Dir) : (flipToggle ep dir s).remoteWakeup = s.remoteWakeup := rfl
@[simp] theorem flipToggle_cbw (s : State) (ep : Ep) (dir : Dir) : (flipToggle ep dir s).cbw = s.cbw := rfl
@[simp] theorem flipToggle_csw (s : State) (ep : Ep) (dir : Dir) : (flipToggle ep dir s).csw = s.csw := rfl
@[simp] theorem flipToggle_sense (s : State) (ep : Ep) (dir : Dir) : (flipToggle ep dir s).sense = s.sense := rfl
@[simp] theorem flipToggle_rw (s : State) (ep : Ep) (dir : Dir) : (flipToggle ep dir s).rw = s.rw := rfl
@[simp] theorem flipToggle_bot (s : State) (ep : Ep) (dir : Dir) : (flipToggle ep dir s).bot = s.bot := rfl
@[simp] theorem flipToggle_sie (s : State) (ep : Ep) (dir : Dir) : (flipToggle ep dir s).sie = s.sie := rfl
@[simp] theorem flipToggle_ev (s : State) (ep : Ep) (dir : Dir) : (flipToggle ep dir s).ev = s.ev := rfl
@[simp] theorem flipToggle_bdt (s : State) (ep : Ep) (dir : Dir) : (flipToggle ep dir s).bdt = s.bdt := rfl
@[simp] theorem flipToggle_buf (s : State) (ep : Ep) (dir : Dir) : (flipToggle ep dir s).buf = s.buf := rfl
@[simp] theorem flipToggle_ram (s : State) (ep : Ep) (dir : Dir) : (flipToggle ep dir s).ram = s.ram := rfl
@[simp] theorem flipToggle_media (s : State) (ep : Ep) (dir : Dir) : (flipToggle ep dir s).media = s.media := rfl
@[simp] theorem flipToggle_mediaPresent (s : State) (ep : Ep) (dir : Dir) : (flipToggle ep dir s).mediaPresent = s.mediaPresent := rfl
@[simp] theorem flipToggle_writeProtected (s : State) (ep : Ep) (dir : Dir) : (flipToggle ep dir s).writeProtected = s.writeProtected := rfl
@[simp] theorem flipToggle_reply (s : State) (ep : Ep) (dir : Dir) : (flipToggle ep dir s).reply = s.reply := rfl
@[simp] theorem flipToggle_cdc (s : State) (ep : Ep) (dir : Dir) : (flipToggle ep dir s).cdc = s.cdc := rfl
@[simp] theorem flipToggle_hid (s : State) (ep : Ep) (dir : Dir) : (flipToggle ep dir s).hid = s.hid := rfl
@[simp] theorem flipToggle_fnState (s : State) (ep : Ep) (dir : Dir) : (flipToggle ep dir s).fnState = s.fnState := rfl
@[simp] theorem flipToggle_wire (s : State) (ep : Ep) (dir : Dir) : (flipToggle ep dir s).wire = s.wire := rfl
@[simp] theorem flipToggle_hostTog (s : State) (ep : Ep) (dir : Dir) : (flipToggle ep dir s).hostTog = s.hostTog := rfl
@[simp] theorem flipToggle_script (s : State) (ep : Ep) (dir : Dir) : (flipToggle ep dir s).script = s.script := rfl
@[simp] theorem flipToggle_free (s : State) (ep : Ep) (dir : Dir) : (flipToggle ep dir s).free = s.free := rfl

@[simp] theorem setPtr_cfg (s : State) (ep : Ep) (dir : Dir) (p : Parity) : (setPtr ep dir p s).cfg = s.cfg := rfl
@[simp] theorem setPtr_stage (s : State) (ep : Ep) (dir : Dir) (p : Parity) : (setPtr ep dir p s).stage = s.stage := rfl
@[simp] theorem setPtr_deviceState (s : State) (ep : Ep) (dir : Dir) (p : Parity) : (setPtr ep dir p s).deviceState = s.deviceState := rfl
@[simp] theorem setPtr_suspendedFrom (s : State) (ep : Ep) (dir : Dir) (p : Parity) : (setPtr ep dir p s).suspendedFrom = s.suspendedFrom := rfl
@[simp] theorem setPtr_setup (s : State) (ep : Ep) (dir : Dir) (p : Parity) : (setPtr ep dir p s).setup = s.setup := rfl
@[simp] theorem setPtr_ctl (s : State) (ep : Ep) (dir : Dir) (p : Parity) : (setPtr ep dir p s).ctl = s.ctl := rfl
@[simp] theorem setPtr_pendingAddress (s : State) (ep : Ep) (dir : Dir) (p : Parity) : (setPtr ep dir p s).pendingAddress = s.pendingAddress := rfl
@[simp] theorem setPtr_addressPending (s : State) (ep : Ep) (dir : Dir) (p : Parity) : (setPtr ep dir p s).addressPending = s.addressPending := rfl
@[simp] theorem setPtr_currentConfiguration (s : State) (ep : Ep) (dir : Dir) (p : Parity) : (setPtr ep dir p s).currentConfiguration = s.currentConfiguration := rfl
@[simp] theorem setPtr_remoteWakeup (s : State) (ep : Ep) (dir : Dir) (p : Parity) : (setPtr ep dir p s).remoteWakeup = s.remoteWakeup := rfl
@[simp] theorem setPtr_cbw (s : State) (ep : Ep) (dir : Dir) (p : Parity) : (setPtr ep dir p s).cbw = s.cbw := rfl
@[simp] theorem setPtr_csw (s : State) (ep : Ep) (dir : Dir) (p : Parity) : (setPtr ep dir p s).csw = s.csw := rfl
@[simp] theorem setPtr_sense (s : State) (ep : Ep) (dir : Dir) (p : Parity) : (setPtr ep dir p s).sense = s.sense := rfl
@[simp] theorem setPtr_rw (s : State) (ep : Ep) (dir : Dir) (p : Parity) : (setPtr ep dir p s).rw = s.rw := rfl
@[simp] theorem setPtr_bot (s : State) (ep : Ep) (dir : Dir) (p : Parity) : (setPtr ep dir p s).bot = s.bot := rfl
@[simp] theorem setPtr_eps (s : State) (ep : Ep) (dir : Dir) (p : Parity) : (setPtr ep dir p s).eps = s.eps := rfl
@[simp] theorem setPtr_ev (s : State) (ep : Ep) (dir : Dir) (p : Parity) : (setPtr ep dir p s).ev = s.ev := rfl
@[simp] theorem setPtr_bdt (s : State) (ep : Ep) (dir : Dir) (p : Parity) : (setPtr ep dir p s).bdt = s.bdt := rfl
@[simp] theorem setPtr_buf (s : State) (ep : Ep) (dir : Dir) (p : Parity) : (setPtr ep dir p s).buf = s.buf := rfl
@[simp] theorem setPtr_ram (s : State) (ep : Ep) (dir : Dir) (p : Parity) : (setPtr ep dir p s).ram = s.ram := rfl
@[simp] theorem setPtr_media (s : State) (ep : Ep) (dir : Dir) (p : Parity) : (setPtr ep dir p s).media = s.media := rfl
@[simp] theorem setPtr_mediaPresent (s : State) (ep : Ep) (dir : Dir) (p : Parity) : (setPtr ep dir p s).mediaPresent = s.mediaPresent := rfl
@[simp] theorem setPtr_writeProtected (s : State) (ep : Ep) (dir : Dir) (p : Parity) : (setPtr ep dir p s).writeProtected = s.writeProtected := rfl
@[simp] theorem setPtr_reply (s : State) (ep : Ep) (dir : Dir) (p : Parity) : (setPtr ep dir p s).reply = s.reply := rfl
@[simp] theorem setPtr_cdc (s : State) (ep : Ep) (dir : Dir) (p : Parity) : (setPtr ep dir p s).cdc = s.cdc := rfl
@[simp] theorem setPtr_hid (s : State) (ep : Ep) (dir : Dir) (p : Parity) : (setPtr ep dir p s).hid = s.hid := rfl
@[simp] theorem setPtr_fnState (s : State) (ep : Ep) (dir : Dir) (p : Parity) : (setPtr ep dir p s).fnState = s.fnState := rfl
@[simp] theorem setPtr_wire (s : State) (ep : Ep) (dir : Dir) (p : Parity) : (setPtr ep dir p s).wire = s.wire := rfl
@[simp] theorem setPtr_hostTog (s : State) (ep : Ep) (dir : Dir) (p : Parity) : (setPtr ep dir p s).hostTog = s.hostTog := rfl
@[simp] theorem setPtr_script (s : State) (ep : Ep) (dir : Dir) (p : Parity) : (setPtr ep dir p s).script = s.script := rfl
@[simp] theorem setPtr_free (s : State) (ep : Ep) (dir : Dir) (p : Parity) : (setPtr ep dir p s).free = s.free := rfl

@[simp] theorem reclaim_cfg (s : State) (ep : Ep) (dir : Dir) (par : Parity) : (reclaim ep dir par s).cfg = s.cfg := rfl
@[simp] theorem reclaim_stage (s : State) (ep : Ep) (dir : Dir) (par : Parity) : (reclaim ep dir par s).stage = s.stage := rfl
@[simp] theorem reclaim_deviceState (s : State) (ep : Ep) (dir : Dir) (par : Parity) : (reclaim ep dir par s).deviceState = s.deviceState := rfl
@[simp] theorem reclaim_suspendedFrom (s : State) (ep : Ep) (dir : Dir) (par : Parity) : (reclaim ep dir par s).suspendedFrom = s.suspendedFrom := rfl
@[simp] theorem reclaim_setup (s : State) (ep : Ep) (dir : Dir) (par : Parity) : (reclaim ep dir par s).setup = s.setup := rfl
@[simp] theorem reclaim_ctl (s : State) (ep : Ep) (dir : Dir) (par : Parity) : (reclaim ep dir par s).ctl = s.ctl := rfl
@[simp] theorem reclaim_pendingAddress (s : State) (ep : Ep) (dir : Dir) (par : Parity) : (reclaim ep dir par s).pendingAddress = s.pendingAddress := rfl
@[simp] theorem reclaim_addressPending (s : State) (ep : Ep) (dir : Dir) (par : Parity) : (reclaim ep dir par s).addressPending = s.addressPending := rfl
@[simp] theorem reclaim_currentConfiguration (s : State) (ep : Ep) (dir : Dir) (par : Parity) : (reclaim ep dir par s).currentConfiguration = s.currentConfiguration := rfl
@[simp] theorem reclaim_remoteWakeup (s : State) (ep : Ep) (dir : Dir) (par : Parity) : (reclaim ep dir par s).remoteWakeup = s.remoteWakeup := rfl
@[simp] theorem reclaim_cbw (s : State) (ep : Ep) (dir : Dir) (par : Parity) : (reclaim ep dir par s).cbw = s.cbw := rfl
@[simp] theorem reclaim_csw (s : State) (ep : Ep) (dir : Dir) (par : Parity) : (reclaim ep dir par s).csw = s.csw := rfl
@[simp] theorem reclaim_sense (s : State) (ep : Ep) (dir : Dir) (par : Parity) : (reclaim ep dir par s).sense = s.sense := rfl
@[simp] theorem reclaim_rw (s : State) (ep : Ep) (dir : Dir) (par : Parity) : (reclaim ep dir par s).rw = s.rw := rfl
@[simp] theorem reclaim_bot (s : State) (ep : Ep) (dir : Dir) (par : Parity) : (reclaim ep dir par s).bot = s.bot := rfl
@[simp] theorem reclaim_eps (s : State) (ep : Ep) (dir : Dir) (par : Parity) : (reclaim ep dir par s).eps = s.eps := rfl
@[simp] theorem reclaim_sie (s : State) (ep : Ep) (dir : Dir) (par : Parity) : (reclaim ep dir par s).sie = s.sie := rfl
@[simp] theorem reclaim_ev (s : State) (ep : Ep) (dir : Dir) (par : Parity) : (reclaim ep dir par s).ev = s.ev := rfl
@[simp] theorem reclaim_buf (s : State) (ep : Ep) (dir : Dir) (par : Parity) : (reclaim ep dir par s).buf = s.buf := rfl
@[simp] theorem reclaim_ram (s : State) (ep : Ep) (dir : Dir) (par : Parity) : (reclaim ep dir par s).ram = s.ram := rfl
@[simp] theorem reclaim_media (s : State) (ep : Ep) (dir : Dir) (par : Parity) : (reclaim ep dir par s).media = s.media := rfl
@[simp] theorem reclaim_mediaPresent (s : State) (ep : Ep) (dir : Dir) (par : Parity) : (reclaim ep dir par s).mediaPresent = s.mediaPresent := rfl
@[simp] theorem reclaim_writeProtected (s : State) (ep : Ep) (dir : Dir) (par : Parity) : (reclaim ep dir par s).writeProtected = s.writeProtected := rfl
@[simp] theorem reclaim_reply (s : State) (ep : Ep) (dir : Dir) (par : Parity) : (reclaim ep dir par s).reply = s.reply := rfl
@[simp] theorem reclaim_cdc (s : State) (ep : Ep) (dir : Dir) (par : Parity) : (reclaim ep dir par s).cdc = s.cdc := rfl
@[simp] theorem reclaim_hid (s : State) (ep : Ep) (dir : Dir) (par : Parity) : (reclaim ep dir par s).hid = s.hid := rfl
@[simp] theorem reclaim_fnState (s : State) (ep : Ep) (dir : Dir) (par : Parity) : (reclaim ep dir par s).fnState = s.fnState := rfl
@[simp] theorem reclaim_wire (s : State) (ep : Ep) (dir : Dir) (par : Parity) : (reclaim ep dir par s).wire = s.wire := rfl
@[simp] theorem reclaim_hostTog (s : State) (ep : Ep) (dir : Dir) (par : Parity) : (reclaim ep dir par s).hostTog = s.hostTog := rfl
@[simp] theorem reclaim_script (s : State) (ep : Ep) (dir : Dir) (par : Parity) : (reclaim ep dir par s).script = s.script := rfl
@[simp] theorem reclaim_free (s : State) (ep : Ep) (dir : Dir) (par : Parity) : (reclaim ep dir par s).free = s.free := rfl

@[simp] theorem stall_cfg (s : State) (ep : Ep) (dir : Dir) (par : Parity) : (stall ep dir par s).cfg = s.cfg := rfl
@[simp] theorem stall_stage (s : State) (ep : Ep) (dir : Dir) (par : Parity) : (stall ep dir par s).stage = s.stage := rfl
@[simp] theorem stall_deviceState (s : State) (ep : Ep) (dir : Dir) (par : Parity) : (stall ep dir par s).deviceState = s.deviceState := rfl
@[simp] theorem stall_suspendedFrom (s : State) (ep : Ep) (dir : Dir) (par : Parity) : (stall ep dir par s).suspendedFrom = s.suspendedFrom := rfl
@[simp] theorem stall_setup (s : State) (ep : Ep) (dir : Dir) (par : Parity) : (stall ep dir par s).setup = s.setup := rfl
@[simp] theorem stall_ctl (s : State) (ep : Ep) (dir : Dir) (par : Parity) : (stall ep dir par s).ctl = s.ctl := rfl
@[simp] theorem stall_pendingAddress (s : State) (ep : Ep) (dir : Dir) (par : Parity) : (stall ep dir par s).pendingAddress = s.pendingAddress := rfl
@[simp] theorem stall_addressPending (s : State) (ep : Ep) (dir : Dir) (par : Parity) : (stall ep dir par s).addressPending = s.addressPending := rfl
@[simp] theorem stall_currentConfiguration (s : State) (ep : Ep) (dir : Dir) (par : Parity) : (stall ep dir par s).currentConfiguration = s.currentConfiguration := rfl
@[simp] theorem stall_remoteWakeup (s : State) (ep : Ep) (dir : Dir) (par : Parity) : (stall ep dir par s).remoteWakeup = s.remoteWakeup := rfl
@[simp] theorem stall_cbw (s : State) (ep : Ep) (dir : Dir) (par : Parity) : (stall ep dir par s).cbw = s.cbw := rfl
@[simp] theorem stall_csw (s : State) (ep : Ep) (dir : Dir) (par : Parity) : (stall ep dir par s).csw = s.csw := rfl
@[simp] theorem stall_sense (s : State) (ep : Ep) (dir : Dir) (par : Parity) : (stall ep dir par s).sense = s.sense := rfl
@[simp] theorem stall_rw (s : State) (ep : Ep) (dir : Dir) (par : Parity) : (stall ep dir par s).rw = s.rw := rfl
@[simp] theorem stall_bot (s : State) (ep : Ep) (dir : Dir) (par : Parity) : (stall ep dir par s).bot = s.bot := rfl
@[simp] theorem stall_eps (s : State) (ep : Ep) (dir : Dir) (par : Parity) : (stall ep dir par s).eps = s.eps := rfl
@[simp] theorem stall_sie (s : State) (ep : Ep) (dir : Dir) (par : Parity) : (stall ep dir par s).sie = s.sie := rfl
@[simp] theorem stall_ev (s : State) (ep : Ep) (dir : Dir) (par : Parity) : (stall ep dir par s).ev = s.ev := rfl
@[simp] theorem stall_buf (s : State) (ep : Ep) (dir : Dir) (par : Parity) : (stall ep dir par s).buf = s.buf := rfl
@[simp] theorem stall_ram (s : State) (ep : Ep) (dir : Dir) (par : Parity) : (stall ep dir par s).ram = s.ram := rfl
@[simp] theorem stall_media (s : State) (ep : Ep) (dir : Dir) (par : Parity) : (stall ep dir par s).media = s.media := rfl
@[simp] theorem stall_mediaPresent (s : State) (ep : Ep) (dir : Dir) (par : Parity) : (stall ep dir par s).mediaPresent = s.mediaPresent := rfl
@[simp] theorem stall_writeProtected (s : State) (ep : Ep) (dir : Dir) (par : Parity) : (stall ep dir par s).writeProtected = s.writeProtected := rfl
@[simp] theorem stall_reply (s : State) (ep : Ep) (dir : Dir) (par : Parity) : (stall ep dir par s).reply = s.reply := rfl
@[simp] theorem stall_cdc (s : State) (ep : Ep) (dir : Dir) (par : Parity) : (stall ep dir par s).cdc = s.cdc := rfl
@[simp] theorem stall_hid (s : State) (ep : Ep) (dir : Dir) (par : Parity) : (stall ep dir par s).hid = s.hid := rfl
@[simp] theorem stall_fnState (s : State) (ep : Ep) (dir : Dir) (par : Parity) : (stall ep dir par s).fnState = s.fnState := rfl
@[simp] theorem stall_wire (s : State) (ep : Ep) (dir : Dir) (par : Parity) : (stall ep dir par s).wire = s.wire := rfl
@[simp] theorem stall_hostTog (s : State) (ep : Ep) (dir : Dir) (par : Parity) : (stall ep dir par s).hostTog = s.hostTog := rfl
@[simp] theorem stall_script (s : State) (ep : Ep) (dir : Dir) (par : Parity) : (stall ep dir par s).script = s.script := rfl
@[simp] theorem stall_free (s : State) (ep : Ep) (dir : Dir) (par : Parity) : (stall ep dir par s).free = s.free := rfl

@[simp] theorem setBotState_cfg (s : State) (b : BotState) : (setBotState b s).cfg = s.cfg := rfl
@[simp] theorem setBotState_stage (s : State) (b : BotState) : (setBotState b s).stage = s.stage := rfl
@[simp] theorem setBotState_deviceState (s : State) (b : BotState) : (setBotState b s).deviceState = s.deviceState := rfl
@[simp] theorem setBotState_suspendedFrom (s : State) (b : BotState) : (setBotState b s).suspendedFrom = s.suspendedFrom := rfl
@[simp] theorem setBotState_setup (s : State) (b : BotState) : (setBotState b s).setup = s.setup := rfl
@[simp] theorem setBotState_ctl (s : State) (b : BotState) : (setBotState b s).ctl = s.ctl := rfl
@[simp] theorem setBotState_pendingAddress (s : State) (b : BotState) : (setBotState b s).pendingAddress = s.pendingAddress := rfl
@[simp] theorem setBotState_addressPending (s : State) (b : BotState) : (setBotState b s).addressPending = s.addressPending := rfl
@[simp] theorem setBotState_currentConfiguration (s : State) (b : BotState) : (setBotState b s).currentConfiguration = s.currentConfiguration := rfl
@[simp] theorem setBotState_remoteWakeup (s : State) (b : BotState) : (setBotState b s).remoteWakeup = s.remoteWakeup := rfl
@[simp] theorem setBotState_cbw (s : State) (b : BotState) : (setBotState b s).cbw = s.cbw := rfl
@[simp] theorem setBotState_csw (s : State) (b : BotState) : (setBotState b s).csw = s.csw := rfl
@[simp] theorem setBotState_sense (s : State) (b : BotState) : (setBotState b s).sense = s.sense := rfl
@[simp] theorem setBotState_rw (s : State) (b : BotState) : (setBotState b s).rw = s.rw := rfl
@[simp] theorem setBotState_eps (s : State) (b : BotState) : (setBotState b s).eps = s.eps := rfl
@[simp] theorem setBotState_sie (s : State) (b : BotState) : (setBotState b s).sie = s.sie := rfl
@[simp] theorem setBotState_ev (s : State) (b : BotState) : (setBotState b s).ev = s.ev := rfl
@[simp] theorem setBotState_bdt (s : State) (b : BotState) : (setBotState b s).bdt = s.bdt := rfl
@[simp] theorem setBotState_buf (s : State) (b : BotState) : (setBotState b s).buf = s.buf := rfl
@[simp] theorem setBotState_ram (s : State) (b : BotState) : (setBotState b s).ram = s.ram := rfl
@[simp] theorem setBotState_media (s : State) (b : BotState) : (setBotState b s).media = s.media := rfl
@[simp] theorem setBotState_mediaPresent (s : State) (b : BotState) : (setBotState b s).mediaPresent = s.mediaPresent := rfl
@[simp] theorem setBotState_writeProtected (s : State) (b : BotState) : (setBotState b s).writeProtected = s.writeProtected := rfl
@[simp] theorem setBotState_reply (s : State) (b : BotState) : (setBotState b s).reply = s.reply := rfl
@[simp] theorem setBotState_cdc (s : State) (b : BotState) : (setBotState b s).cdc = s.cdc := rfl
@[simp] theorem setBotState_hid (s : State) (b : BotState) : (setBotState b s).hid = s.hid := rfl
@[simp] theorem setBotState_fnState (s : State) (b : BotState) : (setBotState b s).fnState = s.fnState := rfl
@[simp] theorem setBotState_wire (s : State) (b : BotState) : (setBotState b s).wire = s.wire := rfl
@[simp] theorem setBotState_hostTog (s : State) (b : BotState) : (setBotState b s).hostTog = s.hostTog := rfl
@[simp] theorem setBotState_script (s : State) (b : BotState) : (setBotState b s).script = s.script := rfl
@[simp] theorem setBotState_free (s : State) (b : BotState) : (setBotState b s).free = s.free := rfl

@[simp] theorem setResidue_cfg (s : State) (r : Word) : (setResidue r s).cfg = s.cfg := rfl
@[simp] theorem setResidue_stage (s : State) (r : Word) : (setResidue r s).stage = s.stage := rfl
@[simp] theorem setResidue_deviceState (s : State) (r : Word) : (setResidue r s).deviceState = s.deviceState := rfl
@[simp] theorem setResidue_suspendedFrom (s : State) (r : Word) : (setResidue r s).suspendedFrom = s.suspendedFrom := rfl
@[simp] theorem setResidue_setup (s : State) (r : Word) : (setResidue r s).setup = s.setup := rfl
@[simp] theorem setResidue_ctl (s : State) (r : Word) : (setResidue r s).ctl = s.ctl := rfl
@[simp] theorem setResidue_pendingAddress (s : State) (r : Word) : (setResidue r s).pendingAddress = s.pendingAddress := rfl
@[simp] theorem setResidue_addressPending (s : State) (r : Word) : (setResidue r s).addressPending = s.addressPending := rfl
@[simp] theorem setResidue_currentConfiguration (s : State) (r : Word) : (setResidue r s).currentConfiguration = s.currentConfiguration := rfl
@[simp] theorem setResidue_remoteWakeup (s : State) (r : Word) : (setResidue r s).remoteWakeup = s.remoteWakeup := rfl
@[simp] theorem setResidue_cbw (s : State) (r : Word) : (setResidue r s).cbw = s.cbw := rfl
@[simp] theorem setResidue_sense (s : State) (r : Word) : (setResidue r s).sense = s.sense := rfl
@[simp] theorem setResidue_rw (s : State) (r : Word) : (setResidue r s).rw = s.rw := rfl
@[simp] theorem setResidue_bot (s : State) (r : Word) : (setResidue r s).bot = s.bot := rfl
@[simp] theorem setResidue_eps (s : State) (r : Word) : (setResidue r s).eps = s.eps := rfl
@[simp] theorem setResidue_sie (s : State) (r : Word) : (setResidue r s).sie = s.sie := rfl
@[simp] theorem setResidue_ev (s : State) (r : Word) : (setResidue r s).ev = s.ev := rfl
@[simp] theorem setResidue_bdt (s : State) (r : Word) : (setResidue r s).bdt = s.bdt := rfl
@[simp] theorem setResidue_buf (s : State) (r : Word) : (setResidue r s).buf = s.buf := rfl
@[simp] theorem setResidue_ram (s : State) (r : Word) : (setResidue r s).ram = s.ram := rfl
@[simp] theorem setResidue_media (s : State) (r : Word) : (setResidue r s).media = s.media := rfl
@[simp] theorem setResidue_mediaPresent (s : State) (r : Word) : (setResidue r s).mediaPresent = s.mediaPresent := rfl
@[simp] theorem setResidue_writeProtected (s : State) (r : Word) : (setResidue r s).writeProtected = s.writeProtected := rfl
@[simp] theorem setResidue_reply (s : State) (r : Word) : (setResidue r s).reply = s.reply := rfl
@[simp] theorem setResidue_cdc (s : State) (r : Word) : (setResidue r s).cdc = s.cdc := rfl
@[simp] theorem setResidue_hid (s : State) (r : Word) : (setResidue r s).hid = s.hid := rfl
@[simp] theorem setResidue_fnState (s : State) (r : Word) : (setResidue r s).fnState = s.fnState := rfl
@[simp] theorem setResidue_wire (s : State) (r : Word) : (setResidue r s).wire = s.wire := rfl
@[simp] theorem setResidue_hostTog (s : State) (r : Word) : (setResidue r s).hostTog = s.hostTog := rfl
@[simp] theorem setResidue_script (s : State) (r : Word) : (setResidue r s).script = s.script := rfl
@[simp] theorem setResidue_free (s : State) (r : Word) : (setResidue r s).free = s.free := rfl

@[simp] theorem setStatus_cfg (s : State) (c : CswStatus) : (setStatus c s).cfg = s.cfg := rfl
@[simp] theorem setStatus_stage (s : State) (c : CswStatus) : (setStatus c s).stage = s.stage := rfl
@[simp] theorem setStatus_deviceState (s : State) (c : CswStatus) : (setStatus c s).deviceState = s.deviceState := rfl
@[simp] theorem setStatus_suspendedFrom (s : State) (c : CswStatus) : (setStatus c s).suspendedFrom = s.suspendedFrom := rfl
@[simp] theorem setStatus_setup (s : State) (c : CswStatus) : (setStatus c s).setup = s.setup := rfl
@[simp] theorem setStatus_ctl (s : State) (c : CswStatus) : (setStatus c s).ctl = s.ctl := rfl
@[simp] theorem setStatus_pendingAddress (s : State) (c : CswStatus) : (setStatus c s).pendingAddress = s.pendingAddress := rfl
@[simp] theorem setStatus_addressPending (s : State) (c : CswStatus) : (setStatus c s).addressPending = s.addressPending := rfl
@[simp] theorem setStatus_currentConfiguration (s : State) (c : CswStatus) : (setStatus c s).currentConfiguration = s.currentConfiguration := rfl
@[simp] theorem setStatus_remoteWakeup (s : State) (c : CswStatus) : (setStatus c s).remoteWakeup = s.remoteWakeup := rfl
@[simp] theorem setStatus_cbw (s : State) (c : CswStatus) : (setStatus c s).cbw = s.cbw := rfl
@[simp] theorem setStatus_sense (s : State) (c : CswStatus) : (setStatus c s).sense = s.sense := rfl
@[simp] theorem setStatus_rw (s : State) (c : CswStatus) : (setStatus c s).rw = s.rw := rfl
@[simp] theorem setStatus_bot (s : State) (c : CswStatus) : (setStatus c s).bot = s.bot := rfl
@[simp] theorem setStatus_eps (s : State) (c : CswStatus) : (setStatus c s).eps = s.eps := rfl
@[simp] theorem setStatus_sie (s : State) (c : CswStatus) : (setStatus c s).sie = s.sie := rfl
@[simp] theorem setStatus_ev (s : State) (c : CswStatus) : (setStatus c s).ev = s.ev := rfl
@[simp] theorem setStatus_bdt (s : State) (c : CswStatus) : (setStatus c s).bdt = s.bdt := rfl
@[simp] theorem setStatus_buf (s : State) (c : CswStatus) : (setStatus c s).buf = s.buf := rfl
@[simp] theorem setStatus_ram (s : State) (c : CswStatus) : (setStatus c s).ram = s.ram := rfl
@[simp] theorem setStatus_media (s : State) (c : CswStatus) : (setStatus c s).media = s.media := rfl
@[simp] theorem setStatus_mediaPresent (s : State) (c : CswStatus) : (setStatus c s).mediaPresent = s.mediaPresent := rfl
@[simp] theorem setStatus_writeProtected (s : State) (c : CswStatus) : (setStatus c s).writeProtected = s.writeProtected := rfl
@[simp] theorem setStatus_reply (s : State) (c : CswStatus) : (setStatus c s).reply = s.reply := rfl
@[simp] theorem setStatus_cdc (s : State) (c : CswStatus) : (setStatus c s).cdc = s.cdc := rfl
@[simp] theorem setStatus_hid (s : State) (c : CswStatus) : (setStatus c s).hid = s.hid := rfl
@[simp] theorem setStatus_fnState (s : State) (c : CswStatus) : (setStatus c s).fnState = s.fnState := rfl
@[simp] theorem setStatus_wire (s : State) (c : CswStatus) : (setStatus c s).wire = s.wire := rfl
@[simp] theorem setStatus_hostTog (s : State) (c : CswStatus) : (setStatus c s).hostTog = s.hostTog := rfl
@[simp] theorem setStatus_script (s : State) (c : CswStatus) : (setStatus c s).script = s.script := rfl
@[simp] theorem setStatus_free (s : State) (c : CswStatus) : (setStatus c s).free = s.free := rfl

@[simp] theorem setReply_cfg (s : State) (r : FnReply) : (setReply r s).cfg = s.cfg := rfl
@[simp] theorem setReply_stage (s : State) (r : FnReply) : (setReply r s).stage = s.stage := rfl
@[simp] theorem setReply_deviceState (s : State) (r : FnReply) : (setReply r s).deviceState = s.deviceState := rfl
@[simp] theorem setReply_suspendedFrom (s : State) (r : FnReply) : (setReply r s).suspendedFrom = s.suspendedFrom := rfl
@[simp] theorem setReply_setup (s : State) (r : FnReply) : (setReply r s).setup = s.setup := rfl
@[simp] theorem setReply_ctl (s : State) (r : FnReply) : (setReply r s).ctl = s.ctl := rfl
@[simp] theorem setReply_pendingAddress (s : State) (r : FnReply) : (setReply r s).pendingAddress = s.pendingAddress := rfl
@[simp] theorem setReply_addressPending (s : State) (r : FnReply) : (setReply r s).addressPending = s.addressPending := rfl
@[simp] theorem setReply_currentConfiguration (s : State) (r : FnReply) : (setReply r s).currentConfiguration = s.currentConfiguration := rfl
@[simp] theorem setReply_remoteWakeup (s : State) (r : FnReply) : (setReply r s).remoteWakeup = s.remoteWakeup := rfl
@[simp] theorem setReply_cbw (s : State) (r : FnReply) : (setReply r s).cbw = s.cbw := rfl
@[simp] theorem setReply_csw (s : State) (r : FnReply) : (setReply r s).csw = s.csw := rfl
@[simp] theorem setReply_sense (s : State) (r : FnReply) : (setReply r s).sense = s.sense := rfl
@[simp] theorem setReply_rw (s : State) (r : FnReply) : (setReply r s).rw = s.rw := rfl
@[simp] theorem setReply_bot (s : State) (r : FnReply) : (setReply r s).bot = s.bot := rfl
@[simp] theorem setReply_eps (s : State) (r : FnReply) : (setReply r s).eps = s.eps := rfl
@[simp] theorem setReply_sie (s : State) (r : FnReply) : (setReply r s).sie = s.sie := rfl
@[simp] theorem setReply_ev (s : State) (r : FnReply) : (setReply r s).ev = s.ev := rfl
@[simp] theorem setReply_bdt (s : State) (r : FnReply) : (setReply r s).bdt = s.bdt := rfl
@[simp] theorem setReply_buf (s : State) (r : FnReply) : (setReply r s).buf = s.buf := rfl
@[simp] theorem setReply_ram (s : State) (r : FnReply) : (setReply r s).ram = s.ram := rfl
@[simp] theorem setReply_media (s : State) (r : FnReply) : (setReply r s).media = s.media := rfl
@[simp] theorem setReply_mediaPresent (s : State) (r : FnReply) : (setReply r s).mediaPresent = s.mediaPresent := rfl
@[simp] theorem setReply_writeProtected (s : State) (r : FnReply) : (setReply r s).writeProtected = s.writeProtected := rfl
@[simp] theorem setReply_cdc (s : State) (r : FnReply) : (setReply r s).cdc = s.cdc := rfl
@[simp] theorem setReply_hid (s : State) (r : FnReply) : (setReply r s).hid = s.hid := rfl
@[simp] theorem setReply_fnState (s : State) (r : FnReply) : (setReply r s).fnState = s.fnState := rfl
@[simp] theorem setReply_wire (s : State) (r : FnReply) : (setReply r s).wire = s.wire := rfl
@[simp] theorem setReply_hostTog (s : State) (r : FnReply) : (setReply r s).hostTog = s.hostTog := rfl
@[simp] theorem setReply_script (s : State) (r : FnReply) : (setReply r s).script = s.script := rfl
@[simp] theorem setReply_free (s : State) (r : FnReply) : (setReply r s).free = s.free := rfl

@[simp] theorem loadBulkIn_cfg (s : State) (b : List Byte) : (loadBulkIn b s).cfg = s.cfg := rfl
@[simp] theorem loadBulkIn_stage (s : State) (b : List Byte) : (loadBulkIn b s).stage = s.stage := rfl
@[simp] theorem loadBulkIn_deviceState (s : State) (b : List Byte) : (loadBulkIn b s).deviceState = s.deviceState := rfl
@[simp] theorem loadBulkIn_suspendedFrom (s : State) (b : List Byte) : (loadBulkIn b s).suspendedFrom = s.suspendedFrom := rfl
@[simp] theorem loadBulkIn_setup (s : State) (b : List Byte) : (loadBulkIn b s).setup = s.setup := rfl
@[simp] theorem loadBulkIn_ctl (s : State) (b : List Byte) : (loadBulkIn b s).ctl = s.ctl := rfl
@[simp] theorem loadBulkIn_pendingAddress (s : State) (b : List Byte) : (loadBulkIn b s).pendingAddress = s.pendingAddress := rfl
@[simp] theorem loadBulkIn_addressPending (s : State) (b : List Byte) : (loadBulkIn b s).addressPending = s.addressPending := rfl
@[simp] theorem loadBulkIn_currentConfiguration (s : State) (b : List Byte) : (loadBulkIn b s).currentConfiguration = s.currentConfiguration := rfl
@[simp] theorem loadBulkIn_remoteWakeup (s : State) (b : List Byte) : (loadBulkIn b s).remoteWakeup = s.remoteWakeup := rfl
@[simp] theorem loadBulkIn_cbw (s : State) (b : List Byte) : (loadBulkIn b s).cbw = s.cbw := rfl
@[simp] theorem loadBulkIn_csw (s : State) (b : List Byte) : (loadBulkIn b s).csw = s.csw := rfl
@[simp] theorem loadBulkIn_sense (s : State) (b : List Byte) : (loadBulkIn b s).sense = s.sense := rfl
@[simp] theorem loadBulkIn_rw (s : State) (b : List Byte) : (loadBulkIn b s).rw = s.rw := rfl
@[simp] theorem loadBulkIn_bot (s : State) (b : List Byte) : (loadBulkIn b s).bot = s.bot := rfl
@[simp] theorem loadBulkIn_eps (s : State) (b : List Byte) : (loadBulkIn b s).eps = s.eps := rfl
@[simp] theorem loadBulkIn_sie (s : State) (b : List Byte) : (loadBulkIn b s).sie = s.sie := rfl
@[simp] theorem loadBulkIn_ev (s : State) (b : List Byte) : (loadBulkIn b s).ev = s.ev := rfl
@[simp] theorem loadBulkIn_bdt (s : State) (b : List Byte) : (loadBulkIn b s).bdt = s.bdt := rfl
@[simp] theorem loadBulkIn_ram (s : State) (b : List Byte) : (loadBulkIn b s).ram = s.ram := rfl
@[simp] theorem loadBulkIn_media (s : State) (b : List Byte) : (loadBulkIn b s).media = s.media := rfl
@[simp] theorem loadBulkIn_mediaPresent (s : State) (b : List Byte) : (loadBulkIn b s).mediaPresent = s.mediaPresent := rfl
@[simp] theorem loadBulkIn_writeProtected (s : State) (b : List Byte) : (loadBulkIn b s).writeProtected = s.writeProtected := rfl
@[simp] theorem loadBulkIn_reply (s : State) (b : List Byte) : (loadBulkIn b s).reply = s.reply := rfl
@[simp] theorem loadBulkIn_cdc (s : State) (b : List Byte) : (loadBulkIn b s).cdc = s.cdc := rfl
@[simp] theorem loadBulkIn_hid (s : State) (b : List Byte) : (loadBulkIn b s).hid = s.hid := rfl
@[simp] theorem loadBulkIn_fnState (s : State) (b : List Byte) : (loadBulkIn b s).fnState = s.fnState := rfl
@[simp] theorem loadBulkIn_wire (s : State) (b : List Byte) : (loadBulkIn b s).wire = s.wire := rfl
@[simp] theorem loadBulkIn_hostTog (s : State) (b : List Byte) : (loadBulkIn b s).hostTog = s.hostTog := rfl
@[simp] theorem loadBulkIn_script (s : State) (b : List Byte) : (loadBulkIn b s).script = s.script := rfl
@[simp] theorem loadBulkIn_free (s : State) (b : List Byte) : (loadBulkIn b s).free = s.free := rfl

/-- Bytes put into BUF change the buffers, and the count of free values. -/
theorem putBuf_rest (s : State) (o : Bool) (a : Addr) (b : List Byte) :
    putBuf o a b s = { s with buf := (putBuf o a b s).buf, free := (putBuf o a b s).free } := by
  unfold putBuf
  split <;> rfl

/-- Bytes put where a BD points change the buffers, and the count of free values. -/
theorem fillBuf_rest (s : State) (ep : Ep) (dir : Dir) (par : Parity) (b : List Byte) :
    fillBuf ep dir par b s =
      { s with buf := (fillBuf ep dir par b s).buf, free := (fillBuf ep dir par b s).free } :=
  putBuf_rest s _ _ b

/-- Bytes put into a function's own buffer change the buffers, and the count of free values. -/
theorem fillOwn_rest (s : State) (ep : Ep) (dir : Dir) (par : Parity) (b : List Byte) :
    fillOwn ep dir par b s =
      { s with buf := (fillOwn ep dir par b s).buf, free := (fillOwn ep dir par b s).free } :=
  putBuf_rest s _ _ b

@[simp] theorem fillBuf_cfg (s : State) (ep : Ep) (dir : Dir) (par : Parity) (b : List Byte) : (fillBuf ep dir par b s).cfg = s.cfg := by rw [fillBuf_rest]
@[simp] theorem fillBuf_stage (s : State) (ep : Ep) (dir : Dir) (par : Parity) (b : List Byte) : (fillBuf ep dir par b s).stage = s.stage := by rw [fillBuf_rest]
@[simp] theorem fillBuf_deviceState (s : State) (ep : Ep) (dir : Dir) (par : Parity) (b : List Byte) : (fillBuf ep dir par b s).deviceState = s.deviceState := by rw [fillBuf_rest]
@[simp] theorem fillBuf_suspendedFrom (s : State) (ep : Ep) (dir : Dir) (par : Parity) (b : List Byte) : (fillBuf ep dir par b s).suspendedFrom = s.suspendedFrom := by rw [fillBuf_rest]
@[simp] theorem fillBuf_setup (s : State) (ep : Ep) (dir : Dir) (par : Parity) (b : List Byte) : (fillBuf ep dir par b s).setup = s.setup := by rw [fillBuf_rest]
@[simp] theorem fillBuf_ctl (s : State) (ep : Ep) (dir : Dir) (par : Parity) (b : List Byte) : (fillBuf ep dir par b s).ctl = s.ctl := by rw [fillBuf_rest]
@[simp] theorem fillBuf_pendingAddress (s : State) (ep : Ep) (dir : Dir) (par : Parity) (b : List Byte) : (fillBuf ep dir par b s).pendingAddress = s.pendingAddress := by rw [fillBuf_rest]
@[simp] theorem fillBuf_addressPending (s : State) (ep : Ep) (dir : Dir) (par : Parity) (b : List Byte) : (fillBuf ep dir par b s).addressPending = s.addressPending := by rw [fillBuf_rest]
@[simp] theorem fillBuf_currentConfiguration (s : State) (ep : Ep) (dir : Dir) (par : Parity) (b : List Byte) : (fillBuf ep dir par b s).currentConfiguration = s.currentConfiguration := by rw [fillBuf_rest]
@[simp] theorem fillBuf_remoteWakeup (s : State) (ep : Ep) (dir : Dir) (par : Parity) (b : List Byte) : (fillBuf ep dir par b s).remoteWakeup = s.remoteWakeup := by rw [fillBuf_rest]
@[simp] theorem fillBuf_cbw (s : State) (ep : Ep) (dir : Dir) (par : Parity) (b : List Byte) : (fillBuf ep dir par b s).cbw = s.cbw := by rw [fillBuf_rest]
@[simp] theorem fillBuf_csw (s : State) (ep : Ep) (dir : Dir) (par : Parity) (b : List Byte) : (fillBuf ep dir par b s).csw = s.csw := by rw [fillBuf_rest]
@[simp] theorem fillBuf_sense (s : State) (ep : Ep) (dir : Dir) (par : Parity) (b : List Byte) : (fillBuf ep dir par b s).sense = s.sense := by rw [fillBuf_rest]
@[simp] theorem fillBuf_rw (s : State) (ep : Ep) (dir : Dir) (par : Parity) (b : List Byte) : (fillBuf ep dir par b s).rw = s.rw := by rw [fillBuf_rest]
@[simp] theorem fillBuf_bot (s : State) (ep : Ep) (dir : Dir) (par : Parity) (b : List Byte) : (fillBuf ep dir par b s).bot = s.bot := by rw [fillBuf_rest]
@[simp] theorem fillBuf_eps (s : State) (ep : Ep) (dir : Dir) (par : Parity) (b : List Byte) : (fillBuf ep dir par b s).eps = s.eps := by rw [fillBuf_rest]
@[simp] theorem fillBuf_sie (s : State) (ep : Ep) (dir : Dir) (par : Parity) (b : List Byte) : (fillBuf ep dir par b s).sie = s.sie := by rw [fillBuf_rest]
@[simp] theorem fillBuf_ev (s : State) (ep : Ep) (dir : Dir) (par : Parity) (b : List Byte) : (fillBuf ep dir par b s).ev = s.ev := by rw [fillBuf_rest]
@[simp] theorem fillBuf_bdt (s : State) (ep : Ep) (dir : Dir) (par : Parity) (b : List Byte) : (fillBuf ep dir par b s).bdt = s.bdt := by rw [fillBuf_rest]
@[simp] theorem fillBuf_ram (s : State) (ep : Ep) (dir : Dir) (par : Parity) (b : List Byte) : (fillBuf ep dir par b s).ram = s.ram := by rw [fillBuf_rest]
@[simp] theorem fillBuf_media (s : State) (ep : Ep) (dir : Dir) (par : Parity) (b : List Byte) : (fillBuf ep dir par b s).media = s.media := by rw [fillBuf_rest]
@[simp] theorem fillBuf_mediaPresent (s : State) (ep : Ep) (dir : Dir) (par : Parity) (b : List Byte) : (fillBuf ep dir par b s).mediaPresent = s.mediaPresent := by rw [fillBuf_rest]
@[simp] theorem fillBuf_writeProtected (s : State) (ep : Ep) (dir : Dir) (par : Parity) (b : List Byte) : (fillBuf ep dir par b s).writeProtected = s.writeProtected := by rw [fillBuf_rest]
@[simp] theorem fillBuf_reply (s : State) (ep : Ep) (dir : Dir) (par : Parity) (b : List Byte) : (fillBuf ep dir par b s).reply = s.reply := by rw [fillBuf_rest]
@[simp] theorem fillBuf_cdc (s : State) (ep : Ep) (dir : Dir) (par : Parity) (b : List Byte) : (fillBuf ep dir par b s).cdc = s.cdc := by rw [fillBuf_rest]
@[simp] theorem fillBuf_hid (s : State) (ep : Ep) (dir : Dir) (par : Parity) (b : List Byte) : (fillBuf ep dir par b s).hid = s.hid := by rw [fillBuf_rest]
@[simp] theorem fillBuf_fnState (s : State) (ep : Ep) (dir : Dir) (par : Parity) (b : List Byte) : (fillBuf ep dir par b s).fnState = s.fnState := by rw [fillBuf_rest]
@[simp] theorem fillBuf_wire (s : State) (ep : Ep) (dir : Dir) (par : Parity) (b : List Byte) : (fillBuf ep dir par b s).wire = s.wire := by rw [fillBuf_rest]
@[simp] theorem fillBuf_hostTog (s : State) (ep : Ep) (dir : Dir) (par : Parity) (b : List Byte) : (fillBuf ep dir par b s).hostTog = s.hostTog := by rw [fillBuf_rest]
@[simp] theorem fillBuf_script (s : State) (ep : Ep) (dir : Dir) (par : Parity) (b : List Byte) : (fillBuf ep dir par b s).script = s.script := by rw [fillBuf_rest]

@[simp] theorem loadEp0In_cfg (s : State) (n : Nat) : (loadEp0In n s).cfg = s.cfg := fillBuf_cfg _ _ _ _ _
@[simp] theorem loadEp0In_stage (s : State) (n : Nat) : (loadEp0In n s).stage = s.stage := fillBuf_stage _ _ _ _ _
@[simp] theorem loadEp0In_deviceState (s : State) (n : Nat) : (loadEp0In n s).deviceState = s.deviceState := fillBuf_deviceState _ _ _ _ _
@[simp] theorem loadEp0In_suspendedFrom (s : State) (n : Nat) : (loadEp0In n s).suspendedFrom = s.suspendedFrom := fillBuf_suspendedFrom _ _ _ _ _
@[simp] theorem loadEp0In_setup (s : State) (n : Nat) : (loadEp0In n s).setup = s.setup := fillBuf_setup _ _ _ _ _
@[simp] theorem loadEp0In_ctl (s : State) (n : Nat) : (loadEp0In n s).ctl = s.ctl := fillBuf_ctl _ _ _ _ _
@[simp] theorem loadEp0In_pendingAddress (s : State) (n : Nat) : (loadEp0In n s).pendingAddress = s.pendingAddress := fillBuf_pendingAddress _ _ _ _ _
@[simp] theorem loadEp0In_addressPending (s : State) (n : Nat) : (loadEp0In n s).addressPending = s.addressPending := fillBuf_addressPending _ _ _ _ _
@[simp] theorem loadEp0In_currentConfiguration (s : State) (n : Nat) : (loadEp0In n s).currentConfiguration = s.currentConfiguration := fillBuf_currentConfiguration _ _ _ _ _
@[simp] theorem loadEp0In_remoteWakeup (s : State) (n : Nat) : (loadEp0In n s).remoteWakeup = s.remoteWakeup := fillBuf_remoteWakeup _ _ _ _ _
@[simp] theorem loadEp0In_cbw (s : State) (n : Nat) : (loadEp0In n s).cbw = s.cbw := fillBuf_cbw _ _ _ _ _
@[simp] theorem loadEp0In_csw (s : State) (n : Nat) : (loadEp0In n s).csw = s.csw := fillBuf_csw _ _ _ _ _
@[simp] theorem loadEp0In_sense (s : State) (n : Nat) : (loadEp0In n s).sense = s.sense := fillBuf_sense _ _ _ _ _
@[simp] theorem loadEp0In_rw (s : State) (n : Nat) : (loadEp0In n s).rw = s.rw := fillBuf_rw _ _ _ _ _
@[simp] theorem loadEp0In_bot (s : State) (n : Nat) : (loadEp0In n s).bot = s.bot := fillBuf_bot _ _ _ _ _
@[simp] theorem loadEp0In_eps (s : State) (n : Nat) : (loadEp0In n s).eps = s.eps := fillBuf_eps _ _ _ _ _
@[simp] theorem loadEp0In_sie (s : State) (n : Nat) : (loadEp0In n s).sie = s.sie := fillBuf_sie _ _ _ _ _
@[simp] theorem loadEp0In_ev (s : State) (n : Nat) : (loadEp0In n s).ev = s.ev := fillBuf_ev _ _ _ _ _
@[simp] theorem loadEp0In_bdt (s : State) (n : Nat) : (loadEp0In n s).bdt = s.bdt := fillBuf_bdt _ _ _ _ _
@[simp] theorem loadEp0In_ram (s : State) (n : Nat) : (loadEp0In n s).ram = s.ram := fillBuf_ram _ _ _ _ _
@[simp] theorem loadEp0In_media (s : State) (n : Nat) : (loadEp0In n s).media = s.media := fillBuf_media _ _ _ _ _
@[simp] theorem loadEp0In_mediaPresent (s : State) (n : Nat) : (loadEp0In n s).mediaPresent = s.mediaPresent := fillBuf_mediaPresent _ _ _ _ _
@[simp] theorem loadEp0In_writeProtected (s : State) (n : Nat) : (loadEp0In n s).writeProtected = s.writeProtected := fillBuf_writeProtected _ _ _ _ _
@[simp] theorem loadEp0In_reply (s : State) (n : Nat) : (loadEp0In n s).reply = s.reply := fillBuf_reply _ _ _ _ _
@[simp] theorem loadEp0In_cdc (s : State) (n : Nat) : (loadEp0In n s).cdc = s.cdc := fillBuf_cdc _ _ _ _ _
@[simp] theorem loadEp0In_hid (s : State) (n : Nat) : (loadEp0In n s).hid = s.hid := fillBuf_hid _ _ _ _ _
@[simp] theorem loadEp0In_fnState (s : State) (n : Nat) : (loadEp0In n s).fnState = s.fnState := fillBuf_fnState _ _ _ _ _
@[simp] theorem loadEp0In_wire (s : State) (n : Nat) : (loadEp0In n s).wire = s.wire := fillBuf_wire _ _ _ _ _
@[simp] theorem loadEp0In_hostTog (s : State) (n : Nat) : (loadEp0In n s).hostTog = s.hostTog := fillBuf_hostTog _ _ _ _ _
@[simp] theorem loadEp0In_script (s : State) (n : Nat) : (loadEp0In n s).script = s.script := fillBuf_script _ _ _ _ _

/-- A function's write of an address changes the BDs, and the count of free values. -/
theorem writeAddress_rest (s : State) (ep : Ep) (dir : Dir) (par : Parity) :
    writeAddress ep dir par s =
      { s with bdt := (writeAddress ep dir par s).bdt, free := (writeAddress ep dir par s).free } := by
  unfold writeAddress
  split <;> rfl

@[simp] theorem writeAddress_cfg (s : State) (ep : Ep) (dir : Dir) (par : Parity) : (writeAddress ep dir par s).cfg = s.cfg := by rw [writeAddress_rest]
@[simp] theorem writeAddress_stage (s : State) (ep : Ep) (dir : Dir) (par : Parity) : (writeAddress ep dir par s).stage = s.stage := by rw [writeAddress_rest]
@[simp] theorem writeAddress_deviceState (s : State) (ep : Ep) (dir : Dir) (par : Parity) : (writeAddress ep dir par s).deviceState = s.deviceState := by rw [writeAddress_rest]
@[simp] theorem writeAddress_suspendedFrom (s : State) (ep : Ep) (dir : Dir) (par : Parity) : (writeAddress ep dir par s).suspendedFrom = s.suspendedFrom := by rw [writeAddress_rest]
@[simp] theorem writeAddress_setup (s : State) (ep : Ep) (dir : Dir) (par : Parity) : (writeAddress ep dir par s).setup = s.setup := by rw [writeAddress_rest]
@[simp] theorem writeAddress_ctl (s : State) (ep : Ep) (dir : Dir) (par : Parity) : (writeAddress ep dir par s).ctl = s.ctl := by rw [writeAddress_rest]
@[simp] theorem writeAddress_pendingAddress (s : State) (ep : Ep) (dir : Dir) (par : Parity) : (writeAddress ep dir par s).pendingAddress = s.pendingAddress := by rw [writeAddress_rest]
@[simp] theorem writeAddress_addressPending (s : State) (ep : Ep) (dir : Dir) (par : Parity) : (writeAddress ep dir par s).addressPending = s.addressPending := by rw [writeAddress_rest]
@[simp] theorem writeAddress_currentConfiguration (s : State) (ep : Ep) (dir : Dir) (par : Parity) : (writeAddress ep dir par s).currentConfiguration = s.currentConfiguration := by rw [writeAddress_rest]
@[simp] theorem writeAddress_remoteWakeup (s : State) (ep : Ep) (dir : Dir) (par : Parity) : (writeAddress ep dir par s).remoteWakeup = s.remoteWakeup := by rw [writeAddress_rest]
@[simp] theorem writeAddress_cbw (s : State) (ep : Ep) (dir : Dir) (par : Parity) : (writeAddress ep dir par s).cbw = s.cbw := by rw [writeAddress_rest]
@[simp] theorem writeAddress_csw (s : State) (ep : Ep) (dir : Dir) (par : Parity) : (writeAddress ep dir par s).csw = s.csw := by rw [writeAddress_rest]
@[simp] theorem writeAddress_sense (s : State) (ep : Ep) (dir : Dir) (par : Parity) : (writeAddress ep dir par s).sense = s.sense := by rw [writeAddress_rest]
@[simp] theorem writeAddress_rw (s : State) (ep : Ep) (dir : Dir) (par : Parity) : (writeAddress ep dir par s).rw = s.rw := by rw [writeAddress_rest]
@[simp] theorem writeAddress_bot (s : State) (ep : Ep) (dir : Dir) (par : Parity) : (writeAddress ep dir par s).bot = s.bot := by rw [writeAddress_rest]
@[simp] theorem writeAddress_eps (s : State) (ep : Ep) (dir : Dir) (par : Parity) : (writeAddress ep dir par s).eps = s.eps := by rw [writeAddress_rest]
@[simp] theorem writeAddress_sie (s : State) (ep : Ep) (dir : Dir) (par : Parity) : (writeAddress ep dir par s).sie = s.sie := by rw [writeAddress_rest]
@[simp] theorem writeAddress_ev (s : State) (ep : Ep) (dir : Dir) (par : Parity) : (writeAddress ep dir par s).ev = s.ev := by rw [writeAddress_rest]
@[simp] theorem writeAddress_buf (s : State) (ep : Ep) (dir : Dir) (par : Parity) : (writeAddress ep dir par s).buf = s.buf := by rw [writeAddress_rest]
@[simp] theorem writeAddress_ram (s : State) (ep : Ep) (dir : Dir) (par : Parity) : (writeAddress ep dir par s).ram = s.ram := by rw [writeAddress_rest]
@[simp] theorem writeAddress_media (s : State) (ep : Ep) (dir : Dir) (par : Parity) : (writeAddress ep dir par s).media = s.media := by rw [writeAddress_rest]
@[simp] theorem writeAddress_mediaPresent (s : State) (ep : Ep) (dir : Dir) (par : Parity) : (writeAddress ep dir par s).mediaPresent = s.mediaPresent := by rw [writeAddress_rest]
@[simp] theorem writeAddress_writeProtected (s : State) (ep : Ep) (dir : Dir) (par : Parity) : (writeAddress ep dir par s).writeProtected = s.writeProtected := by rw [writeAddress_rest]
@[simp] theorem writeAddress_reply (s : State) (ep : Ep) (dir : Dir) (par : Parity) : (writeAddress ep dir par s).reply = s.reply := by rw [writeAddress_rest]
@[simp] theorem writeAddress_cdc (s : State) (ep : Ep) (dir : Dir) (par : Parity) : (writeAddress ep dir par s).cdc = s.cdc := by rw [writeAddress_rest]
@[simp] theorem writeAddress_hid (s : State) (ep : Ep) (dir : Dir) (par : Parity) : (writeAddress ep dir par s).hid = s.hid := by rw [writeAddress_rest]
@[simp] theorem writeAddress_fnState (s : State) (ep : Ep) (dir : Dir) (par : Parity) : (writeAddress ep dir par s).fnState = s.fnState := by rw [writeAddress_rest]
@[simp] theorem writeAddress_wire (s : State) (ep : Ep) (dir : Dir) (par : Parity) : (writeAddress ep dir par s).wire = s.wire := by rw [writeAddress_rest]
@[simp] theorem writeAddress_hostTog (s : State) (ep : Ep) (dir : Dir) (par : Parity) : (writeAddress ep dir par s).hostTog = s.hostTog := by rw [writeAddress_rest]
@[simp] theorem writeAddress_script (s : State) (ep : Ep) (dir : Dir) (par : Parity) : (writeAddress ep dir par s).script = s.script := by rw [writeAddress_rest]

@[simp] theorem answer_cfg (s : State) (a : Answer) : (answer a s).cfg = s.cfg := rfl
@[simp] theorem answer_stage (s : State) (a : Answer) : (answer a s).stage = s.stage := rfl
@[simp] theorem answer_deviceState (s : State) (a : Answer) : (answer a s).deviceState = s.deviceState := rfl
@[simp] theorem answer_suspendedFrom (s : State) (a : Answer) : (answer a s).suspendedFrom = s.suspendedFrom := rfl
@[simp] theorem answer_setup (s : State) (a : Answer) : (answer a s).setup = s.setup := rfl
@[simp] theorem answer_ctl (s : State) (a : Answer) : (answer a s).ctl = s.ctl := rfl
@[simp] theorem answer_pendingAddress (s : State) (a : Answer) : (answer a s).pendingAddress = s.pendingAddress := rfl
@[simp] theorem answer_addressPending (s : State) (a : Answer) : (answer a s).addressPending = s.addressPending := rfl
@[simp] theorem answer_currentConfiguration (s : State) (a : Answer) : (answer a s).currentConfiguration = s.currentConfiguration := rfl
@[simp] theorem answer_remoteWakeup (s : State) (a : Answer) : (answer a s).remoteWakeup = s.remoteWakeup := rfl
@[simp] theorem answer_cbw (s : State) (a : Answer) : (answer a s).cbw = s.cbw := rfl
@[simp] theorem answer_csw (s : State) (a : Answer) : (answer a s).csw = s.csw := rfl
@[simp] theorem answer_sense (s : State) (a : Answer) : (answer a s).sense = s.sense := rfl
@[simp] theorem answer_rw (s : State) (a : Answer) : (answer a s).rw = s.rw := rfl
@[simp] theorem answer_bot (s : State) (a : Answer) : (answer a s).bot = s.bot := rfl
@[simp] theorem answer_eps (s : State) (a : Answer) : (answer a s).eps = s.eps := rfl
@[simp] theorem answer_sie (s : State) (a : Answer) : (answer a s).sie = s.sie := rfl
@[simp] theorem answer_ev (s : State) (a : Answer) : (answer a s).ev = s.ev := rfl
@[simp] theorem answer_bdt (s : State) (a : Answer) : (answer a s).bdt = s.bdt := rfl
@[simp] theorem answer_buf (s : State) (a : Answer) : (answer a s).buf = s.buf := rfl
@[simp] theorem answer_ram (s : State) (a : Answer) : (answer a s).ram = s.ram := rfl
@[simp] theorem answer_media (s : State) (a : Answer) : (answer a s).media = s.media := rfl
@[simp] theorem answer_mediaPresent (s : State) (a : Answer) : (answer a s).mediaPresent = s.mediaPresent := rfl
@[simp] theorem answer_writeProtected (s : State) (a : Answer) : (answer a s).writeProtected = s.writeProtected := rfl
@[simp] theorem answer_reply (s : State) (a : Answer) : (answer a s).reply = s.reply := rfl
@[simp] theorem answer_cdc (s : State) (a : Answer) : (answer a s).cdc = s.cdc := rfl
@[simp] theorem answer_hid (s : State) (a : Answer) : (answer a s).hid = s.hid := rfl
@[simp] theorem answer_fnState (s : State) (a : Answer) : (answer a s).fnState = s.fnState := rfl
@[simp] theorem answer_script (s : State) (a : Answer) : (answer a s).script = s.script := rfl
@[simp] theorem answer_free (s : State) (a : Answer) : (answer a s).free = s.free := rfl

@[simp] theorem clearTrn_cfg (s : State) : (clearTrn s).cfg = s.cfg := rfl
@[simp] theorem clearTrn_stage (s : State) : (clearTrn s).stage = s.stage := rfl
@[simp] theorem clearTrn_deviceState (s : State) : (clearTrn s).deviceState = s.deviceState := rfl
@[simp] theorem clearTrn_suspendedFrom (s : State) : (clearTrn s).suspendedFrom = s.suspendedFrom := rfl
@[simp] theorem clearTrn_setup (s : State) : (clearTrn s).setup = s.setup := rfl
@[simp] theorem clearTrn_ctl (s : State) : (clearTrn s).ctl = s.ctl := rfl
@[simp] theorem clearTrn_pendingAddress (s : State) : (clearTrn s).pendingAddress = s.pendingAddress := rfl
@[simp] theorem clearTrn_addressPending (s : State) : (clearTrn s).addressPending = s.addressPending := rfl
@[simp] theorem clearTrn_currentConfiguration (s : State) : (clearTrn s).currentConfiguration = s.currentConfiguration := rfl
@[simp] theorem clearTrn_remoteWakeup (s : State) : (clearTrn s).remoteWakeup = s.remoteWakeup := rfl
@[simp] theorem clearTrn_cbw (s : State) : (clearTrn s).cbw = s.cbw := rfl
@[simp] theorem clearTrn_csw (s : State) : (clearTrn s).csw = s.csw := rfl
@[simp] theorem clearTrn_sense (s : State) : (clearTrn s).sense = s.sense := rfl
@[simp] theorem clearTrn_rw (s : State) : (clearTrn s).rw = s.rw := rfl
@[simp] theorem clearTrn_bot (s : State) : (clearTrn s).bot = s.bot := rfl
@[simp] theorem clearTrn_eps (s : State) : (clearTrn s).eps = s.eps := rfl
@[simp] theorem clearTrn_sie (s : State) : (clearTrn s).sie = s.sie := rfl
@[simp] theorem clearTrn_bdt (s : State) : (clearTrn s).bdt = s.bdt := rfl
@[simp] theorem clearTrn_buf (s : State) : (clearTrn s).buf = s.buf := rfl
@[simp] theorem clearTrn_ram (s : State) : (clearTrn s).ram = s.ram := rfl
@[simp] theorem clearTrn_media (s : State) : (clearTrn s).media = s.media := rfl
@[simp] theorem clearTrn_mediaPresent (s : State) : (clearTrn s).mediaPresent = s.mediaPresent := rfl
@[simp] theorem clearTrn_writeProtected (s : State) : (clearTrn s).writeProtected = s.writeProtected := rfl
@[simp] theorem clearTrn_reply (s : State) : (clearTrn s).reply = s.reply := rfl
@[simp] theorem clearTrn_cdc (s : State) : (clearTrn s).cdc = s.cdc := rfl
@[simp] theorem clearTrn_hid (s : State) : (clearTrn s).hid = s.hid := rfl
@[simp] theorem clearTrn_fnState (s : State) : (clearTrn s).fnState = s.fnState := rfl
@[simp] theorem clearTrn_wire (s : State) : (clearTrn s).wire = s.wire := rfl
@[simp] theorem clearTrn_hostTog (s : State) : (clearTrn s).hostTog = s.hostTog := rfl
@[simp] theorem clearTrn_script (s : State) : (clearTrn s).script = s.script := rfl
@[simp] theorem clearTrn_free (s : State) : (clearTrn s).free = s.free := rfl

end Sys2Proof.Machine
end

