-- ==== Sys2Proof/Laws/Tables.lean ====
section
/-! SUPPORT. The laws of the tables: a BD, an endpoint record, an enable, a pointer read after one was written. -/

namespace Sys2Proof.Machine

theorem ep_toNat_ne_zero {ep : Ep} (h : ep ≠ 0) : ep.toNat ≠ 0 := fun hc => h (BitVec.eq_of_toNat_eq (by simpa using hc))

theorem ep_eq_of_toNat {a b : Ep} (h : a.toNat = b.toNat) : a = b := BitVec.eq_of_toNat_eq h

/-- Two BDs at one place belong to one endpoint direction (20 R80). -/
theorem bdIndex_ep_dir {m : PpMode} {e ep : Ep} {d dir : Dir} {p par : Parity}
    (h : bdIndex m e d p = bdIndex m ep dir par) : e = ep ∧ d = dir := by
  have hz : ∀ x : Ep, x ≠ 0 → x.toNat ≠ 0 := fun x hx => ep_toNat_ne_zero hx
  have key : e.toNat = ep.toNat ∧ d = dir := by
    cases m <;> cases d <;> cases dir <;> cases p <;> cases par <;>
      simp only [bdIndex, dirBit, parBit] at h <;>
      first
        | (split at h <;> split at h <;> first
            | (exfalso; have h1 := hz e (by assumption); omega)
            | (exfalso; have h1 := hz ep (by assumption); omega)
            | (subst_vars; exact ⟨rfl, rfl⟩)
            | (have h1 := hz e (by assumption); have h2 := hz ep (by assumption); exact ⟨by omega, rfl⟩)
            | (exfalso; omega))
        | exact ⟨by omega, rfl⟩
        | (exfalso; omega)
  exact ⟨ep_eq_of_toNat key.1, key.2⟩

theorem bdIndex_ne {m : PpMode} {e ep : Ep} {d dir : Dir} {p par : Parity} (h : e ≠ ep ∨ d ≠ dir) :
    bdIndex m e d p ≠ bdIndex m ep dir par := by
  intro hc
  have := bdIndex_ep_dir hc
  tauto

/-- A BD stands inside the table (20 R70, R80). -/
theorem bdIndex_lt {m : PpMode} {n : Nat} {ep : Ep} {dir : Dir} {par : Parity} (h : ep.toNat < n)
    (hp : par = .even ∨ pp m ep dir = true) : bdIndex m ep dir par < bdtEntries m n := by
  have hz : ep ≠ 0 → ep.toNat ≠ 0 := ep_toNat_ne_zero
  cases m <;> cases dir <;> cases par <;> simp_all [bdIndex, bdtEntries, dirBit, parBit, pp] <;>
    (try split) <;> (try simp_all) <;> omega

/-- The two parities of a ping-ponged direction stand at two places. -/
theorem bdIndex_par {m : PpMode} {ep : Ep} {dir : Dir} (hp : pp m ep dir = true) (par : Parity) :
    bdIndex m ep dir par ≠ bdIndex m ep dir par.other := by
  have hz : ep ≠ 0 → ep.toNat ≠ 0 := ep_toNat_ne_zero
  cases m <;> cases dir <;> cases par <;> simp [bdIndex, parBit, dirBit, pp, Parity.other] at hp ⊢ <;>
    first
      | omega
      | (rw [if_neg hp, if_neg hp]; have := hz hp; omega)
      | simp [hp]

theorem epsIndex_inj {e ep : Ep} {d dir : Dir} (h : epsIndex e d = epsIndex ep dir) : e = ep ∧ d = dir := by
  cases d <;> cases dir <;> simp only [epsIndex, dirBit] at h <;>
    first
      | exact ⟨ep_eq_of_toNat (by omega), rfl⟩
      | (exfalso; omega)

theorem epsIndex_ne {e ep : Ep} {d dir : Dir} (h : e ≠ ep ∨ d ≠ dir) : epsIndex e d ≠ epsIndex ep dir := by
  intro hc
  have := epsIndex_inj hc
  tauto

theorem epsIndex_lt {n : Nat} {ep : Ep} (dir : Dir) (h : ep.toNat < n) : epsIndex ep dir < 2 * n := by
  cases dir <;> simp only [epsIndex, dirBit] <;> omega

theorem getD_set_eq {α : Type} (l : List α) (i : Nat) (x d : α) (h : i < l.length) : (l.set i x).getD i d = x := by
  simp [List.getD, h]

theorem getD_set_ne {α : Type} (l : List α) (i j : Nat) (x d : α) (h : i ≠ j) : (l.set i x).getD j d = l.getD j d := by
  simp [List.getD, List.getElem?_set_ne h]

/-- A valid BD stands inside a shaped table. -/
theorem State.Shaped.bd_lt {s : State} (h : s.Shaped) {ep : Ep} {dir : Dir} {par : Parity} (hv : s.validBd ep dir par) :
    bdIndex s.cfg.ppMode ep dir par < s.bdt.length := by
  rw [h.bdt]
  exact bdIndex_lt hv.1 hv.2

theorem State.bd_setBd {s : State} {ep : Ep} {dir : Dir} {par : Parity} (b : Bd)
    (h : bdIndex s.cfg.ppMode ep dir par < s.bdt.length) : (s.setBd ep dir par b).bd ep dir par = b := by
  simp only [State.bd, State.setBd, getD_set_eq _ _ _ _ h]

theorem State.bd_setBd_of_ne {s : State} {ep e : Ep} {dir d : Dir} {par p : Parity} (b : Bd)
    (h : bdIndex s.cfg.ppMode e d p ≠ bdIndex s.cfg.ppMode ep dir par) : (s.setBd ep dir par b).bd e d p = s.bd e d p := by
  simp only [State.bd, State.setBd, getD_set_ne _ _ _ _ _ (Ne.symm h)]

theorem State.bd_setBd_other {s : State} {ep e : Ep} {dir d : Dir} {par p : Parity} (b : Bd) (h : e ≠ ep ∨ d ≠ dir) :
    (s.setBd ep dir par b).bd e d p = s.bd e d p := s.bd_setBd_of_ne b (bdIndex_ne h)

theorem State.epsAt_setEps {s : State} {ep : Ep} {dir : Dir} (e : Eps) (h : epsIndex ep dir < s.eps.length) :
    (s.setEps ep dir e).epsAt ep dir = e := by
  simp only [State.epsAt, State.setEps, getD_set_eq _ _ _ _ h]

theorem State.epsAt_setEps_other {s : State} {ep x : Ep} {dir d : Dir} (e : Eps) (h : x ≠ ep ∨ d ≠ dir) :
    (s.setEps ep dir e).epsAt x d = s.epsAt x d := by
  simp only [State.epsAt, State.setEps, getD_set_ne _ _ _ _ _ (Ne.symm (epsIndex_ne h))]

@[simp] theorem State.epsAt_setBd (s : State) (ep x : Ep) (dir d : Dir) (par : Parity) (b : Bd) :
    (s.setBd ep dir par b).epsAt x d = s.epsAt x d := rfl

@[simp] theorem State.nextPar_setBd (s : State) (ep x : Ep) (dir d : Dir) (par : Parity) (b : Bd) :
    (s.setBd ep dir par b).nextPar x d = s.nextPar x d := rfl

@[simp] theorem State.bd_setEps (s : State) (ep x : Ep) (dir d : Dir) (p : Parity) (e : Eps) :
    (s.setEps ep dir e).bd x d p = s.bd x d p := rfl

end Sys2Proof.Machine
end

