-- ==== Sys2Proof/Laws/Keeps.lean ====
section
/-! SUPPORT. What every operation of the engine keeps: the configuration, the tables' sizes, the canonical form of the
memories, endpoint 0 unhalted. One lemma for each operation; the meanings are compositions of them. -/

namespace Sys2Proof.Machine

/-- What an operation from `s` to `t` keeps. -/
structure Keeps (s t : State) : Prop where
  cfg : t.cfg = s.cfg
  bdt : t.bdt.length = s.bdt.length
  eps : t.eps.length = s.eps.length
  ptr : t.sie.ptr.length = s.sie.ptr.length
  ctrl : t.sie.epCtrl.length = s.sie.epCtrl.length
  setup : s.setup.length = 8 → t.setup.length = 8
  cbw : s.cbw.length = 31 → t.cbw.length = 31
  resp : s.bot.resp.length = 36 → t.bot.resp.length = 36
  ring : s.bot.q.length ≤ 4 → t.bot.q.length ≤ 4
  buf : memWf s.buf → memWf t.buf
  ram : memWf s.ram → memWf t.ram
  media : memWf s.media → memWf t.media
  ep0 : s.Ep0Clear → t.Ep0Clear
  addr : s.cfg.wf = true → s.BdsFit → t.BdsFit

theorem Keeps.refl (s : State) : Keeps s s := ⟨rfl, rfl, rfl, rfl, rfl, id, id, id, id, id, id, id, id, fun _ => id⟩

theorem Keeps.trans {s t u : State} (a : Keeps s t) (b : Keeps t u) : Keeps s u :=
  ⟨b.cfg.trans a.cfg, b.bdt.trans a.bdt, b.eps.trans a.eps, b.ptr.trans a.ptr, b.ctrl.trans a.ctrl,
    b.setup ∘ a.setup, b.cbw ∘ a.cbw, b.resp ∘ a.resp, b.ring ∘ a.ring, b.buf ∘ a.buf, b.ram ∘ a.ram,
    b.media ∘ a.media, b.ep0 ∘ a.ep0, fun w h => b.addr (by rw [a.cfg]; exact w) (a.addr w h)⟩

theorem Keeps.shaped {s t : State} (k : Keeps s t) (h : s.Shaped) : t.Shaped where
  bdt := by rw [k.bdt, k.cfg, h.bdt]
  eps := by rw [k.eps, k.cfg, h.eps]
  ptr := by rw [k.ptr, k.cfg, h.ptr]
  ctrl := by rw [k.ctrl, k.cfg, h.ctrl]
  setup := k.setup h.setup
  cbw := k.cbw h.cbw
  resp := k.resp h.resp
  ring := k.ring h.ring

theorem Keeps.canonical {s t : State} (k : Keeps s t) (h : s.Canonical) : t.Canonical :=
  ⟨k.buf h.buf, k.ram h.ram, k.media h.media⟩

/-- An operation whose outcome, if it is a next state, keeps all that. -/
def KeepsR (s : State) (r : Result) : Prop := ∀ t, r = .next t → Keeps s t

/-- The address of any BD has `ADDR_W` bits. -/
theorem State.BdsFit.bd {s : State} (h : s.BdsFit) (ep : Ep) (dir : Dir) (par : Parity) :
    @LT.lt Nat _ (s.bd ep dir par).address (2 ^ s.cfg.addrW) := by
  unfold State.bd
  rw [List.getD_eq_getElem?_getD]
  cases hx : s.bdt[bdIndex s.cfg.ppMode ep dir par]? with
  | none => exact Nat.two_pow_pos _
  | some b => exact h b (List.mem_of_getElem? hx)

/-- Every buffer lies in the address space (00 R15). -/
theorem bufAddr_fits {s : State} (h : s.cfg.wf = true) (ep : Ep) (dir : Dir) (par : Parity) :
    @LT.lt Nat _ (s.bufAddr ep dir par) (2 ^ s.cfg.addrW) := by
  simp only [Config.wf, Config.buffersOk, Config.sizesOk, Bool.and_eq_true, beq_iff_eq, List.all_eq_true,
    decide_eq_true_eq, List.mem_range] at h
  unfold State.bufAddr
  by_cases hi : bdIndex s.cfg.ppMode ep dir par < s.cfg.bufAddrs.length
  · refine Nat.lt_of_lt_of_le (Nat.lt_add_of_pos_right ?_) (h.1.1.1.1.2.2 _ hi).1
    unfold Config.bufSize
    split
    · cases s.cfg.ep0Max <;> decide
    · exact h.1.1.1.1.1.1.2.1.1.1.1.1
  · rw [List.getD_eq_default _ _ (Nat.le_of_not_lt hi)]
    exact Nat.two_pow_pos _

theorem keepsR_next {s t : State} (h : Keeps s t) : KeepsR s (.next t) := by
  intro u hu
  cases hu
  exact h

theorem keepsR_andThen {s : State} {r : Result} {f : State → Result} (h : KeepsR s r) (hf : ∀ t, KeepsR t (f t)) :
    KeepsR s (andThen r f) := by
  intro u hu
  cases r with
  | next t => exact (h t rfl).trans (hf t u hu)
  | fault e => cases hu
  | refused e => cases hu

section
variable (s : State) (ep : Ep) (dir : Dir) (par : Parity)

/-- A BD written keeps all that, if its address has `ADDR_W` bits. -/
theorem keeps_setBd {b : Bd} (hb : s.cfg.wf = true → s.BdsFit → @LT.lt Nat _ b.address (2 ^ s.cfg.addrW)) :
    Keeps s (s.setBd ep dir par b) := by
  refine ⟨rfl, by simp [State.setBd], rfl, rfl, rfl, id, id, id, id, id, id, id, id, fun w h x hx => ?_⟩
  obtain hx | rfl := List.mem_or_eq_of_mem_set hx
  · exact h x hx
  · exact hb w h

/-- A BD written with the address it has. -/
theorem keeps_setStat (t : BdStat) (n : Count) :
    Keeps s (s.setBd ep dir par { s.bd ep dir par with stat := t, count := n }) :=
  keeps_setBd s ep dir par fun _ h => h.bd ep dir par

theorem keeps_setCtrl (c : EpCtrl) : Keeps s (s.setCtrl ep c) :=
  ⟨rfl, rfl, rfl, rfl, by simp [State.setCtrl], id, id, id, id, id, id, id, id, fun _ => id⟩

theorem keeps_setEps (e : Eps) (h : ep ≠ 0 ∨ e.halted = (s.epsAt ep dir).halted ∨ e.halted = false) :
    Keeps s (s.setEps ep dir e) := by
  refine ⟨rfl, rfl, by simp [State.setEps], rfl, rfl, id, id, id, id, id, id, id, ?_, fun _ => id⟩
  intro h0 d
  by_cases hx : (0 : Ep) = ep ∧ d = dir
  · obtain ⟨rfl, rfl⟩ := hx
    by_cases hl : epsIndex 0 d < s.eps.length
    · rw [State.epsAt_setEps _ hl]
      obtain h | h | h := h
      · exact absurd rfl h
      · rw [h]; exact h0 d
      · exact h
    · have hn : (s.setEps 0 d e) = s := by simp only [State.setEps, List.set_eq_of_length_le (Nat.le_of_not_lt hl)]
      rw [hn]
      exact h0 d
  · rw [State.epsAt_setEps_other]
    · exact h0 d
    · tauto

theorem keeps_setToggle (v : Bool) : Keeps s (setToggle ep dir v s) := keeps_setEps _ _ _ _ (.inr (.inl rfl))

theorem keeps_setHalted (v : Bool) (h : ep ≠ 0 ∨ v = false) : Keeps s (setHalted ep dir v s) :=
  keeps_setEps _ _ _ _ (h.imp id .inr)

theorem keeps_flipToggle : Keeps s (flipToggle ep dir s) := keeps_setToggle _ _ _ _

theorem keeps_noteCompletion : Keeps s (noteCompletion ep dir par s) := by
  unfold noteCompletion
  split
  · exact keeps_setEps _ _ _ _ (.inr (.inl rfl))
  · exact .refl s

theorem keeps_completionToggle (pid : BitVec 4) : Keeps s (completionToggle ep dir pid s) := by
  unfold completionToggle
  split
  · exact keeps_flipToggle _ _ _
  · split
    · exact .refl s
    · exact keeps_flipToggle _ _ _

theorem keeps_bookCompletion (pid : BitVec 4) : Keeps s (bookCompletion ep dir par pid s) :=
  (keeps_noteCompletion _ _ _ _).trans (keeps_completionToggle _ _ _ _)

theorem keeps_reclaim : Keeps s (reclaim ep dir par s) := keeps_setStat _ _ _ _ _ _

theorem keeps_stall : Keeps s (stall ep dir par s) := keeps_setStat _ _ _ _ _ _

theorem keeps_armBd (tog : Bool) (n : Nat) : Keeps s (armBd ep dir par tog n s) := by
  unfold armBd
  split
  · exact (keeps_setStat s ep dir par _ _).trans ⟨rfl, rfl, rfl, rfl, rfl, id, id, id, id, id, id, id, id, fun _ => id⟩
  · exact keeps_setStat _ _ _ _ _ _

theorem keeps_rearm (tog : Bool) (n : Nat) : Keeps s (rearm ep dir par tog n s) := by
  unfold rearm
  split
  · exact (keeps_reclaim _ _ _ _).trans (keeps_armBd _ _ _ _ _ _)
  · exact keeps_armBd _ _ _ _ _ _

theorem keeps_rearmNext (tog : Bool) (n : Nat) : Keeps s (rearmNext ep dir tog n s) := keeps_rearm _ _ _ _ _ _

theorem keeps_armStatusIn : Keeps s (armStatusIn s) := keeps_rearmNext _ _ _ _ _

/-- An update of fields that `Keeps` does not speak of. -/
theorem Keeps.stage {s t : State} (k : Keeps s t) (x : Stage) : Keeps s { t with stage := x } :=
  k.trans ⟨rfl, rfl, rfl, rfl, rfl, id, id, id, id, id, id, id, id, fun _ => id⟩

theorem keeps_statusIn : Keeps s (statusIn s) := (keeps_armStatusIn s).stage _

theorem keeps_foldl {α : Type} (l : List α) (f : State → α → State) (hf : ∀ t a, Keeps t (f t a)) (s : State) :
    Keeps s (l.foldl f s) := by
  induction l generalizing s with
  | nil => exact .refl s
  | cons a r ih => exact (hf s a).trans (ih _)

theorem keeps_forParities (f : Parity → State → State) (hf : ∀ p t, Keeps t (f p t)) : Keeps s (forParities ep dir f s) :=
  keeps_foldl _ _ (fun t p => hf p t) s

theorem keeps_stallEp : Keeps s (stallEp ep dir s) := by
  unfold stallEp
  have h := keeps_forParities s ep dir (stall ep dir) (fun p t => keeps_stall t ep dir p)
  dsimp only
  split
  · exact h
  · rename_i he
    exact h.trans (keeps_setHalted _ _ _ _ (.inl he))

theorem keeps_requestError : Keeps s (requestError s) := (keeps_stallEp s 0 .inp).stage _

theorem keeps_cancelEp0In : Keeps s (cancelEp0In s) := keeps_forParities _ _ _ _ (fun p t => keeps_reclaim t _ _ p)

theorem keeps_unstallBd : Keeps s (unstallBd ep dir par s) := by
  unfold unstallBd
  split
  · exact keeps_reclaim _ _ _ _
  · exact .refl s

theorem keeps_unstallEp : Keeps s (unstallEp ep dir s) :=
  ((keeps_setHalted s ep dir false (.inr rfl)).trans (keeps_setToggle _ _ _ _)).trans
    (keeps_forParities _ _ _ _ (fun p t => keeps_unstallBd t _ _ p))

theorem epsAt_nonzeroEps (f : Eps → Eps) (l : List Eps) (d : Dir) :
    (nonzeroEps f l).getD (epsIndex 0 d) epsReset = l.getD (epsIndex 0 d) epsReset := by
  cases l with
  | nil => rfl
  | cons a r =>
    cases r with
    | nil => cases d <;> rfl
    | cons b r => cases d <;> rfl

theorem length_nonzeroEps (f : Eps → Eps) (l : List Eps) : (nonzeroEps f l).length = l.length := by
  simp [nonzeroEps]; omega

theorem keeps_ppReset : Keeps s (ppReset s) := by
  refine ⟨rfl, rfl, length_nonzeroEps _ _, by simp [ppReset, pulsePpReset]; omega, rfl, id, id, id, id, id, id, id, ?_,
    fun _ => id⟩
  intro h d
  show ((nonzeroEps _ s.eps).getD _ _).halted = false
  rw [epsAt_nonzeroEps]
  exact h d

theorem keeps_clearNonzero : Keeps s (clearNonzero s) := by
  refine ⟨rfl, by simp [clearNonzero]; omega, length_nonzeroEps _ _, rfl, by simp [clearNonzero]; omega, id, id, id, id,
    id, id, id, ?_, fun _ h x hx => ?_⟩
  · intro h d
    show ((nonzeroEps _ s.eps).getD _ _).halted = false
    rw [epsAt_nonzeroEps]
    exact h d
  · obtain hx | hx := List.mem_append.1 hx
    · exact h x (List.mem_of_mem_take hx)
    · obtain ⟨b, hb, rfl⟩ := List.mem_map.1 hx
      exact h b (List.mem_of_mem_drop hb)

theorem keeps_ep0ArmSetup : Keeps s (ep0ArmSetup s) := keeps_rearmNext _ _ _ _ _

theorem keeps_ep0ArmStatusOut : Keeps s (ep0ArmStatusOut s) := keeps_rearmNext _ _ _ _ _

theorem keeps_ep0ArmDataOut : Keeps s (ep0ArmDataOut s) := keeps_rearmNext _ _ _ _ _

theorem keeps_putBuf (o : Bool) (a : Addr) (b : List Byte) : Keeps s (putBuf o a b s) := by
  unfold putBuf
  split
  · exact ⟨rfl, rfl, rfl, rfl, rfl, id, id, id, id, writeBytes_wf _ _, id, id, id, fun _ => id⟩
  · exact ⟨rfl, rfl, rfl, rfl, rfl, id, id, id, id, writeBytes_wf _ _, id, id, id, fun _ => id⟩

theorem keeps_fillBuf (b : List Byte) : Keeps s (fillBuf ep dir par b s) := keeps_putBuf _ _ _ _

theorem keeps_fillOwn (b : List Byte) : Keeps s (fillOwn ep dir par b s) := keeps_putBuf _ _ _ _

theorem keeps_writeAddress : Keeps s (writeAddress ep dir par s) := by
  unfold writeAddress
  split
  · exact (keeps_setBd s ep dir par fun _ _ => place_lt _ _ _).trans
      ⟨rfl, rfl, rfl, rfl, rfl, id, id, id, id, id, id, id, id, fun _ => id⟩
  · exact keeps_setBd s ep dir par fun w _ => bufAddr_fits w ep dir par

theorem keeps_loadEp0In (n : Nat) : Keeps s (loadEp0In n s) := keeps_fillBuf _ _ _ _ _

theorem keeps_ep0SendIn (n : Nat) : Keeps s (ep0SendIn n s) :=
  ((keeps_loadEp0In s n).trans (keeps_armBd _ _ _ _ _ _)).trans
    ⟨rfl, rfl, rfl, rfl, rfl, id, id, id, id, id, id, id, id, fun _ => id⟩

theorem keeps_bulkArmOut (n : Nat) : Keeps s (bulkArmOut n s) := keeps_rearmNext _ _ _ _ _

theorem keeps_bulkArmIn (n : Nat) : Keeps s (bulkArmIn n s) := keeps_rearmNext _ _ _ _ _

theorem keeps_loadBulkIn (b : List Byte) : Keeps s (loadBulkIn b s) :=
  ⟨rfl, rfl, rfl, rfl, rfl, id, id, id, id, writeBytes_wf _ _, id, id, id, fun _ => id⟩

theorem keeps_setAddresses : Keeps s (setAddresses ep dir s) :=
  keeps_forParities _ _ _ _ (fun p t => keeps_writeAddress t _ _ p)

end

/-! The Bulk-Only Transport engine. -/

section
variable (s : State)

theorem keeps_setBotState (b : BotState) : Keeps s (setBotState b s) :=
  ⟨rfl, rfl, rfl, rfl, rfl, id, id, id, id, id, id, id, id, fun _ => id⟩

theorem keeps_setResidue (r : Word) : Keeps s (setResidue r s) :=
  ⟨rfl, rfl, rfl, rfl, rfl, id, id, id, id, id, id, id, id, fun _ => id⟩

theorem keeps_setStatus (c : CswStatus) : Keeps s (setStatus c s) :=
  ⟨rfl, rfl, rfl, rfl, rfl, id, id, id, id, id, id, id, id, fun _ => id⟩

theorem keeps_stallAndWait (dir : Dir) : Keeps s (stallAndWait dir s) :=
  (keeps_stallEp s (s.bulkEp dir) dir).trans ⟨rfl, rfl, rfl, rfl, rfl, id, id, id, id, id, id, id, id, fun _ => id⟩

theorem keeps_senseOnComplete : Keeps s (senseOnComplete s) := by
  unfold senseOnComplete
  split
  · exact ⟨rfl, rfl, rfl, rfl, rfl, id, id, id, id, id, id, id, id, fun _ => id⟩
  · exact .refl s

theorem keeps_loadCsw : Keeps s (loadCsw s) := keeps_loadBulkIn _ _

theorem keeps_sendCsw : Keeps s (sendCsw s) :=
  ((keeps_senseOnComplete s).trans (keeps_loadCsw _)).trans ((keeps_bulkArmIn _ _).trans (keeps_setBotState _ _))

theorem keeps_noDataCsw : Keeps s (noDataCsw s) := (keeps_setBotState s _).trans (keeps_sendCsw _)

theorem keeps_cswComplete : Keeps s (cswComplete s) := (keeps_bulkArmOut s _).trans (keeps_setBotState _ _)

theorem keeps_loadChunk (n : Nat) : Keeps s (loadChunk n s) := by
  unfold loadChunk
  split
  · exact (keeps_loadBulkIn s _).trans ⟨rfl, rfl, rfl, rfl, rfl, id, id, id, id, id, id, id, id, fun _ => id⟩
  · exact keeps_loadBulkIn s _
  · exact (keeps_loadBulkIn s _).trans ⟨rfl, rfl, rfl, rfl, rfl, id, id, id, id, id, id, id, id, fun _ => id⟩

theorem keeps_countDown (n : Nat) : Keeps s (countDown n s) :=
  ⟨rfl, rfl, rfl, rfl, rfl, id, id, id, id, id, id, id, id, fun _ => id⟩

theorem keeps_sendInChunk : Keeps s (sendInChunk s) :=
  ((keeps_loadChunk s _).trans (keeps_bulkArmIn _ _)).trans ((keeps_countDown _ _).trans (keeps_setBotState _ _))

theorem keeps_startIn (src : Src) (total : Word) (act : EndAction) : Keeps s (startIn src total act s) :=
  Keeps.trans (t := { s with bot := { s.bot with src := src, xferRemaining := total, endAction := act, respPtr := 0 } })
    ⟨rfl, rfl, rfl, rfl, rfl, id, id, id, id, id, id, id, id, fun _ => id⟩ (keeps_sendInChunk _)

theorem keeps_endOfDataIn : Keeps s (endOfDataIn s) := by
  unfold endOfDataIn
  split
  · exact keeps_stallAndWait _ _
  · exact keeps_sendCsw _

theorem keeps_startOut (total : Word) (act : EndAction) : Keeps s (startOut total act s) :=
  (Keeps.trans (s := s) (t := { s with bot := { s.bot with xferRemaining := total, endAction := act } })
    ⟨rfl, rfl, rfl, rfl, rfl, id, id, id, id, id, id, id, id, fun _ => id⟩ (keeps_bulkArmOut _ _)).trans
    (keeps_setBotState _ _)

theorem keeps_writeChunk (b : List Byte) : Keeps s (writeChunk b s) := by
  unfold writeChunk
  split
  · exact ⟨rfl, rfl, rfl, rfl, rfl, id, id, id, id, id, id, putFrom_wf _ _, id, fun _ => id⟩
  · refine ⟨rfl, rfl, rfl, rfl, rfl, id, id, id, id, id, id, ?_, id, fun _ => id⟩
    intro h
    dsimp only
    split
    · exact putFrom_wf _ _ h
    · exact h

theorem keeps_storeChunk (par : Parity) (n : Nat) : Keeps s (storeChunk par n s) := by
  unfold storeChunk
  split
  · exact .refl s
  · exact (keeps_writeChunk s _).trans ⟨rfl, rfl, rfl, rfl, rfl, id, id, id, id, id, id, id, id, fun _ => id⟩

theorem keeps_dataOutChunk (par : Parity) (n : Nat) : Keeps s (dataOutChunk par n s) := by
  have h := (keeps_storeChunk s par n).trans (keeps_countDown _ n)
  unfold dataOutChunk
  dsimp only
  split
  · split
    · exact h.trans (keeps_stallAndWait _ _)
    · exact h.trans (keeps_sendCsw _)
  · exact h.trans (keeps_bulkArmOut _ _)

theorem keeps_case1 : Keeps s (case1 s) := (keeps_setResidue s _).trans (keeps_noDataCsw _)

theorem keeps_case2 : Keeps s (case2 s) := ((keeps_setStatus s _).trans (keeps_setResidue _ _)).trans (keeps_noDataCsw _)

theorem keeps_case3 : Keeps s (case3 s) := keeps_case2 s

theorem keeps_case4 : Keeps s (case4 s) := (keeps_setResidue s _).trans (keeps_startIn _ _ _ _)

theorem keeps_case5 (d : Word) (src : Src) : Keeps s (case5 d src s) := (keeps_setResidue s _).trans (keeps_startIn _ _ _ _)

theorem keeps_case6 (d : Word) (src : Src) : Keeps s (case6 d src s) := (keeps_setResidue s _).trans (keeps_startIn _ _ _ _)

theorem keeps_case7 (src : Src) : Keeps s (case7 src s) :=
  ((keeps_setStatus s _).trans (keeps_setResidue _ _)).trans (keeps_startIn _ _ _ _)

theorem keeps_case8 : Keeps s (case8 s) :=
  ((keeps_setStatus s _).trans (keeps_setResidue _ _)).trans (keeps_startIn _ _ _ _)

theorem keeps_case9 : Keeps s (case9 s) := (keeps_setResidue s _).trans (keeps_stallAndWait _ _)

theorem keeps_case10 : Keeps s (case10 s) :=
  ((keeps_setStatus s _).trans (keeps_setResidue _ _)).trans (keeps_stallAndWait _ _)

theorem keeps_case11 (d : Word) : Keeps s (case11 d s) := (keeps_setResidue s _).trans (keeps_startOut _ _ _)

theorem keeps_case12 (d : Word) : Keeps s (case12 d s) := (keeps_setResidue s _).trans (keeps_startOut _ _ _)

theorem keeps_case13 : Keeps s (case13 s) := keeps_case10 s

theorem keeps_arbitrate (e : Expect) (d : Word) (src : Src) : Keeps s (arbitrate e d src s) := by
  unfold arbitrate
  split
  · split
    · exact keeps_case1 s
    · split
      · exact keeps_case4 s
      · exact keeps_case9 s
  · split
    · exact keeps_case2 s
    · split
      · split
        · exact keeps_case5 s _ _
        · split
          · exact keeps_case6 s _ _
          · exact keeps_case7 s _
      · exact keeps_case10 s
  · split
    · exact keeps_case3 s
    · split
      · exact keeps_case8 s
      · split
        · exact keeps_case11 s _
        · split
          · exact keeps_case12 s _
          · exact keeps_case13 s

theorem keeps_failStage : Keeps s (failStage s) := by
  unfold failStage
  split
  · exact keeps_noDataCsw s
  · exact keeps_stallAndWait s _

theorem keeps_failCommand (e : Expect) (key : BitVec 4) (asc ascq : Byte) : Keeps s (failCommand e key asc ascq s) :=
  ((Keeps.trans (s := s) (t := { s with sense := ⟨key, asc, ascq⟩ })
    ⟨rfl, rfl, rfl, rfl, rfl, id, id, id, id, id, id, id, id, fun _ => id⟩ (keeps_setStatus _ _)).trans
    (keeps_setResidue _ _)).trans (keeps_failStage _)

theorem keeps_phaseFail : Keeps s (phaseFail s) :=
  ((keeps_setStatus s _).trans (keeps_setResidue _ _)).trans (keeps_failStage _)

theorem keeps_invalidCbw : Keeps s (invalidCbw s) :=
  ((keeps_stallEp s _ _).trans (keeps_stallEp _ _ _)).trans (keeps_setBotState _ _)

theorem keeps_botClearHalt (i : Nat) (ep : Ep) (dir : Dir) : Keeps s (botClearHalt i ep dir s) := by
  unfold botClearHalt
  split
  · exact keeps_stallEp s _ _
  · split
    · exact Keeps.trans (t := { s with bot := { s.bot with stalled := none } })
        ⟨rfl, rfl, rfl, rfl, rfl, id, id, id, id, id, id, id, id, fun _ => id⟩ (keeps_sendCsw _)
    · exact .refl s
  · split
    · exact keeps_bulkArmOut s _
    · exact .refl s
  all_goals exact .refl s

theorem keeps_clearBot : Keeps s (clearBot s) :=
  ⟨rfl, rfl, rfl, rfl, rfl, id, fun _ => rfl, fun _ => rfl, fun _ => Nat.zero_le _, id, id, id, id, fun _ => id⟩

theorem keeps_readyBulkIn : Keeps s (readyBulkIn s) := by
  unfold readyBulkIn
  split
  · exact .refl s
  · exact keeps_forParities _ _ _ _ (fun p t => keeps_reclaim t _ _ p)

theorem keeps_readyBulkOut : Keeps s (readyBulkOut s) := by
  unfold readyBulkOut
  split
  · exact .refl s
  · exact keeps_bulkArmOut s _

theorem keeps_setReply (r : FnReply) : Keeps s (setReply r s) :=
  ⟨rfl, rfl, rfl, rfl, rfl, id, id, id, id, id, id, id, id, fun _ => id⟩

theorem keeps_bomsr : Keeps s (bomsr s) :=
  ((keeps_clearBot s).trans (keeps_readyBulkIn _)).trans ((keeps_readyBulkOut _).trans (keeps_setReply _ _))

theorem keeps_getMaxLun : Keeps s (getMaxLun s) :=
  ⟨rfl, rfl, rfl, rfl, rfl, id, id, id, id, id, writeBytes_wf _ _, id, id, fun _ => id⟩

theorem keeps_bulkCtrl : Keeps s (bulkCtrl s) := by
  unfold bulkCtrl
  split
  · exact keeps_setCtrl s _ _
  · exact (keeps_setCtrl s _ _).trans (keeps_setCtrl _ _ _)

theorem keeps_sense {s t : State} (k : Keeps s t) (x : Sense) : Keeps s { t with sense := x } :=
  k.trans ⟨rfl, rfl, rfl, rfl, rfl, id, id, id, id, id, id, id, id, fun _ => id⟩

theorem keeps_botInit : Keeps s (botInit s) :=
  ((keeps_sense (keeps_clearBot s) _).trans ((keeps_setAddresses _ _ _).trans (keeps_setAddresses _ _ _))).trans
    ((keeps_bulkCtrl _).trans (keeps_bulkArmOut _ _))

theorem keepsR_botEnqueue (ep : Ep) (dir : Dir) (par : Parity) (n : Nat) : KeepsR s (botEnqueue ep dir par n s) := by
  unfold botEnqueue
  split
  · split
    · intro t ht; cases ht
    · rename_i h
      exact keepsR_next ⟨rfl, rfl, rfl, rfl, rfl, id, id, id,
        fun _ => by simp only [List.length_append, List.length_cons, List.length_nil]; omega, id, id, id, id, fun _ => id⟩
  · exact keepsR_next (.refl s)

/-! The SCSI responder and the intake. -/

theorem length_fit (n : Nat) (b : List Byte) : (fit n b).length = n := by simp [fit]

theorem keeps_respond (b : List Byte) (d : Nat) : Keeps s (respond b d s) :=
  Keeps.trans (t := { s with bot := { s.bot with resp := fit 36 (b.take d ++ s.bot.resp.drop d) } })
    ⟨rfl, rfl, rfl, rfl, rfl, id, id, fun _ => length_fit _ _, id, id, id, id, id, fun _ => id⟩
    (keeps_arbitrate _ _ _ _)

theorem keeps_testUnitReady : Keeps s (testUnitReady s) := by
  unfold testUnitReady
  split
  · exact keeps_arbitrate s _ _ _
  · exact keeps_failCommand s _ _ _ _

theorem keeps_requestSense (a : Byte) : Keeps s (requestSense a s) :=
  (keeps_sense (.refl s) noSense).trans (keeps_respond _ _ _)

theorem keeps_readCapacity10 (lba : Word) (pmi : Bool) : Keeps s (readCapacity10 lba pmi s) := by
  unfold readCapacity10
  split
  · exact keeps_phaseFail s
  · exact keeps_respond s _ _

theorem keeps_rwLoad (lba : Word) (len : Half) : Keeps s (rwLoad lba len s) :=
  ⟨rfl, rfl, rfl, rfl, rfl, id, id, id, id, id, id, id, id, fun _ => id⟩

theorem keeps_read10 (lba : Word) (len : Half) : Keeps s (read10 lba len s) := by
  unfold read10
  dsimp only
  split
  · exact (keeps_rwLoad s lba len).trans (keeps_failCommand _ _ _ _ _)
  · exact (keeps_rwLoad s lba len).trans (keeps_arbitrate _ _ _ _)

theorem keeps_write10 (lba : Word) (len : Half) : Keeps s (write10 lba len s) := by
  unfold write10
  dsimp only
  split
  · exact (keeps_rwLoad s lba len).trans (keeps_failCommand _ _ _ _ _)
  · split
    · exact (keeps_rwLoad s lba len).trans (keeps_failCommand _ _ _ _ _)
    · exact (keeps_rwLoad s lba len).trans (keeps_arbitrate _ _ _ _)

theorem keeps_scsiDispatch : Keeps s (scsiDispatch s) := by
  unfold scsiDispatch
  split
  · exact keeps_testUnitReady s
  · exact keeps_requestSense s _
  · exact keeps_respond s _ _
  · exact keeps_respond s _ _
  · exact keeps_readCapacity10 s _ _
  · exact keeps_read10 s _ _
  · split
    · exact keeps_write10 s _ _
    · exact keeps_failCommand s _ _ _ _
  · exact keeps_failCommand s _ _ _ _

theorem keeps_loadCbw (b : List Byte) : Keeps s (loadCbw b s) :=
  ⟨rfl, rfl, rfl, rfl, rfl, id, fun _ => length_fit _ _, id, id, id, id, id, id, fun _ => id⟩

theorem keeps_acceptCbw (b : List Byte) : Keeps s (acceptCbw b s) := (keeps_loadCbw s b).trans (keeps_scsiDispatch _)

theorem keeps_handleCbw (par : Parity) (n : Nat) : Keeps s (handleCbw par n s) := by
  unfold handleCbw
  split
  · exact keeps_invalidCbw s
  · exact keeps_acceptCbw s _

theorem keeps_botStep (e : QEntry) : Keeps s (botStep e s) := by
  unfold botStep
  split
  · exact keeps_handleCbw s _ _
  · exact keeps_dataOutChunk s _ _
  · exact keeps_sendInChunk s
  · exact keeps_endOfDataIn s
  · exact keeps_endOfDataIn s
  · exact keeps_cswComplete s
  all_goals exact .refl s

theorem keeps_serveHead : Keeps s (serveHead s) := by
  unfold serveHead
  split
  · exact .refl s
  · rename_i e r hq
    exact Keeps.trans (t := { s with bot := { s.bot with q := r } })
      ⟨rfl, rfl, rfl, rfl, rfl, id, id, id, fun h => by rw [hq] at h; simp only [List.length_cons] at h ⊢; omega, id, id, id,
        id, fun _ => id⟩ (keeps_botStep _ _)

theorem keeps_drain (k : Nat) : Keeps s (drain k s) := by
  induction k generalizing s with
  | zero => exact .refl s
  | succ k ih => exact (keeps_serveHead s).trans (ih _)

theorem keeps_msdTasks : Keeps s (msdTasks s) := keeps_drain s _

end

end Sys2Proof.Machine
end

