-- ==== Sys2Proof/Laws/KeepsStep.lean ====
section
/-! SUPPORT. What the function port, the control engine, the events, the environment and a whole step keep. -/

namespace Sys2Proof.Machine

section
variable (s : State)

/-! The function port. -/

theorem keeps_refuse : Keeps s (refuse s) := keeps_setReply s _

theorem keeps_accept : Keeps s (accept s) := keeps_setReply s _

theorem ownEp_ne {c : Config} {ep : Ep} (h : ownEp c ep = true) : ep ≠ 0 := by
  simp only [ownEp, Bool.and_eq_true, bne_iff_ne] at h
  exact h.1.1

theorem ownDir_ne {c : Config} {ep : Ep} {dir : Dir} (h : ownDir c ep dir = true) : ep ≠ 0 := by
  simp only [ownDir, Bool.and_eq_true] at h
  exact ownEp_ne h.1

theorem ownBd_ne {c : Config} {ep : Ep} {dir : Dir} {par : Parity} (h : ownBd c ep dir par = true) : ep ≠ 0 := by
  simp only [ownBd, Bool.and_eq_true] at h
  exact ownDir_ne h.1

theorem keeps_fnFill (ep : Ep) (dir : Dir) (par : Parity) (b : List Byte) : Keeps s (fnFill ep dir par b s) := by
  unfold fnFill
  split
  exacts [keeps_fillOwn _ _ _ _ _, .refl s]

theorem keeps_fnCall (i : Bool) (f : FnCall) : Keeps s (fnCall i s f) := by
  unfold fnCall
  cases f with
  | reclaim ep dir par => dsimp only; split; exacts [keeps_reclaim _ _ _ _, .refl s]
  | armOut ep par tog n => dsimp only; split; exacts [keeps_armBd _ _ _ _ _ _, .refl s]
  | armIn ep par tog n => dsimp only; split; exacts [keeps_armBd _ _ _ _ _ _, .refl s]
  | rearmOut ep par tog n => dsimp only; split; exacts [keeps_rearm _ _ _ _ _ _, .refl s]
  | rearmIn ep par tog n => dsimp only; split; exacts [keeps_rearm _ _ _ _ _ _, .refl s]
  | stallEp ep dir => dsimp only; split; exacts [keeps_stallEp _ _ _, .refl s]
  | setCtrl ep c => dsimp only; split; exacts [keeps_setCtrl _ _ _, .refl s]
  | fill ep dir par b => exact keeps_fnFill _ _ _ _ _

theorem keeps_fnCalls (i : Bool) (l : List FnCall) : Keeps s (fnCalls i l s) :=
  keeps_foldl _ _ (fun t f => keeps_fnCall t i f) s

theorem keeps_fnWrite (w : Addr × Byte) : Keeps s (fnWrite s w) := by
  unfold fnWrite
  split
  · exact ⟨rfl, rfl, rfl, rfl, rfl, id, id, id, id, id, memWrite_wf _ _, id, id, fun _ => id⟩
  · exact .refl s

theorem keeps_addressOwn : Keeps s (addressOwn s) :=
  keeps_foldl _ _ (fun t e => by split; exacts [keeps_setAddresses _ _ _, .refl t]) s

theorem keeps_fnRun (i : Bool) (l : List FnCall) (r : List (Addr × Byte)) (n : Nat) : Keeps s (fnRun i l r n s) :=
  ((keeps_fnCalls s _ _).trans (keeps_foldl _ _ (fun t w => keeps_fnWrite t w) _)).trans
    ⟨rfl, rfl, rfl, rfl, rfl, id, id, id, id, id, id, id, id, fun _ => id⟩

theorem keeps_answerHook (i : Bool) (a : FnAnswer) : Keeps s (answerHook i a s) :=
  (keeps_fnRun s _ _ _ _).trans (keeps_setReply _ _)

theorem keeps_oracleHook (h : Hook) (args : List Nat) : Keeps s (oracleHook h args s) := keeps_answerHook s _ _

theorem keeps_oracleInit : Keeps s (oracleInit s) := (keeps_addressOwn s).trans (keeps_answerHook _ _ _)

theorem keeps_quietHook (h : Hook) (args : List Nat) (r : FnReply) : Keeps s (keepReply r (oracleHook h args s)) :=
  (keeps_oracleHook s h args).trans (keeps_setReply _ _)

theorem keeps_mscClassRequest : Keeps s (mscClassRequest s) := by
  unfold mscClassRequest
  split
  · exact keeps_bomsr s
  · split
    · exact keeps_getMaxLun s
    · exact keeps_refuse s

theorem keeps_cdc (c : Cdc) (r : FnReply) : Keeps s (setReply r { s with cdc := c }) :=
  Keeps.trans (t := { s with cdc := c }) ⟨rfl, rfl, rfl, rfl, rfl, id, id, id, id, id, id, id, id, fun _ => id⟩
    (keeps_setReply _ _)

theorem keeps_cdcSetLineCoding : Keeps s (cdcSetLineCoding s) := by
  unfold cdcSetLineCoding
  split
  · exact keeps_refuse s
  · exact keeps_cdc s _ _

theorem keeps_cdcGetLineCoding : Keeps s (cdcGetLineCoding s) := keeps_setReply s _

theorem keeps_cdcSetControlLineState (dtr rts : Bool) : Keeps s (cdcSetControlLineState dtr rts s) := keeps_cdc s _ _

theorem keeps_cdcSendEncapsulated : Keeps s (cdcSendEncapsulated s) := by
  unfold cdcSendEncapsulated
  split
  · exact keeps_refuse s
  · exact keeps_cdc s _ _

theorem keeps_cdcGetEncapsulated : Keeps s (cdcGetEncapsulated s) := keeps_setReply s _

theorem keeps_cdcClassRequest : Keeps s (cdcClassRequest s) := by
  unfold cdcClassRequest
  split
  · exact keeps_cdcSetLineCoding s
  · exact keeps_cdcGetLineCoding s
  · exact keeps_cdcSetControlLineState s _ _
  · exact keeps_cdcSendEncapsulated s
  · exact keeps_cdcGetEncapsulated s
  · exact keeps_refuse s

theorem keeps_cdcOutFinished : Keeps s (cdcOutFinished s) := by
  unfold cdcOutFinished
  split
  · exact Keeps.trans (s := s)
      (t :=
        { s with
          ram := writeBytes s.cfg.addrW s.ram s.cfg.cdc.lineCoding (readBytes s.cfg.addrW s.ram s.cfg.cdc.staging 7)
          cdc := { s.cdc with pending := .none } })
      ⟨rfl, rfl, rfl, rfl, rfl, id, id, id, id, id, writeBytes_wf _ _, id, id, fun _ => id⟩ (keeps_setReply _ _)
  · exact keeps_cdc s _ _
  · exact keeps_refuse s

theorem keeps_ram {m : Memory} (h : memWf s.ram → memWf m) : Keeps s { s with ram := m } :=
  ⟨rfl, rfl, rfl, rfl, rfl, id, id, id, id, id, h, id, id, fun _ => id⟩

theorem keeps_ramCdc {m : Memory} {c : Cdc} (h : memWf s.ram → memWf m) : Keeps s { s with ram := m, cdc := c } :=
  ⟨rfl, rfl, rfl, rfl, rfl, id, id, id, id, id, h, id, id, fun _ => id⟩

theorem keeps_cdcInit : Keeps s (cdcInit s) := by
  unfold cdcInit
  dsimp only
  refine Keeps.trans ?_ (keeps_armBd _ _ _ _ _ _)
  refine Keeps.trans ?_ (keeps_setCtrl _ _ _)
  refine Keeps.trans ?_ (keeps_setCtrl _ _ _)
  refine Keeps.trans ?_ (keeps_setCtrl _ _ _)
  refine Keeps.trans ?_ (keeps_setAddresses _ _ _)
  refine Keeps.trans ?_ (keeps_setAddresses _ _ _)
  refine Keeps.trans ?_ (keeps_setAddresses _ _ _)
  exact keeps_ramCdc s (zeroObjects_wf _)

theorem keeps_cdcTasks (ep : Ep) (dir : Dir) (par : Parity) (n : Nat) : Keeps s (cdcTasks ep dir par n s) := by
  unfold cdcTasks
  split
  · exact ⟨rfl, rfl, rfl, rfl, rfl, id, id, id, id, id, id, id, id, fun _ => id⟩
  · split
    · exact ⟨rfl, rfl, rfl, rfl, rfl, id, id, id, id, id, id, id, id, fun _ => id⟩
    · exact .refl s

theorem keeps_hidGetReport (t r : Byte) : Keeps s (hidGetReport t r s) := by
  unfold hidGetReport
  dsimp only
  split <;> (try split) <;> exact keeps_setReply s _

theorem keeps_hid (h : Hid) : Keeps s { s with hid := h } :=
  ⟨rfl, rfl, rfl, rfl, rfl, id, id, id, id, id, id, id, id, fun _ => id⟩

theorem keeps_takeReport (l : List Nat) (r : Byte) (p : Nat → HidPending) : Keeps s (takeReport l r p s) := by
  unfold takeReport
  dsimp only
  split
  · exact keeps_refuse s
  · split
    · exact keeps_refuse s
    · exact (keeps_hid s _).trans (keeps_setReply _ _)

theorem keeps_hidSetReport (t r : Byte) : Keeps s (hidSetReport t r s) := by
  unfold hidSetReport
  split
  · exact keeps_takeReport s _ _ _
  · exact keeps_takeReport s _ _ _
  · exact keeps_refuse s

theorem keeps_ramHid {m : Memory} {h : Hid} (hm : memWf s.ram → memWf m) : Keeps s { s with ram := m, hid := h } :=
  ⟨rfl, rfl, rfl, rfl, rfl, id, id, id, id, id, hm, id, id, fun _ => id⟩

theorem keeps_commitReport (a : Addr) (n : Nat) : Keeps s (commitReport a n s) :=
  (keeps_ramHid s (writeBytes_wf _ _)).trans (keeps_accept _)

theorem keeps_hidOutFinished : Keeps s (hidOutFinished s) := by
  unfold hidOutFinished
  dsimp only
  split
  · exact keeps_refuse s
  · exact keeps_commitReport s _ _
  · exact keeps_commitReport s _ _

theorem keeps_hidGetIdle (r : Byte) : Keeps s (hidGetIdle r s) := by
  unfold hidGetIdle
  dsimp only
  split <;> exact keeps_setReply s _

theorem keeps_setIdle (d : Byte) (i : Nat) : Keeps s (setIdle d s i) :=
  ⟨rfl, rfl, rfl, rfl, rfl, id, id, id, id, id, memWrite_wf _ _, id, id, fun _ => id⟩

theorem keeps_hidSetIdle (d r : Byte) : Keeps s (hidSetIdle d r s) := by
  unfold hidSetIdle
  dsimp only
  split
  · exact (keeps_foldl _ _ (fun t i => keeps_setIdle t d i) s).trans (keeps_accept _)
  · split
    · exact keeps_refuse s
    · exact (keeps_setIdle s _ _).trans (keeps_accept _)

theorem keeps_hidClassRequest : Keeps s (hidClassRequest s) := by
  unfold hidClassRequest
  dsimp only
  split
  · exact keeps_hidGetReport s _ _
  · split
    · exact keeps_hidSetReport s _ _
    · split
      · exact keeps_hidGetIdle s _
      · split
        · exact keeps_hidSetIdle s _ _
        · exact keeps_refuse s

theorem keeps_hidClassDescriptor : Keeps s (hidClassDescriptor s) := by
  unfold hidClassDescriptor
  dsimp only
  split <;> exact keeps_setReply s _

theorem keeps_hidInit : Keeps s (hidInit s) := by
  unfold hidInit
  dsimp only
  split
  · refine Keeps.trans ?_ (keeps_setCtrl _ _ _)
    refine Keeps.trans ?_ (keeps_setAddresses _ _ _)
    exact ⟨rfl, rfl, rfl, rfl, rfl, id, id, id, id, id,
      zeroObjects_wf _, id, id, fun _ => id⟩
  · refine Keeps.trans ?_ (keeps_armBd _ _ _ _ _ _)
    refine Keeps.trans ?_ (keeps_setCtrl _ _ _)
    refine Keeps.trans ?_ (keeps_setCtrl _ _ _)
    refine Keeps.trans ?_ (keeps_setAddresses _ _ _)
    refine Keeps.trans ?_ (keeps_setAddresses _ _ _)
    exact ⟨rfl, rfl, rfl, rfl, rfl, id, id, id, id, id,
      zeroObjects_wf _, id, id, fun _ => id⟩

theorem keeps_hidTasks (ep : Ep) (dir : Dir) : Keeps s (hidTasks ep dir s) := by
  unfold hidTasks
  split
  · split
    · exact .refl s
    · exact keeps_hid s _
  · exact .refl s

theorem keeps_sofReport (i : Nat) : Keeps s (sofReport s i) := by
  unfold sofReport
  dsimp only
  split
  · exact .refl s
  · exact keeps_hid s _

theorem keeps_hidSof : Keeps s (hidSof s) := keeps_foldl _ _ (fun t i => keeps_sofReport t i) s

/-! The application's turns. -/

theorem keeps_sendOwn (ep : Ep) (b : List Byte) : Keeps s (sendOwn ep b s) :=
  (keeps_fillOwn s _ _ _ _).trans (keeps_armBd _ _ _ _ _ _)

theorem keeps_serialState (dcd dsr : Bool) : Keeps s (serialState dcd dsr s) :=
  ⟨rfl, rfl, rfl, rfl, rfl, id, id, id, id, id, id, id, id, fun _ => id⟩

theorem keeps_serialNotify : Keeps s (serialNotify s) := by
  unfold serialNotify
  dsimp only
  split
  · exact .refl s
  · split
    exacts [.refl s, keeps_sendOwn s _ _]

theorem keeps_cdcSend (b : List Byte) : Keeps s (cdcSend b s) := by
  unfold cdcSend
  dsimp only
  split
  · exact .refl s
  · exact (keeps_sendOwn s _ _).trans
      ⟨rfl, rfl, rfl, rfl, rfl, id, id, id, id, id, id, id, id, fun _ => id⟩

theorem keeps_cdcReceive : Keeps s (cdcReceive s) := by
  unfold cdcReceive
  dsimp only
  split
  · exact ⟨rfl, rfl, rfl, rfl, rfl, id, id, id, id, id, id, id, id, fun _ => id⟩
  · exact (keeps_armBd s _ _ _ _ _).trans ⟨rfl, rfl, rfl, rfl, rfl, id, id, id, id, id, id, id, id, fun _ => id⟩

theorem keeps_sendReportAt (i : Nat) (b : List Byte) : Keeps s (sendReportAt i b s) := by
  unfold sendReportAt
  dsimp only
  split
  · exact .refl s
  · refine Keeps.trans ?_ (keeps_hid _ _)
    exact (keeps_ram s (writeBytes_wf _ _)).trans (keeps_sendOwn _ _ _)

theorem keeps_withReport (rid : Byte) {f : Nat → State → State} (hf : ∀ i t, Keeps t (f i t)) :
    Keeps s (withReport rid f s) := by
  unfold withReport
  split
  · exact .refl s
  · exact hf _ s

theorem keeps_pollReport (rid : Byte) : Keeps s (pollReport rid s) :=
  keeps_withReport s rid fun i t => by
    split
    · exact keeps_sendReportAt t i _
    · exact .refl t

theorem keeps_runApp (a : AppCall) : Keeps s (runApp a s) := by
  unfold runApp
  split <;> (try split) <;>
    first
      | exact .refl s
      | exact keeps_withReport s _ (fun i t => keeps_sendReportAt t i _)
      | exact keeps_pollReport s _
      | exact keeps_withReport s _ (fun i t => keeps_hid t _)
      | exact keeps_hid s _
      | exact keeps_cdcSend s _
      | exact keeps_cdcReceive s
      | exact keeps_serialState s _ _
      | exact keeps_serialNotify s
      | exact keeps_fnFill s _ _ _ _
      | exact keeps_fnRun s _ _ _ _

theorem keeps_classRequest : Keeps s (classRequest s) := by
  unfold classRequest
  split
  · exact keeps_mscClassRequest s
  · exact keeps_cdcClassRequest s
  · exact keeps_hidClassRequest s
  · exact keeps_oracleHook s _ _

theorem keeps_getClassDescriptor : Keeps s (getClassDescriptor s) := by
  unfold getClassDescriptor
  split
  · exact keeps_refuse s
  · exact keeps_refuse s
  · exact keeps_hidClassDescriptor s
  · exact keeps_oracleHook s _ _

theorem keeps_fnInit : Keeps s (fnInit s) := by
  unfold fnInit
  split
  · exact keeps_botInit s
  · exact keeps_cdcInit s
  · exact keeps_hidInit s
  · exact (keeps_oracleInit s).trans (keeps_setReply _ _)

theorem keepsR_fnTasks (ep : Ep) (dir : Dir) (par : Parity) (n : Nat) : KeepsR s (fnTasks ep dir par n s) := by
  unfold fnTasks
  split
  · exact keepsR_botEnqueue s _ _ _ _
  · exact keepsR_next (keeps_cdcTasks s _ _ _ _)
  · exact keepsR_next (keeps_hidTasks s _ _)
  · exact keepsR_next (keeps_quietHook s _ _ _)

theorem keeps_clearHalt (i : Nat) (ep : Ep) (dir : Dir) : Keeps s (clearHalt i ep dir s) := by
  unfold clearHalt
  split
  · exact keeps_botClearHalt s _ _ _
  all_goals exact keeps_quietHook s _ _ _

theorem keeps_setInterfaceHook (alt iface : Byte) : Keeps s (setInterfaceHook alt iface s) := by
  unfold setInterfaceHook
  split
  · split <;> exact keeps_setReply s _
  all_goals exact keeps_oracleHook s _ _

theorem keeps_getInterfaceHook (iface : Byte) : Keeps s (getInterfaceHook iface s) := by
  unfold getInterfaceHook
  split
  · split <;> exact keeps_setReply s _
  all_goals exact keeps_oracleHook s _ _

theorem keeps_outControlFinished : Keeps s (outControlFinished s) := by
  unfold outControlFinished
  split
  · exact keeps_refuse s
  · exact keeps_cdcOutFinished s
  · exact keeps_hidOutFinished s
  · exact keeps_oracleHook s _ _

theorem keeps_interfaceEndpoints (iface : Byte) : Keeps s (interfaceEndpoints iface s) := by
  unfold interfaceEndpoints
  split
  · exact keeps_setReply s _
  · exact keeps_setReply s _
  · exact keeps_setReply s _
  · exact keeps_oracleHook s _ _

theorem keeps_fnSof : Keeps s (fnSof s) := by
  unfold fnSof
  split
  · exact .refl s
  · exact .refl s
  · exact keeps_hidSof s
  · exact keeps_quietHook s _ _ _

/-! The control engine. -/

theorem keeps_ctl (c : Ctl) (g : Stage) : Keeps s { s with ctl := c, stage := g } :=
  ⟨rfl, rfl, rfl, rfl, rfl, id, id, id, id, id, id, id, id, fun _ => id⟩

theorem keeps_dataInNext : Keeps s (dataInNext s) := by
  unfold dataInNext
  split
  · exact keeps_ep0SendIn s _
  · split
    · exact Keeps.trans (keeps_ctl s _ s.stage) (keeps_ep0SendIn _ 0)
    · exact (keeps_ep0ArmStatusOut s).stage _

theorem keeps_startDataIn (src : Source) (ptr : Addr) (d : Nat) : Keeps s (startDataIn src ptr d s) := by
  unfold startDataIn
  dsimp only
  split
  · exact keeps_statusIn s
  · exact Keeps.trans (keeps_ctl s _ _) (keeps_dataInNext _)

theorem keeps_startDataOut (a : Addr) (n : Nat) : Keeps s (startDataOut a n s) := by
  unfold startDataOut
  split
  · exact keeps_statusIn s
  · exact Keeps.trans (keeps_ctl s _ _) (keeps_ep0ArmDataOut _)

theorem keeps_storeDataOut (par : Parity) (n : Nat) : Keeps s (storeDataOut par n s) :=
  ⟨rfl, rfl, rfl, rfl, rfl, id, id, id, id, id, writeBytes_wf _ _, id, id, fun _ => id⟩

theorem keeps_finishDataOut : Keeps s (finishDataOut s) := by
  unfold finishDataOut
  split
  · exact keeps_statusIn s
  · exact keeps_requestError s

theorem keeps_dataOutStep (par : Parity) (n : Nat) : Keeps s (dataOutStep par n s) := by
  unfold dataOutStep
  dsimp only
  split
  · exact ((keeps_storeDataOut s par n).trans (keeps_ep0ArmSetup _)).trans
      ((keeps_outControlFinished _).trans (keeps_finishDataOut _))
  · exact (keeps_storeDataOut s par n).trans (keeps_ep0ArmDataOut _)

theorem keeps_commitAddress : Keeps s (commitAddress s) := by
  unfold commitAddress
  split
  · exact ⟨rfl, rfl, rfl, rfl, rfl, id, id, id, id, id, id, id, id, fun _ => id⟩
  · exact .refl s

theorem keeps_statusComplete : Keeps s (statusComplete s) :=
  ((keeps_commitAddress s).trans (keeps_ep0ArmSetup _)).stage _

theorem keeps_respondStage : Keeps s (respondStage s) := by
  unfold respondStage
  split
  · split
    · exact keeps_statusIn s
    · exact keeps_startDataIn s _ _ _
    · exact keeps_startDataOut s _ _
  · exact keeps_requestError s

theorem keeps_classDispatch : Keeps s (classDispatch s) := (keeps_classRequest s).trans (keeps_respondStage _)

/-! The standard requests. -/

theorem keeps_setScratch (b : List Byte) : Keeps s (s.setScratch b) := keeps_ram s (writeBytes_wf _ _)

theorem keeps_answerScratch (b : List Byte) : Keeps s (answerScratch b s) :=
  (keeps_setScratch s b).trans (keeps_startDataIn _ _ _ _)

theorem keeps_getStatusDevice : Keeps s (getStatusDevice s) := keeps_answerScratch s _

theorem keeps_getStatusInterface (i : Byte) : Keeps s (getStatusInterface i s) := by
  unfold getStatusInterface
  split
  · exact keeps_requestError s
  · exact keeps_answerScratch s _

theorem keeps_getStatusEndpoint (ep : Ep) (dir : Dir) : Keeps s (getStatusEndpoint ep dir s) := by
  unfold getStatusEndpoint
  split
  · exact keeps_requestError s
  · exact keeps_answerScratch s _

theorem keeps_remoteWakeup (v : Bool) : Keeps s { s with remoteWakeup := v } :=
  ⟨rfl, rfl, rfl, rfl, rfl, id, id, id, id, id, id, id, id, fun _ => id⟩

theorem keeps_clearFeatureDevice (x : Half) : Keeps s (clearFeatureDevice x s) := by
  unfold clearFeatureDevice
  split
  · exact (keeps_remoteWakeup s _).trans (keeps_statusIn _)
  · exact keeps_requestError s

theorem keeps_setFeatureDevice (x : Half) : Keeps s (setFeatureDevice x s) := by
  unfold setFeatureDevice
  split
  · exact (keeps_remoteWakeup s _).trans (keeps_statusIn _)
  · exact keeps_requestError s

theorem keeps_clearFeatureEndpoint (x : Half) (ep : Ep) (dir : Dir) : Keeps s (clearFeatureEndpoint x ep dir s) := by
  unfold clearFeatureEndpoint
  split
  · exact keeps_requestError s
  · exact (keeps_unstallEp s _ _).trans ((keeps_clearHalt _ _ _ _).trans (keeps_statusIn _))

theorem keeps_setFeatureEndpoint (x : Half) (ep : Ep) (dir : Dir) : Keeps s (setFeatureEndpoint x ep dir s) := by
  unfold setFeatureEndpoint
  split
  · exact keeps_requestError s
  · exact (keeps_stallEp s _ _).trans (keeps_statusIn _)

theorem keeps_setAddress (a : DevAddr) : Keeps s (setAddress a s) :=
  Keeps.trans (s := s) (t := { s with pendingAddress := a, addressPending := true })
    ⟨rfl, rfl, rfl, rfl, rfl, id, id, id, id, id, id, id, id, fun _ => id⟩ (keeps_statusIn _)

theorem keeps_getDescDevice : Keeps s (getDescDevice s) := keeps_startDataIn s _ _ _

theorem keeps_getDescConfig (i : Byte) : Keeps s (getDescConfig i s) := by
  unfold getDescConfig
  split
  · exact keeps_requestError s
  · exact keeps_startDataIn s _ _ _

theorem keeps_getDescString (i : Byte) : Keeps s (getDescString i s) := by
  unfold getDescString
  split
  · exact keeps_requestError s
  · exact keeps_startDataIn s _ _ _

theorem keeps_getDescClass : Keeps s (getDescClass s) := by
  unfold getDescClass
  dsimp only
  split
  · split
    · exact (keeps_getClassDescriptor s).trans (keeps_startDataIn _ _ _ _)
    · exact (keeps_getClassDescriptor s).trans (keeps_requestError _)
    · exact (keeps_getClassDescriptor s).trans (keeps_requestError _)
  · exact (keeps_getClassDescriptor s).trans (keeps_requestError _)

theorem keeps_getDescriptor (t i : Byte) : Keeps s (getDescriptor t i s) := by
  unfold getDescriptor
  split
  · exact keeps_getDescDevice s
  · exact keeps_getDescConfig s _
  · exact keeps_getDescString s _
  · exact keeps_getDescClass s

theorem keeps_getConfiguration : Keeps s (getConfiguration s) := keeps_answerScratch s _

theorem keeps_device {s t : State} (k : Keeps s t) (d : DeviceState) (c : Byte) :
    Keeps s { t with deviceState := d, currentConfiguration := c } :=
  k.trans ⟨rfl, rfl, rfl, rfl, rfl, id, id, id, id, id, id, id, id, fun _ => id⟩

theorem keeps_setConfigNonzero (v : Byte) : Keeps s (setConfigNonzero v s) := by
  unfold setConfigNonzero
  split
  · exact keeps_requestError s
  · have h := keeps_device ((keeps_ppReset s).trans (keeps_clearNonzero _)) s.deviceState v
    exact (keeps_device (h.trans (keeps_fnInit _)) .configured _).trans (keeps_statusIn _)

theorem keeps_setConfigZero : Keeps s (setConfigZero s) := by
  unfold setConfigZero
  split
  · exact (keeps_device (.refl s) _ _).trans (keeps_statusIn _)
  · exact keeps_requestError s

theorem keeps_setConfiguration (v : Byte) : Keeps s (setConfiguration v s) := by
  unfold setConfiguration
  split
  · exact keeps_setConfigZero s
  · exact keeps_setConfigNonzero s v

theorem keeps_getInterface (i : Byte) : Keeps s (getInterface i s) := by
  unfold getInterface
  dsimp only
  split
  · exact (keeps_getInterfaceHook s i).trans (keeps_answerScratch _ _)
  · exact (keeps_getInterfaceHook s i).trans (keeps_requestError _)

theorem keeps_clearToggles (l : List (Ep × Dir)) : Keeps s (clearToggles l s) :=
  keeps_foldl _ _ (fun t _ => keeps_setToggle t _ _ _) s

theorem keeps_setInterface (a i : Byte) : Keeps s (setInterface a i s) := by
  unfold setInterface
  dsimp only
  split
  · exact ((keeps_setInterfaceHook s a i).trans (keeps_interfaceEndpoints _ _)).trans
      ((keeps_clearToggles _ _).trans (keeps_statusIn _))
  · exact (keeps_setInterfaceHook s a i).trans (keeps_requestError _)

theorem keeps_getStatus : Keeps s (getStatus s) := by
  unfold getStatus
  split
  · exact keeps_getStatusDevice s
  · exact keeps_getStatusInterface s _
  · exact keeps_getStatusEndpoint s _ _
  · exact keeps_requestError s

theorem keeps_clearFeature : Keeps s (clearFeature s) := by
  unfold clearFeature
  split
  · exact keeps_clearFeatureDevice s _
  · exact keeps_clearFeatureEndpoint s _ _ _
  · exact keeps_requestError s

theorem keeps_setFeature : Keeps s (setFeature s) := by
  unfold setFeature
  split
  · exact keeps_setFeatureDevice s _
  · exact keeps_setFeatureEndpoint s _ _ _
  · exact keeps_requestError s

theorem keeps_standardDispatch : Keeps s (standardDispatch s) := by
  unfold standardDispatch
  split
  · exact keeps_getStatus s
  · exact keeps_clearFeature s
  · exact keeps_setFeature s
  · exact keeps_setAddress s _
  · exact keeps_getDescriptor s _ _
  · exact keeps_requestError s
  · exact keeps_getConfiguration s
  · exact keeps_setConfiguration s _
  · exact keeps_getInterface s _
  · exact keeps_setInterface s _ _
  · exact keeps_requestError s
  · exact keeps_requestError s

theorem keeps_typeDispatch : Keeps s (typeDispatch s) := by
  unfold typeDispatch
  split
  · exact keeps_standardDispatch s
  · exact keeps_classDispatch s
  · exact keeps_requestError s

/-! Transactions. -/

theorem keeps_setupSteps (par : Parity) : Keeps s (setupSteps par s) := by
  have h1 : Keeps s (copySetup par s) :=
    ⟨rfl, rfl, rfl, rfl, rfl, fun _ => by simp [copySetup, readBytes], id, id, id, id, id, id, id, fun _ => id⟩
  have h3 : ∀ t, Keeps t (enablePackets t) := fun t =>
    ⟨rfl, rfl, rfl, rfl, rfl, id, id, id, id, id, id, id, id, fun _ => id⟩
  have h5 : ∀ t, Keeps t (abandonTransfer t) := fun t =>
    ⟨rfl, rfl, rfl, rfl, rfl, id, id, id, id, id, id, id, id, fun _ => id⟩
  exact ((h1.trans (keeps_cancelEp0In _)).trans ((h3 _).trans (keeps_ep0ArmSetup _))).trans
    (((keeps_setToggle _ _ _ _).trans (keeps_setToggle _ _ _ _)).trans (h5 _))

theorem keeps_setupHandler (par : Parity) : Keeps s (setupHandler par s) :=
  (keeps_setupSteps s par).trans (keeps_typeDispatch _)

theorem keeps_ep0Dispatch (dir : Dir) (pid : BitVec 4) (par : Parity) (n : Nat) :
    Keeps s (ep0Dispatch dir pid par n s) := by
  unfold ep0Dispatch
  split
  · split
    · exact keeps_setupHandler s par
    · split
      · exact keeps_dataOutStep s _ _
      · exact keeps_statusComplete s
      · exact keeps_statusComplete s
      · exact keeps_ep0ArmSetup s
      · exact keeps_ep0ArmSetup s
  · split
    · exact keeps_dataInNext s
    · exact keeps_statusComplete s
    all_goals exact .refl s

theorem keeps_ev (e : Events) : Keeps s { s with ev := e } :=
  ⟨rfl, rfl, rfl, rfl, rfl, id, id, id, id, id, id, id, id, fun _ => id⟩

theorem keepsR_of {s t : State} {r : Result} (k : Keeps s t) (h : KeepsR t r) : KeepsR s r :=
  fun u hu => k.trans (h u hu)

theorem keepsR_trnService : KeepsR s (trnService s) := by
  have hc : Keeps s (clearTrn s) := keeps_ev s _
  unfold trnService
  dsimp only
  split
  · exact keepsR_next hc
  · split
    · exact keepsR_next (hc.trans ((keeps_bookCompletion _ _ _ _ _).trans (keeps_ep0Dispatch _ _ _ _ _)))
    · exact keepsR_of (hc.trans (keeps_bookCompletion _ _ _ _ _)) (keepsR_fnTasks _ _ _ _ _)

/-! Events. -/

theorem epsAt_map_reset (l : List Eps) (d : Dir) : (l.map (fun _ => epsReset)).getD (epsIndex 0 d) epsReset = epsReset := by
  simp only [List.getD, List.getElem?_map]
  cases l[epsIndex 0 d]? <;> rfl

theorem keeps_busReset : Keeps s (busReset s) := by
  have h1 : Keeps s (resetRegisters s) := (keeps_setScratch s _).trans
    ⟨rfl, rfl, rfl, rfl, rfl, id, id, id, id, id, id, id, id, fun _ => id⟩
  have h2 : ∀ t, Keeps t (resetSie t) := fun t =>
    ⟨rfl, rfl, rfl, rfl, by simp [resetSie]; omega, id, id, id, id, id, id, id, id, fun _ => id⟩
  have h3 : ∀ t, Keeps t (resetBdt t) := fun t =>
    ⟨rfl, by simp [resetBdt], rfl, rfl, rfl, id, id, id, id, id, id, id, id, fun _ h x hx => by
      obtain ⟨b, hb, rfl⟩ := List.mem_map.1 hx
      exact h b hb⟩
  have h4 : ∀ t, Keeps t (resetEps t) := fun t =>
    ⟨rfl, rfl, by simp [resetEps], by simp [resetEps], rfl, id, id, id, id, id, id, id, fun _ d => by
      show Eps.halted ((t.eps.map (fun _ => epsReset)).getD (epsIndex 0 d) epsReset) = false
      rw [epsAt_map_reset]
      rfl, fun _ => id⟩
  have h5 : ∀ t, Keeps t (resetEp0 t) := fun t =>
    (((keeps_setAddresses t _ _).trans (keeps_setAddresses _ _ _)).trans (keeps_setCtrl _ _ _)).trans (keeps_ep0ArmSetup _)
  have h6 : ∀ t, Keeps t (resetFunction t) := fun t => by
    unfold resetFunction
    split
    · exact keeps_sense (keeps_clearBot t) _
    all_goals exact .refl t
  exact (h1.trans ((h2 _).trans (h3 _))).trans ((h4 _).trans ((h5 _).trans (h6 _)))

theorem keeps_powerOnInit : Keeps s (powerOnInit s) := by
  have hb := memOf_wf s.cfg.addrW (Config.powerOnByte s.free true)
  have hr := writeBytes_wf (w := s.cfg.addrW) s.cfg.lunAddr [0]
    (writeBytes_wf (w := s.cfg.addrW) s.cfg.scratch [0, 0] (memOf_wf s.cfg.addrW (Config.powerOnByte s.free false)))
  have he : ∀ d, Eps.halted ((s.eps.map (fun _ => epsReset)).getD (epsIndex 0 d) epsReset) = false := fun d => by
    rw [epsAt_map_reset]
    rfl
  have ha : ∀ x ∈ (List.range s.bdt.length).map
      (fun i => (⟨statClear, 0, place s.cfg.addrW (Config.powerOnAddr s.free i) 0⟩ : Bd)),
      @LT.lt Nat _ x.address (2 ^ s.cfg.addrW) := fun x hx => by
    obtain ⟨i, -, rfl⟩ := List.mem_map.1 hx
    exact place_lt _ _ _
  unfold powerOnInit
  dsimp only
  generalize memOf s.cfg.addrW (Config.powerOnByte s.free true) = mb at hb ⊢
  generalize memOf s.cfg.addrW (Config.powerOnByte s.free false) = mr at hr ⊢
  generalize writeBytes s.cfg.addrW (writeBytes s.cfg.addrW mr s.cfg.scratch [0, 0]) s.cfg.lunAddr [0] = m at hr ⊢
  split
  · refine keeps_sense ?_ _
    refine Keeps.trans ?_ (keeps_clearBot _)
    exact ⟨rfl, by simp, by simp, by simp, by simp, fun _ => by simp, id, id, id, fun _ => hb, fun _ => hr, id,
      fun _ d => he d, fun _ _ => ha⟩
  all_goals
    exact ⟨rfl, by simp, by simp, by simp, by simp, fun _ => by simp, id, id, id, fun _ => hb, fun _ => hr, id,
      fun _ d => he d, fun _ _ => ha⟩

theorem keeps_onAttach : Keeps s (onAttach s) := by
  unfold onAttach
  split
  · exact ⟨rfl, rfl, rfl, rfl, rfl, id, id, id, id, id, id, id, id, fun _ => id⟩
  · exact .refl s

theorem keeps_onDetach : Keeps s (onDetach s) :=
  Keeps.trans (s := s) (t := { s with sie := { s.sie with enable := false } })
    ⟨rfl, rfl, rfl, rfl, rfl, id, id, id, id, id, id, id, id, fun _ => id⟩ (keeps_powerOnInit _)

theorem keeps_onReset : Keeps s (onReset s) := by
  unfold onReset
  split
  · exact .refl s
  · exact keeps_busReset s

theorem keeps_onIdle : Keeps s (onIdle s) := by
  unfold onIdle
  split
  · exact ⟨rfl, rfl, rfl, rfl, rfl, id, id, id, id, id, id, id, id, fun _ => id⟩
  · exact .refl s

theorem keeps_onActivity : Keeps s (onActivity s) := by
  unfold onActivity
  split
  · exact ⟨rfl, rfl, rfl, rfl, rfl, id, id, id, id, id, id, id, id, fun _ => id⟩
  · exact .refl s

theorem keeps_serviceDetach : Keeps s (serviceDetach s) := (keeps_ev s _).trans (keeps_onDetach _)

theorem keeps_serviceAttach : Keeps s (serviceAttach s) := (keeps_ev s _).trans (keeps_onAttach _)

theorem keeps_serviceActivity : Keeps s (serviceActivity s) := (keeps_ev s _).trans (keeps_onActivity _)

theorem keeps_serviceReset : Keeps s (serviceReset s) := (keeps_ev s _).trans (keeps_onReset _)

theorem keeps_serviceIdle : Keeps s (serviceIdle s) := (keeps_ev s _).trans (keeps_onIdle _)

theorem keeps_serviceSof : Keeps s (serviceSof s) := (keeps_ev s _).trans (keeps_fnSof _)

theorem keeps_serviceError : Keeps s (serviceError s) := keeps_ev s _

theorem keepsR_serviceOne : KeepsR s (serviceOne s) := by
  unfold serviceOne
  split
  · exact keepsR_next (keeps_serviceDetach s)
  · split
    · exact keepsR_next (keeps_serviceAttach s)
    · split
      · exact keepsR_next (keeps_serviceActivity s)
      · split
        · exact keepsR_next (keeps_serviceReset s)
        · split
          · exact keepsR_next (keeps_serviceIdle s)
          · split
            · exact keepsR_next (keeps_serviceSof s)
            · split
              · exact keepsR_next (keeps_serviceError s)
              · split
                · exact keepsR_trnService s
                · exact keepsR_next (.refl s)

theorem keepsR_isrLoop (k : Nat) : KeepsR s (isrLoop k s) := by
  induction k generalizing s with
  | zero => exact keepsR_next (.refl s)
  | succ k ih =>
    unfold isrLoop
    split
    · exact keepsR_andThen (keepsR_serviceOne s) (fun t => ih t)
    · exact keepsR_next (.refl s)

theorem keepsR_isr : KeepsR s (isr s) := keepsR_isrLoop s 8

/-! The environment. -/

theorem keeps_answer (a : Answer) : Keeps s (answer a s) :=
  ⟨rfl, rfl, rfl, rfl, rfl, id, id, id, id, id, id, id, id, fun _ => id⟩

theorem keeps_wake : Keeps s (wake s) := by
  unfold wake
  split
  · exact keeps_ev s _
  · exact .refl s

theorem keeps_raise (f : Events → Events) : Keeps s (raise f s) := keeps_ev s _

theorem keeps_flipPtr (ep : Ep) (dir : Dir) : Keeps s (flipPtr ep dir s) := by
  unfold flipPtr
  split
  · exact ⟨rfl, rfl, rfl, by simp [setPtr], rfl, id, id, id, id, id, id, id, id, fun _ => id⟩
  · exact .refl s

theorem keeps_complete (ep : Ep) (dir : Dir) {b : Bd}
    (hb : s.cfg.wf = true → s.BdsFit → @LT.lt Nat _ b.address (2 ^ s.cfg.addrW)) : Keeps s (complete ep dir b s) := by
  unfold complete
  refine Keeps.trans ?_ (keeps_flipPtr _ _ _)
  exact (keeps_setBd s ep dir _ hb).trans ⟨rfl, rfl, rfl, rfl, rfl, id, id, id, id, id, id, id, id, fun _ => id⟩

theorem keeps_buf {m : Memory} (h : memWf s.buf → memWf m) : Keeps s { s with buf := m } :=
  ⟨rfl, rfl, rfl, rfl, rfl, id, id, id, id, h, id, id, id, fun _ => id⟩

theorem keeps_receive (ep : Ep) (pid : BitVec 4) (b : List Byte) : Keeps s (receive ep pid b s) :=
  (keeps_buf s (writeBytes_wf _ _)).trans (keeps_complete _ _ _ fun _ h => h.bd ep .out _)

theorem keeps_overrun (ep : Ep) (n : Nat) : Keeps s (overrun ep n s) :=
  (keeps_setBd s ep .out _ fun _ _ => place_lt _ _ _).trans
    ⟨rfl, rfl, rfl, rfl, rfl, id, id, id, id, writeBytes_wf _ _, id, id, id, fun _ => id⟩

theorem keeps_pktDisable (v : Bool) : Keeps s { s with sie := { s.sie with pktDisable := v } } :=
  ⟨rfl, rfl, rfl, rfl, rfl, id, id, id, id, id, id, id, id, fun _ => id⟩

theorem keeps_setupToken (a : Option DevAddr) (b : List Byte) : Keeps s (setupToken a b s) := by
  unfold setupToken
  generalize fit 8 b = f
  dsimp only
  split
  · exact keeps_answer s _
  · split
    · exact keeps_overrun s _ _
    · refine Keeps.trans ?_ (keeps_answer _ _)
      refine Keeps.trans ?_ (keeps_pktDisable _ _)
      exact keeps_receive s 0 pidSetup f

theorem keeps_outToken (a : Option DevAddr) (ep : Ep) (tog : Bool) (b : List Byte) : Keeps s (outToken a ep tog b s) := by
  unfold outToken
  dsimp only
  split
  · exact keeps_answer s _
  · split
    · exact keeps_answer s _
    · split
      · exact keeps_answer s _
      · split
        · exact keeps_answer s _
        · split
          · exact keeps_answer s _
          · split
            · exact (keeps_receive s _ _ _).trans (keeps_answer _ _)
            · exact keeps_overrun s _ _

theorem keeps_inToken (a : Option DevAddr) (ep : Ep) (ack : Bool) : Keeps s (inToken a ep ack s) := by
  unfold inToken
  dsimp only
  split
  · exact keeps_answer s _
  · split
    · exact keeps_answer s _
    · split
      · exact keeps_answer s _
      · split
        · exact keeps_answer s _
        · split
          · exact (keeps_answer s _).trans (keeps_complete _ _ _ fun _ h => h.bd ep .inp _)
          · exact keeps_answer s _

theorem keeps_hostTog (b : Bool) : Keeps s { s with hostTog := b } :=
  ⟨rfl, rfl, rfl, rfl, rfl, id, id, id, id, id, id, id, id, fun _ => id⟩

theorem keeps_hostAfterOut (ep : Ep) (tog : Bool) : Keeps s (hostAfterOut ep tog s) := by
  unfold hostAfterOut
  split
  exacts [keeps_hostTog s _, .refl s]

theorem keeps_hostAfterIn (ep : Ep) (ack : Bool) : Keeps s (hostAfterIn ep ack s) := by
  unfold hostAfterIn
  split
  exacts [keeps_hostTog s _, .refl s]

theorem keeps_applyLine (l : Line) : Keeps s (applyLine l s) := by
  cases l with
  | attach => exact keeps_ev s _
  | detach => exact keeps_ev s _
  | reset =>
    unfold applyLine
    dsimp only
    refine Keeps.trans ?_ (keeps_hostTog _ _)
    split
    · exact keeps_ev s _
    · exact .refl s
  | idle => exact keeps_ev s _
  | activity => exact keeps_ev s _
  | sof => exact keeps_ev s _
  | error => exact keeps_ev s _
  | setup a b => exact (keeps_wake s).trans (keeps_setupToken _ _ _)
  | out a ep tog b => exact (keeps_wake s).trans ((keeps_outToken _ _ _ _ _).trans (keeps_hostAfterOut _ _ _))
  | inp a ep ack => exact (keeps_wake s).trans ((keeps_inToken _ _ _ _).trans (keeps_hostAfterIn _ _ _))
  | media p w => exact ⟨rfl, rfl, rfl, rfl, rfl, id, id, id, id, id, id, id, id, fun _ => id⟩
  | hostToggle tog => exact keeps_hostTog s tog
  | drain => exact keeps_msdTasks s

theorem keeps_applyTurn (a : Turn) : Keeps s (applyTurn a s) := by
  cases a with
  | line l => exact keeps_applyLine s l
  | early l => exact keeps_applyLine s l
  | service => exact .refl s
  | call i => exact .refl s
  | close => exact keeps_onDetach s
  | app a => exact keeps_runApp s a

theorem keepsR_runLines (l : List Line) : KeepsR s (runLines l s) := by
  induction l generalizing s with
  | nil => exact keepsR_next (.refl s)
  | cons x r ih =>
    exact keepsR_andThen (keepsR_of (keeps_applyLine s x) (keepsR_isr _)) (fun t => ih t)

theorem keeps_script (l : List Turn) : Keeps s { s with script := l } :=
  ⟨rfl, rfl, rfl, rfl, rfl, id, id, id, id, id, id, id, id, fun _ => id⟩

theorem keeps_environment : Keeps s (environment s) := by
  unfold environment
  split
  · exact .refl s
  · exact (keeps_script s _).trans (keeps_applyTurn _ _)

/-! Where the next operation comes from. -/

/-- While the flag of an operation is pending, what runs is that operation, or the whole `isr()`. -/
theorem fetchPending_cases {s t : State} {i j : Instr} (h : fetchPending i s = some (j, t)) :
    (j = i ∨ j = .isr) ∧ (t = s ∨ ∃ a r, s.script = a :: r ∧ t = { s with script := r }) := by
  unfold fetchPending at h
  split at h
  · next r hs => cases h; exact ⟨.inl rfl, .inr ⟨_, r, hs, rfl⟩⟩
  · split at h
    · cases h
    · cases h; exact ⟨.inl rfl, .inl rfl⟩
  · next j' r hs =>
    split at h
    · cases h; exact ⟨.inr rfl, .inr ⟨_, r, hs, rfl⟩⟩
    · cases h; exact ⟨.inl rfl, .inl rfl⟩
  · cases h; exact ⟨.inl rfl, .inl rfl⟩

/-- With no flag set, what runs is the main loop's drain or an operation that software may start. -/
theorem fetchIdle_cases {s t : State} {j : Instr} (h : fetchIdle s = some (j, t)) :
    (j = .msdTasks ∨ callable s.cfg j = true) ∧ (t = s ∨ ∃ a r, s.script = a :: r ∧ t = { s with script := r }) := by
  unfold fetchIdle at h
  split at h
  · split at h
    · cases h
    · cases h; exact ⟨.inl rfl, .inl rfl⟩
  · next r hs => cases h; exact ⟨.inl rfl, .inr ⟨_, r, hs, rfl⟩⟩
  · next r hs => cases h; exact ⟨.inl rfl, .inr ⟨_, r, hs, rfl⟩⟩
  · next i' r hs =>
    split at h
    · next hc => cases h; exact ⟨.inr hc, .inr ⟨_, r, hs, rfl⟩⟩
    · cases h
  · cases h

/-- The state that an operation runs on is the state itself, its script one turn shorter at most. -/
theorem fetch_script {s t : State} {i : Instr} (h : fetch s = some (i, t)) : t = { s with script := t.script } := by
  have key : t = s ∨ ∃ a r, s.script = a :: r ∧ t = { s with script := r } := by
    unfold fetch at h
    split at h
    · exact (fetchPending_cases h).2
    · exact (fetchIdle_cases h).2
  obtain rfl | ⟨_, _, _, rfl⟩ := key <;> rfl

end

end Sys2Proof.Machine
end

