-- ==== Sys2Proof/Laws/KeepsExec.lean ====
section
/-! SUPPORT. What every operation of the table keeps, one line each, and what a step keeps. -/

namespace Sys2Proof.Machine

theorem keepsR_exec (i : Instr) (s : State) : KeepsR s (exec i s) := by
  cases i with
  | isr => exact by apply keepsR_isr
  | attach => exact keepsR_next (by apply keeps_serviceAttach)
  | detach => exact keepsR_next (by apply keeps_serviceDetach)
  | reset => exact keepsR_next (by apply keeps_serviceReset)
  | idle => exact keepsR_next (by apply keeps_serviceIdle)
  | activity => exact keepsR_next (by apply keeps_serviceActivity)
  | sof => exact keepsR_next (by apply keeps_serviceSof)
  | error => exact keepsR_next (by apply keeps_serviceError)
  | trn => exact by apply keepsR_trnService
  | powerOnInit => exact keepsR_next (by apply keeps_powerOnInit)
  | ep0Setup _ => exact keepsR_next (by apply keeps_setupHandler)
  | ep0OutData _ _ => exact keepsR_next (by apply keeps_dataOutStep)
  | ep0OutStatus => exact keepsR_next (by apply keeps_statusComplete)
  | ep0OutEarlyStatus => exact keepsR_next (by apply keeps_statusComplete)
  | ep0OutStray => exact keepsR_next (by apply keeps_ep0ArmSetup)
  | ep0InData => exact keepsR_next (by apply keeps_dataInNext)
  | ep0InStatus => exact keepsR_next (by apply keeps_statusComplete)
  | ep0InStray => exact keepsR_next (.refl s)
  | epnCompletion _ _ _ _ => exact by apply keepsR_fnTasks
  | epOutOfRange _ => exact keepsR_next (.refl s)
  | ep0Dispatch _ _ _ _ => exact keepsR_next (by apply keeps_ep0Dispatch)
  | typeDispatch => exact keepsR_next (by apply keeps_typeDispatch)
  | classDispatch => exact keepsR_next (by apply keeps_classDispatch)
  | standardDispatch => exact keepsR_next (by apply keeps_standardDispatch)
  | startDataIn _ _ _ => exact keepsR_next (by apply keeps_startDataIn)
  | dataInNext => exact keepsR_next (by apply keeps_dataInNext)
  | startDataOut _ _ => exact keepsR_next (by apply keeps_startDataOut)
  | dataOutStep _ _ => exact keepsR_next (by apply keeps_dataOutStep)
  | statusComplete => exact keepsR_next (by apply keeps_statusComplete)
  | vendorRequest => exact keepsR_next (by apply keeps_requestError)
  | reservedTypeRequest => exact keepsR_next (by apply keeps_requestError)
  | getStatusDevice => exact keepsR_next (by apply keeps_getStatusDevice)
  | getStatusInterface _ => exact keepsR_next (by apply keeps_getStatusInterface)
  | getStatusEndpoint _ _ => exact keepsR_next (by apply keeps_getStatusEndpoint)
  | getStatusOther => exact keepsR_next (by apply keeps_requestError)
  | clearFeatureDevice _ => exact keepsR_next (by apply keeps_clearFeatureDevice)
  | clearFeatureEndpoint _ _ _ => exact keepsR_next (by apply keeps_clearFeatureEndpoint)
  | clearFeatureOther => exact keepsR_next (by apply keeps_requestError)
  | reservedRequest2 => exact keepsR_next (by apply keeps_requestError)
  | setFeatureDevice _ => exact keepsR_next (by apply keeps_setFeatureDevice)
  | setFeatureEndpoint _ _ _ => exact keepsR_next (by apply keeps_setFeatureEndpoint)
  | setFeatureOther => exact keepsR_next (by apply keeps_requestError)
  | reservedRequest4 => exact keepsR_next (by apply keeps_requestError)
  | setAddress _ => exact keepsR_next (by apply keeps_setAddress)
  | getDescriptor _ _ => exact keepsR_next (by apply keeps_getDescriptor)
  | setDescriptor => exact keepsR_next (by apply keeps_requestError)
  | getConfiguration => exact keepsR_next (by apply keeps_getConfiguration)
  | setConfiguration _ => exact keepsR_next (by apply keeps_setConfiguration)
  | getInterface _ => exact keepsR_next (by apply keeps_getInterface)
  | setInterface _ _ => exact keepsR_next (by apply keeps_setInterface)
  | syncFrame => exact keepsR_next (by apply keeps_requestError)
  | reservedRequest13To255 _ => exact keepsR_next (by apply keeps_requestError)
  | classRequest => exact keepsR_next (by apply keeps_classDispatch)
  | getDescriptorDevice => exact keepsR_next (by apply keeps_getDescDevice)
  | getDescriptorConfiguration _ => exact keepsR_next (by apply keeps_getDescConfig)
  | getDescriptorString _ => exact keepsR_next (by apply keeps_getDescString)
  | getDescriptorClassOrUnknown => exact keepsR_next (by apply keeps_getDescClass)
  | setConfigurationZero => exact keepsR_next (by apply keeps_setConfigZero)
  | setConfigurationNonzero _ => exact keepsR_next (by apply keeps_setConfigNonzero)
  | bomsr => exact keepsR_next (.trans (by apply keeps_bomsr) (keeps_respondStage _))
  | getMaxLun => exact keepsR_next (.trans (by apply keeps_getMaxLun) (keeps_respondStage _))
  | mscClassOther => exact keepsR_next (.trans (by apply keeps_refuse) (keeps_respondStage _))
  | cdcSetLineCoding => exact keepsR_next (.trans (by apply keeps_cdcSetLineCoding) (keeps_respondStage _))
  | cdcGetLineCoding => exact keepsR_next (.trans (by apply keeps_cdcGetLineCoding) (keeps_respondStage _))
  | cdcSetControlLineState _ _ => exact keepsR_next (.trans (by apply keeps_cdcSetControlLineState) (keeps_respondStage _))
  | cdcSendEncapsulatedCommand => exact keepsR_next (.trans (by apply keeps_cdcSendEncapsulated) (keeps_respondStage _))
  | cdcGetEncapsulatedResponse => exact keepsR_next (.trans (by apply keeps_cdcGetEncapsulated) (keeps_respondStage _))
  | hidGetReport _ _ => exact keepsR_next (.trans (by apply keeps_hidGetReport) (keeps_respondStage _))
  | hidSetReport _ _ => exact keepsR_next (.trans (by apply keeps_hidSetReport) (keeps_respondStage _))
  | hidGetIdle _ => exact keepsR_next (.trans (by apply keeps_hidGetIdle) (keeps_respondStage _))
  | hidSetIdle _ _ => exact keepsR_next (.trans (by apply keeps_hidSetIdle) (keeps_respondStage _))
  | hidGetProtocol => exact keepsR_next (.trans (by apply keeps_refuse) (keeps_respondStage _))
  | hidSetProtocol => exact keepsR_next (.trans (by apply keeps_refuse) (keeps_respondStage _))
  | hookClassRequest => exact keepsR_next (by apply keeps_classRequest)
  | hookGetClassDescriptor => exact keepsR_next (by apply keeps_getClassDescriptor)
  | hookInit => exact keepsR_next (by apply keeps_fnInit)
  | hookTasks _ _ _ _ => exact by apply keepsR_fnTasks
  | hookClearHalt _ _ _ => exact keepsR_next (by apply keeps_clearHalt)
  | hookSetInterface _ _ => exact keepsR_next (by apply keeps_setInterfaceHook)
  | hookGetInterface _ => exact keepsR_next (by apply keeps_getInterfaceHook)
  | hookOutControlFinished => exact keepsR_next (by apply keeps_outControlFinished)
  | hookInterfaceEndpoints _ => exact keepsR_next (by apply keeps_interfaceEndpoints)
  | reclaim _ _ _ => exact keepsR_next (by apply keeps_reclaim)
  | armOut _ _ _ _ => exact keepsR_next (by apply keeps_armBd)
  | armIn _ _ _ _ => exact keepsR_next (by apply keeps_armBd)
  | stall _ _ _ => exact keepsR_next (by apply keeps_stall)
  | armStatusIn => exact keepsR_next (by apply keeps_armStatusIn)
  | rearmOut _ _ _ _ => exact keepsR_next (by apply keeps_rearm)
  | rearmIn _ _ _ _ => exact keepsR_next (by apply keeps_rearm)
  | stallEp _ _ => exact keepsR_next (by apply keeps_stallEp)
  | requestError => exact keepsR_next (by apply keeps_requestError)
  | unstallEp _ _ => exact keepsR_next (by apply keeps_unstallEp)
  | noteCompletion _ _ _ => exact keepsR_next (by apply keeps_noteCompletion)
  | ppReset => exact keepsR_next (by apply keeps_ppReset)
  | ep0ArmSetup => exact keepsR_next (by apply keeps_ep0ArmSetup)
  | ep0ArmStatusOut => exact keepsR_next (by apply keeps_ep0ArmStatusOut)
  | ep0ArmDataOut => exact keepsR_next (by apply keeps_ep0ArmDataOut)
  | ep0SendIn _ => exact keepsR_next (by apply keeps_ep0SendIn)
  | bulkArmOut _ => exact keepsR_next (by apply keeps_bulkArmOut)
  | bulkArmIn _ => exact keepsR_next (by apply keeps_bulkArmIn)
  | msdTasks => exact keepsR_next (by apply keeps_msdTasks)
  | botEnqueue _ _ _ _ => exact by apply keepsR_botEnqueue
  | botCbwReceived _ _ => exact keepsR_next (by apply keeps_handleCbw)
  | botDataOutChunk _ _ => exact keepsR_next (by apply keeps_dataOutChunk)
  | botDataInNext => exact keepsR_next (by apply keeps_sendInChunk)
  | botDataInEnd => exact keepsR_next (by apply keeps_endOfDataIn)
  | botCswSent => exact keepsR_next (by apply keeps_cswComplete)
  | botStaleEntry => exact keepsR_next (.refl s)
  | cbwValid _ => exact keepsR_next (by apply keeps_acceptCbw)
  | cbwInvalid => exact keepsR_next (by apply keeps_invalidCbw)
  | arbitrate _ _ _ => exact keepsR_next (by apply keeps_arbitrate)
  | botCase1 => exact keepsR_next (by apply keeps_case1)
  | botCase2 => exact keepsR_next (by apply keeps_case2)
  | botCase3 => exact keepsR_next (by apply keeps_case3)
  | botCase4 => exact keepsR_next (by apply keeps_case4)
  | botCase5 _ _ => exact keepsR_next (by apply keeps_case5)
  | botCase6 _ _ => exact keepsR_next (by apply keeps_case6)
  | botCase7 _ => exact keepsR_next (by apply keeps_case7)
  | botCase8 => exact keepsR_next (by apply keeps_case8)
  | botCase9 => exact keepsR_next (by apply keeps_case9)
  | botCase10 => exact keepsR_next (by apply keeps_case10)
  | botCase11 _ => exact keepsR_next (by apply keeps_case11)
  | botCase12 _ => exact keepsR_next (by apply keeps_case12)
  | botCase13 => exact keepsR_next (by apply keeps_case13)
  | startIn _ _ _ => exact keepsR_next (by apply keeps_startIn)
  | startOut _ _ => exact keepsR_next (by apply keeps_startOut)
  | stallAndWait _ => exact keepsR_next (by apply keeps_stallAndWait)
  | sendInChunk => exact keepsR_next (by apply keeps_sendInChunk)
  | endOfDataIn => exact keepsR_next (by apply keeps_endOfDataIn)
  | dataOutChunk _ _ => exact keepsR_next (by apply keeps_dataOutChunk)
  | sendCsw => exact keepsR_next (by apply keeps_sendCsw)
  | cswComplete => exact keepsR_next (by apply keeps_cswComplete)
  | failCommand _ _ _ _ => exact keepsR_next (by apply keeps_failCommand)
  | phaseFail => exact keepsR_next (by apply keeps_phaseFail)
  | botClearHalt _ _ _ => exact keepsR_next (by apply keeps_botClearHalt)
  | botInit => exact keepsR_next (by apply keeps_botInit)
  | cswWrapper => exact keepsR_next (by apply keeps_fillBuf)
  | testUnitReady => exact keepsR_next (by apply keeps_testUnitReady)
  | requestSense _ => exact keepsR_next (by apply keeps_requestSense)
  | inquiry => exact keepsR_next (by exact keeps_respond _ _ _)
  | modeSense6 => exact keepsR_next (by exact keeps_respond _ _ _)
  | readCapacity10 _ _ => exact keepsR_next (by apply keeps_readCapacity10)
  | read10 _ _ => exact keepsR_next (by apply keeps_read10)
  | write10 _ _ => exact keepsR_next (by apply keeps_write10)
  | scsiUnknownOpcode => exact keepsR_next (by exact keeps_failCommand _ _ _ _ _)
  | scsiDispatch => exact keepsR_next (by apply keeps_scsiDispatch)
  | respond _ _ => exact keepsR_next (by apply keeps_respond)
  | senseOnComplete => exact keepsR_next (by apply keeps_senseOnComplete)
  | rwParse => exact keepsR_next (by exact keeps_rwLoad _ _ _)
  | pseudoClearHalt _ => exact keepsR_runLines s _
  | pseudoSetHalt _ => exact keepsR_runLines s _
  | bomsrSeq => exact keepsR_runLines s _
  | setAddressSeq _ => exact keepsR_runLines s _
  | setConfigSeq _ => exact keepsR_runLines s _
  | cbwSeq _ _ _ _ => exact keepsR_runLines s _

/-- A step from `s` keeps what every operation keeps. -/
theorem step_keeps (s t : State) (h : step s = .next t) : Keeps s t := by
  unfold step at h
  split at h
  · next i u hf =>
    have ku : Keeps s u := by
      rw [fetch_script hf]
      exact keeps_script s _
    exact ku.trans (keepsR_exec i u t h)
  · cases h
    exact keeps_environment s

end Sys2Proof.Machine
end

