-- ==== Sys2Proof/Laws/Calm.lean ====
section
/-! SUPPORT. What the engine's operations leave alone: events, latch, attachment, the next parities, the script. One
lemma for each operation, as in `Keeps`. -/

namespace Sys2Proof.Machine

/-- An operation of the engine: no event flag, latch, attachment, address, device state, parity or script changes. -/
structure Calm (s t : State) : Prop where
  cfg : t.cfg = s.cfg
  ev : t.ev = s.ev
  enable : t.sie.enable = s.sie.enable
  address : t.sie.address = s.sie.address
  lastTrn : t.sie.lastTrn = s.sie.lastTrn
  suspendedFrom : t.suspendedFrom = s.suspendedFrom
  wire : t.wire = s.wire
  script : t.script = s.script
  media : t.mediaPresent = s.mediaPresent
  protect : t.writeProtected = s.writeProtected
  device : t.deviceState = s.deviceState
  parity : ∀ ep dir, (t.epsAt ep dir).lastParity = (s.epsAt ep dir).lastParity ∧ t.ptrAt ep dir = s.ptrAt ep dir

theorem Calm.refl (s : State) : Calm s s := ⟨rfl, rfl, rfl, rfl, rfl, rfl, rfl, rfl, rfl, rfl, rfl, fun _ _ => ⟨rfl, rfl⟩⟩

theorem Calm.trans {s t u : State} (a : Calm s t) (b : Calm t u) : Calm s u where
  cfg := b.cfg.trans a.cfg
  ev := b.ev.trans a.ev
  enable := b.enable.trans a.enable
  address := b.address.trans a.address
  lastTrn := b.lastTrn.trans a.lastTrn
  suspendedFrom := b.suspendedFrom.trans a.suspendedFrom
  wire := b.wire.trans a.wire
  script := b.script.trans a.script
  media := b.media.trans a.media
  protect := b.protect.trans a.protect
  device := b.device.trans a.device
  parity := fun ep dir =>
    ⟨(b.parity ep dir).1.trans (a.parity ep dir).1, (b.parity ep dir).2.trans (a.parity ep dir).2⟩

/-- As `Calm`, but the device state may become an addressed one, and the next parity of an endpoint direction EVEN on
both sides (`pp_reset`, 40 R171). -/
structure CalmPp (s t : State) : Prop where
  cfg : t.cfg = s.cfg
  ev : t.ev = s.ev
  enable : t.sie.enable = s.sie.enable
  address : t.sie.address = s.sie.address
  lastTrn : t.sie.lastTrn = s.sie.lastTrn
  suspendedFrom : t.suspendedFrom = s.suspendedFrom
  wire : t.wire = s.wire
  script : t.script = s.script
  media : t.mediaPresent = s.mediaPresent
  protect : t.writeProtected = s.writeProtected
  device : t.deviceState = s.deviceState ∨ t.deviceState = .dflt ∨ t.deviceState = .address ∨ t.deviceState = .configured
  parity : ∀ ep dir,
    (t.epsAt ep dir).lastParity = (s.epsAt ep dir).lastParity ∧ t.ptrAt ep dir = s.ptrAt ep dir ∨
      (t.epsAt ep dir).lastParity = .odd ∧ t.ptrAt ep dir = .even

theorem Calm.pp {s t : State} (k : Calm s t) : CalmPp s t :=
  ⟨k.cfg, k.ev, k.enable, k.address, k.lastTrn, k.suspendedFrom, k.wire, k.script, k.media, k.protect, .inl k.device,
    fun ep dir => .inl (k.parity ep dir)⟩

theorem CalmPp.trans {s t u : State} (a : CalmPp s t) (b : CalmPp t u) : CalmPp s u where
  cfg := b.cfg.trans a.cfg
  ev := b.ev.trans a.ev
  enable := b.enable.trans a.enable
  address := b.address.trans a.address
  lastTrn := b.lastTrn.trans a.lastTrn
  suspendedFrom := b.suspendedFrom.trans a.suspendedFrom
  wire := b.wire.trans a.wire
  script := b.script.trans a.script
  media := b.media.trans a.media
  protect := b.protect.trans a.protect
  device := by
    rcases b.device with h | h
    · rw [h]; exact a.device
    · exact .inr h
  parity := fun ep dir => by
    rcases b.parity ep dir with ⟨h1, h2⟩ | h
    · rw [h1, h2]; exact a.parity ep dir
    · exact .inr h

/-- An operation whose outcome, if it is a next state, is calm. -/
def CalmR (s : State) (r : Result) : Prop := ∀ t, r = .next t → Calm s t

theorem calmR_next {s t : State} (h : Calm s t) : CalmR s (.next t) := by
  intro u hu
  cases hu
  exact h

section
variable (s : State) (ep : Ep) (dir : Dir) (par : Parity)

theorem calm_setBd (b : Bd) : Calm s (s.setBd ep dir par b) := ⟨rfl, rfl, rfl, rfl, rfl, rfl, rfl, rfl, rfl, rfl, rfl, fun _ _ => ⟨rfl, rfl⟩⟩

theorem calm_setCtrl (c : EpCtrl) : Calm s (s.setCtrl ep c) := ⟨rfl, rfl, rfl, rfl, rfl, rfl, rfl, rfl, rfl, rfl, rfl, fun _ _ => ⟨rfl, rfl⟩⟩

theorem calm_setEps (e : Eps) (h : e.lastParity = (s.epsAt ep dir).lastParity) : Calm s (s.setEps ep dir e) := by
  refine ⟨rfl, rfl, rfl, rfl, rfl, rfl, rfl, rfl, rfl, rfl, rfl, fun x d => ⟨?_, rfl⟩⟩
  by_cases hx : x = ep ∧ d = dir
  · obtain ⟨rfl, rfl⟩ := hx
    by_cases hl : epsIndex x d < s.eps.length
    · rw [State.epsAt_setEps _ hl]
      exact h
    · have hn : (s.setEps x d e) = s := by simp only [State.setEps, List.set_eq_of_length_le (Nat.le_of_not_lt hl)]
      rw [hn]
  · rw [State.epsAt_setEps_other]
    tauto

theorem calm_setToggle (v : Bool) : Calm s (setToggle ep dir v s) := calm_setEps _ _ _ _ rfl

theorem calm_setHalted (v : Bool) : Calm s (setHalted ep dir v s) := calm_setEps _ _ _ _ rfl

theorem getD_map_same {α : Type} (l : List α) (f : α → α) (i : Nat) (d : α) (h : f d = d) :
    (l.map f).getD i d = f (l.getD i d) := by
  by_cases hi : i < l.length
  · simp [List.getD, hi]
  · simp [List.getD, List.getElem?_eq_none (Nat.le_of_not_lt hi), h]

theorem getD_take_append {α : Type} (l m : List α) (k i : Nat) (d : α) (hk : k ≤ l.length) (hm : k ≤ i) :
    (l.take k ++ m).getD i d = m.getD (i - k) d := by
  simp only [List.getD]
  rw [List.getElem?_append_right (by simp [hk, hm])]
  simp [hk]

theorem getD_drop {α : Type} (l : List α) (k i : Nat) (d : α) (h : k ≤ i) : (l.drop k).getD (i - k) d = l.getD i d := by
  simp only [List.getD, List.getElem?_drop]
  congr 3
  omega

/-- A record of a non-zero endpoint after a change of all of them. -/
theorem getD_nonzeroEps (f : Eps → Eps) (l : List Eps) (i : Nat) (h : f epsReset = epsReset) (hi : 2 ≤ i) :
    (nonzeroEps f l).getD i epsReset = f (l.getD i epsReset) := by
  by_cases hl : 2 ≤ l.length
  · rw [nonzeroEps, getD_take_append _ _ _ _ _ hl hi, getD_map_same _ _ _ _ h, getD_drop _ _ _ _ hi]
  · have h1 : l.length ≤ i := by omega
    have h2 : (nonzeroEps f l).length ≤ i := by rw [length_nonzeroEps]; exact h1
    simp [List.getD, List.getElem?_eq_none h1, List.getElem?_eq_none h2, h]

theorem two_le_epsIndex {ep : Ep} (h : ep ≠ 0) : 2 ≤ epsIndex ep dir := by
  have := ep_toNat_ne_zero h
  unfold epsIndex
  omega

theorem epsAt_ppReset_zero (d : Dir) : (ppReset s).epsAt 0 d = s.epsAt 0 d := epsAt_nonzeroEps _ _ _

theorem ptrAt_ppReset_zero (d : Dir) : (ppReset s).ptrAt 0 d = s.ptrAt 0 d := by
  unfold State.ptrAt ppReset pulsePpReset
  dsimp only
  cases s.sie.ptr with
  | nil => rfl
  | cons a r =>
    cases r with
    | nil => cases d <;> rfl
    | cons b r => cases d <;> rfl

theorem epsAt_ppReset (h : ep ≠ 0) : (ppReset s).epsAt ep dir = { s.epsAt ep dir with lastParity := .odd } :=
  getD_nonzeroEps (fun e => { e with lastParity := .odd }) s.eps _ rfl (two_le_epsIndex dir h)

theorem ptrAt_ppReset (h : ep ≠ 0) : (ppReset s).ptrAt ep dir = .even := by
  have hi := two_le_epsIndex dir h
  show (s.sie.ptr.take 2 ++ (s.sie.ptr.drop 2).map (fun _ => Parity.even)).getD (epsIndex ep dir) .even = .even
  by_cases hl : 2 ≤ s.sie.ptr.length
  · rw [getD_take_append _ _ _ _ _ hl hi, getD_map_same _ _ _ _ rfl]
  · have h2 : (s.sie.ptr.take 2 ++ (s.sie.ptr.drop 2).map (fun _ => Parity.even)).length ≤ epsIndex ep dir := by
      simp; omega
    rw [List.getD, List.getElem?_eq_none h2]
    rfl

theorem calmPp_ppReset : CalmPp s (ppReset s) := by
  refine ⟨rfl, rfl, rfl, rfl, rfl, rfl, rfl, rfl, rfl, rfl, .inl rfl, fun ep dir => ?_⟩
  by_cases h : ep = 0
  · subst h
    exact .inl ⟨by rw [epsAt_ppReset_zero], ptrAt_ppReset_zero s dir⟩
  · exact .inr ⟨by rw [epsAt_ppReset s ep dir h], ptrAt_ppReset s ep dir h⟩

theorem epsAt_clearNonzero (h : ep ≠ 0) :
    (clearNonzero s).epsAt ep dir = { s.epsAt ep dir with toggle := false, halted := false } :=
  getD_nonzeroEps (fun e => { e with toggle := false, halted := false }) s.eps _ rfl (two_le_epsIndex dir h)

theorem epsAt_clearNonzero_zero (d : Dir) : (clearNonzero s).epsAt 0 d = s.epsAt 0 d := epsAt_nonzeroEps _ _ _

theorem calm_clearNonzero : Calm s (clearNonzero s) := by
  refine ⟨rfl, rfl, rfl, rfl, rfl, rfl, rfl, rfl, rfl, rfl, rfl, fun ep dir => ⟨?_, rfl⟩⟩
  by_cases h : ep = 0
  · subst h
    rw [epsAt_clearNonzero_zero]
  · rw [epsAt_clearNonzero s ep dir h]

theorem calm_flipToggle : Calm s (flipToggle ep dir s) := calm_setToggle _ _ _ _

theorem calm_completionToggle (pid : BitVec 4) : Calm s (completionToggle ep dir pid s) := by
  unfold completionToggle
  split
  · exact calm_flipToggle _ _ _
  · split
    · exact .refl s
    · exact calm_flipToggle _ _ _

theorem calm_reclaim : Calm s (reclaim ep dir par s) := calm_setBd _ _ _ _ _

theorem calm_stall : Calm s (stall ep dir par s) := calm_setBd _ _ _ _ _

theorem calm_armBd (tog : Bool) (n : Nat) : Calm s (armBd ep dir par tog n s) := by
  unfold armBd
  split
  · exact ⟨rfl, rfl, rfl, rfl, rfl, rfl, rfl, rfl, rfl, rfl, rfl, fun _ _ => ⟨rfl, rfl⟩⟩
  · exact calm_setBd _ _ _ _ _

theorem calm_rearm (tog : Bool) (n : Nat) : Calm s (rearm ep dir par tog n s) := by
  unfold rearm
  split
  · exact (calm_reclaim _ _ _ _).trans (calm_armBd _ _ _ _ _ _)
  · exact calm_armBd _ _ _ _ _ _

theorem calm_rearmNext (tog : Bool) (n : Nat) : Calm s (rearmNext ep dir tog n s) := calm_rearm _ _ _ _ _ _

theorem calm_armStatusIn : Calm s (armStatusIn s) := calm_rearmNext _ _ _ _ _

/-- An update of fields that `Calm` does not speak of. -/
theorem Calm.stage {s t : State} (k : Calm s t) (x : Stage) : Calm s { t with stage := x } :=
  k.trans ⟨rfl, rfl, rfl, rfl, rfl, rfl, rfl, rfl, rfl, rfl, rfl, fun _ _ => ⟨rfl, rfl⟩⟩

theorem calm_statusIn : Calm s (statusIn s) := (calm_armStatusIn s).stage _

theorem calm_foldl {α : Type} (l : List α) (f : State → α → State) (hf : ∀ t a, Calm t (f t a)) (s : State) :
    Calm s (l.foldl f s) := by
  induction l generalizing s with
  | nil => exact .refl s
  | cons a r ih => exact (hf s a).trans (ih _)

theorem calm_forParities (f : Parity → State → State) (hf : ∀ p t, Calm t (f p t)) : Calm s (forParities ep dir f s) :=
  calm_foldl _ _ (fun t p => hf p t) s

theorem calm_stallEp : Calm s (stallEp ep dir s) := by
  unfold stallEp
  have h := calm_forParities s ep dir (stall ep dir) (fun p t => calm_stall t ep dir p)
  dsimp only
  split
  · exact h
  · rename_i he
    exact h.trans (calm_setHalted _ _ _ _)

theorem calm_requestError : Calm s (requestError s) := (calm_stallEp s 0 .inp).stage _

theorem calm_cancelEp0In : Calm s (cancelEp0In s) := calm_forParities _ _ _ _ (fun p t => calm_reclaim t _ _ p)

theorem calm_unstallBd : Calm s (unstallBd ep dir par s) := by
  unfold unstallBd
  split
  · exact calm_reclaim _ _ _ _
  · exact .refl s

theorem calm_unstallEp : Calm s (unstallEp ep dir s) :=
  ((calm_setHalted s ep dir false).trans (calm_setToggle _ _ _ _)).trans
    (calm_forParities _ _ _ _ (fun p t => calm_unstallBd t _ _ p))

theorem calm_ep0ArmSetup : Calm s (ep0ArmSetup s) := calm_rearmNext _ _ _ _ _

theorem calm_ep0ArmStatusOut : Calm s (ep0ArmStatusOut s) := calm_rearmNext _ _ _ _ _

theorem calm_ep0ArmDataOut : Calm s (ep0ArmDataOut s) := calm_rearmNext _ _ _ _ _

theorem calm_fillOwn (b : List Byte) : Calm s (fillOwn ep dir par b s) := by
  rw [fillOwn_rest]
  exact ⟨rfl, rfl, rfl, rfl, rfl, rfl, rfl, rfl, rfl, rfl, rfl, fun _ _ => ⟨rfl, rfl⟩⟩

theorem calm_fillBuf (b : List Byte) : Calm s (fillBuf ep dir par b s) := by
  rw [fillBuf_rest]
  exact ⟨rfl, rfl, rfl, rfl, rfl, rfl, rfl, rfl, rfl, rfl, rfl, fun _ _ => ⟨rfl, rfl⟩⟩

theorem calm_writeAddress : Calm s (writeAddress ep dir par s) := by
  rw [writeAddress_rest]
  exact ⟨rfl, rfl, rfl, rfl, rfl, rfl, rfl, rfl, rfl, rfl, rfl, fun _ _ => ⟨rfl, rfl⟩⟩

theorem calm_loadEp0In (n : Nat) : Calm s (loadEp0In n s) := calm_fillBuf _ _ _ _ _

theorem calm_ep0SendIn (n : Nat) : Calm s (ep0SendIn n s) :=
  ((calm_loadEp0In s n).trans (calm_armBd _ _ _ _ _ _)).trans
    ⟨rfl, rfl, rfl, rfl, rfl, rfl, rfl, rfl, rfl, rfl, rfl, fun _ _ => ⟨rfl, rfl⟩⟩

theorem calm_bulkArmOut (n : Nat) : Calm s (bulkArmOut n s) := calm_rearmNext _ _ _ _ _

theorem calm_bulkArmIn (n : Nat) : Calm s (bulkArmIn n s) := calm_rearmNext _ _ _ _ _

theorem calm_loadBulkIn (b : List Byte) : Calm s (loadBulkIn b s) :=
  ⟨rfl, rfl, rfl, rfl, rfl, rfl, rfl, rfl, rfl, rfl, rfl, fun _ _ => ⟨rfl, rfl⟩⟩

theorem calm_setAddresses : Calm s (setAddresses ep dir s) :=
  calm_forParities _ _ _ _ (fun p t => calm_writeAddress t _ _ p)

end

/-! The Bulk-Only Transport engine. -/

section
variable (s : State)

theorem calm_setBotState (b : BotState) : Calm s (setBotState b s) :=
  ⟨rfl, rfl, rfl, rfl, rfl, rfl, rfl, rfl, rfl, rfl, rfl, fun _ _ => ⟨rfl, rfl⟩⟩

theorem calm_setResidue (r : Word) : Calm s (setResidue r s) :=
  ⟨rfl, rfl, rfl, rfl, rfl, rfl, rfl, rfl, rfl, rfl, rfl, fun _ _ => ⟨rfl, rfl⟩⟩

theorem calm_setStatus (c : CswStatus) : Calm s (setStatus c s) :=
  ⟨rfl, rfl, rfl, rfl, rfl, rfl, rfl, rfl, rfl, rfl, rfl, fun _ _ => ⟨rfl, rfl⟩⟩

theorem calm_stallAndWait (dir : Dir) : Calm s (stallAndWait dir s) :=
  (calm_stallEp s (s.bulkEp dir) dir).trans ⟨rfl, rfl, rfl, rfl, rfl, rfl, rfl, rfl, rfl, rfl, rfl, fun _ _ => ⟨rfl, rfl⟩⟩

theorem calm_senseOnComplete : Calm s (senseOnComplete s) := by
  unfold senseOnComplete
  split
  · exact ⟨rfl, rfl, rfl, rfl, rfl, rfl, rfl, rfl, rfl, rfl, rfl, fun _ _ => ⟨rfl, rfl⟩⟩
  · exact .refl s

theorem calm_loadCsw : Calm s (loadCsw s) := calm_loadBulkIn _ _

theorem calm_sendCsw : Calm s (sendCsw s) :=
  ((calm_senseOnComplete s).trans (calm_loadCsw _)).trans ((calm_bulkArmIn _ _).trans (calm_setBotState _ _))

theorem calm_noDataCsw : Calm s (noDataCsw s) := (calm_setBotState s _).trans (calm_sendCsw _)

theorem calm_cswComplete : Calm s (cswComplete s) := (calm_bulkArmOut s _).trans (calm_setBotState _ _)

theorem calm_loadChunk (n : Nat) : Calm s (loadChunk n s) := by
  unfold loadChunk
  split
  · exact ⟨rfl, rfl, rfl, rfl, rfl, rfl, rfl, rfl, rfl, rfl, rfl, fun _ _ => ⟨rfl, rfl⟩⟩
  · exact calm_loadBulkIn s _
  · exact ⟨rfl, rfl, rfl, rfl, rfl, rfl, rfl, rfl, rfl, rfl, rfl, fun _ _ => ⟨rfl, rfl⟩⟩

theorem calm_countDown (n : Nat) : Calm s (countDown n s) :=
  ⟨rfl, rfl, rfl, rfl, rfl, rfl, rfl, rfl, rfl, rfl, rfl, fun _ _ => ⟨rfl, rfl⟩⟩

theorem calm_sendInChunk : Calm s (sendInChunk s) :=
  ((calm_loadChunk s _).trans (calm_bulkArmIn _ _)).trans ((calm_countDown _ _).trans (calm_setBotState _ _))

theorem calm_startIn (src : Src) (total : Word) (act : EndAction) : Calm s (startIn src total act s) :=
  Calm.trans (t := { s with bot := { s.bot with src := src, xferRemaining := total, endAction := act, respPtr := 0 } })
    ⟨rfl, rfl, rfl, rfl, rfl, rfl, rfl, rfl, rfl, rfl, rfl, fun _ _ => ⟨rfl, rfl⟩⟩ (calm_sendInChunk _)

theorem calm_endOfDataIn : Calm s (endOfDataIn s) := by
  unfold endOfDataIn
  split
  · exact calm_stallAndWait _ _
  · exact calm_sendCsw _

theorem calm_startOut (total : Word) (act : EndAction) : Calm s (startOut total act s) :=
  (Calm.trans (s := s) (t := { s with bot := { s.bot with xferRemaining := total, endAction := act } })
    ⟨rfl, rfl, rfl, rfl, rfl, rfl, rfl, rfl, rfl, rfl, rfl, fun _ _ => ⟨rfl, rfl⟩⟩ (calm_bulkArmOut _ _)).trans (calm_setBotState _ _)

theorem calm_writeChunk (b : List Byte) : Calm s (writeChunk b s) := by
  unfold writeChunk
  split
  · exact ⟨rfl, rfl, rfl, rfl, rfl, rfl, rfl, rfl, rfl, rfl, rfl, fun _ _ => ⟨rfl, rfl⟩⟩
  · refine ⟨rfl, rfl, rfl, rfl, rfl, rfl, rfl, rfl, rfl, rfl, rfl, fun _ _ => ⟨rfl, rfl⟩⟩

theorem calm_storeChunk (par : Parity) (n : Nat) : Calm s (storeChunk par n s) := by
  unfold storeChunk
  split
  · exact .refl s
  · exact (calm_writeChunk s _).trans ⟨rfl, rfl, rfl, rfl, rfl, rfl, rfl, rfl, rfl, rfl, rfl, fun _ _ => ⟨rfl, rfl⟩⟩

theorem calm_dataOutChunk (par : Parity) (n : Nat) : Calm s (dataOutChunk par n s) := by
  have h := (calm_storeChunk s par n).trans (calm_countDown _ n)
  unfold dataOutChunk
  dsimp only
  split
  · split
    · exact h.trans (calm_stallAndWait _ _)
    · exact h.trans (calm_sendCsw _)
  · exact h.trans (calm_bulkArmOut _ _)

theorem calm_case1 : Calm s (case1 s) := (calm_setResidue s _).trans (calm_noDataCsw _)

theorem calm_case2 : Calm s (case2 s) := ((calm_setStatus s _).trans (calm_setResidue _ _)).trans (calm_noDataCsw _)

theorem calm_case3 : Calm s (case3 s) := calm_case2 s

theorem calm_case4 : Calm s (case4 s) := (calm_setResidue s _).trans (calm_startIn _ _ _ _)

theorem calm_case5 (d : Word) (src : Src) : Calm s (case5 d src s) := (calm_setResidue s _).trans (calm_startIn _ _ _ _)

theorem calm_case6 (d : Word) (src : Src) : Calm s (case6 d src s) := (calm_setResidue s _).trans (calm_startIn _ _ _ _)

theorem calm_case7 (src : Src) : Calm s (case7 src s) :=
  ((calm_setStatus s _).trans (calm_setResidue _ _)).trans (calm_startIn _ _ _ _)

theorem calm_case8 : Calm s (case8 s) :=
  ((calm_setStatus s _).trans (calm_setResidue _ _)).trans (calm_startIn _ _ _ _)

theorem calm_case9 : Calm s (case9 s) := (calm_setResidue s _).trans (calm_stallAndWait _ _)

theorem calm_case10 : Calm s (case10 s) :=
  ((calm_setStatus s _).trans (calm_setResidue _ _)).trans (calm_stallAndWait _ _)

theorem calm_case11 (d : Word) : Calm s (case11 d s) := (calm_setResidue s _).trans (calm_startOut _ _ _)

theorem calm_case12 (d : Word) : Calm s (case12 d s) := (calm_setResidue s _).trans (calm_startOut _ _ _)

theorem calm_case13 : Calm s (case13 s) := calm_case10 s

theorem calm_arbitrate (e : Expect) (d : Word) (src : Src) : Calm s (arbitrate e d src s) := by
  unfold arbitrate
  split
  · split
    · exact calm_case1 s
    · split
      · exact calm_case4 s
      · exact calm_case9 s
  · split
    · exact calm_case2 s
    · split
      · split
        · exact calm_case5 s _ _
        · split
          · exact calm_case6 s _ _
          · exact calm_case7 s _
      · exact calm_case10 s
  · split
    · exact calm_case3 s
    · split
      · exact calm_case8 s
      · split
        · exact calm_case11 s _
        · split
          · exact calm_case12 s _
          · exact calm_case13 s

theorem calm_failStage : Calm s (failStage s) := by
  unfold failStage
  split
  · exact calm_noDataCsw s
  · exact calm_stallAndWait s _

theorem calm_failCommand (e : Expect) (key : BitVec 4) (asc ascq : Byte) : Calm s (failCommand e key asc ascq s) :=
  ((Calm.trans (s := s) (t := { s with sense := ⟨key, asc, ascq⟩ })
    ⟨rfl, rfl, rfl, rfl, rfl, rfl, rfl, rfl, rfl, rfl, rfl, fun _ _ => ⟨rfl, rfl⟩⟩ (calm_setStatus _ _)).trans (calm_setResidue _ _)).trans
    (calm_failStage _)

theorem calm_phaseFail : Calm s (phaseFail s) :=
  ((calm_setStatus s _).trans (calm_setResidue _ _)).trans (calm_failStage _)

theorem calm_invalidCbw : Calm s (invalidCbw s) :=
  ((calm_stallEp s _ _).trans (calm_stallEp _ _ _)).trans (calm_setBotState _ _)

theorem calm_botClearHalt (i : Nat) (ep : Ep) (dir : Dir) : Calm s (botClearHalt i ep dir s) := by
  unfold botClearHalt
  split
  · exact calm_stallEp s _ _
  · split
    · exact Calm.trans (t := { s with bot := { s.bot with stalled := none } })
        ⟨rfl, rfl, rfl, rfl, rfl, rfl, rfl, rfl, rfl, rfl, rfl, fun _ _ => ⟨rfl, rfl⟩⟩ (calm_sendCsw _)
    · exact .refl s
  · split
    · exact calm_bulkArmOut s _
    · exact .refl s
  all_goals exact .refl s

theorem calm_clearBot : Calm s (clearBot s) :=
  ⟨rfl, rfl, rfl, rfl, rfl, rfl, rfl, rfl, rfl, rfl, rfl, fun _ _ => ⟨rfl, rfl⟩⟩

theorem calm_readyBulkIn : Calm s (readyBulkIn s) := by
  unfold readyBulkIn
  split
  · exact .refl s
  · exact calm_forParities _ _ _ _ (fun p t => calm_reclaim t _ _ p)

theorem calm_readyBulkOut : Calm s (readyBulkOut s) := by
  unfold readyBulkOut
  split
  · exact .refl s
  · exact calm_bulkArmOut s _

theorem calm_setReply (r : FnReply) : Calm s (setReply r s) :=
  ⟨rfl, rfl, rfl, rfl, rfl, rfl, rfl, rfl, rfl, rfl, rfl, fun _ _ => ⟨rfl, rfl⟩⟩

theorem calm_bomsr : Calm s (bomsr s) :=
  ((calm_clearBot s).trans (calm_readyBulkIn _)).trans ((calm_readyBulkOut _).trans (calm_setReply _ _))

theorem calm_getMaxLun : Calm s (getMaxLun s) :=
  ⟨rfl, rfl, rfl, rfl, rfl, rfl, rfl, rfl, rfl, rfl, rfl, fun _ _ => ⟨rfl, rfl⟩⟩

theorem calm_bulkCtrl : Calm s (bulkCtrl s) := by
  unfold bulkCtrl
  split
  · exact calm_setCtrl s _ _
  · exact (calm_setCtrl s _ _).trans (calm_setCtrl _ _ _)

theorem calm_sense {s t : State} (k : Calm s t) (x : Sense) : Calm s { t with sense := x } :=
  k.trans ⟨rfl, rfl, rfl, rfl, rfl, rfl, rfl, rfl, rfl, rfl, rfl, fun _ _ => ⟨rfl, rfl⟩⟩

theorem calm_botInit : Calm s (botInit s) :=
  ((calm_sense (calm_clearBot s) _).trans ((calm_setAddresses _ _ _).trans (calm_setAddresses _ _ _))).trans
    ((calm_bulkCtrl _).trans (calm_bulkArmOut _ _))

theorem calmR_botEnqueue (ep : Ep) (dir : Dir) (par : Parity) (n : Nat) : CalmR s (botEnqueue ep dir par n s) := by
  unfold botEnqueue
  split
  · split
    · intro t ht; cases ht
    · rename_i h
      exact calmR_next ⟨rfl, rfl, rfl, rfl, rfl, rfl, rfl, rfl, rfl, rfl, rfl, fun _ _ => ⟨rfl, rfl⟩⟩
  · exact calmR_next (.refl s)

/-! The SCSI responder and the intake. -/

theorem calm_respond (b : List Byte) (d : Nat) : Calm s (respond b d s) :=
  Calm.trans (t := { s with bot := { s.bot with resp := fit 36 (b.take d ++ s.bot.resp.drop d) } })
    ⟨rfl, rfl, rfl, rfl, rfl, rfl, rfl, rfl, rfl, rfl, rfl, fun _ _ => ⟨rfl, rfl⟩⟩ (calm_arbitrate _ _ _ _)

theorem calm_testUnitReady : Calm s (testUnitReady s) := by
  unfold testUnitReady
  split
  · exact calm_arbitrate s _ _ _
  · exact calm_failCommand s _ _ _ _

theorem calm_requestSense (a : Byte) : Calm s (requestSense a s) :=
  (calm_sense (.refl s) noSense).trans (calm_respond _ _ _)

theorem calm_readCapacity10 (lba : Word) (pmi : Bool) : Calm s (readCapacity10 lba pmi s) := by
  unfold readCapacity10
  split
  · exact calm_phaseFail s
  · exact calm_respond s _ _

theorem calm_rwLoad (lba : Word) (len : Half) : Calm s (rwLoad lba len s) :=
  ⟨rfl, rfl, rfl, rfl, rfl, rfl, rfl, rfl, rfl, rfl, rfl, fun _ _ => ⟨rfl, rfl⟩⟩

theorem calm_read10 (lba : Word) (len : Half) : Calm s (read10 lba len s) := by
  unfold read10
  dsimp only
  split
  · exact (calm_rwLoad s lba len).trans (calm_failCommand _ _ _ _ _)
  · exact (calm_rwLoad s lba len).trans (calm_arbitrate _ _ _ _)

theorem calm_write10 (lba : Word) (len : Half) : Calm s (write10 lba len s) := by
  unfold write10
  dsimp only
  split
  · exact (calm_rwLoad s lba len).trans (calm_failCommand _ _ _ _ _)
  · split
    · exact (calm_rwLoad s lba len).trans (calm_failCommand _ _ _ _ _)
    · exact (calm_rwLoad s lba len).trans (calm_arbitrate _ _ _ _)

theorem calm_scsiDispatch : Calm s (scsiDispatch s) := by
  unfold scsiDispatch
  split
  · exact calm_testUnitReady s
  · exact calm_requestSense s _
  · exact calm_respond s _ _
  · exact calm_respond s _ _
  · exact calm_readCapacity10 s _ _
  · exact calm_read10 s _ _
  · split
    · exact calm_write10 s _ _
    · exact calm_failCommand s _ _ _ _
  · exact calm_failCommand s _ _ _ _

theorem calm_loadCbw (b : List Byte) : Calm s (loadCbw b s) :=
  ⟨rfl, rfl, rfl, rfl, rfl, rfl, rfl, rfl, rfl, rfl, rfl, fun _ _ => ⟨rfl, rfl⟩⟩

theorem calm_acceptCbw (b : List Byte) : Calm s (acceptCbw b s) := (calm_loadCbw s b).trans (calm_scsiDispatch _)

theorem calm_handleCbw (par : Parity) (n : Nat) : Calm s (handleCbw par n s) := by
  unfold handleCbw
  split
  · exact calm_invalidCbw s
  · exact calm_acceptCbw s _

theorem calm_botStep (e : QEntry) : Calm s (botStep e s) := by
  unfold botStep
  split
  · exact calm_handleCbw s _ _
  · exact calm_dataOutChunk s _ _
  · exact calm_sendInChunk s
  · exact calm_endOfDataIn s
  · exact calm_endOfDataIn s
  · exact calm_cswComplete s
  all_goals exact .refl s

theorem calm_serveHead : Calm s (serveHead s) := by
  unfold serveHead
  split
  · exact .refl s
  · rename_i e r hq
    exact Calm.trans (t := { s with bot := { s.bot with q := r } })
      ⟨rfl, rfl, rfl, rfl, rfl, rfl, rfl, rfl, rfl, rfl, rfl, fun _ _ => ⟨rfl, rfl⟩⟩ (calm_botStep _ _)

theorem calm_drain (k : Nat) : Calm s (drain k s) := by
  induction k generalizing s with
  | zero => exact .refl s
  | succ k ih => exact (calm_serveHead s).trans (ih _)

theorem calm_msdTasks : Calm s (msdTasks s) := calm_drain s _

end



section
variable (s : State)

/-! The function port. -/

theorem calm_refuse : Calm s (refuse s) := calm_setReply s _

theorem calm_accept : Calm s (accept s) := calm_setReply s _

theorem calm_fnFill (ep : Ep) (dir : Dir) (par : Parity) (b : List Byte) : Calm s (fnFill ep dir par b s) := by
  unfold fnFill
  split
  exacts [calm_fillOwn _ _ _ _ _, .refl s]

theorem calm_fnCall (i : Bool) (f : FnCall) : Calm s (fnCall i s f) := by
  unfold fnCall
  cases f with
  | reclaim ep dir par => dsimp only; split; exacts [calm_reclaim _ _ _ _, .refl s]
  | armOut ep par tog n => dsimp only; split; exacts [calm_armBd _ _ _ _ _ _, .refl s]
  | armIn ep par tog n => dsimp only; split; exacts [calm_armBd _ _ _ _ _ _, .refl s]
  | rearmOut ep par tog n => dsimp only; split; exacts [calm_rearm _ _ _ _ _ _, .refl s]
  | rearmIn ep par tog n => dsimp only; split; exacts [calm_rearm _ _ _ _ _ _, .refl s]
  | stallEp ep dir => dsimp only; split; exacts [calm_stallEp _ _ _, .refl s]
  | setCtrl ep c => dsimp only; split; exacts [calm_setCtrl _ _ _, .refl s]
  | fill ep dir par b => exact calm_fnFill _ _ _ _ _

theorem calm_fnCalls (i : Bool) (l : List FnCall) : Calm s (fnCalls i l s) :=
  calm_foldl _ _ (fun t f => calm_fnCall t i f) s

theorem calm_fnWrite (w : Addr × Byte) : Calm s (fnWrite s w) := by
  unfold fnWrite
  split
  · exact ⟨rfl, rfl, rfl, rfl, rfl, rfl, rfl, rfl, rfl, rfl, rfl, fun _ _ => ⟨rfl, rfl⟩⟩
  · exact .refl s

theorem calm_addressOwn : Calm s (addressOwn s) :=
  calm_foldl _ _ (fun t e => by split; exacts [calm_setAddresses _ _ _, .refl t]) s

theorem calm_fnRun (i : Bool) (l : List FnCall) (r : List (Addr × Byte)) (n : Nat) : Calm s (fnRun i l r n s) :=
  ((calm_fnCalls s _ _).trans (calm_foldl _ _ (fun t w => calm_fnWrite t w) _)).trans
    ⟨rfl, rfl, rfl, rfl, rfl, rfl, rfl, rfl, rfl, rfl, rfl, fun _ _ => ⟨rfl, rfl⟩⟩

theorem calm_answerHook (i : Bool) (a : FnAnswer) : Calm s (answerHook i a s) :=
  (calm_fnRun s _ _ _ _).trans (calm_setReply _ _)

theorem calm_oracleHook (h : Hook) (args : List Nat) : Calm s (oracleHook h args s) := calm_answerHook s _ _

theorem calm_oracleInit : Calm s (oracleInit s) := (calm_addressOwn s).trans (calm_answerHook _ _ _)

theorem calm_quietHook (h : Hook) (args : List Nat) (r : FnReply) : Calm s (keepReply r (oracleHook h args s)) :=
  (calm_oracleHook s h args).trans (calm_setReply _ _)

theorem calm_mscClassRequest : Calm s (mscClassRequest s) := by
  unfold mscClassRequest
  split
  · exact calm_bomsr s
  · split
    · exact calm_getMaxLun s
    · exact calm_refuse s

theorem calm_cdc (c : Cdc) (r : FnReply) : Calm s (setReply r { s with cdc := c }) :=
  Calm.trans (t := { s with cdc := c }) ⟨rfl, rfl, rfl, rfl, rfl, rfl, rfl, rfl, rfl, rfl, rfl, fun _ _ => ⟨rfl, rfl⟩⟩ (calm_setReply _ _)

theorem calm_cdcSetLineCoding : Calm s (cdcSetLineCoding s) := by
  unfold cdcSetLineCoding
  split
  · exact calm_refuse s
  · exact calm_cdc s _ _

theorem calm_cdcGetLineCoding : Calm s (cdcGetLineCoding s) := calm_setReply s _

theorem calm_cdcSetControlLineState (dtr rts : Bool) : Calm s (cdcSetControlLineState dtr rts s) := calm_cdc s _ _

theorem calm_cdcSendEncapsulated : Calm s (cdcSendEncapsulated s) := by
  unfold cdcSendEncapsulated
  split
  · exact calm_refuse s
  · exact calm_cdc s _ _

theorem calm_cdcGetEncapsulated : Calm s (cdcGetEncapsulated s) := calm_setReply s _

theorem calm_cdcClassRequest : Calm s (cdcClassRequest s) := by
  unfold cdcClassRequest
  split
  · exact calm_cdcSetLineCoding s
  · exact calm_cdcGetLineCoding s
  · exact calm_cdcSetControlLineState s _ _
  · exact calm_cdcSendEncapsulated s
  · exact calm_cdcGetEncapsulated s
  · exact calm_refuse s

theorem calm_cdcOutFinished : Calm s (cdcOutFinished s) := by
  unfold cdcOutFinished
  split
  · exact Calm.trans (s := s)
      (t :=
        { s with
          ram := writeBytes s.cfg.addrW s.ram s.cfg.cdc.lineCoding (readBytes s.cfg.addrW s.ram s.cfg.cdc.staging 7)
          cdc := { s.cdc with pending := .none } })
      ⟨rfl, rfl, rfl, rfl, rfl, rfl, rfl, rfl, rfl, rfl, rfl, fun _ _ => ⟨rfl, rfl⟩⟩ (calm_setReply _ _)
  · exact calm_cdc s _ _
  · exact calm_refuse s

theorem calm_ram (m : Memory) : Calm s { s with ram := m } :=
  ⟨rfl, rfl, rfl, rfl, rfl, rfl, rfl, rfl, rfl, rfl, rfl, fun _ _ => ⟨rfl, rfl⟩⟩

theorem calm_ramCdc (m : Memory) (c : Cdc) : Calm s { s with ram := m, cdc := c } :=
  ⟨rfl, rfl, rfl, rfl, rfl, rfl, rfl, rfl, rfl, rfl, rfl, fun _ _ => ⟨rfl, rfl⟩⟩

theorem calm_cdcInit : Calm s (cdcInit s) := by
  unfold cdcInit
  dsimp only
  refine Calm.trans ?_ (calm_armBd _ _ _ _ _ _)
  refine Calm.trans ?_ (calm_setCtrl _ _ _)
  refine Calm.trans ?_ (calm_setCtrl _ _ _)
  refine Calm.trans ?_ (calm_setCtrl _ _ _)
  refine Calm.trans ?_ (calm_setAddresses _ _ _)
  refine Calm.trans ?_ (calm_setAddresses _ _ _)
  refine Calm.trans ?_ (calm_setAddresses _ _ _)
  exact calm_ramCdc s _ _

theorem calm_cdcTasks (ep : Ep) (dir : Dir) (par : Parity) (n : Nat) : Calm s (cdcTasks ep dir par n s) := by
  unfold cdcTasks
  split
  · exact ⟨rfl, rfl, rfl, rfl, rfl, rfl, rfl, rfl, rfl, rfl, rfl, fun _ _ => ⟨rfl, rfl⟩⟩
  · split
    · exact ⟨rfl, rfl, rfl, rfl, rfl, rfl, rfl, rfl, rfl, rfl, rfl, fun _ _ => ⟨rfl, rfl⟩⟩
    · exact .refl s

theorem calm_hidGetReport (t r : Byte) : Calm s (hidGetReport t r s) := by
  unfold hidGetReport
  dsimp only
  split <;> (try split) <;> exact calm_setReply s _

theorem calm_hid (h : Hid) : Calm s { s with hid := h } := ⟨rfl, rfl, rfl, rfl, rfl, rfl, rfl, rfl, rfl, rfl, rfl, fun _ _ => ⟨rfl, rfl⟩⟩

theorem calm_takeReport (l : List Nat) (r : Byte) (p : Nat → HidPending) : Calm s (takeReport l r p s) := by
  unfold takeReport
  dsimp only
  split
  · exact calm_refuse s
  · split
    · exact calm_refuse s
    · exact (calm_hid s _).trans (calm_setReply _ _)

theorem calm_hidSetReport (t r : Byte) : Calm s (hidSetReport t r s) := by
  unfold hidSetReport
  split
  · exact calm_takeReport s _ _ _
  · exact calm_takeReport s _ _ _
  · exact calm_refuse s

theorem calm_ramHid (m : Memory) (h : Hid) : Calm s { s with ram := m, hid := h } :=
  ⟨rfl, rfl, rfl, rfl, rfl, rfl, rfl, rfl, rfl, rfl, rfl, fun _ _ => ⟨rfl, rfl⟩⟩

theorem calm_commitReport (a : Addr) (n : Nat) : Calm s (commitReport a n s) := (calm_ramHid s _ _).trans (calm_accept _)

theorem calm_hidOutFinished : Calm s (hidOutFinished s) := by
  unfold hidOutFinished
  dsimp only
  split
  · exact calm_refuse s
  · exact calm_commitReport s _ _
  · exact calm_commitReport s _ _

theorem calm_hidGetIdle (r : Byte) : Calm s (hidGetIdle r s) := by
  unfold hidGetIdle
  dsimp only
  split <;> exact calm_setReply s _

theorem calm_setIdle (d : Byte) (i : Nat) : Calm s (setIdle d s i) :=
  ⟨rfl, rfl, rfl, rfl, rfl, rfl, rfl, rfl, rfl, rfl, rfl, fun _ _ => ⟨rfl, rfl⟩⟩

theorem calm_hidSetIdle (d r : Byte) : Calm s (hidSetIdle d r s) := by
  unfold hidSetIdle
  dsimp only
  split
  · exact (calm_foldl _ _ (fun t i => calm_setIdle t d i) s).trans (calm_accept _)
  · split
    · exact calm_refuse s
    · exact (calm_setIdle s _ _).trans (calm_accept _)

theorem calm_hidClassRequest : Calm s (hidClassRequest s) := by
  unfold hidClassRequest
  dsimp only
  split
  · exact calm_hidGetReport s _ _
  · split
    · exact calm_hidSetReport s _ _
    · split
      · exact calm_hidGetIdle s _
      · split
        · exact calm_hidSetIdle s _ _
        · exact calm_refuse s

theorem calm_hidClassDescriptor : Calm s (hidClassDescriptor s) := by
  unfold hidClassDescriptor
  dsimp only
  split <;> exact calm_setReply s _

theorem calm_hidInit : Calm s (hidInit s) := by
  unfold hidInit
  dsimp only
  split
  · refine Calm.trans ?_ (calm_setCtrl _ _ _)
    refine Calm.trans ?_ (calm_setAddresses _ _ _)
    exact ⟨rfl, rfl, rfl, rfl, rfl, rfl, rfl, rfl, rfl, rfl, rfl, fun _ _ => ⟨rfl, rfl⟩⟩
  · refine Calm.trans ?_ (calm_armBd _ _ _ _ _ _)
    refine Calm.trans ?_ (calm_setCtrl _ _ _)
    refine Calm.trans ?_ (calm_setCtrl _ _ _)
    refine Calm.trans ?_ (calm_setAddresses _ _ _)
    refine Calm.trans ?_ (calm_setAddresses _ _ _)
    exact ⟨rfl, rfl, rfl, rfl, rfl, rfl, rfl, rfl, rfl, rfl, rfl, fun _ _ => ⟨rfl, rfl⟩⟩

theorem calm_hidTasks (ep : Ep) (dir : Dir) : Calm s (hidTasks ep dir s) := by
  unfold hidTasks
  split
  · split
    · exact .refl s
    · exact calm_hid s _
  · exact .refl s

theorem calm_sofReport (i : Nat) : Calm s (sofReport s i) := by
  unfold sofReport
  dsimp only
  split
  · exact .refl s
  · exact calm_hid s _

theorem calm_hidSof : Calm s (hidSof s) := calm_foldl _ _ (fun t i => calm_sofReport t i) s

/-! The application's turns. -/

theorem calm_sendOwn (ep : Ep) (b : List Byte) : Calm s (sendOwn ep b s) :=
  (calm_fillOwn s _ _ _ _).trans (calm_armBd _ _ _ _ _ _)

theorem calm_serialState (dcd dsr : Bool) : Calm s (serialState dcd dsr s) :=
  ⟨rfl, rfl, rfl, rfl, rfl, rfl, rfl, rfl, rfl, rfl, rfl, fun _ _ => ⟨rfl, rfl⟩⟩

theorem calm_serialNotify : Calm s (serialNotify s) := by
  unfold serialNotify
  dsimp only
  split
  · exact .refl s
  · split
    exacts [.refl s, calm_sendOwn s _ _]

theorem calm_cdcSend (b : List Byte) : Calm s (cdcSend b s) := by
  unfold cdcSend
  dsimp only
  split
  · exact .refl s
  · exact (calm_sendOwn s _ _).trans
      ⟨rfl, rfl, rfl, rfl, rfl, rfl, rfl, rfl, rfl, rfl, rfl, fun _ _ => ⟨rfl, rfl⟩⟩

theorem calm_cdcReceive : Calm s (cdcReceive s) := by
  unfold cdcReceive
  dsimp only
  split
  · exact ⟨rfl, rfl, rfl, rfl, rfl, rfl, rfl, rfl, rfl, rfl, rfl, fun _ _ => ⟨rfl, rfl⟩⟩
  · exact (calm_armBd s _ _ _ _ _).trans ⟨rfl, rfl, rfl, rfl, rfl, rfl, rfl, rfl, rfl, rfl, rfl, fun _ _ => ⟨rfl, rfl⟩⟩

theorem calm_sendReportAt (i : Nat) (b : List Byte) : Calm s (sendReportAt i b s) := by
  unfold sendReportAt
  dsimp only
  split
  · exact .refl s
  · refine Calm.trans ?_ (calm_hid _ _)
    exact (calm_ram s _).trans (calm_sendOwn _ _ _)

theorem calm_withReport (rid : Byte) {f : Nat → State → State} (hf : ∀ i t, Calm t (f i t)) :
    Calm s (withReport rid f s) := by
  unfold withReport
  split
  · exact .refl s
  · exact hf _ s

theorem calm_pollReport (rid : Byte) : Calm s (pollReport rid s) :=
  calm_withReport s rid fun i t => by
    split
    · exact calm_sendReportAt t i _
    · exact .refl t

theorem calm_runApp (a : AppCall) : Calm s (runApp a s) := by
  unfold runApp
  split <;> (try split) <;>
    first
      | exact .refl s
      | exact calm_withReport s _ (fun i t => calm_sendReportAt t i _)
      | exact calm_pollReport s _
      | exact calm_withReport s _ (fun i t => calm_hid t _)
      | exact calm_hid s _
      | exact calm_cdcSend s _
      | exact calm_cdcReceive s
      | exact calm_serialState s _ _
      | exact calm_serialNotify s
      | exact calm_fnFill s _ _ _ _
      | exact calm_fnRun s _ _ _ _

theorem calm_classRequest : Calm s (classRequest s) := by
  unfold classRequest
  split
  · exact calm_mscClassRequest s
  · exact calm_cdcClassRequest s
  · exact calm_hidClassRequest s
  · exact calm_oracleHook s _ _

theorem calm_getClassDescriptor : Calm s (getClassDescriptor s) := by
  unfold getClassDescriptor
  split
  · exact calm_refuse s
  · exact calm_refuse s
  · exact calm_hidClassDescriptor s
  · exact calm_oracleHook s _ _

theorem calm_fnInit : Calm s (fnInit s) := by
  unfold fnInit
  split
  · exact calm_botInit s
  · exact calm_cdcInit s
  · exact calm_hidInit s
  · exact (calm_oracleInit s).trans (calm_setReply _ _)

theorem calmR_fnTasks (ep : Ep) (dir : Dir) (par : Parity) (n : Nat) : CalmR s (fnTasks ep dir par n s) := by
  unfold fnTasks
  split
  · exact calmR_botEnqueue s _ _ _ _
  · exact calmR_next (calm_cdcTasks s _ _ _ _)
  · exact calmR_next (calm_hidTasks s _ _)
  · exact calmR_next (calm_quietHook s _ _ _)

theorem calm_clearHalt (i : Nat) (ep : Ep) (dir : Dir) : Calm s (clearHalt i ep dir s) := by
  unfold clearHalt
  split
  · exact calm_botClearHalt s _ _ _
  all_goals exact calm_quietHook s _ _ _

theorem calm_setInterfaceHook (alt iface : Byte) : Calm s (setInterfaceHook alt iface s) := by
  unfold setInterfaceHook
  split
  · split <;> exact calm_setReply s _
  all_goals exact calm_oracleHook s _ _

theorem calm_getInterfaceHook (iface : Byte) : Calm s (getInterfaceHook iface s) := by
  unfold getInterfaceHook
  split
  · split <;> exact calm_setReply s _
  all_goals exact calm_oracleHook s _ _

theorem calm_outControlFinished : Calm s (outControlFinished s) := by
  unfold outControlFinished
  split
  · exact calm_refuse s
  · exact calm_cdcOutFinished s
  · exact calm_hidOutFinished s
  · exact calm_oracleHook s _ _

theorem calm_interfaceEndpoints (iface : Byte) : Calm s (interfaceEndpoints iface s) := by
  unfold interfaceEndpoints
  split
  · exact calm_setReply s _
  · exact calm_setReply s _
  · exact calm_setReply s _
  · exact calm_oracleHook s _ _

theorem calm_fnSof : Calm s (fnSof s) := by
  unfold fnSof
  split
  · exact .refl s
  · exact .refl s
  · exact calm_hidSof s
  · exact calm_quietHook s _ _ _

/-! The control engine. -/

theorem calm_ctl (c : Ctl) (g : Stage) : Calm s { s with ctl := c, stage := g } :=
  ⟨rfl, rfl, rfl, rfl, rfl, rfl, rfl, rfl, rfl, rfl, rfl, fun _ _ => ⟨rfl, rfl⟩⟩

theorem calm_dataInNext : Calm s (dataInNext s) := by
  unfold dataInNext
  split
  · exact calm_ep0SendIn s _
  · split
    · exact Calm.trans (calm_ctl s _ s.stage) (calm_ep0SendIn _ 0)
    · exact (calm_ep0ArmStatusOut s).stage _

theorem calm_startDataIn (src : Source) (ptr : Addr) (d : Nat) : Calm s (startDataIn src ptr d s) := by
  unfold startDataIn
  dsimp only
  split
  · exact calm_statusIn s
  · exact Calm.trans (calm_ctl s _ _) (calm_dataInNext _)

theorem calm_startDataOut (a : Addr) (n : Nat) : Calm s (startDataOut a n s) := by
  unfold startDataOut
  split
  · exact calm_statusIn s
  · exact Calm.trans (calm_ctl s _ _) (calm_ep0ArmDataOut _)

theorem calm_storeDataOut (par : Parity) (n : Nat) : Calm s (storeDataOut par n s) :=
  ⟨rfl, rfl, rfl, rfl, rfl, rfl, rfl, rfl, rfl, rfl, rfl, fun _ _ => ⟨rfl, rfl⟩⟩

theorem calm_finishDataOut : Calm s (finishDataOut s) := by
  unfold finishDataOut
  split
  · exact calm_statusIn s
  · exact calm_requestError s

theorem calm_dataOutStep (par : Parity) (n : Nat) : Calm s (dataOutStep par n s) := by
  unfold dataOutStep
  dsimp only
  split
  · exact ((calm_storeDataOut s par n).trans (calm_ep0ArmSetup _)).trans
      ((calm_outControlFinished _).trans (calm_finishDataOut _))
  · exact (calm_storeDataOut s par n).trans (calm_ep0ArmDataOut _)

theorem calm_respondStage : Calm s (respondStage s) := by
  unfold respondStage
  split
  · split
    · exact calm_statusIn s
    · exact calm_startDataIn s _ _ _
    · exact calm_startDataOut s _ _
  · exact calm_requestError s

theorem calm_classDispatch : Calm s (classDispatch s) := (calm_classRequest s).trans (calm_respondStage _)

/-! The standard requests. -/

theorem calm_setScratch (b : List Byte) : Calm s (s.setScratch b) := calm_ram s _

theorem calm_answerScratch (b : List Byte) : Calm s (answerScratch b s) :=
  (calm_setScratch s b).trans (calm_startDataIn _ _ _ _)

theorem calm_getStatusDevice : Calm s (getStatusDevice s) := calm_answerScratch s _

theorem calm_getStatusInterface (i : Byte) : Calm s (getStatusInterface i s) := by
  unfold getStatusInterface
  split
  · exact calm_requestError s
  · exact calm_answerScratch s _

theorem calm_getStatusEndpoint (ep : Ep) (dir : Dir) : Calm s (getStatusEndpoint ep dir s) := by
  unfold getStatusEndpoint
  split
  · exact calm_requestError s
  · exact calm_answerScratch s _

theorem calm_remoteWakeup (v : Bool) : Calm s { s with remoteWakeup := v } :=
  ⟨rfl, rfl, rfl, rfl, rfl, rfl, rfl, rfl, rfl, rfl, rfl, fun _ _ => ⟨rfl, rfl⟩⟩

theorem calm_clearFeatureDevice (x : Half) : Calm s (clearFeatureDevice x s) := by
  unfold clearFeatureDevice
  split
  · exact (calm_remoteWakeup s _).trans (calm_statusIn _)
  · exact calm_requestError s

theorem calm_setFeatureDevice (x : Half) : Calm s (setFeatureDevice x s) := by
  unfold setFeatureDevice
  split
  · exact (calm_remoteWakeup s _).trans (calm_statusIn _)
  · exact calm_requestError s

theorem calm_clearFeatureEndpoint (x : Half) (ep : Ep) (dir : Dir) : Calm s (clearFeatureEndpoint x ep dir s) := by
  unfold clearFeatureEndpoint
  split
  · exact calm_requestError s
  · exact (calm_unstallEp s _ _).trans ((calm_clearHalt _ _ _ _).trans (calm_statusIn _))

theorem calm_setFeatureEndpoint (x : Half) (ep : Ep) (dir : Dir) : Calm s (setFeatureEndpoint x ep dir s) := by
  unfold setFeatureEndpoint
  split
  · exact calm_requestError s
  · exact (calm_stallEp s _ _).trans (calm_statusIn _)

theorem calm_setAddress (a : DevAddr) : Calm s (setAddress a s) :=
  Calm.trans (s := s) (t := { s with pendingAddress := a, addressPending := true })
    ⟨rfl, rfl, rfl, rfl, rfl, rfl, rfl, rfl, rfl, rfl, rfl, fun _ _ => ⟨rfl, rfl⟩⟩ (calm_statusIn _)

theorem calm_getDescDevice : Calm s (getDescDevice s) := calm_startDataIn s _ _ _

theorem calm_getDescConfig (i : Byte) : Calm s (getDescConfig i s) := by
  unfold getDescConfig
  split
  · exact calm_requestError s
  · exact calm_startDataIn s _ _ _

theorem calm_getDescString (i : Byte) : Calm s (getDescString i s) := by
  unfold getDescString
  split
  · exact calm_requestError s
  · exact calm_startDataIn s _ _ _

theorem calm_getDescClass : Calm s (getDescClass s) := by
  unfold getDescClass
  dsimp only
  split
  · split
    · exact (calm_getClassDescriptor s).trans (calm_startDataIn _ _ _ _)
    · exact (calm_getClassDescriptor s).trans (calm_requestError _)
    · exact (calm_getClassDescriptor s).trans (calm_requestError _)
  · exact (calm_getClassDescriptor s).trans (calm_requestError _)

theorem calm_getDescriptor (t i : Byte) : Calm s (getDescriptor t i s) := by
  unfold getDescriptor
  split
  · exact calm_getDescDevice s
  · exact calm_getDescConfig s _
  · exact calm_getDescString s _
  · exact calm_getDescClass s

theorem calm_getConfiguration : Calm s (getConfiguration s) := calm_answerScratch s _

theorem calm_config {s t : State} (k : Calm s t) (c : Byte) : Calm s { t with currentConfiguration := c } :=
  k.trans ⟨rfl, rfl, rfl, rfl, rfl, rfl, rfl, rfl, rfl, rfl, rfl, fun _ _ => ⟨rfl, rfl⟩⟩


theorem calm_getInterface (i : Byte) : Calm s (getInterface i s) := by
  unfold getInterface
  dsimp only
  split
  · exact (calm_getInterfaceHook s i).trans (calm_answerScratch _ _)
  · exact (calm_getInterfaceHook s i).trans (calm_requestError _)

theorem calm_clearToggles (l : List (Ep × Dir)) : Calm s (clearToggles l s) :=
  calm_foldl _ _ (fun t _ => calm_setToggle t _ _ _) s

theorem calm_setInterface (a i : Byte) : Calm s (setInterface a i s) := by
  unfold setInterface
  dsimp only
  split
  · exact ((calm_setInterfaceHook s a i).trans (calm_interfaceEndpoints _ _)).trans
      ((calm_clearToggles _ _).trans (calm_statusIn _))
  · exact (calm_setInterfaceHook s a i).trans (calm_requestError _)

theorem calm_getStatus : Calm s (getStatus s) := by
  unfold getStatus
  split
  · exact calm_getStatusDevice s
  · exact calm_getStatusInterface s _
  · exact calm_getStatusEndpoint s _ _
  · exact calm_requestError s

theorem calm_clearFeature : Calm s (clearFeature s) := by
  unfold clearFeature
  split
  · exact calm_clearFeatureDevice s _
  · exact calm_clearFeatureEndpoint s _ _ _
  · exact calm_requestError s

theorem calm_setFeature : Calm s (setFeature s) := by
  unfold setFeature
  split
  · exact calm_setFeatureDevice s _
  · exact calm_setFeatureEndpoint s _ _ _
  · exact calm_requestError s

/-! Transactions. -/

theorem calm_setupSteps (par : Parity) : Calm s (setupSteps par s) := by
  have h1 : Calm s (copySetup par s) :=
    ⟨rfl, rfl, rfl, rfl, rfl, rfl, rfl, rfl, rfl, rfl, rfl, fun _ _ => ⟨rfl, rfl⟩⟩
  have h3 : ∀ t, Calm t (enablePackets t) := fun t => ⟨rfl, rfl, rfl, rfl, rfl, rfl, rfl, rfl, rfl, rfl, rfl, fun _ _ => ⟨rfl, rfl⟩⟩
  have h5 : ∀ t, Calm t (abandonTransfer t) := fun t => ⟨rfl, rfl, rfl, rfl, rfl, rfl, rfl, rfl, rfl, rfl, rfl, fun _ _ => ⟨rfl, rfl⟩⟩
  exact ((h1.trans (calm_cancelEp0In _)).trans ((h3 _).trans (calm_ep0ArmSetup _))).trans
    (((calm_setToggle _ _ _ _).trans (calm_setToggle _ _ _ _)).trans (h5 _))

theorem calmPp_device {s t : State} (k : Calm s t) (d : DeviceState) (c : Byte) (hd : d = .address ∨ d = .configured) :
    CalmPp s { t with deviceState := d, currentConfiguration := c } :=
  k.pp.trans ⟨rfl, rfl, rfl, rfl, rfl, rfl, rfl, rfl, rfl, rfl, .inr (.inr hd), fun _ _ => .inl ⟨rfl, rfl⟩⟩

theorem calmPp_setConfigZero : CalmPp s (setConfigZero s) := by
  unfold setConfigZero
  split
  · exact (calmPp_device (.refl s) _ _ (.inl rfl)).trans (calm_statusIn _).pp
  · exact (calm_requestError s).pp

theorem calmPp_setConfigNonzero (v : Byte) : CalmPp s (setConfigNonzero v s) := by
  unfold setConfigNonzero
  split
  · exact (calm_requestError s).pp
  · have h : CalmPp s { clearNonzero (ppReset s) with currentConfiguration := v } :=
      (calmPp_ppReset s).trans (calm_config (calm_clearNonzero _) v).pp
    exact h.trans ((calmPp_device (calm_fnInit _) .configured _ (.inr rfl)).trans (calm_statusIn _).pp)

theorem calmPp_setConfiguration (v : Byte) : CalmPp s (setConfiguration v s) := by
  unfold setConfiguration
  split
  · exact calmPp_setConfigZero s
  · exact calmPp_setConfigNonzero s v

theorem calmPp_standardDispatch : CalmPp s (standardDispatch s) := by
  unfold standardDispatch
  split
  · exact (calm_getStatus s).pp
  · exact (calm_clearFeature s).pp
  · exact (calm_setFeature s).pp
  · exact (calm_setAddress s _).pp
  · exact (calm_getDescriptor s _ _).pp
  · exact (calm_requestError s).pp
  · exact (calm_getConfiguration s).pp
  · exact calmPp_setConfiguration s _
  · exact (calm_getInterface s _).pp
  · exact (calm_setInterface s _ _).pp
  · exact (calm_requestError s).pp
  · exact (calm_requestError s).pp

theorem calmPp_typeDispatch : CalmPp s (typeDispatch s) := by
  unfold typeDispatch
  split
  · exact calmPp_standardDispatch s
  · exact (calm_classDispatch s).pp
  · exact (calm_requestError s).pp

theorem calmPp_setupHandler (par : Parity) : CalmPp s (setupHandler par s) :=
  (calm_setupSteps s par).pp.trans (calmPp_typeDispatch _)

/-- After the commit, the end of a status stage is calm. -/
theorem calm_statusComplete : Calm (commitAddress s) (statusComplete s) := (calm_ep0ArmSetup _).stage _

/-- An EP0 completion is calm, but that it may commit the address first. -/
theorem calm_ep0Dispatch (dir : Dir) (pid : BitVec 4) (par : Parity) (n : Nat) :
    CalmPp s (ep0Dispatch dir pid par n s) ∨ Calm (commitAddress s) (ep0Dispatch dir pid par n s) := by
  unfold ep0Dispatch
  split
  · split
    · exact .inl (calmPp_setupHandler s par)
    · split
      · exact .inl (calm_dataOutStep s _ _).pp
      · exact .inr (calm_statusComplete s)
      · exact .inr (calm_statusComplete s)
      · exact .inl (calm_ep0ArmSetup s).pp
      · exact .inl (calm_ep0ArmSetup s).pp
  · split
    · exact .inl (calm_dataInNext s).pp
    · exact .inr (calm_statusComplete s)
    all_goals exact .inl (Calm.refl s).pp

end

end Sys2Proof.Machine
end

