-- ==== Sys2Proof/Laws/Ops.lean ====
section
/-! SUPPORT. What each shared operation does, said once: the BD it wrote, the BDs it left, the frame. -/

namespace Sys2Proof.Machine

section Bd

variable {s : State} {ep : Ep} {dir : Dir} {par : Parity}

theorem writesBd_setBd (b : Bd) (h : bdIndex s.cfg.ppMode ep dir par < s.bdt.length) :
    WritesBd ep dir par b s (s.setBd ep dir par b) :=
  ⟨State.bd_setBd b h, fun _ _ _ hne => State.bd_setBd_of_ne b hne, rfl⟩

theorem reclaim_writes (h : s.Shaped) (hv : s.validBd ep dir par) :
    WritesBd ep dir par { s.bd ep dir par with stat := statClear } s (reclaim ep dir par s) := writesBd_setBd _ (h.bd_lt hv)

theorem stall_writes (h : s.Shaped) (hv : s.validBd ep dir par) :
    WritesBd ep dir par { s.bd ep dir par with stat := statStalled } s (stall ep dir par s) := writesBd_setBd _ (h.bd_lt hv)

theorem armBd_free_eq (tog : Bool) (n : Nat) (ho : (s.bd ep dir par).stat.own = false) :
    armBd ep dir par tog n s = s.setBd ep dir par (armedBd tog n (s.bd ep dir par).address) := by
  simp [armBd, ho, armedBd]

theorem armBd_writes (h : s.Shaped) (hv : s.validBd ep dir par) (tog : Bool) (n : Nat)
    (ho : (s.bd ep dir par).stat.own = false) :
    WritesBd ep dir par (armedBd tog n (s.bd ep dir par).address) s (armBd ep dir par tog n s) := by
  rw [armBd_free_eq tog n ho]
  exact writesBd_setBd _ (h.bd_lt hv)

theorem armBd_owned_writes (h : s.Shaped) (hv : s.validBd ep dir par) (tog : Bool) (n : Nat)
    (ho : (s.bd ep dir par).stat.own = true) :
    WritesBd ep dir par ⟨statArmed true tog, Config.hazardCount s.free, (s.bd ep dir par).address⟩
      { s with free := (armBd ep dir par tog n s).free } (armBd ep dir par tog n s) := by
  have e : armBd ep dir par tog n s =
      { s.setBd ep dir par { s.bd ep dir par with stat := statArmed true tog, count := Config.hazardCount s.free } with
        free := s.free + 1 } := by simp [armBd, ho]
  rw [e]
  exact ⟨State.bd_setBd _ (h.bd_lt hv), fun _ _ _ hne => State.bd_setBd_of_ne _ hne, rfl⟩

theorem set_set_bd (b c : Bd) : (s.setBd ep dir par b).setBd ep dir par c = s.setBd ep dir par c := by
  simp [State.setBd]

/-- `rearm` writes the armed BD, whoever owned it (40 R166). -/
theorem rearm_eq (h : s.Shaped) (hv : s.validBd ep dir par) (tog : Bool) (n : Nat) :
    rearm ep dir par tog n s = s.setBd ep dir par (armedBd tog n (s.bd ep dir par).address) := by
  unfold rearm
  split
  · have hb : (reclaim ep dir par s).bd ep dir par = { s.bd ep dir par with stat := statClear } := (reclaim_writes h hv).bd
    rw [armBd_free_eq _ _ (by rw [hb]; rfl), hb]
    exact set_set_bd _ _
  · next ho => exact armBd_free_eq _ _ (by simpa using ho)

theorem rearm_writes (h : s.Shaped) (hv : s.validBd ep dir par) (tog : Bool) (n : Nat) :
    WritesBd ep dir par (armedBd tog n (s.bd ep dir par).address) s (rearm ep dir par tog n s) := by
  rw [rearm_eq h hv]
  exact writesBd_setBd _ (h.bd_lt hv)

theorem validBd_nextPar (hep : ep.toNat < s.cfg.numEp) : s.validBd ep dir (s.nextPar ep dir) := by
  refine ⟨hep, ?_⟩
  unfold State.nextPar
  split
  · next hp => exact .inr hp
  · exact .inl rfl

theorem rearmNext_arms (h : s.Shaped) (hep : ep.toNat < s.cfg.numEp) (tog : Bool) (n : Nat) :
    ArmsNext ep dir tog n s (rearmNext ep dir tog n s) := rearm_writes h (validBd_nextPar hep) tog n

theorem shaped_stage (h : s.Shaped) (g : Stage) : ({ s with stage := g } : State).Shaped :=
  ⟨h.bdt, h.eps, h.ptr, h.ctrl, h.setup, h.cbw, h.resp, h.ring⟩

/-- `rearm` of any next BD as one update of the table. -/
theorem rearmNext_eq (h : s.Shaped) (hep : ep.toNat < s.cfg.numEp) (tog : Bool) (n : Nat) :
    rearmNext ep dir tog n s = s.setBd ep dir (s.nextPar ep dir) (armedBd tog n (s.nextAddr ep dir)) :=
  rearm_eq h (validBd_nextPar hep) tog n

theorem zero_lt_numEp (h1 : 1 ≤ s.cfg.numEp) : (0 : Ep).toNat < s.cfg.numEp :=
  Nat.lt_of_lt_of_le Nat.zero_lt_one h1

theorem statusIn_ends (h : s.Shaped) (h1 : 1 ≤ s.cfg.numEp) : EndsStatusIn s (statusIn s) := by
  have e : statusIn s = rearmNext 0 .inp true 0 { s with stage := .statusIn } := by
    unfold statusIn armStatusIn
    rw [rearmNext_eq h (zero_lt_numEp h1), rearmNext_eq (shaped_stage h .statusIn) (zero_lt_numEp h1)]
    rfl
  rw [e]
  exact rearmNext_arms (shaped_stage h .statusIn) (zero_lt_numEp h1) _ _

end Bd

section Parities

variable {s : State} {ep : Ep} {dir : Dir}

theorem mem_parities {par : Parity} : par ∈ parities s.cfg.ppMode ep dir ↔ par = .even ∨ s.pp ep dir = true := by
  unfold parities State.pp
  cases hp : pp s.cfg.ppMode ep dir <;> cases par <;> simp

theorem validBd_of_mem {par : Parity} (hep : ep.toNat < s.cfg.numEp) (h : par ∈ parities s.cfg.ppMode ep dir) :
    s.validBd ep dir par := ⟨hep, mem_parities.1 h⟩

/-- A loop over the parities that rewrites each BD by itself. -/
theorem forParities_bd (h : s.Shaped) (hep : ep.toNat < s.cfg.numEp) (f : Parity → State → State) (g : Parity → Bd → Bd)
    (hf : ∀ p t, t.cfg = s.cfg → p ∈ parities s.cfg.ppMode ep dir → t.bd ep dir p = s.bd ep dir p →
      f p t = t.setBd ep dir p (g p (t.bd ep dir p))) :
    (∀ par ∈ parities s.cfg.ppMode ep dir, (forParities ep dir f s).bd ep dir par = g par (s.bd ep dir par)) ∧
    SameBdsButEp ep dir s (forParities ep dir f s) ∧
    forParities ep dir f s = { s with bdt := (forParities ep dir f s).bdt } := by
  have hev : bdIndex s.cfg.ppMode ep dir .even < s.bdt.length := h.bd_lt ⟨hep, .inl rfl⟩
  cases hp : pp s.cfg.ppMode ep dir with
  | false =>
    have e : forParities ep dir f s = s.setBd ep dir .even (g .even (s.bd ep dir .even)) := by
      simp [forParities, parities, hp, hf .even s rfl (by simp [parities, hp]) rfl]
    rw [e]
    refine ⟨fun par hpar => ?_, fun _ _ _ hne => State.bd_setBd_other _ hne, rfl⟩
    have : par = .even := by simpa [parities, hp] using hpar
    subst this
    exact State.bd_setBd _ hev
  | true =>
    have hne := bdIndex_par hp
    have hod : bdIndex s.cfg.ppMode ep dir .odd < s.bdt.length := h.bd_lt ⟨hep, .inr hp⟩
    have hb : (s.setBd ep dir .even (g .even (s.bd ep dir .even))).bd ep dir .odd = s.bd ep dir .odd :=
      State.bd_setBd_of_ne _ (hne .odd)
    have e : forParities ep dir f s =
        (s.setBd ep dir .even (g .even (s.bd ep dir .even))).setBd ep dir .odd (g .odd (s.bd ep dir .odd)) := by
      simp only [forParities, parities, hp, if_true, List.foldl]
      rw [hf _ s rfl (by simp [parities, hp]) rfl, hf _ (s.setBd ep dir .even _) rfl (by simp [parities, hp]) hb, hb]
    rw [e]
    refine ⟨fun par _ => ?_, fun e d p hne => ?_, rfl⟩
    · cases par with
      | even => exact (State.bd_setBd_of_ne (s := s.setBd ep dir .even _) _ (hne .even)).trans (State.bd_setBd _ hev)
      | odd => exact State.bd_setBd _ (by simpa [State.setBd] using hod)
    · rw [State.bd_setBd_other _ hne, State.bd_setBd_other _ hne]

theorem setHalted_eq (v : Bool) (t : State) :
    setHalted ep dir v t = { t with eps := (setHalted ep dir v t).eps } := rfl

theorem epsAt_setHalted (h : epsIndex ep dir < s.eps.length) (v : Bool) :
    (setHalted ep dir v s).epsAt ep dir = { s.epsAt ep dir with halted := v } := State.epsAt_setEps _ h

theorem epsAt_setToggle (h : epsIndex ep dir < s.eps.length) (v : Bool) :
    (setToggle ep dir v s).epsAt ep dir = { s.epsAt ep dir with toggle := v } := State.epsAt_setEps _ h

theorem State.Shaped.eps_lt (h : s.Shaped) (hep : ep.toNat < s.cfg.numEp) : epsIndex ep dir < s.eps.length := by
  rw [h.eps]
  exact epsIndex_lt dir hep

theorem stallAll_spec (h : s.Shaped) (hep : ep.toNat < s.cfg.numEp) :
    (∀ par ∈ parities s.cfg.ppMode ep dir,
      (forParities ep dir (stall ep dir) s).bd ep dir par = { s.bd ep dir par with stat := statStalled }) ∧
    SameBdsButEp ep dir s (forParities ep dir (stall ep dir) s) ∧
    forParities ep dir (stall ep dir) s = { s with bdt := (forParities ep dir (stall ep dir) s).bdt } :=
  forParities_bd h hep (stall ep dir) (fun _ b => { b with stat := statStalled }) (fun _ _ _ _ _ => rfl)

/-- `stall_ep` does what 40 R167 says. -/
theorem stallEp_stalls (h : s.Shaped) (hep : ep.toNat < s.cfg.numEp) : StallsEp ep dir s (stallEp ep dir s) := by
  obtain ⟨a, b, c⟩ := stallAll_spec (dir := dir) h hep
  generalize hw : forParities ep dir (stall ep dir) s = w at a b c
  unfold stallEp
  rw [hw]
  have hl : w.eps = s.eps := by rw [c]
  have he : ∀ x d, w.epsAt x d = s.epsAt x d := fun x d => by simp only [State.epsAt, hl]
  by_cases h0 : ep = 0
  · simp only [h0, if_true] at *
    exact ⟨a, b, he _ _, fun x d _ => he x d, by rw [c]⟩
  · simp only [h0, if_false]
    refine ⟨a, b, ?_, fun x d hne => ?_, ?_⟩
    · rw [epsAt_setHalted (by rw [hl]; exact h.eps_lt hep), he, if_neg h0]
    · rw [← he]
      exact State.epsAt_setEps_other _ hne
    · rw [setHalted_eq, c]

/-- `request_error` does what 40 R168 says. -/
theorem requestError_refuses (h : s.Shaped) (h1 : 1 ≤ s.cfg.numEp) : RefusesRequest s (requestError s) := by
  obtain ⟨a, b, c⟩ := stallAll_spec (ep := 0) (dir := .inp) h (zero_lt_numEp h1)
  unfold requestError stallEp
  simp only [if_true]
  exact ⟨a, b, by rw [c]⟩

theorem cancelEp0In_spec (h : s.Shaped) (h1 : 1 ≤ s.cfg.numEp) :
    (∀ par ∈ parities s.cfg.ppMode 0 .inp, (cancelEp0In s).bd 0 .inp par = { s.bd 0 .inp par with stat := statClear }) ∧
    SameBdsButEp 0 .inp s (cancelEp0In s) ∧ cancelEp0In s = { s with bdt := (cancelEp0In s).bdt } :=
  forParities_bd h (zero_lt_numEp h1) (reclaim 0 .inp) (fun _ b => { b with stat := statClear }) (fun _ _ _ _ _ => rfl)

theorem reclaimAll_spec (h : s.Shaped) (hep : ep.toNat < s.cfg.numEp) :
    (∀ par ∈ parities s.cfg.ppMode ep dir,
      (forParities ep dir (reclaim ep dir) s).bd ep dir par = { s.bd ep dir par with stat := statClear }) ∧
    SameBdsButEp ep dir s (forParities ep dir (reclaim ep dir) s) ∧
    forParities ep dir (reclaim ep dir) s = { s with bdt := (forParities ep dir (reclaim ep dir) s).bdt } :=
  forParities_bd h hep (reclaim ep dir) (fun _ b => { b with stat := statClear }) (fun _ _ _ _ _ => rfl)

/-- A BD that the SIE does not own gets the address of its buffer (43 R273). -/
theorem writeAddress_free_eq {par : Parity} (ho : (s.bd ep dir par).stat.own = false) :
    writeAddress ep dir par s = s.setBd ep dir par { s.bd ep dir par with address := s.bufAddr ep dir par } := by
  simp [writeAddress, ho]

/-- Owned or not, only that BD's address changes (70 R445). -/
theorem writeAddress_eq (s : State) (ep : Ep) (dir : Dir) (par : Parity) :
    ∃ a, s.Addressed ep dir par a ∧ writeAddress ep dir par s =
      { s.setBd ep dir par { s.bd ep dir par with address := a } with free := (writeAddress ep dir par s).free } := by
  unfold writeAddress
  split
  · next h => exact ⟨_, fun hc => absurd (h.symm.trans hc) (by decide), rfl⟩
  · exact ⟨_, fun _ => rfl, rfl⟩

/-- The addresses of an endpoint direction none of whose BDs the SIE owns. -/
theorem setAddresses_spec (h : s.Shaped) (hep : ep.toNat < s.cfg.numEp)
    (ho : ∀ par ∈ parities s.cfg.ppMode ep dir, (s.bd ep dir par).stat.own = false) :
    (∀ par ∈ parities s.cfg.ppMode ep dir,
      (setAddresses ep dir s).bd ep dir par = { s.bd ep dir par with address := s.bufAddr ep dir par }) ∧
    SameBdsButEp ep dir s (setAddresses ep dir s) ∧ setAddresses ep dir s = { s with bdt := (setAddresses ep dir s).bdt } :=
  forParities_bd h hep _ (fun p b => { b with address := s.bufAddr ep dir p })
    (fun p t ht hp hb => by
      rw [writeAddress_free_eq (by rw [hb]; exact ho p hp)]
      simp only [State.bufAddr, ht])

/-- Whoever owns them, only addresses of those BDs change. -/
theorem setAddresses_bd (h : s.Shaped) (hep : ep.toNat < s.cfg.numEp) :
    (∀ par ∈ parities s.cfg.ppMode ep dir,
      ∃ a, s.Addressed ep dir par a ∧ (setAddresses ep dir s).bd ep dir par = { s.bd ep dir par with address := a }) ∧
    SameBdsButEp ep dir s (setAddresses ep dir s) ∧
    setAddresses ep dir s = { s with bdt := (setAddresses ep dir s).bdt, free := (setAddresses ep dir s).free } := by
  have hev : bdIndex s.cfg.ppMode ep dir .even < s.bdt.length := h.bd_lt ⟨hep, .inl rfl⟩
  obtain ⟨a, ha, e⟩ := writeAddress_eq s ep dir .even
  have hE : (writeAddress ep dir .even s).bd ep dir .even = { s.bd ep dir .even with address := a } := by
    rw [e]
    exact State.bd_setBd _ hev
  have hO : ∀ x d p, bdIndex s.cfg.ppMode x d p ≠ bdIndex s.cfg.ppMode ep dir .even →
      (writeAddress ep dir .even s).bd x d p = s.bd x d p := fun x d p hne => by
    rw [e]
    exact State.bd_setBd_of_ne _ hne
  cases hp : pp s.cfg.ppMode ep dir with
  | false =>
    have f : setAddresses ep dir s = writeAddress ep dir .even s := by simp [setAddresses, forParities, parities, hp]
    rw [f]
    refine ⟨fun par hpar => ?_, fun x d p hne => ?_, writeAddress_rest _ _ _ _⟩
    · have : par = .even := by simpa [parities, hp] using hpar
      subst this
      exact ⟨a, ha, hE⟩
    · rw [e]
      exact State.bd_setBd_other _ hne
  | true =>
    have hod : bdIndex s.cfg.ppMode ep dir .odd < s.bdt.length := h.bd_lt ⟨hep, .inr hp⟩
    have hne := bdIndex_par hp
    obtain ⟨b, hb, g⟩ := writeAddress_eq (writeAddress ep dir .even s) ep dir .odd
    have f : setAddresses ep dir s = writeAddress ep dir .odd (writeAddress ep dir .even s) := by
      simp [setAddresses, forParities, parities, hp]
    rw [f]
    refine ⟨fun par _ => ?_, fun x d p hn => ?_, ?_⟩
    · cases par with
      | even =>
        refine ⟨a, ha, ?_⟩
        rw [g]
        refine (State.bd_setBd_of_ne _ ?_).trans hE
        simpa [Parity.other] using hne .even
      | odd =>
        refine ⟨b, fun ho => (hb (by rw [hO _ _ _ (hne .odd)]; exact ho)).trans ?_, ?_⟩
        · simp only [State.bufAddr, writeAddress_cfg]
        rw [g, ← hO ep dir .odd (hne .odd)]
        refine State.bd_setBd _ ?_
        rw [e]
        simpa [State.setBd] using hod
    · rw [g]
      refine (State.bd_setBd_other _ hn).trans ?_
      rw [e]
      exact State.bd_setBd_other _ hn
    · rw [writeAddress_rest, writeAddress_rest]

theorem set_getD_self {α : Type} (l : List α) (i : Nat) (d : α) : l.set i (l.getD i d) = l := by
  by_cases h : i < l.length
  · simp [List.getD, h]
  · exact List.set_eq_of_length_le (Nat.le_of_not_lt h)

theorem setBd_self (t : State) (par : Parity) : t.setBd ep dir par (t.bd ep dir par) = t := by
  unfold State.setBd State.bd
  rw [set_getD_self]

theorem unstallAll_spec (h : s.Shaped) (hep : ep.toNat < s.cfg.numEp) :
    (∀ par ∈ parities s.cfg.ppMode ep dir,
      (forParities ep dir (unstallBd ep dir) s).bd ep dir par =
        if (s.bd ep dir par).stat.own ∧ BdStat.stallBit (s.bd ep dir par).stat then
          { s.bd ep dir par with stat := statClear } else s.bd ep dir par) ∧
    SameBdsButEp ep dir s (forParities ep dir (unstallBd ep dir) s) ∧
    forParities ep dir (unstallBd ep dir) s = { s with bdt := (forParities ep dir (unstallBd ep dir) s).bdt } := by
  refine forParities_bd h hep (unstallBd ep dir)
    (fun _ b => if b.stat.own ∧ BdStat.stallBit b.stat then { b with stat := statClear } else b) (fun p t _ _ _ => ?_)
  unfold unstallBd
  by_cases hc : (t.bd ep dir p).stat.own = true ∧ BdStat.stallBit (t.bd ep dir p).stat = true
  · simp only [hc, Bool.and_self, if_true, and_self]
    rfl
  · simp only [Bool.and_eq_true, hc, if_false]
    exact (setBd_self t p).symm

end Parities

section Bytes

/-- Bytes written are there, the others are as before. -/
theorem writeBytes_holds {w : Nat} {m : Memory} (a : Addr) (b : List Byte) (h : memWf m) (hb : b.length ≤ 2 ^ w) :
    HoldsAt w a b m (writeBytes w m a b) :=
  ⟨fun i hi => memRead_writeBytes w m a b i h hb hi, fun k hk => memRead_writeBytes_other w m a b k h hk⟩

theorem length_readBytes (w : Nat) (m : Memory) (a : Addr) (n : Nat) : (readBytes w m a n).length = n := by
  simp [readBytes]

theorem length_romBytes (c : Config) (a : Addr) (n : Nat) : (romBytes c a n).length = n := by simp [romBytes]

theorem length_fetchBytes (s : State) (src : Source) (a : Addr) (n : Nat) : (s.fetchBytes src a n).length = n := by
  cases src
  · exact length_romBytes _ _ _
  · exact length_readBytes _ _ _ _

/-- Bytes put into BUF where the SIE does not own the BD are there (40 R163). -/
theorem putBuf_false (s : State) (a : Addr) (b : List Byte) :
    putBuf false a b s = { s with buf := writeBytes s.cfg.addrW s.buf a b } := rfl

/-- Where the SIE owns the BD, what stands there is open (70 R446). -/
theorem putBuf_true (s : State) (a : Addr) (b : List Byte) :
    putBuf true a b s =
      { s with
        buf := writeBytes s.cfg.addrW s.buf a ((List.range b.length).map (Config.hazardByte s.free))
        free := s.free + 1 } := rfl

/-- Owned or not, only the bytes put there can change (70 R446). -/
theorem putBuf_others {s : State} (o : Bool) (a : Addr) (b : List Byte) (h : memWf s.buf) :
    SameBytesBut s.cfg.addrW a b.length s.buf (putBuf o a b s).buf := by
  intro k hk
  cases o
  · exact memRead_writeBytes_other _ _ _ _ _ h hk
  · exact memRead_writeBytes_other _ _ _ _ _ h (by simpa using hk)

/-- The buffer of a BD that the SIE does not own takes the bytes (40 R163). -/
theorem fillBuf_free_eq {s : State} {ep : Ep} {dir : Dir} {par : Parity} (b : List Byte)
    (ho : (s.bd ep dir par).stat.own = false) :
    fillBuf ep dir par b s = { s with buf := writeBytes s.cfg.addrW s.buf (s.bd ep dir par).address b } := by
  rw [fillBuf, ho, putBuf_false]

/-- Owned or not, only the bytes of that buffer can change (70 R446). -/
theorem fillBuf_others {s : State} {ep : Ep} {dir : Dir} {par : Parity} (b : List Byte) (h : memWf s.buf) :
    SameBytesBut s.cfg.addrW (s.bd ep dir par).address b.length s.buf (fillBuf ep dir par b s).buf :=
  putBuf_others _ _ b h

/-- A function's own buffer takes the bytes where the SIE does not own its BD. -/
theorem fillOwn_free_eq {s : State} {ep : Ep} {dir : Dir} {par : Parity} (b : List Byte)
    (ho : (s.bd ep dir par).stat.own = false) :
    fillOwn ep dir par b s = { s with buf := writeBytes s.cfg.addrW s.buf (s.bufAddr ep dir par) b } := by
  rw [fillOwn, ho, putBuf_false]

/-- Owned or not, only the bytes of the function's own buffer can change. -/
theorem fillOwn_others {s : State} {ep : Ep} {dir : Dir} {par : Parity} (b : List Byte) (h : memWf s.buf) :
    SameBytesBut s.cfg.addrW (s.bufAddr ep dir par) b.length s.buf (fillOwn ep dir par b s).buf :=
  putBuf_others _ _ b h

end Bytes

end Sys2Proof.Machine
end

