-- ==== Sys2Proof/Laws/Events.lean ====
section
/-! SUPPORT. What the service of a completion and of each event does to flags, states and parities; the loop of `isr`. -/

namespace Sys2Proof.Machine

section
variable {s t : State}

theorem nextPar_congr {ep : Ep} {dir : Dir} (hc : t.cfg = s.cfg)
    (he : (t.epsAt ep dir).lastParity = (s.epsAt ep dir).lastParity) : t.nextPar ep dir = s.nextPar ep dir := by
  unfold State.nextPar State.pp
  rw [hc, he]

/-- What the service of an EP0 completion leaves: as `CalmPp`, but the recorded address may be committed (41 R207). -/
structure Serves (s t : State) : Prop where
  cfg : t.cfg = s.cfg
  ev : t.ev = s.ev
  enable : t.sie.enable = s.sie.enable
  address : t.sie.address = s.sie.address ∨ (s.addressPending = true ∧ t.sie.address = s.pendingAddress)
  lastTrn : t.sie.lastTrn = s.sie.lastTrn
  suspendedFrom : t.suspendedFrom = s.suspendedFrom
  wire : t.wire = s.wire
  script : t.script = s.script
  media : t.mediaPresent = s.mediaPresent
  protect : t.writeProtected = s.writeProtected
  device : t.deviceState = s.deviceState ∨ t.deviceState = .dflt ∨ t.deviceState = .address ∨ t.deviceState = .configured
  parity : ∀ ep dir,
    (t.epsAt ep dir).lastParity = (s.epsAt ep dir).lastParity ∧ t.ptrAt ep dir = s.ptrAt ep dir ∨
      (t.epsAt ep dir).lastParity = .odd ∧ t.ptrAt ep dir = .even

theorem CalmPp.serves (k : CalmPp s t) : Serves s t :=
  ⟨k.cfg, k.ev, k.enable, .inl k.address, k.lastTrn, k.suspendedFrom, k.wire, k.script, k.media, k.protect, k.device,
    k.parity⟩

theorem serves_commitAddress (s : State) : Serves s (commitAddress s) := by
  unfold commitAddress
  split
  · next h =>
    refine ⟨rfl, rfl, rfl, .inr ⟨h, rfl⟩, rfl, rfl, rfl, rfl, rfl, rfl, ?_, fun _ _ => .inl ⟨rfl, rfl⟩⟩
    dsimp only
    split
    · exact .inr (.inr (.inl rfl))
    · exact .inr (.inl rfl)
  · exact ⟨rfl, rfl, rfl, .inl rfl, rfl, rfl, rfl, rfl, rfl, rfl, .inl rfl, fun _ _ => .inl ⟨rfl, rfl⟩⟩

theorem Serves.calm {u : State} (a : Serves s t) (b : Calm t u) : Serves s u where
  cfg := b.cfg.trans a.cfg
  ev := b.ev.trans a.ev
  enable := b.enable.trans a.enable
  address := by rw [b.address]; exact a.address
  lastTrn := b.lastTrn.trans a.lastTrn
  suspendedFrom := b.suspendedFrom.trans a.suspendedFrom
  wire := b.wire.trans a.wire
  script := b.script.trans a.script
  media := b.media.trans a.media
  protect := b.protect.trans a.protect
  device := by rw [b.device]; exact a.device
  parity := fun ep dir => by rw [(b.parity ep dir).1, (b.parity ep dir).2]; exact a.parity ep dir

theorem serves_statusComplete (s : State) : Serves s (statusComplete s) :=
  (serves_commitAddress s).calm (calm_statusComplete s)

theorem serves_ep0Dispatch (s : State) (dir : Dir) (pid : BitVec 4) (par : Parity) (n : Nat) :
    Serves s (ep0Dispatch dir pid par n s) := by
  rcases calm_ep0Dispatch s dir pid par n with h | h
  · exact h.serves
  · exact (serves_commitAddress s).calm h

/-- A hook's outcome, if it is a next state, is calm. -/
theorem calmR_fnTasks' (s t : State) (ep : Ep) (dir : Dir) (par : Parity) (n : Nat) (h : fnTasks ep dir par n s = .next t) :
    Calm s t := calmR_fnTasks s ep dir par n t h

/-- The bookkeeping of a completion writes one endpoint record. -/
theorem bookCompletion_rest (s : State) (ep : Ep) (dir : Dir) (par : Parity) (pid : BitVec 4) :
    bookCompletion ep dir par pid s = { s with eps := (bookCompletion ep dir par pid s).eps } := by
  unfold bookCompletion completionToggle noteCompletion
  cases dir <;> simp only <;> split <;> (try split) <;> rfl

theorem noteCompletion_other {e ep : Ep} {d dir : Dir} (s : State) (par : Parity) (h : e ≠ ep ∨ d ≠ dir) :
    (noteCompletion ep dir par s).epsAt e d = s.epsAt e d := by
  unfold noteCompletion
  split
  · exact State.epsAt_setEps_other _ h
  · rfl

theorem completionToggle_other {e ep : Ep} {d dir : Dir} (s : State) (pid : BitVec 4) (h : e ≠ ep ∨ d ≠ dir) :
    (completionToggle ep dir pid s).epsAt e d = s.epsAt e d := by
  unfold completionToggle
  cases dir
  · dsimp only
    split
    · rfl
    · exact State.epsAt_setEps_other _ h
  · exact State.epsAt_setEps_other _ h

theorem bookCompletion_other {e ep : Ep} {d dir : Dir} (s : State) (par : Parity) (pid : BitVec 4) (h : e ≠ ep ∨ d ≠ dir) :
    (bookCompletion ep dir par pid s).epsAt e d = s.epsAt e d :=
  (completionToggle_other _ _ h).trans (noteCompletion_other _ _ h)

theorem noteCompletion_own {ep : Ep} {dir : Dir} (s : State) (par : Parity) (h : epsIndex ep dir < s.eps.length) :
    (noteCompletion ep dir par s).epsAt ep dir =
      { s.epsAt ep dir with lastParity := if s.pp ep dir then par else (s.epsAt ep dir).lastParity } := by
  unfold noteCompletion
  split
  · exact State.epsAt_setEps _ h
  · rfl

/-- What the bookkeeping of a completion writes (41 R191). -/
theorem bookCompletion_own {ep : Ep} {dir : Dir} (s : State) (par : Parity) (pid : BitVec 4)
    (h : epsIndex ep dir < s.eps.length) :
    (bookCompletion ep dir par pid s).epsAt ep dir =
      { s.epsAt ep dir with
        toggle := if dir = .out ∧ pid = pidSetup then (s.epsAt ep dir).toggle else !(s.epsAt ep dir).toggle
        lastParity := if s.pp ep dir then par else (s.epsAt ep dir).lastParity } := by
  have h2 : epsIndex ep dir < (noteCompletion ep dir par s).eps.length := by
    rw [(keeps_noteCompletion s ep dir par).eps]
    exact h
  have hn := noteCompletion_own s par h
  unfold bookCompletion completionToggle
  cases dir
  · dsimp only
    split
    · next hp => simp [hn, hp]
    · next hp =>
      rw [flipToggle, epsAt_setToggle h2, hn]
      simp [hp]
  · rw [flipToggle, epsAt_setToggle h2, hn]
    simp

/-- The service of a completion: a latch that names no endpoint is discarded; any other is booked and served. -/
theorem trnService_cases (h : trnService s = .next t) :
    (s.cfg.numEp ≤ s.sie.lastTrn.ep.toNat ∧ t = clearTrn s) ∨
    (s.sie.lastTrn.ep.toNat < s.cfg.numEp ∧
      Serves (bookCompletion s.sie.lastTrn.ep s.sie.lastTrn.dir s.sie.lastTrn.parity
        (BdStat.pid s.latchedBd.stat) (clearTrn s)) t) := by
  unfold trnService at h
  dsimp only at h
  split at h
  · next hl => exact .inl ⟨hl, by cases h; rfl⟩
  · next hl =>
    refine .inr ⟨Nat.lt_of_not_le hl, ?_⟩
    split at h
    · next h0 =>
      cases h
      rw [h0]
      exact serves_ep0Dispatch _ _ _ _ _
    · exact (calmR_fnTasks' _ _ _ _ _ _ h).pp.serves

end

end Sys2Proof.Machine
end

