-- ==== Sys2Proof/Laws/Invariants.lean ====
section
/-! SUPPORT. The invariants `BusState` and `InStep` over the parts of a step. -/

namespace Sys2Proof.Machine

/-- While the module is on. -/
theorem busState_on {t : State} (he : t.sie.enable = true) (hd : t.deviceState ≠ .detached) (ha : t.deviceState ≠ .attached)
    (hb : suspendable t.suspendedFrom = true) : t.BusState :=
  ⟨by rw [he]; simp [hd], fun hc => (Bool.noConfusion (he.symm.trans hc)), ha, hb⟩

theorem suspendable_ne {d : DeviceState} (h : suspendable d = true) : d ≠ .detached ∧ d ≠ .attached := by
  revert h
  cases d <;> decide

theorem bus_calm {s t : State} (k : Calm s t) (h : s.BusState) : t.BusState :=
  ⟨by rw [k.device, k.enable]; exact h.enable, by rw [k.enable, k.ev]; exact h.quiet, by rw [k.device]; exact h.transient,
    by rw [k.suspendedFrom]; exact h.back⟩

theorem bus_serves {s t : State} (k : Serves s t) (h : s.BusState) (he : s.sie.enable = true) : t.BusState := by
  have hd : s.deviceState ≠ .detached := fun hc => by rw [h.enable.1 hc] at he; cases he
  have ht : t.deviceState ≠ .detached ∧ t.deviceState ≠ .attached := by
    rcases k.device with hh | hh | hh | hh <;> rw [hh]
    · exact ⟨hd, h.transient⟩
    all_goals exact ⟨by decide, by decide⟩
  refine ⟨?_, ?_, ht.2, by rw [k.suspendedFrom]; exact h.back⟩
  · rw [k.enable, he]
    simp [ht.1]
  · rw [k.enable, he]; intro hc; cases hc

theorem instep_calm {s t : State} (k : Calm s t) (h : s.InStep) : t.InStep := by
  intro ep dir hp hep
  rw [k.ev, k.lastTrn]
  have hp' : s.pp ep dir = true := by simpa [State.pp, k.cfg] using hp
  have := h ep dir hp' (by rw [← k.cfg]; exact hep)
  have hn : t.nextPar ep dir = s.nextPar ep dir := nextPar_congr k.cfg (k.parity ep dir).1
  rw [hn, (k.parity ep dir).2]
  exact this

theorem instep_serves {s t : State} (k : Serves s t) (h : s.InStep) (hv : s.ev.trn = false) : t.InStep := by
  intro ep dir hp hep
  rw [k.ev, hv]
  have hp' : s.pp ep dir = true := by simpa [State.pp, k.cfg] using hp
  have := h ep dir hp' (by rw [← k.cfg]; exact hep)
  rw [hv] at this
  simp only [Bool.false_eq_true, false_and, if_false] at this ⊢
  have hpp : pp t.cfg.ppMode ep dir = true := hp
  rcases k.parity ep dir with hh | hh
  · have hn : t.nextPar ep dir = s.nextPar ep dir := nextPar_congr k.cfg hh.1
    rw [hn, hh.2]
    exact this
  · rw [hh.2]
    simp only [State.nextPar, State.pp, hpp, if_true, hh.1]
    rfl

theorem trn_bus {s t : State} (h : trnService s = .next t) (hb : s.BusState) (hv : s.ev.trn = true) : t.BusState := by
  have he : s.sie.enable = true := by
    cases hx : s.sie.enable with
    | true => rfl
    | false => rw [hb.quiet hx] at hv; cases hv
  have hc : (clearTrn s).BusState := ⟨hb.enable, fun _ => rfl, hb.transient, hb.back⟩
  rcases trnService_cases h with ⟨_, rfl⟩ | ⟨_, k⟩
  · exact hc
  · rw [bookCompletion_rest] at k
    exact bus_serves k ⟨hc.enable, hc.quiet, hc.transient, hc.back⟩ he

theorem trn_instep {s t : State} (h : trnService s = .next t) (hs : s.Shaped) (hb : s.InStep) (hv : s.ev.trn = true) : t.InStep := by
  rcases trnService_cases h with ⟨hl, rfl⟩ | ⟨hl, k⟩
  · intro ep dir hp hep
    have := hb ep dir hp hep
    rw [hv] at this
    have hne : s.sie.lastTrn.ep ≠ ep := fun hc => by rw [hc] at hl; exact absurd hep (Nat.not_lt.2 hl)
    have this2 : s.ptrAt ep dir = s.nextPar ep dir := by simpa [hne] using this
    have e1 : (clearTrn s).ev.trn = false := rfl
    rw [e1]
    simp only [Bool.false_eq_true, false_and, if_false]
    exact this2
  · refine instep_serves k ?_ (by rw [bookCompletion_rest]; rfl)
    intro ep dir hp hep
    have hev : (bookCompletion s.sie.lastTrn.ep s.sie.lastTrn.dir s.sie.lastTrn.parity (BdStat.pid s.latchedBd.stat) (clearTrn s)).ev.trn = false := by
      rw [bookCompletion_rest]; rfl
    rw [hev]
    simp only [Bool.false_eq_true, false_and, if_false]
    have hcfg : (bookCompletion s.sie.lastTrn.ep s.sie.lastTrn.dir s.sie.lastTrn.parity (BdStat.pid s.latchedBd.stat) (clearTrn s)).cfg = s.cfg := by
      rw [bookCompletion_rest]; rfl
    have hptr : (bookCompletion s.sie.lastTrn.ep s.sie.lastTrn.dir s.sie.lastTrn.parity (BdStat.pid s.latchedBd.stat) (clearTrn s)).ptrAt ep dir = s.ptrAt ep dir := by
      rw [bookCompletion_rest]; rfl
    have hp' : s.pp ep dir = true := by simpa [State.pp, hcfg] using hp
    have h0 := hb ep dir hp' (by rw [← hcfg]; exact hep)
    rw [hv] at h0
    have hpp : pp s.cfg.ppMode ep dir = true := hp'
    rw [hptr]
    by_cases hx : s.sie.lastTrn.ep = ep ∧ s.sie.lastTrn.dir = dir
    · obtain ⟨rfl, rfl⟩ := hx
      simp only [and_self, if_true] at h0
      have ho := bookCompletion_own (ep := s.sie.lastTrn.ep) (dir := s.sie.lastTrn.dir) (clearTrn s) s.sie.lastTrn.parity (BdStat.pid s.latchedBd.stat) (hs.eps_lt hl)
      simp only [State.nextPar, State.pp, hcfg, hpp, if_true]
      rw [ho, h0.2]
      simp [State.pp, clearTrn, hpp]
    · have ho := bookCompletion_other (e := ep) (d := dir) (ep := s.sie.lastTrn.ep) (dir := s.sie.lastTrn.dir) (clearTrn s) s.sie.lastTrn.parity (BdStat.pid s.latchedBd.stat) (by tauto)
      simp only [hx, and_false, if_false] at h0
      rw [h0]
      simp only [State.nextPar, State.pp, hcfg]
      rw [ho]
      rfl

theorem calm_resetFunction (s : State) : Calm s (resetFunction s) := by
  unfold resetFunction
  split
  · exact (calm_clearBot s).trans ⟨rfl, rfl, rfl, rfl, rfl, rfl, rfl, rfl, rfl, rfl, rfl, fun _ _ => ⟨rfl, rfl⟩⟩
  all_goals exact .refl s

theorem calm_resetEp0 (s : State) : Calm s (resetEp0 s) :=
  (((calm_setAddresses s 0 .out).trans (calm_setAddresses _ 0 .inp)).trans (calm_setCtrl _ _ _)).trans (calm_ep0ArmSetup _)

/-- Steps 1 to 4 of the bus reset (70 R430 to R433). -/
def resetTables (s : State) : State := resetEps (resetBdt (resetSie (resetRegisters s)))

theorem calm_busReset (s : State) : Calm (resetTables s) (busReset s) := (calm_resetEp0 _).trans (calm_resetFunction _)

theorem epsAt_map_reset' (l : List Eps) (i : Nat) : (l.map (fun _ => epsReset)).getD i epsReset = epsReset :=
  getD_map_same l (fun _ => epsReset) i epsReset rfl

theorem ptrAt_map_reset (l : List Parity) (i : Nat) : (l.map (fun _ => Parity.even)).getD i .even = .even :=
  getD_map_same l (fun _ => Parity.even) i .even rfl

theorem epsAt_resetTables (s : State) (ep : Ep) (dir : Dir) : (resetTables s).epsAt ep dir = epsReset :=
  epsAt_map_reset' _ _

theorem ptrAt_resetTables (s : State) (ep : Ep) (dir : Dir) : (resetTables s).ptrAt ep dir = .even := ptrAt_map_reset _ _

theorem instep_fresh {s : State} (he : ∀ ep dir, s.epsAt ep dir = epsReset) (hp : ∀ ep dir, s.ptrAt ep dir = .even)
    (hv : s.ev.trn = false) : s.InStep := by
  intro ep dir hpp _
  rw [hv]
  simp only [Bool.false_eq_true, false_and, if_false]
  rw [hp, State.nextPar, hpp, he]
  rfl

/-- Power-on before its function part (70 R440). -/
theorem powerOnInit_facts (s : State) :
    (powerOnInit s).ev = evReset ∧ (powerOnInit s).sie.enable = false ∧ (powerOnInit s).deviceState = .detached ∧
      (powerOnInit s).suspendedFrom = .dflt ∧ (∀ ep dir, (powerOnInit s).epsAt ep dir = epsReset) ∧
      (∀ ep dir, (powerOnInit s).ptrAt ep dir = .even) ∧ (powerOnInit s).script = s.script ∧
      (powerOnInit s).wire = s.wire := by
  unfold powerOnInit
  dsimp only
  split <;> exact ⟨rfl, rfl, rfl, rfl, fun _ _ => epsAt_map_reset' _ _, fun _ _ => ptrAt_map_reset _ _, rfl, rfl⟩

theorem bus_powerOnInit (s : State) : (powerOnInit s).BusState := by
  obtain ⟨a, b, c, d, _⟩ := powerOnInit_facts s
  refine ⟨by rw [b, c]; decide, fun _ => by rw [a]; rfl, by rw [c]; decide, by rw [d]; rfl⟩

theorem instep_powerOnInit (s : State) : (powerOnInit s).InStep := by
  obtain ⟨a, _, _, _, e, f, _⟩ := powerOnInit_facts s
  exact instep_fresh e f (by rw [a]; rfl)

theorem bus_busReset {s : State} (he : s.sie.enable = true) : (busReset s).BusState :=
  bus_calm (calm_busReset s) (busState_on he (fun h => by cases h) (fun h => by cases h) rfl)

theorem instep_busReset {s : State} (hv : s.ev.trn = false) : (busReset s).InStep :=
  instep_calm (calm_busReset s) (instep_fresh (epsAt_resetTables s) (ptrAt_resetTables s) hv)

/-- An update of the flags that keeps `trn`. -/
theorem instep_ev {s : State} (h : s.InStep) (e : Events) (he : e.trn = s.ev.trn) : ({ s with ev := e } : State).InStep := by
  intro ep dir hp hep
  have := h ep dir hp hep
  show if e.trn = true ∧ _ then _ else _
  rw [he]
  exact this

theorem bus_ev {s : State} (h : s.BusState) (e : Events) (he : e.trn = s.ev.trn ∨ e.trn = false) :
    ({ s with ev := e } : State).BusState :=
  ⟨h.enable, fun hc => by
    rcases he with he | he
    · show e.trn = false
      rw [he]; exact h.quiet hc
    · exact he, h.transient, h.back⟩

theorem enable_of_ne {s : State} (h : s.BusState) (hd : s.deviceState ≠ .detached) : s.sie.enable = true := by
  cases hx : s.sie.enable with
  | true => rfl
  | false => exact absurd (h.enable.2 hx) hd

/-- One turn of the loop of `isr` keeps both. -/
theorem serviceOne_keeps {s t : State} (h : serviceOne s = .next t) :
    (s.BusState → t.BusState) ∧ (s.Shaped → s.BusState → s.InStep → t.InStep) := by
  unfold serviceOne at h
  split at h
  · cases h
    exact ⟨fun _ => bus_powerOnInit _, fun _ _ _ => instep_powerOnInit _⟩
  split at h
  · cases h
    refine ⟨fun hb => ?_, fun _ _ hi => ?_⟩
    · unfold serviceAttach onAttach
      split
      · exact busState_on rfl (fun h => by cases h) (fun h => by cases h) hb.back
      · exact bus_ev hb _ (.inl rfl)
    · unfold serviceAttach onAttach
      split
      · exact instep_ev (s := { s with sie := { s.sie with enable := true }, deviceState := .powered }) hi _ rfl
      · exact instep_ev hi _ rfl
  split at h
  · cases h
    refine ⟨fun hb => ?_, fun _ _ hi => ?_⟩
    · unfold serviceActivity onActivity
      split
      · next hs =>
        have he := enable_of_ne hb (fun hc => by rw [show s.deviceState = .suspended from hs] at hc; cases hc)
        exact busState_on he (suspendable_ne hb.back).1 (suspendable_ne hb.back).2 hb.back
      · exact bus_ev hb _ (.inl rfl)
    · unfold serviceActivity onActivity
      split
      · exact instep_ev (s := { s with deviceState := s.suspendedFrom }) hi _ rfl
      · exact instep_ev hi _ rfl
  split at h
  · cases h
    refine ⟨fun hb => ?_, fun _ hb hi => ?_⟩
    · unfold serviceReset onReset
      split
      · exact bus_ev hb _ (.inr rfl)
      · next hd => exact bus_busReset (enable_of_ne (s := s) hb hd)
    · unfold serviceReset onReset
      split
      · next hd =>
        have : s.ev.trn = false := hb.quiet (hb.enable.1 hd)
        exact instep_ev hi _ this.symm
      · exact instep_busReset rfl
  split at h
  · cases h
    refine ⟨fun hb => ?_, fun _ _ hi => ?_⟩
    · unfold serviceIdle onIdle
      split
      · next hs =>
        have hs : suspendable s.deviceState = true := hs
        exact busState_on (enable_of_ne (s := s) hb (suspendable_ne hs).1) (fun h => by cases h) (fun h => by cases h) hs
      · exact bus_ev hb _ (.inl rfl)
    · unfold serviceIdle onIdle
      split
      · exact instep_ev (s := { s with suspendedFrom := s.deviceState, deviceState := .suspended }) hi _ rfl
      · exact instep_ev hi _ rfl
  split at h
  · cases h
    exact ⟨fun hb => bus_calm (calm_fnSof _) (bus_ev hb _ (.inl rfl)), fun _ _ hi => instep_calm (calm_fnSof _) (instep_ev hi _ rfl)⟩
  split at h
  · cases h
    exact ⟨fun hb => bus_ev hb _ (.inl rfl), fun _ _ hi => instep_ev hi _ rfl⟩
  split at h
  · next hv => exact ⟨fun hb => trn_bus h hb hv, fun hs _ hi => trn_instep h hs hi hv⟩
  · cases h
    exact ⟨id, fun _ _ => id⟩

theorem isrLoop_keeps {k : Nat} {s t : State} (h : isrLoop k s = .next t) :
    (s.BusState → t.BusState) ∧ (s.Shaped → s.BusState → s.InStep → t.InStep) := by
  induction k generalizing s with
  | zero => cases h; exact ⟨id, fun _ _ => id⟩
  | succ k ih =>
    unfold isrLoop at h
    split at h
    · cases hu : serviceOne s with
      | next u =>
        rw [hu] at h
        have a := serviceOne_keeps hu
        have b := ih h
        exact ⟨fun hb => b.1 (a.1 hb), fun hs hb hi => b.2 ((keepsR_serviceOne s u hu).shaped hs) (a.1 hb) (a.2 hs hb hi)⟩
      | fault e => rw [hu] at h; cases h
      | refused e => rw [hu] at h; cases h
    · cases h; exact ⟨id, fun _ _ => id⟩

end Sys2Proof.Machine
end

