-- ==== Sys2Proof/Laws/Turns.lean ====
section
/-! SUPPORT. The invariants `BusState` and `InStep` over a turn of the environment and over the operations that software
outside the engine may start. -/

namespace Sys2Proof.Machine

/-- A turn that touches no flag but raises, no latch, no parity. -/
structure Raises (s t : State) : Prop where
  cfg : t.cfg = s.cfg
  enable : t.sie.enable = s.sie.enable
  trn : t.ev.trn = s.ev.trn
  lastTrn : t.sie.lastTrn = s.sie.lastTrn
  device : t.deviceState = s.deviceState
  suspendedFrom : t.suspendedFrom = s.suspendedFrom
  parity : ∀ ep dir, (t.epsAt ep dir).lastParity = (s.epsAt ep dir).lastParity ∧ t.ptrAt ep dir = s.ptrAt ep dir

theorem Raises.refl (s : State) : Raises s s := ⟨rfl, rfl, rfl, rfl, rfl, rfl, fun _ _ => ⟨rfl, rfl⟩⟩

theorem Calm.raises {s t : State} (k : Calm s t) : Raises s t :=
  ⟨k.cfg, k.enable, by rw [k.ev], k.lastTrn, k.device, k.suspendedFrom, k.parity⟩

theorem Raises.trans {s t u : State} (a : Raises s t) (b : Raises t u) : Raises s u :=
  ⟨b.cfg.trans a.cfg, b.enable.trans a.enable, b.trn.trans a.trn, b.lastTrn.trans a.lastTrn, b.device.trans a.device,
    b.suspendedFrom.trans a.suspendedFrom,
    fun ep dir => ⟨(b.parity ep dir).1.trans (a.parity ep dir).1, (b.parity ep dir).2.trans (a.parity ep dir).2⟩⟩

theorem Raises.bus {s t : State} (k : Raises s t) (h : s.BusState) : t.BusState :=
  ⟨by rw [k.device, k.enable]; exact h.enable, by rw [k.enable, k.trn]; exact h.quiet, by rw [k.device]; exact h.transient,
    by rw [k.suspendedFrom]; exact h.back⟩

theorem Raises.instep {s t : State} (k : Raises s t) (h : s.InStep) : t.InStep := by
  intro ep dir hp hep
  rw [k.trn, k.lastTrn]
  have hp' : s.pp ep dir = true := by simpa [State.pp, k.cfg] using hp
  have := h ep dir hp' (by rw [← k.cfg]; exact hep)
  rw [nextPar_congr k.cfg (k.parity ep dir).1, (k.parity ep dir).2]
  exact this

theorem raises_raise (f : Events → Events) (hf : ∀ e, (f e).trn = e.trn) (s : State) : Raises s (raise f s) :=
  ⟨rfl, rfl, hf _, rfl, rfl, rfl, fun _ _ => ⟨rfl, rfl⟩⟩

theorem raises_wake (s : State) : Raises s (wake s) := by
  unfold wake
  split
  · exact ⟨rfl, rfl, rfl, rfl, rfl, rfl, fun _ _ => ⟨rfl, rfl⟩⟩
  · exact .refl s

theorem raises_answer (a : Answer) (s : State) : Raises s (answer a s) := ⟨rfl, rfl, rfl, rfl, rfl, rfl, fun _ _ => ⟨rfl, rfl⟩⟩

theorem raises_overrun (ep : Ep) (n : Nat) (s : State) : Raises s (overrun ep n s) :=
  ⟨rfl, rfl, rfl, rfl, rfl, rfl, fun _ _ => ⟨rfl, rfl⟩⟩

/-- A completed transaction: the latch names it and its pointer moved on (20 R89). -/
structure Latches (ep : Ep) (dir : Dir) (s t : State) : Prop where
  cfg : t.cfg = s.cfg
  enable : t.sie.enable = s.sie.enable
  trn : t.ev.trn = true
  lastTrn : t.sie.lastTrn = ⟨ep, dir, s.siePar ep dir⟩
  device : t.deviceState = s.deviceState
  suspendedFrom : t.suspendedFrom = s.suspendedFrom
  eps : t.eps = s.eps
  ptr : t.ptrAt ep dir = if s.pp ep dir then (s.ptrAt ep dir).other else s.ptrAt ep dir
  ptrs : ∀ e d, (e ≠ ep ∨ d ≠ dir) → t.ptrAt e d = s.ptrAt e d

theorem latches_complete {s : State} {ep : Ep} {dir : Dir} (b : Bd) (h : s.Shaped) (hep : ep.toNat < s.cfg.numEp) :
    Latches ep dir s (complete ep dir b s) := by
  have hl : epsIndex ep dir < s.sie.ptr.length := by rw [h.ptr]; exact epsIndex_lt dir hep
  unfold complete flipPtr
  dsimp only
  cases hp : pp s.cfg.ppMode ep dir with
  | false =>
    rw [if_neg (by simp [State.pp, hp])]
    exact ⟨rfl, rfl, rfl, rfl, rfl, rfl, rfl, (if_neg (by simp [State.pp, hp])).symm, fun _ _ _ => rfl⟩
  | true =>
    rw [if_pos (by simp [State.pp, hp])]
    refine ⟨rfl, rfl, rfl, rfl, rfl, rfl, rfl, ?_, fun e d hne => ?_⟩
    · rw [State.pp, hp, if_pos rfl]
      exact getD_set_eq _ _ _ _ hl
    · exact getD_set_ne _ _ _ _ _ (Ne.symm (epsIndex_ne hne))

theorem latches_receive {s : State} {ep : Ep} (pid : BitVec 4) (b : List Byte) (h : s.Shaped) (hep : ep.toNat < s.cfg.numEp) :
    Latches ep .out s (receive ep pid b s) := by
  have h' : ({ s with buf := writeBytes s.cfg.addrW s.buf (s.bd ep .out (s.siePar ep .out)).address b } : State).Shaped :=
    ⟨h.bdt, h.eps, h.ptr, h.ctrl, h.setup, h.cbw, h.resp, h.ring⟩
  have k := latches_complete (dir := .out)
    ⟨statWritten (Config.writeBackBit6 s.free) pid, BitVec.ofNat 10 b.length, (s.bd ep .out (s.siePar ep .out)).address⟩ h' hep
  exact ⟨k.cfg, k.enable, k.trn, k.lastTrn, k.device, k.suspendedFrom, k.eps, k.ptr, k.ptrs⟩

theorem Latches.bus {s t : State} {ep : Ep} {dir : Dir} (k : Latches ep dir s t) (h : s.BusState)
    (he : s.sie.enable = true) : t.BusState :=
  ⟨by rw [k.device, k.enable]; exact h.enable, fun hc => Bool.noConfusion ((k.enable.trans he).symm.trans hc),
    by rw [k.device]; exact h.transient, by rw [k.suspendedFrom]; exact h.back⟩

theorem Latches.instep {s t : State} {ep : Ep} {dir : Dir} (k : Latches ep dir s t) (h : s.InStep)
    (hv : s.ev.trn = false) : t.InStep := by
  intro e d hp hep
  have hp' : s.pp e d = true := by simpa [State.pp, k.cfg] using hp
  have h0 := h e d hp' (by rw [← k.cfg]; exact hep)
  rw [hv] at h0
  simp only [Bool.false_eq_true, false_and, if_false] at h0
  have hn : t.nextPar e d = s.nextPar e d := nextPar_congr k.cfg (by simp only [State.epsAt, k.eps])
  rw [k.trn, k.lastTrn, hn]
  by_cases hx : ep = e ∧ dir = d
  · obtain ⟨rfl, rfl⟩ := hx
    rw [if_pos ⟨rfl, rfl, rfl⟩]
    have hs : s.siePar ep dir = s.ptrAt ep dir := by simp [State.siePar, hp']
    exact ⟨by rw [hs, h0], by rw [k.ptr, hp', hs]; rfl⟩
  · rw [if_neg (by tauto), k.ptrs e d (by tauto)]
    exact h0

/-- An update after a completion that touches none of that. -/
theorem Latches.raises {s t u : State} {ep : Ep} {dir : Dir} (k : Latches ep dir s t) (r : Raises t u)
    (he : u.eps = t.eps) : Latches ep dir s u :=
  ⟨r.cfg.trans k.cfg, r.enable.trans k.enable, r.trn.trans k.trn, r.lastTrn.trans k.lastTrn, r.device.trans k.device,
    r.suspendedFrom.trans k.suspendedFrom, he.trans k.eps, by rw [(r.parity ep dir).2]; exact k.ptr,
    fun e d hne => by rw [(r.parity e d).2]; exact k.ptrs e d hne⟩

/-- A token raises at most, or completes a transaction of an attached, idle SIE. -/
def TokenOutcome (s t : State) : Prop :=
  Raises s t ∨ ∃ ep dir, s.sie.enable = true ∧ s.ev.trn = false ∧ Latches ep dir s t

theorem hears_parts {s : State} {a : Option DevAddr} {ep : Ep} {dir : Dir} (h : ¬s.hears a ep dir = false) :
    s.sie.enable = true ∧ ep.toNat < s.cfg.numEp := by
  simp only [State.hears, Bool.not_eq_false, Bool.and_eq_true, decide_eq_true_eq] at h
  exact ⟨h.1.1.1, h.1.2⟩

theorem outToken_outcome {s : State} (h : s.Shaped) (a : Option DevAddr) (ep : Ep) (tog : Bool) (b : List Byte) :
    TokenOutcome s (outToken a ep tog b s) := by
  unfold outToken
  dsimp only
  split
  · exact .inl (raises_answer _ s)
  next hh =>
  split
  · exact .inl (raises_answer _ s)
  split
  · exact .inl (raises_answer _ s)
  split
  · exact .inl (raises_answer _ s)
  split
  · exact .inl (raises_answer _ s)
  next hv =>
  split
  · refine .inr ⟨ep, .out, (hears_parts hh).1, by simpa using hv, ?_⟩
    exact (latches_receive _ _ h (hears_parts hh).2).raises (raises_answer _ _) rfl
  · exact .inl (raises_overrun _ _ s)

theorem inToken_outcome {s : State} (h : s.Shaped) (a : Option DevAddr) (ep : Ep) (ack : Bool) :
    TokenOutcome s (inToken a ep ack s) := by
  unfold inToken
  dsimp only
  split
  · exact .inl (raises_answer _ s)
  next hh =>
  split
  · exact .inl (raises_answer _ s)
  split
  · exact .inl (raises_answer _ s)
  split
  · exact .inl (raises_answer _ s)
  next hv =>
  split
  · refine .inr ⟨ep, .inp, (hears_parts hh).1, by simpa using hv, ?_⟩
    have h' : (answer (.data (s.bd ep .inp (s.siePar ep .inp)).stat.dtv
        (readBytes s.cfg.addrW s.buf (s.bd ep .inp (s.siePar ep .inp)).address
          (s.bd ep .inp (s.siePar ep .inp)).count.toNat)) s).Shaped :=
      ⟨h.bdt, h.eps, h.ptr, h.ctrl, h.setup, h.cbw, h.resp, h.ring⟩
    have k := latches_complete (dir := .inp)
      ⟨statWritten (Config.writeBackBit6 s.free) pidIn, (s.bd ep .inp (s.siePar ep .inp)).count,
        (s.bd ep .inp (s.siePar ep .inp)).address⟩ h' (hears_parts hh).2
    exact ⟨k.cfg, k.enable, k.trn, k.lastTrn, k.device, k.suspendedFrom, k.eps, k.ptr, k.ptrs⟩
  · exact .inl (raises_answer _ s)

theorem setupToken_outcome {s : State} (h : s.Shaped) (a : Option DevAddr) (b : List Byte) :
    TokenOutcome s (setupToken a b s) := by
  unfold setupToken
  split
  · exact .inl (raises_answer _ s)
  next hh =>
  have hh1 : ¬s.hears a 0 .out = false := fun hc => hh (.inl hc)
  have hv : s.ev.trn = false := by simpa using fun hc => hh (.inr (.inr hc))
  split
  · exact .inl (raises_overrun _ _ s)
  · refine .inr ⟨0, .out, (hears_parts hh1).1, hv, ?_⟩
    have k := latches_receive (ep := 0) pidSetup (fit 8 b) h (hears_parts hh1).2
    exact ⟨k.cfg, k.enable, k.trn, k.lastTrn, k.device, k.suspendedFrom, k.eps, k.ptr, k.ptrs⟩

theorem TokenOutcome.bus {s t : State} (k : TokenOutcome s t) (h : s.BusState) : t.BusState := by
  rcases k with k | ⟨_, _, he, _, k⟩
  · exact k.bus h
  · exact k.bus h he

theorem TokenOutcome.instep {s t : State} (k : TokenOutcome s t) (h : s.InStep) : t.InStep := by
  rcases k with k | ⟨_, _, _, hv, k⟩
  · exact k.instep h
  · exact k.instep h hv

theorem raises_hostTog (s : State) (b : Bool) : Raises s { s with hostTog := b } :=
  ⟨rfl, rfl, rfl, rfl, rfl, rfl, fun _ _ => ⟨rfl, rfl⟩⟩

theorem raises_hostAfterOut (s : State) (ep : Ep) (tog : Bool) : Raises s (hostAfterOut ep tog s) := by
  unfold hostAfterOut
  split
  exacts [raises_hostTog s _, raises_hostTog s s.hostTog]

theorem raises_hostAfterIn (s : State) (ep : Ep) (ack : Bool) : Raises s (hostAfterIn ep ack s) := by
  unfold hostAfterIn
  split
  exacts [raises_hostTog s _, raises_hostTog s s.hostTog]

/-- A turn of the environment keeps both. -/
theorem applyLine_keeps {s : State} (l : Line) (h : s.Shaped) :
    (s.BusState → (applyLine l s).BusState) ∧ (s.InStep → (applyLine l s).InStep) := by
  have r : ∀ {t : State}, Raises s t → (s.BusState → t.BusState) ∧ (s.InStep → t.InStep) := fun k => ⟨k.bus, k.instep⟩
  have hw : (wake s).Shaped := (keeps_wake s).shaped h
  have w := raises_wake s
  cases l with
  | attach => exact r ⟨rfl, rfl, rfl, rfl, rfl, rfl, fun _ _ => ⟨rfl, rfl⟩⟩
  | detach => exact r ⟨rfl, rfl, rfl, rfl, rfl, rfl, fun _ _ => ⟨rfl, rfl⟩⟩
  | reset =>
    unfold applyLine
    dsimp only
    split
    · exact r ⟨rfl, rfl, rfl, rfl, rfl, rfl, fun _ _ => ⟨rfl, rfl⟩⟩
    · exact r (raises_hostTog s false)
  | idle => exact r (raises_raise (fun e => { e with idle := true }) (fun _ => rfl) s)
  | activity => exact r (raises_raise (fun e => { e with activity := true }) (fun _ => rfl) s)
  | sof => exact r (raises_raise (fun e => { e with sof := true }) (fun _ => rfl) s)
  | error => exact r (raises_raise (fun e => { e with error := true }) (fun _ => rfl) s)
  | setup a b => exact ⟨fun hb => (setupToken_outcome hw a b).bus (w.bus hb), fun hi => (setupToken_outcome hw a b).instep (w.instep hi)⟩
  | out a ep tog b =>
    have k := raises_hostAfterOut (outToken a ep tog b (wake s)) ep tog
    exact ⟨fun hb => k.bus ((outToken_outcome hw a ep tog b).bus (w.bus hb)),
      fun hi => k.instep ((outToken_outcome hw a ep tog b).instep (w.instep hi))⟩
  | inp a ep ack =>
    have k := raises_hostAfterIn (inToken a ep ack (wake s)) ep ack
    exact ⟨fun hb => k.bus ((inToken_outcome hw a ep ack).bus (w.bus hb)),
      fun hi => k.instep ((inToken_outcome hw a ep ack).instep (w.instep hi))⟩
  | media p q => exact r ⟨rfl, rfl, rfl, rfl, rfl, rfl, fun _ _ => ⟨rfl, rfl⟩⟩
  | hostToggle tog => exact r (raises_hostTog s tog)
  | drain => exact r (calm_msdTasks s).raises

/-- So does any turn of an agent outside the engine. -/
theorem applyTurn_keeps {s : State} (a : Turn) (h : s.Shaped) :
    (s.BusState → (applyTurn a s).BusState) ∧ (s.InStep → (applyTurn a s).InStep) := by
  cases a with
  | line l => exact applyLine_keeps l h
  | early l => exact applyLine_keeps l h
  | service => exact ⟨id, id⟩
  | call i => exact ⟨id, id⟩
  | close => exact ⟨fun _ => bus_powerOnInit _, fun _ => instep_powerOnInit _⟩
  | app a => exact ⟨(calm_runApp s a).raises.bus, (calm_runApp s a).raises.instep⟩

theorem runLines_keeps {l : List Line} {s t : State} (h : runLines l s = .next t) (hs : s.Shaped) :
    (s.BusState → t.BusState) ∧ (s.BusState → s.InStep → t.InStep) := by
  induction l generalizing s with
  | nil => cases h; exact ⟨id, fun _ => id⟩
  | cons l r ih =>
    unfold runLines at h
    have ha := applyLine_keeps l hs
    have hsa := (keeps_applyLine s l).shaped hs
    cases hu : isr (applyLine l s) with
    | next u =>
      rw [hu] at h
      have a := isrLoop_keeps hu
      have b := ih h ((keepsR_isr _ u hu).shaped hsa)
      exact ⟨fun hb => b.1 (a.1 (ha.1 hb)), fun hb hi => b.2 (a.1 (ha.1 hb)) (a.2 hsa (ha.1 hb) (ha.2 hi))⟩
    | fault e => rw [hu] at h; cases h
    | refused e => rw [hu] at h; cases h

/-- The operations that software outside the engine may start keep both. -/
theorem callable_keeps {s t : State} {i : Instr} (hc : callable s.cfg i = true) (h : exec i s = .next t) (hs : s.Shaped) :
    (s.BusState → t.BusState) ∧ (s.BusState → s.InStep → t.InStep) := by
  have r : ∀ {u : State}, Calm s u → (s.BusState → u.BusState) ∧ (s.BusState → s.InStep → u.InStep) :=
    fun k => ⟨k.raises.bus, fun _ => k.raises.instep⟩
  unfold callable at hc
  split at hc
  · cases h; exact r (calm_reclaim _ _ _ _)
  · cases h; exact r (calm_armBd _ _ _ _ _ _)
  · cases h; exact r (calm_armBd _ _ _ _ _ _)
  · cases h; exact r (calm_rearm _ _ _ _ _ _)
  · cases h; exact r (calm_rearm _ _ _ _ _ _)
  · cases h; exact r (calm_stallEp _ _ _)
  · cases h; exact ⟨fun _ => bus_powerOnInit _, fun _ _ => instep_powerOnInit _⟩
  · cases h; exact r (calm_msdTasks _)
  · have := isrLoop_keeps h
    exact ⟨this.1, this.2 hs⟩
  all_goals first | exact runLines_keeps h hs | cases hc

end Sys2Proof.Machine
end

