-- ==== Sys2Proof/Laws/Isr.lean ====
section
/-! SUPPORT. The loop of `isr`: what stops it, what it leaves, and that no turn of it sets a flag. -/

namespace Sys2Proof.Machine

/-! What the HAL leaves alone, whoever calls it. -/

/-- The registers that no HAL call touches. -/
structure HalKeeps (s t : State) : Prop where
  rest : t = { s with bdt := t.bdt, eps := t.eps, sie := { s.sie with epCtrl := t.sie.epCtrl }, free := t.free }

theorem HalKeeps.refl (s : State) : HalKeeps s s := ⟨rfl⟩

theorem HalKeeps.trans {s t u : State} (a : HalKeeps s t) (b : HalKeeps t u) : HalKeeps s u := by
  have ha := a.rest
  have hb := b.rest
  constructor
  rw [ha] at hb
  exact hb

theorem hal_setBd (s : State) (ep : Ep) (dir : Dir) (par : Parity) (b : Bd) : HalKeeps s (s.setBd ep dir par b) := ⟨rfl⟩

theorem hal_armBd (s : State) (ep : Ep) (dir : Dir) (par : Parity) (tog : Bool) (n : Nat) :
    HalKeeps s (armBd ep dir par tog n s) := by
  unfold armBd
  split <;> exact ⟨rfl⟩

theorem hal_rearm (s : State) (ep : Ep) (dir : Dir) (par : Parity) (tog : Bool) (n : Nat) :
    HalKeeps s (rearm ep dir par tog n s) := by
  unfold rearm
  split
  · exact (hal_setBd s ep dir par _).trans (hal_armBd _ _ _ _ _ _)
  · exact hal_armBd _ _ _ _ _ _

theorem hal_forParities (s : State) (ep : Ep) (dir : Dir) (f : Parity → State → State) (hf : ∀ p t, HalKeeps t (f p t)) :
    HalKeeps s (forParities ep dir f s) := by
  unfold forParities
  generalize parities s.cfg.ppMode ep dir = l
  induction l generalizing s with
  | nil => exact .refl s
  | cons a r ih => exact (hf a s).trans (ih _)

theorem hal_stallEp (s : State) (ep : Ep) (dir : Dir) : HalKeeps s (stallEp ep dir s) := by
  have h := hal_forParities s ep dir (stall ep dir) (fun p t => hal_setBd t ep dir p _)
  unfold stallEp
  dsimp only
  split
  · exact h
  · exact h.trans ⟨rfl⟩

theorem hal_writeAddress (s : State) (ep : Ep) (dir : Dir) (par : Parity) : HalKeeps s (writeAddress ep dir par s) :=
  ⟨by rw [writeAddress_rest]⟩

theorem hal_setAddresses (s : State) (ep : Ep) (dir : Dir) : HalKeeps s (setAddresses ep dir s) :=
  hal_forParities s ep dir _ (fun p t => hal_writeAddress t ep dir p)

theorem hal_addressOwn (s : State) : HalKeeps s (addressOwn s) := by
  unfold addressOwn
  generalize s.cfg = c
  generalize functionEps c = l
  induction l generalizing s with
  | nil => exact .refl s
  | cons a r ih =>
    refine HalKeeps.trans ?_ (ih _)
    dsimp only
    split
    exacts [hal_setAddresses _ _ _, .refl s]

theorem hal_setCtrl (s : State) (ep : Ep) (c : EpCtrl) : HalKeeps s (s.setCtrl ep c) := ⟨rfl⟩

/-- What a HAL call of a function leaves: it may also fill the buffer of its own BD. -/
theorem fnCall_rest (i : Bool) (s : State) (f : FnCall) :
    fnCall i s f =
      { s with
        bdt := (fnCall i s f).bdt
        eps := (fnCall i s f).eps
        sie := { s.sie with epCtrl := (fnCall i s f).sie.epCtrl }
        buf := (fnCall i s f).buf
        free := (fnCall i s f).free } := by
  have hal : ∀ t, HalKeeps s t → t = { s with
      bdt := t.bdt, eps := t.eps, sie := { s.sie with epCtrl := t.sie.epCtrl }, buf := t.buf, free := t.free } := by
    intro t ht
    have := ht.rest
    have hb : t.buf = s.buf := by rw [this]
    rw [hb]
    exact this
  unfold fnCall fnFill
  split <;> split
  all_goals first
    | exact hal _ (hal_armBd _ _ _ _ _ _)
    | exact hal _ (hal_rearm _ _ _ _ _ _)
    | exact hal _ (hal_stallEp _ _ _)
    | rfl
    | (rw [fillOwn_rest])

/-- What the HAL calls of a hook leave. -/
theorem fnCalls_rest (i : Bool) (l : List FnCall) (s : State) :
    fnCalls i l s =
      { s with
        bdt := (fnCalls i l s).bdt
        eps := (fnCalls i l s).eps
        sie := { s.sie with epCtrl := (fnCalls i l s).sie.epCtrl }
        buf := (fnCalls i l s).buf
        free := (fnCalls i l s).free } := by
  induction l generalizing s with
  | nil => rfl
  | cons a r ih =>
    have h := ih (fnCall i s a)
    have k := fnCall_rest i s a
    show fnCalls i r (fnCall i s a) = _
    have e : fnCalls i (a :: r) s = fnCalls i r (fnCall i s a) := rfl
    rw [e]
    generalize fnCalls i r (fnCall i s a) = u at h ⊢
    generalize fnCall i s a = v at h k
    rw [k] at h
    exact h

/-- What the RAM writes of a hook leave. -/
theorem fnWrites_rest (l : List (Addr × Byte)) (s : State) :
    l.foldl fnWrite s = { s with ram := (l.foldl fnWrite s).ram } := by
  induction l generalizing s with
  | nil => rfl
  | cons a r ih =>
    rw [List.foldl_cons, ih]
    unfold fnWrite
    split <;> rfl

/-- What a function outside the block leaves, whatever it does (43 R278). -/
theorem fnRun_rest (i : Bool) (l : List FnCall) (r : List (Addr × Byte)) (n : Nat) (s : State) :
    fnRun i l r n s =
      { s with
        bdt := (fnRun i l r n s).bdt
        eps := (fnRun i l r n s).eps
        sie := { s.sie with epCtrl := (fnRun i l r n s).sie.epCtrl }
        buf := (fnRun i l r n s).buf
        ram := (fnRun i l r n s).ram
        fnState := n
        free := (fnRun i l r n s).free } := by
  have x := fnCalls_rest i l s
  have y := fnWrites_rest r (fnCalls i l s)
  unfold fnRun
  generalize fnCalls i l s = u at *
  generalize List.foldl fnWrite u r = v at *
  rw [x] at y
  rw [y]

/-- What an answer of a function outside the block leaves (43 R278, R280). -/
theorem answerHook_rest (i : Bool) (a : FnAnswer) (s : State) :
    answerHook i a s =
      { s with
        bdt := (answerHook i a s).bdt
        eps := (answerHook i a s).eps
        sie := { s.sie with epCtrl := (answerHook i a s).sie.epCtrl }
        buf := (answerHook i a s).buf
        ram := (answerHook i a s).ram
        fnState := (answerHook i a s).fnState
        reply := (answerHook i a s).reply
        free := (answerHook i a s).free } := by
  have x := fnRun_rest i a.calls a.ram a.st s
  unfold answerHook setReply
  generalize fnRun i a.calls a.ram a.st s = u at *
  rw [x]

/-- What a hook of a function outside the block leaves (43 R278, R280). -/
theorem oracleHook_rest (h : Hook) (args : List Nat) (s : State) :
    oracleHook h args s =
      { s with
        bdt := (oracleHook h args s).bdt
        eps := (oracleHook h args s).eps
        sie := { s.sie with epCtrl := (oracleHook h args s).sie.epCtrl }
        buf := (oracleHook h args s).buf
        ram := (oracleHook h args s).ram
        fnState := (oracleHook h args s).fnState
        reply := (oracleHook h args s).reply
        free := (oracleHook h args s).free } :=
  answerHook_rest _ _ s

/-- What `init()` of a function outside the block leaves (43 R273, R280). -/
theorem oracleInit_rest (s : State) :
    oracleInit s =
      { s with
        bdt := (oracleInit s).bdt
        eps := (oracleInit s).eps
        sie := { s.sie with epCtrl := (oracleInit s).sie.epCtrl }
        buf := (oracleInit s).buf
        ram := (oracleInit s).ram
        fnState := (oracleInit s).fnState
        reply := (oracleInit s).reply
        free := (oracleInit s).free } := by
  have x := (hal_addressOwn s).rest
  have y := answerHook_rest true (Config.oracle .init (fnView [] s)) (addressOwn s)
  unfold oracleInit
  generalize answerHook true (Config.oracle .init (fnView [] s)) (addressOwn s) = u at *
  generalize addressOwn s = v at *
  rw [x] at y
  exact y

theorem hidSof_rest (s : State) : hidSof s = { s with hid := (hidSof s).hid } := by
  unfold hidSof
  generalize List.range s.cfg.hid.inSizes.length = l
  induction l generalizing s with
  | nil => rfl
  | cons a r ih =>
    rw [List.foldl_cons, ih]
    unfold sofReport
    dsimp only
    split <;> rfl

/-- The function's SOF handler leaves the registers of BOT. -/
theorem fnSof_bot (s : State) : (fnSof s).bot = s.bot := by
  unfold fnSof
  split
  · rfl
  · rfl
  · rw [hidSof_rest]
  · rw [keepReply, setReply, oracleHook_rest]

/-! The ring. -/

theorem botEnqueue_ends (ep : Ep) (dir : Dir) (par : Parity) (n : Nat) (s : State) :
    (∃ t, botEnqueue ep dir par n s = .next t) ∨ (botEnqueue ep dir par n s = .fault .ringOverflow ∧ 4 ≤ s.bot.q.length) := by
  unfold botEnqueue
  split
  · split
    · next h => exact .inr ⟨rfl, h⟩
    · exact .inl ⟨_, rfl⟩
  · exact .inl ⟨_, rfl⟩

theorem fnTasks_ends (ep : Ep) (dir : Dir) (par : Parity) (n : Nat) (s : State) :
    (∃ t, fnTasks ep dir par n s = .next t) ∨ (fnTasks ep dir par n s = .fault .ringOverflow ∧ 4 ≤ s.bot.q.length) := by
  unfold fnTasks
  split
  · exact botEnqueue_ends _ _ _ _ _
  all_goals exact .inl ⟨_, rfl⟩

theorem trnService_ends (s : State) :
    (∃ t, trnService s = .next t) ∨ (trnService s = .fault .ringOverflow ∧ 4 ≤ s.bot.q.length) := by
  unfold trnService
  dsimp only
  split
  · exact .inl ⟨_, rfl⟩
  split
  · exact .inl ⟨_, rfl⟩
  · have h := fnTasks_ends s.sie.lastTrn.ep s.sie.lastTrn.dir s.sie.lastTrn.parity s.latchedBd.count.toNat
      (bookCompletion s.sie.lastTrn.ep s.sie.lastTrn.dir s.sie.lastTrn.parity (BdStat.pid s.latchedBd.stat) (clearTrn s))
    rcases h with h | ⟨h, hq⟩
    · exact .inl h
    · exact .inr ⟨h, by rw [bookCompletion_rest] at hq; exact hq⟩

/-! The flags. -/

/-- How many flags are set. -/
def flagCount (e : Events) : Nat :=
  e.reset.toNat + e.idle.toNat + e.activity.toNat + e.trn.toNat + e.sof.toNat + e.error.toNat + e.attach.toNat +
    e.detach.toNat

theorem irq_iff (e : Events) : irq e = true ↔ 1 ≤ flagCount e := by
  cases e with
  | mk a b c d x y z w => cases a <;> cases b <;> cases c <;> cases d <;> cases x <;> cases y <;> cases z <;> cases w <;> decide

theorem flagCount_le (e : Events) : flagCount e ≤ 8 := by
  cases e with
  | mk a b c d x y z w => cases a <;> cases b <;> cases c <;> cases d <;> cases x <;> cases y <;> cases z <;> cases w <;> decide

theorem flagCount_zero {e : Events} (h : flagCount e = 0) : e = evReset := by
  revert h
  cases e with
  | mk a b c d x y z w => cases a <;> cases b <;> cases c <;> cases d <;> cases x <;> cases y <;> cases z <;> cases w <;> decide

theorem trnService_ev {s t : State} (h : trnService s = .next t) : t.ev = { s.ev with trn := false } := by
  rcases trnService_cases h with ⟨_, rfl⟩ | ⟨_, k⟩
  · rfl
  · rw [k.ev, bookCompletion_rest]
    rfl

theorem busReset_ev (s : State) : (busReset s).ev = s.ev := (calm_busReset s).ev

theorem fnSof_ev (s : State) : (fnSof s).ev = s.ev := (calm_fnSof s).ev

/-- A turn of the loop clears a flag and sets none. -/
theorem serviceOne_flags {s t : State} (h : serviceOne s = .next t) (hi : irq s.ev = true) :
    flagCount t.ev < flagCount s.ev := by
  unfold serviceOne at h
  split at h
  · cases h
    have : (serviceDetach s).ev = evReset := (powerOnInit_facts _).1
    rw [this]
    exact (irq_iff _).1 hi
  split at h
  · next hf =>
    cases h
    have : (serviceAttach s).ev = { s.ev with attach := false } := by unfold serviceAttach onAttach; split <;> rfl
    rw [this]
    simp [flagCount, hf]
  split at h
  · next hf =>
    cases h
    have : (serviceActivity s).ev = { s.ev with activity := false } := by unfold serviceActivity onActivity; split <;> rfl
    rw [this]
    simp [flagCount, hf]
  split at h
  · next hf =>
    cases h
    have : (serviceReset s).ev = { s.ev with reset := false, trn := false, idle := false } := by
      unfold serviceReset onReset; split
      · rfl
      · exact busReset_ev _
    rw [this]
    simp [flagCount, hf]; omega
  split at h
  · next hf =>
    cases h
    have : (serviceIdle s).ev = { s.ev with idle := false } := by unfold serviceIdle onIdle; split <;> rfl
    rw [this]
    simp [flagCount, hf]
  split at h
  · next hf =>
    cases h
    have : (serviceSof s).ev = { s.ev with sof := false } := fnSof_ev _
    rw [this]
    simp [flagCount, hf]
  split at h
  · next hf =>
    cases h
    have : (serviceError s).ev = { s.ev with error := false } := rfl
    rw [this]
    simp [flagCount, hf]
  split at h
  · next hf =>
    rw [trnService_ev h]
    simp [flagCount, hf]
  · next h1 h2 h3 h4 h5 h6 h7 h8 =>
    simp [irq, h1, h2, h3, h4, h5, h6, h7, h8] at hi

/-- The loop comes to the same with any fuel that covers the flags. -/
theorem isrLoop_fuel {k m : Nat} {s : State} (hk : flagCount s.ev ≤ k) (hm : flagCount s.ev ≤ m) :
    isrLoop k s = isrLoop m s := by
  induction k generalizing m s with
  | zero =>
    have hi : irq s.ev = false := by
      cases hh : irq s.ev with
      | false => rfl
      | true => have := (irq_iff _).1 hh; omega
    cases m with
    | zero => rfl
    | succ m => simp [isrLoop, hi]
  | succ k ih =>
    cases hh : irq s.ev with
    | false => cases m <;> simp [isrLoop, hh]
    | true =>
      have h1 := (irq_iff _).1 hh
      cases m with
      | zero => omega
      | succ m =>
        unfold isrLoop
        rw [if_pos hh, if_pos hh]
        cases hu : serviceOne s with
        | next u =>
          have := serviceOne_flags hu hh
          exact ih (by omega) (by omega)
        | fault e => rfl
        | refused e => rfl

theorem isrLoop_done {k : Nat} {s : State} (h : flagCount s.ev = 0) : isrLoop k s = .next s := by
  rw [isrLoop_fuel (k := k) (m := 0) (by omega) (by omega)]
  rfl

theorem isr_unfold {s : State} (h : irq s.ev = true) : isr s = andThen (serviceOne s) isr := by
  unfold isr
  rw [isrLoop, if_pos h]
  cases hu : serviceOne s with
  | next u =>
    have := serviceOne_flags hu h
    have := flagCount_le s.ev
    exact isrLoop_fuel (by omega) (flagCount_le _)
  | fault e => rfl
  | refused e => rfl

theorem isr_quiet {s : State} (h : s.ev = evReset) : isr s = .next s := isrLoop_done (by rw [h]; rfl)

/-- The service of an event by its decoded operation (60 R401). -/
theorem serviceOne_decoded {s : State} {i : Instr} (h : decodeEvent s.ev = some i) : serviceOne s = exec i s ∧ irq s.ev = true := by
  unfold decodeEvent at h
  unfold serviceOne irq
  split at h
  · next hf => cases h; simp only [hf, if_true]; exact ⟨rfl, by simp⟩
  next h1 =>
  split at h
  · next hf => cases h; simp only [h1, hf, if_true]; exact ⟨rfl, by simp⟩
  next h2 =>
  split at h
  · next hf => cases h; simp only [h1, h2, hf, if_true]; exact ⟨rfl, by simp⟩
  next h3 =>
  split at h
  · next hf => cases h; simp only [h1, h2, h3, hf, if_true]; exact ⟨rfl, by simp⟩
  next h4 =>
  split at h
  · next hf => cases h; simp only [h1, h2, h3, h4, hf, if_true]; exact ⟨rfl, by simp⟩
  next h5 =>
  split at h
  · next hf => cases h; simp only [h1, h2, h3, h4, h5, hf, if_true]; exact ⟨rfl, by simp⟩
  next h6 =>
  split at h
  · next hf => cases h; simp only [h1, h2, h3, h4, h5, h6, hf, if_true]; exact ⟨rfl, by simp⟩
  next h7 =>
  split at h
  · next hf => cases h; simp only [h1, h2, h3, h4, h5, h6, h7, hf, if_true]; exact ⟨rfl, by simp⟩
  · cases h

theorem decodeEvent_none {e : Events} (h : decodeEvent e = none) : e = evReset := by
  revert h
  cases e with
  | mk a b c d x y z w => cases a <;> cases b <;> cases c <;> cases d <;> cases x <;> cases y <;> cases z <;> cases w <;> decide

theorem hal_resetEp0 (s : State) : HalKeeps s (resetEp0 s) :=
  ((hal_setAddresses s 0 .out).trans (hal_setAddresses _ 0 .inp)).trans ((hal_setCtrl _ 0 _).trans (hal_rearm _ 0 .out _ _ _))

theorem resetEp0_bot (s : State) : (resetEp0 s).bot = s.bot := by rw [(hal_resetEp0 s).rest]

/-- A turn of the loop ends in a next state or in the ring's fault; the ring does not grow before a completion is served. -/
theorem serviceOne_ends (s : State) :
    (∃ t, serviceOne s = .next t ∧ (t.bot.q.length ≤ s.bot.q.length ∨ t.ev = evReset)) ∨
      (serviceOne s = .fault .ringOverflow ∧ 4 ≤ s.bot.q.length) := by
  unfold serviceOne
  split
  · refine .inl ⟨_, rfl, .inl ?_⟩
    unfold serviceDetach onDetach powerOnInit
    dsimp only
    split
    · exact Nat.zero_le _
    all_goals exact Nat.le_refl _
  split
  · refine .inl ⟨_, rfl, .inl ?_⟩
    unfold serviceAttach onAttach
    split <;> exact Nat.le_refl _
  split
  · refine .inl ⟨_, rfl, .inl ?_⟩
    unfold serviceActivity onActivity
    split <;> exact Nat.le_refl _
  split
  · refine .inl ⟨_, rfl, .inl ?_⟩
    unfold serviceReset onReset
    split
    · exact Nat.le_refl _
    · unfold busReset resetFunction
      split
      · exact Nat.zero_le _
      all_goals rw [resetEp0_bot]; exact Nat.le_refl _
  split
  · refine .inl ⟨_, rfl, .inl ?_⟩
    unfold serviceIdle onIdle
    split <;> exact Nat.le_refl _
  split
  · refine .inl ⟨_, rfl, .inl ?_⟩
    unfold serviceSof
    rw [fnSof_bot]
  split
  · exact .inl ⟨_, rfl, .inl (Nat.le_refl _)⟩
  split
  · next h1 h2 h3 h4 h5 h6 h7 h8 =>
    rcases trnService_ends s with ⟨t, ht⟩ | h
    · refine .inl ⟨t, ht, .inr ?_⟩
      rw [trnService_ev ht]
      simp only [Bool.not_eq_true] at h1 h2 h3 h4 h5 h6 h7
      simp [evReset, h1, h2, h3, h4, h5, h6, h7]
    · exact .inr h
  · exact .inl ⟨_, rfl, .inl (Nat.le_refl _)⟩

theorem isrLoop_ends (k : Nat) (s : State) :
    (∃ t, isrLoop k s = .next t) ∨ (isrLoop k s = .fault .ringOverflow ∧ 4 ≤ s.bot.q.length) := by
  induction k generalizing s with
  | zero => exact .inl ⟨_, rfl⟩
  | succ k ih =>
    unfold isrLoop
    split
    · rcases serviceOne_ends s with ⟨t, ht, hq⟩ | ⟨hf, hq⟩
      · rw [ht]
        rcases hq with hq | hv
        · rcases ih t with h | ⟨h, h4⟩
          · exact .inl h
          · exact .inr ⟨h, Nat.le_trans h4 hq⟩
        · exact .inl ⟨t, isrLoop_done (by rw [hv]; rfl)⟩
      · rw [hf]
        exact .inr ⟨rfl, hq⟩
    · exact .inl ⟨_, rfl⟩

theorem isr_ends (s : State) : (∃ t, isr s = .next t) ∨ (isr s = .fault .ringOverflow ∧ 4 ≤ s.bot.q.length) :=
  isrLoop_ends 8 s

/-- The loop ends with every flag clear. -/
theorem isrLoop_clears {k : Nat} {s t : State} (hk : flagCount s.ev ≤ k) (h : isrLoop k s = .next t) : t.ev = evReset := by
  induction k generalizing s with
  | zero =>
    cases h
    exact flagCount_zero (by omega)
  | succ k ih =>
    unfold isrLoop at h
    split at h
    · next hi =>
      cases hu : serviceOne s with
      | next u =>
        rw [hu] at h
        have := serviceOne_flags hu hi
        exact ih (by omega) h
      | fault e => rw [hu] at h; cases h
      | refused e => rw [hu] at h; cases h
    · next hi =>
      cases h
      refine flagCount_zero ?_
      have : ¬1 ≤ flagCount t.ev := fun hc => hi ((irq_iff _).2 hc)
      omega

theorem isr_clears {s t : State} (h : isr s = .next t) : t.ev = evReset := isrLoop_clears (flagCount_le _) h

/-- While the latch names endpoint 0, no service of the loop can fill the ring. -/
theorem serviceOne_ep0 {s : State} (h : s.ev.trn = true → s.sie.lastTrn.ep = 0) :
    ∃ t, serviceOne s = .next t ∧ (t.ev.trn = true → t.sie.lastTrn.ep = 0) := by
  unfold serviceOne
  split
  · refine ⟨_, rfl, fun hv => ?_⟩
    rw [show (serviceDetach s).ev = evReset from (powerOnInit_facts _).1] at hv
    cases hv
  split
  · refine ⟨_, rfl, ?_⟩
    unfold serviceAttach onAttach
    split <;> exact h
  split
  · refine ⟨_, rfl, ?_⟩
    unfold serviceActivity onActivity
    split <;> exact h
  split
  · refine ⟨_, rfl, fun hv => ?_⟩
    have : (serviceReset s).ev.trn = false := by
      unfold serviceReset onReset
      split
      · rfl
      · rw [busReset_ev]
    rw [this] at hv
    cases hv
  split
  · refine ⟨_, rfl, ?_⟩
    unfold serviceIdle onIdle
    split <;> exact h
  split
  · refine ⟨_, rfl, ?_⟩
    unfold serviceSof
    rw [(calm_fnSof _).ev, (calm_fnSof _).lastTrn]
    exact h
  split
  · exact ⟨_, rfl, h⟩
  split
  · next hv =>
    have h0 := h hv
    unfold trnService
    dsimp only
    split
    · exact ⟨_, rfl, fun hc => by cases hc⟩
    · refine ⟨_, rfl, fun hc => ?_⟩
      rw [(serves_ep0Dispatch _ _ _ _ _).ev, bookCompletion_rest] at hc
      cases hc
  · exact ⟨_, rfl, h⟩

theorem isrLoop_ep0 {k : Nat} {s : State} (h : s.ev.trn = true → s.sie.lastTrn.ep = 0) : ∃ t, isrLoop k s = .next t := by
  induction k generalizing s with
  | zero => exact ⟨_, rfl⟩
  | succ k ih =>
    unfold isrLoop
    split
    · obtain ⟨t, ht, hq⟩ := serviceOne_ep0 h
      rw [ht]
      exact ih hq
    · exact ⟨_, rfl⟩

theorem wake_bot (s : State) : (wake s).bot = s.bot := by unfold wake; split <;> rfl

theorem wake_trn (s : State) : (wake s).ev.trn = s.ev.trn := (raises_wake s).trn

theorem flipPtr_bot (s : State) (ep : Ep) (dir : Dir) : (flipPtr ep dir s).bot = s.bot := by unfold flipPtr; split <;> rfl

theorem complete_bot (s : State) (ep : Ep) (dir : Dir) (b : Bd) : (complete ep dir b s).bot = s.bot := by
  unfold complete
  dsimp only
  rw [flipPtr_bot]
  rfl

theorem receive_bot (s : State) (ep : Ep) (pid : BitVec 4) (b : List Byte) : (receive ep pid b s).bot = s.bot := by
  unfold receive
  dsimp only
  rw [complete_bot]

theorem outToken_bot (s : State) (a : Option DevAddr) (ep : Ep) (tog : Bool) (b : List Byte) :
    (outToken a ep tog b s).bot = s.bot := by
  unfold outToken
  dsimp only
  repeat' split
  all_goals first | rfl | exact receive_bot _ _ _ _

theorem setupToken_bot (s : State) (a : Option DevAddr) (b : List Byte) : (setupToken a b s).bot = s.bot := by
  unfold setupToken
  dsimp only
  repeat' split
  all_goals first | rfl | exact receive_bot _ _ _ _

/-- After an IN token to endpoint 0 on a quiet SIE, the latch names endpoint 0. -/
theorem inToken_ep0 (s : State) (a : Option DevAddr) (ack : Bool) (h : s.ev.trn = false) :
    (inToken a 0 ack s).ev.trn = true → (inToken a 0 ack s).sie.lastTrn.ep = 0 := by
  unfold inToken
  dsimp only
  repeat' split
  all_goals first
    | (intro hc; exact absurd (h.symm.trans hc) (by decide))
    | (intro _; unfold complete flipPtr; dsimp only; split <;> rfl)

theorem hostAfterIn_ep0 (ep : Ep) (ack : Bool) {t : State} (h : t.ev.trn = true → t.sie.lastTrn.ep = 0) :
    (hostAfterIn ep ack t).ev.trn = true → (hostAfterIn ep ack t).sie.lastTrn.ep = 0 := by
  unfold hostAfterIn
  split <;> exact h

/-- The sequences of two lines end as their first service does (30 R151). -/
theorem requestLines_ends (b : List Byte) (s : State) :
    (∃ t, runLines (requestLines b) s = .next t) ∨
      (runLines (requestLines b) s = .fault .ringOverflow ∧ 4 ≤ s.bot.q.length) := by
  have hb : (applyLine (.setup none b) s).bot = s.bot := (setupToken_bot _ _ _).trans (wake_bot s)
  unfold requestLines runLines
  rcases isr_ends (applyLine (.setup none b) s) with ⟨u, hu⟩ | ⟨hf, h4⟩
  · left
    have hv : (wake u).ev.trn = false := by rw [wake_trn, isr_clears hu]; rfl
    obtain ⟨t, ht⟩ := isrLoop_ep0 (k := 8) (hostAfterIn_ep0 0 true (inToken_ep0 (wake u) none true hv))
    refine ⟨t, ?_⟩
    rw [hu]
    show andThen (isr (applyLine (.inp none 0 true) u)) (runLines []) = _
    rw [show isr (applyLine (.inp none 0 true) u) = .next t from ht]
    rfl
  · rw [hf]
    exact .inr ⟨rfl, by rw [hb] at h4; exact h4⟩

end Sys2Proof.Machine
end

