-- ==== Sys2Proof/Laws/Away.lean ====
section
/-! SUPPORT. What the BOT engine and the hooks of a function leave alone: endpoint 0, the control engine, the SIE but
for the enables of other endpoints. One lemma for each operation, as in `Keeps`. -/

namespace Sys2Proof.Machine

/-- Nothing of endpoint 0 or of the control engine changed. -/
structure Apart (s t : State) : Prop where
  cfg : t.cfg = s.cfg
  stage : t.stage = s.stage
  setup : t.setup = s.setup
  ctl : t.ctl = s.ctl
  pendingAddress : t.pendingAddress = s.pendingAddress
  addressPending : t.addressPending = s.addressPending
  device : t.deviceState = s.deviceState
  ev : t.ev = s.ev
  sie : t.sie = { s.sie with epCtrl := t.sie.epCtrl }
  eps : ∀ dir, t.epsAt 0 dir = s.epsAt 0 dir
  bd : ∀ dir par, t.bd 0 dir par = s.bd 0 dir par
  ctrl : t.ctrlAt 0 = s.ctrlAt 0

theorem Apart.refl (s : State) : Apart s s := ⟨rfl, rfl, rfl, rfl, rfl, rfl, rfl, rfl, rfl, fun _ => rfl, fun _ _ => rfl, rfl⟩

theorem Apart.trans {s t u : State} (a : Apart s t) (b : Apart t u) : Apart s u where
  cfg := b.cfg.trans a.cfg
  stage := b.stage.trans a.stage
  setup := b.setup.trans a.setup
  ctl := b.ctl.trans a.ctl
  pendingAddress := b.pendingAddress.trans a.pendingAddress
  addressPending := b.addressPending.trans a.addressPending
  device := b.device.trans a.device
  ev := b.ev.trans a.ev
  sie := by
    have hb := b.sie
    rw [a.sie] at hb
    exact hb
  eps := fun dir => (b.eps dir).trans (a.eps dir)
  bd := fun dir par => (b.bd dir par).trans (a.bd dir par)
  ctrl := b.ctrl.trans a.ctrl

/-- `Apart`, of a machine with a well-formed configuration. -/
def Away (s t : State) : Prop := s.cfg.wf = true → Apart s t

theorem Away.refl (s : State) : Away s s := fun _ => .refl s

theorem Away.trans {s t u : State} (a : Away s t) (b : Away t u) : Away s u :=
  fun h => (a h).trans (b (by rw [(a h).cfg]; exact h))

/-- The same of an outcome. -/
def AwayR (s : State) (r : Result) : Prop := ∀ t, r = .next t → Away s t

theorem awayR_next {s t : State} (h : Away s t) : AwayR s (.next t) := by
  intro u hu
  cases hu
  exact h

theorem away_of_wf {s t : State} (h : s.cfg.wf = true → Away s t) : Away s t := fun hw => h hw hw

section
variable (s : State) (ep : Ep) (dir : Dir) (par : Parity)

theorem away_setBd (h : ep ≠ 0) (b : Bd) : Away s (s.setBd ep dir par b) := fun _ =>
  ⟨rfl, rfl, rfl, rfl, rfl, rfl, rfl, rfl, rfl, fun _ => rfl, fun _ _ => State.bd_setBd_other _ (.inl (Ne.symm h)), rfl⟩

theorem away_setEps (h : ep ≠ 0) (e : Eps) : Away s (s.setEps ep dir e) := fun _ =>
  ⟨rfl, rfl, rfl, rfl, rfl, rfl, rfl, rfl, rfl, fun _ => State.epsAt_setEps_other _ (.inl (Ne.symm h)), fun _ _ => rfl, rfl⟩

theorem away_setCtrl (h : ep ≠ 0) (c : EpCtrl) : Away s (s.setCtrl ep c) := fun _ =>
  ⟨rfl, rfl, rfl, rfl, rfl, rfl, rfl, rfl, rfl, fun _ => rfl, fun _ _ => rfl,
    getD_set_ne _ _ _ _ _ (fun hc => ep_toNat_ne_zero h hc)⟩

theorem away_armBd (h : ep ≠ 0) (tog : Bool) (n : Nat) : Away s (armBd ep dir par tog n s) := by
  unfold armBd
  split
  · exact (away_setBd s ep dir par h _).trans (fun _ => ⟨rfl, rfl, rfl, rfl, rfl, rfl, rfl, rfl, rfl, fun _ => rfl, fun _ _ => rfl, rfl⟩)
  · exact away_setBd _ _ _ _ h _

theorem away_fillOwn (b : List Byte) : Away s (fillOwn ep dir par b s) := by
  rw [fillOwn_rest]
  exact (fun _ => ⟨rfl, rfl, rfl, rfl, rfl, rfl, rfl, rfl, rfl, fun _ => rfl, fun _ _ => rfl, rfl⟩)

theorem away_fillBuf (b : List Byte) : Away s (fillBuf ep dir par b s) := by
  rw [fillBuf_rest]
  exact (fun _ => ⟨rfl, rfl, rfl, rfl, rfl, rfl, rfl, rfl, rfl, fun _ => rfl, fun _ _ => rfl, rfl⟩)

theorem away_writeAddress (h : ep ≠ 0) : Away s (writeAddress ep dir par s) := by
  obtain ⟨a, -, e⟩ := writeAddress_eq s ep dir par
  rw [e]
  exact (away_setBd s ep dir par h _).trans (fun _ => ⟨rfl, rfl, rfl, rfl, rfl, rfl, rfl, rfl, rfl, fun _ => rfl, fun _ _ => rfl, rfl⟩)

theorem away_rearm (h : ep ≠ 0) (tog : Bool) (n : Nat) : Away s (rearm ep dir par tog n s) := by
  unfold rearm
  split
  · exact (away_setBd s ep dir par h _).trans (away_armBd _ _ _ _ h _ _)
  · exact away_armBd _ _ _ _ h _ _

theorem away_foldl {α : Type} (l : List α) (f : State → α → State) (hf : ∀ t a, Away t (f t a)) (s : State) :
    Away s (l.foldl f s) := by
  induction l generalizing s with
  | nil => exact .refl s
  | cons a r ih => exact (hf s a).trans (ih _)

theorem away_forParities (f : Parity → State → State) (hf : ∀ p t, Away t (f p t)) : Away s (forParities ep dir f s) :=
  away_foldl _ _ (fun t p => hf p t) s

theorem away_stallEp (h : ep ≠ 0) : Away s (stallEp ep dir s) := by
  have k := away_forParities s ep dir (stall ep dir) (fun p t => away_setBd t ep dir p h _)
  unfold stallEp
  dsimp only
  split
  · exact k
  · exact k.trans (away_setEps _ _ _ h _)

theorem away_setAddresses (h : ep ≠ 0) : Away s (setAddresses ep dir s) :=
  away_forParities _ _ _ _ (fun p t => away_writeAddress t _ _ p h)

theorem bulkNonzero_of_wf {c : Config} (h : c.wf = true) : 1 ≤ c.bulkOutEp.toNat ∧ 1 ≤ c.bulkInEp.toNat := by
  simp only [Config.wf, Config.bulkNonzero, Bool.and_eq_true, decide_eq_true_eq] at h
  exact h.1.1.1.1.1.1.1.2

theorem ep_ne_of_pos {ep : Ep} (h : 1 ≤ ep.toNat) : ep ≠ 0 := fun hc => by rw [hc] at h; exact absurd h (by decide)

theorem bulkOut_ne (h : s.cfg.wf = true) : s.cfg.bulkOutEp ≠ 0 := ep_ne_of_pos (bulkNonzero_of_wf h).1

theorem bulkIn_ne (h : s.cfg.wf = true) : s.cfg.bulkInEp ≠ 0 := ep_ne_of_pos (bulkNonzero_of_wf h).2

theorem bulkEp_ne (h : s.cfg.wf = true) : s.bulkEp dir ≠ 0 := by
  cases dir
  · exact bulkOut_ne s h
  · exact bulkIn_ne s h

theorem away_bulkArmOut (n : Nat) : Away s (bulkArmOut n s) := away_of_wf fun h => away_rearm _ _ _ _ (bulkOut_ne s h) _ _

theorem away_bulkArmIn (n : Nat) : Away s (bulkArmIn n s) := away_of_wf fun h => away_rearm _ _ _ _ (bulkIn_ne s h) _ _

theorem away_loadBulkIn (b : List Byte) : Away s (loadBulkIn b s) := (fun _ => ⟨rfl, rfl, rfl, rfl, rfl, rfl, rfl, rfl, rfl, fun _ => rfl, fun _ _ => rfl, rfl⟩)

end

/-! The Bulk-Only Transport engine. -/

section
variable (s : State)

theorem away_setBotState (b : BotState) : Away s (setBotState b s) :=
  (fun _ => ⟨rfl, rfl, rfl, rfl, rfl, rfl, rfl, rfl, rfl, fun _ => rfl, fun _ _ => rfl, rfl⟩)

theorem away_setResidue (r : Word) : Away s (setResidue r s) :=
  (fun _ => ⟨rfl, rfl, rfl, rfl, rfl, rfl, rfl, rfl, rfl, fun _ => rfl, fun _ _ => rfl, rfl⟩)

theorem away_setStatus (c : CswStatus) : Away s (setStatus c s) :=
  (fun _ => ⟨rfl, rfl, rfl, rfl, rfl, rfl, rfl, rfl, rfl, fun _ => rfl, fun _ _ => rfl, rfl⟩)

theorem away_stallAndWait (dir : Dir) : Away s (stallAndWait dir s) :=
  (away_of_wf fun h => away_stallEp s (s.bulkEp dir) dir (bulkEp_ne s dir h)).trans (fun _ => ⟨rfl, rfl, rfl, rfl, rfl, rfl, rfl, rfl, rfl, fun _ => rfl, fun _ _ => rfl, rfl⟩)

theorem away_senseOnComplete : Away s (senseOnComplete s) := by
  unfold senseOnComplete
  split
  · exact (fun _ => ⟨rfl, rfl, rfl, rfl, rfl, rfl, rfl, rfl, rfl, fun _ => rfl, fun _ _ => rfl, rfl⟩)
  · exact .refl s

theorem away_loadCsw : Away s (loadCsw s) := away_loadBulkIn _ _

theorem away_sendCsw : Away s (sendCsw s) :=
  ((away_senseOnComplete s).trans (away_loadCsw _)).trans ((away_bulkArmIn _ _).trans (away_setBotState _ _))

theorem away_noDataCsw : Away s (noDataCsw s) := (away_setBotState s _).trans (away_sendCsw _)

theorem away_cswComplete : Away s (cswComplete s) := (away_bulkArmOut s _).trans (away_setBotState _ _)

theorem away_loadChunk (n : Nat) : Away s (loadChunk n s) := by
  unfold loadChunk
  split
  · exact (fun _ => ⟨rfl, rfl, rfl, rfl, rfl, rfl, rfl, rfl, rfl, fun _ => rfl, fun _ _ => rfl, rfl⟩)
  · exact away_loadBulkIn s _
  · exact (fun _ => ⟨rfl, rfl, rfl, rfl, rfl, rfl, rfl, rfl, rfl, fun _ => rfl, fun _ _ => rfl, rfl⟩)

theorem away_countDown (n : Nat) : Away s (countDown n s) :=
  (fun _ => ⟨rfl, rfl, rfl, rfl, rfl, rfl, rfl, rfl, rfl, fun _ => rfl, fun _ _ => rfl, rfl⟩)

theorem away_sendInChunk : Away s (sendInChunk s) :=
  ((away_loadChunk s _).trans (away_bulkArmIn _ _)).trans ((away_countDown _ _).trans (away_setBotState _ _))

theorem away_startIn (src : Src) (total : Word) (act : EndAction) : Away s (startIn src total act s) :=
  Away.trans (t := { s with bot := { s.bot with src := src, xferRemaining := total, endAction := act, respPtr := 0 } })
    (fun _ => ⟨rfl, rfl, rfl, rfl, rfl, rfl, rfl, rfl, rfl, fun _ => rfl, fun _ _ => rfl, rfl⟩) (away_sendInChunk _)

theorem away_endOfDataIn : Away s (endOfDataIn s) := by
  unfold endOfDataIn
  split
  · exact away_stallAndWait _ _
  · exact away_sendCsw _

theorem away_startOut (total : Word) (act : EndAction) : Away s (startOut total act s) :=
  (Away.trans (s := s) (t := { s with bot := { s.bot with xferRemaining := total, endAction := act } })
    (fun _ => ⟨rfl, rfl, rfl, rfl, rfl, rfl, rfl, rfl, rfl, fun _ => rfl, fun _ _ => rfl, rfl⟩) (away_bulkArmOut _ _)).trans (away_setBotState _ _)

theorem away_writeChunk (b : List Byte) : Away s (writeChunk b s) := by
  unfold writeChunk
  split
  · exact (fun _ => ⟨rfl, rfl, rfl, rfl, rfl, rfl, rfl, rfl, rfl, fun _ => rfl, fun _ _ => rfl, rfl⟩)
  · exact (fun _ => ⟨rfl, rfl, rfl, rfl, rfl, rfl, rfl, rfl, rfl, fun _ => rfl, fun _ _ => rfl, rfl⟩)

theorem away_storeChunk (par : Parity) (n : Nat) : Away s (storeChunk par n s) := by
  unfold storeChunk
  split
  · exact .refl s
  · exact (away_writeChunk s _).trans (fun _ => ⟨rfl, rfl, rfl, rfl, rfl, rfl, rfl, rfl, rfl, fun _ => rfl, fun _ _ => rfl, rfl⟩)

theorem away_dataOutChunk (par : Parity) (n : Nat) : Away s (dataOutChunk par n s) := by
  have h := (away_storeChunk s par n).trans (away_countDown _ n)
  unfold dataOutChunk
  dsimp only
  split
  · split
    · exact h.trans (away_stallAndWait _ _)
    · exact h.trans (away_sendCsw _)
  · exact h.trans (away_bulkArmOut _ _)

theorem away_case1 : Away s (case1 s) := (away_setResidue s _).trans (away_noDataCsw _)

theorem away_case2 : Away s (case2 s) := ((away_setStatus s _).trans (away_setResidue _ _)).trans (away_noDataCsw _)

theorem away_case3 : Away s (case3 s) := away_case2 s

theorem away_case4 : Away s (case4 s) := (away_setResidue s _).trans (away_startIn _ _ _ _)

theorem away_case5 (d : Word) (src : Src) : Away s (case5 d src s) := (away_setResidue s _).trans (away_startIn _ _ _ _)

theorem away_case6 (d : Word) (src : Src) : Away s (case6 d src s) := (away_setResidue s _).trans (away_startIn _ _ _ _)

theorem away_case7 (src : Src) : Away s (case7 src s) :=
  ((away_setStatus s _).trans (away_setResidue _ _)).trans (away_startIn _ _ _ _)

theorem away_case8 : Away s (case8 s) :=
  ((away_setStatus s _).trans (away_setResidue _ _)).trans (away_startIn _ _ _ _)

theorem away_case9 : Away s (case9 s) := (away_setResidue s _).trans (away_stallAndWait _ _)

theorem away_case10 : Away s (case10 s) :=
  ((away_setStatus s _).trans (away_setResidue _ _)).trans (away_stallAndWait _ _)

theorem away_case11 (d : Word) : Away s (case11 d s) := (away_setResidue s _).trans (away_startOut _ _ _)

theorem away_case12 (d : Word) : Away s (case12 d s) := (away_setResidue s _).trans (away_startOut _ _ _)

theorem away_case13 : Away s (case13 s) := away_case10 s

theorem away_arbitrate (e : Expect) (d : Word) (src : Src) : Away s (arbitrate e d src s) := by
  unfold arbitrate
  split
  · split
    · exact away_case1 s
    · split
      · exact away_case4 s
      · exact away_case9 s
  · split
    · exact away_case2 s
    · split
      · split
        · exact away_case5 s _ _
        · split
          · exact away_case6 s _ _
          · exact away_case7 s _
      · exact away_case10 s
  · split
    · exact away_case3 s
    · split
      · exact away_case8 s
      · split
        · exact away_case11 s _
        · split
          · exact away_case12 s _
          · exact away_case13 s

theorem away_failStage : Away s (failStage s) := by
  unfold failStage
  split
  · exact away_noDataCsw s
  · exact away_stallAndWait s _

theorem away_failCommand (e : Expect) (key : BitVec 4) (asc ascq : Byte) : Away s (failCommand e key asc ascq s) :=
  ((Away.trans (s := s) (t := { s with sense := ⟨key, asc, ascq⟩ })
    (fun _ => ⟨rfl, rfl, rfl, rfl, rfl, rfl, rfl, rfl, rfl, fun _ => rfl, fun _ _ => rfl, rfl⟩) (away_setStatus _ _)).trans (away_setResidue _ _)).trans
    (away_failStage _)

theorem away_phaseFail : Away s (phaseFail s) :=
  ((away_setStatus s _).trans (away_setResidue _ _)).trans (away_failStage _)

theorem away_invalidCbw : Away s (invalidCbw s) :=
  away_of_wf fun h => ((away_stallEp s _ _ (bulkIn_ne s h)).trans (away_stallEp _ _ _ (bulkOut_ne s h))).trans
    (away_setBotState _ _)

theorem away_botClearHalt (i : Nat) (ep : Ep) (dir : Dir) (h0 : ep ≠ 0) : Away s (botClearHalt i ep dir s) := by
  unfold botClearHalt
  split
  · exact away_stallEp s _ _ h0
  · split
    · exact Away.trans (t := { s with bot := { s.bot with stalled := none } })
        (fun _ => ⟨rfl, rfl, rfl, rfl, rfl, rfl, rfl, rfl, rfl, fun _ => rfl, fun _ _ => rfl, rfl⟩) (away_sendCsw _)
    · exact .refl s
  · split
    · exact away_bulkArmOut s _
    · exact .refl s
  all_goals exact .refl s

theorem away_clearBot : Away s (clearBot s) :=
  (fun _ => ⟨rfl, rfl, rfl, rfl, rfl, rfl, rfl, rfl, rfl, fun _ => rfl, fun _ _ => rfl, rfl⟩)

theorem away_readyBulkIn : Away s (readyBulkIn s) := by
  unfold readyBulkIn
  split
  · exact .refl s
  · exact away_of_wf fun h => away_forParities _ _ _ _ (fun p t => away_setBd t _ _ p (bulkIn_ne s h) _)

theorem away_readyBulkOut : Away s (readyBulkOut s) := by
  unfold readyBulkOut
  split
  · exact .refl s
  · exact away_bulkArmOut s _

theorem away_setReply (r : FnReply) : Away s (setReply r s) :=
  (fun _ => ⟨rfl, rfl, rfl, rfl, rfl, rfl, rfl, rfl, rfl, fun _ => rfl, fun _ _ => rfl, rfl⟩)

theorem away_bomsr : Away s (bomsr s) :=
  ((away_clearBot s).trans (away_readyBulkIn _)).trans ((away_readyBulkOut _).trans (away_setReply _ _))

theorem away_getMaxLun : Away s (getMaxLun s) :=
  (fun _ => ⟨rfl, rfl, rfl, rfl, rfl, rfl, rfl, rfl, rfl, fun _ => rfl, fun _ _ => rfl, rfl⟩)

theorem away_bulkCtrl : Away s (bulkCtrl s) := by
  unfold bulkCtrl
  split
  · exact away_of_wf fun h => away_setCtrl s _ (bulkOut_ne s h) _
  · exact away_of_wf fun h => (away_setCtrl s _ (bulkOut_ne s h) _).trans (away_setCtrl _ _ (bulkIn_ne s h) _)

theorem away_sense {s t : State} (k : Away s t) (x : Sense) : Away s { t with sense := x } :=
  k.trans (fun _ => ⟨rfl, rfl, rfl, rfl, rfl, rfl, rfl, rfl, rfl, fun _ => rfl, fun _ _ => rfl, rfl⟩)

theorem away_botInit : Away s (botInit s) := away_of_wf fun h =>
  ((away_sense (away_clearBot s) _).trans
    ((away_setAddresses _ _ _ (bulkOut_ne s h)).trans (away_setAddresses _ _ _ (bulkIn_ne s h)))).trans
    ((away_bulkCtrl _).trans (away_bulkArmOut _ _))

theorem awayR_botEnqueue (ep : Ep) (dir : Dir) (par : Parity) (n : Nat) : AwayR s (botEnqueue ep dir par n s) := by
  unfold botEnqueue
  split
  · split
    · intro t ht; cases ht
    · rename_i h
      exact awayR_next (fun _ => ⟨rfl, rfl, rfl, rfl, rfl, rfl, rfl, rfl, rfl, fun _ => rfl, fun _ _ => rfl, rfl⟩)
  · exact awayR_next (.refl s)

/-! The SCSI responder and the intake. -/

theorem away_respond (b : List Byte) (d : Nat) : Away s (respond b d s) :=
  Away.trans (t := { s with bot := { s.bot with resp := fit 36 (b.take d ++ s.bot.resp.drop d) } })
    (fun _ => ⟨rfl, rfl, rfl, rfl, rfl, rfl, rfl, rfl, rfl, fun _ => rfl, fun _ _ => rfl, rfl⟩) (away_arbitrate _ _ _ _)

theorem away_testUnitReady : Away s (testUnitReady s) := by
  unfold testUnitReady
  split
  · exact away_arbitrate s _ _ _
  · exact away_failCommand s _ _ _ _

theorem away_requestSense (a : Byte) : Away s (requestSense a s) :=
  (away_sense (.refl s) noSense).trans (away_respond _ _ _)

theorem away_readCapacity10 (lba : Word) (pmi : Bool) : Away s (readCapacity10 lba pmi s) := by
  unfold readCapacity10
  split
  · exact away_phaseFail s
  · exact away_respond s _ _

theorem away_rwLoad (lba : Word) (len : Half) : Away s (rwLoad lba len s) :=
  (fun _ => ⟨rfl, rfl, rfl, rfl, rfl, rfl, rfl, rfl, rfl, fun _ => rfl, fun _ _ => rfl, rfl⟩)

theorem away_read10 (lba : Word) (len : Half) : Away s (read10 lba len s) := by
  unfold read10
  dsimp only
  split
  · exact (away_rwLoad s lba len).trans (away_failCommand _ _ _ _ _)
  · exact (away_rwLoad s lba len).trans (away_arbitrate _ _ _ _)

theorem away_write10 (lba : Word) (len : Half) : Away s (write10 lba len s) := by
  unfold write10
  dsimp only
  split
  · exact (away_rwLoad s lba len).trans (away_failCommand _ _ _ _ _)
  · split
    · exact (away_rwLoad s lba len).trans (away_failCommand _ _ _ _ _)
    · exact (away_rwLoad s lba len).trans (away_arbitrate _ _ _ _)

theorem away_scsiDispatch : Away s (scsiDispatch s) := by
  unfold scsiDispatch
  split
  · exact away_testUnitReady s
  · exact away_requestSense s _
  · exact away_respond s _ _
  · exact away_respond s _ _
  · exact away_readCapacity10 s _ _
  · exact away_read10 s _ _
  · split
    · exact away_write10 s _ _
    · exact away_failCommand s _ _ _ _
  · exact away_failCommand s _ _ _ _

theorem away_loadCbw (b : List Byte) : Away s (loadCbw b s) :=
  (fun _ => ⟨rfl, rfl, rfl, rfl, rfl, rfl, rfl, rfl, rfl, fun _ => rfl, fun _ _ => rfl, rfl⟩)

theorem away_acceptCbw (b : List Byte) : Away s (acceptCbw b s) := (away_loadCbw s b).trans (away_scsiDispatch _)

theorem away_handleCbw (par : Parity) (n : Nat) : Away s (handleCbw par n s) := by
  unfold handleCbw
  split
  · exact away_invalidCbw s
  · exact away_acceptCbw s _

theorem away_botStep (e : QEntry) : Away s (botStep e s) := by
  unfold botStep
  split
  · exact away_handleCbw s _ _
  · exact away_dataOutChunk s _ _
  · exact away_sendInChunk s
  · exact away_endOfDataIn s
  · exact away_endOfDataIn s
  · exact away_cswComplete s
  all_goals exact .refl s

theorem away_serveHead : Away s (serveHead s) := by
  unfold serveHead
  split
  · exact .refl s
  · rename_i e r hq
    exact Away.trans (t := { s with bot := { s.bot with q := r } })
      (fun _ => ⟨rfl, rfl, rfl, rfl, rfl, rfl, rfl, rfl, rfl, fun _ => rfl, fun _ _ => rfl, rfl⟩) (away_botStep _ _)

theorem away_drain (k : Nat) : Away s (drain k s) := by
  induction k generalizing s with
  | zero => exact .refl s
  | succ k ih => exact (away_serveHead s).trans (ih _)

theorem away_msdTasks : Away s (msdTasks s) := away_drain s _

end



section
variable (s : State)

/-! The function port. -/

theorem away_refuse : Away s (refuse s) := away_setReply s _

theorem away_accept : Away s (accept s) := away_setReply s _

theorem away_fnFill (ep : Ep) (dir : Dir) (par : Parity) (b : List Byte) : Away s (fnFill ep dir par b s) := by
  unfold fnFill
  split
  exacts [away_fillOwn _ _ _ _ _, .refl s]

theorem away_fnCall (i : Bool) (f : FnCall) : Away s (fnCall i s f) := by
  unfold fnCall
  cases f with
  | reclaim ep dir par => dsimp only; split; exacts [away_setBd _ _ _ _ (ownBd_ne ‹_›) _, .refl s]
  | armOut ep par tog n => dsimp only; split; exacts [away_armBd _ _ _ _ (ownBd_ne ‹_›) _ _, .refl s]
  | armIn ep par tog n => dsimp only; split; exacts [away_armBd _ _ _ _ (ownBd_ne ‹_›) _ _, .refl s]
  | rearmOut ep par tog n => dsimp only; split; exacts [away_rearm _ _ _ _ (ownBd_ne ‹_›) _ _, .refl s]
  | rearmIn ep par tog n => dsimp only; split; exacts [away_rearm _ _ _ _ (ownBd_ne ‹_›) _ _, .refl s]
  | stallEp ep dir => dsimp only; split; exacts [away_stallEp _ _ _ (ownDir_ne ‹_›), .refl s]
  | setCtrl ep c =>
    dsimp only
    split
    · next h => exact away_setCtrl _ _ (ownEp_ne (Bool.and_eq_true _ _ ▸ h).2) _
    · exact .refl s
  | fill ep dir par b => exact away_fnFill _ _ _ _ _

theorem away_fnCalls (i : Bool) (l : List FnCall) : Away s (fnCalls i l s) :=
  away_foldl _ _ (fun t f => away_fnCall t i f) s

theorem away_fnWrite (w : Addr × Byte) : Away s (fnWrite s w) := by
  unfold fnWrite
  split
  · exact (fun _ => ⟨rfl, rfl, rfl, rfl, rfl, rfl, rfl, rfl, rfl, fun _ => rfl, fun _ _ => rfl, rfl⟩)
  · exact .refl s

theorem away_addressOwn : Away s (addressOwn s) :=
  away_foldl _ _ (fun t e => by split; exacts [away_setAddresses _ _ _ (ownDir_ne ‹_›), .refl t]) s

theorem away_fnRun (i : Bool) (l : List FnCall) (r : List (Addr × Byte)) (n : Nat) : Away s (fnRun i l r n s) :=
  ((away_fnCalls s _ _).trans (away_foldl _ _ (fun t w => away_fnWrite t w) _)).trans
    (fun _ => ⟨rfl, rfl, rfl, rfl, rfl, rfl, rfl, rfl, rfl, fun _ => rfl, fun _ _ => rfl, rfl⟩)

theorem away_answerHook (i : Bool) (a : FnAnswer) : Away s (answerHook i a s) :=
  (away_fnRun s _ _ _ _).trans (away_setReply _ _)

theorem away_oracleHook (h : Hook) (args : List Nat) : Away s (oracleHook h args s) := away_answerHook s _ _

theorem away_oracleInit : Away s (oracleInit s) := (away_addressOwn s).trans (away_answerHook _ _ _)

theorem away_quietHook (h : Hook) (args : List Nat) (r : FnReply) : Away s (keepReply r (oracleHook h args s)) :=
  (away_oracleHook s h args).trans (away_setReply _ _)

theorem away_mscClassRequest : Away s (mscClassRequest s) := by
  unfold mscClassRequest
  split
  · exact away_bomsr s
  · split
    · exact away_getMaxLun s
    · exact away_refuse s

theorem away_cdc (c : Cdc) (r : FnReply) : Away s (setReply r { s with cdc := c }) :=
  Away.trans (t := { s with cdc := c }) (fun _ => ⟨rfl, rfl, rfl, rfl, rfl, rfl, rfl, rfl, rfl, fun _ => rfl, fun _ _ => rfl, rfl⟩) (away_setReply _ _)

theorem away_cdcSetLineCoding : Away s (cdcSetLineCoding s) := by
  unfold cdcSetLineCoding
  split
  · exact away_refuse s
  · exact away_cdc s _ _

theorem away_cdcGetLineCoding : Away s (cdcGetLineCoding s) := away_setReply s _

theorem away_cdcSetControlLineState (dtr rts : Bool) : Away s (cdcSetControlLineState dtr rts s) := away_cdc s _ _

theorem away_cdcSendEncapsulated : Away s (cdcSendEncapsulated s) := by
  unfold cdcSendEncapsulated
  split
  · exact away_refuse s
  · exact away_cdc s _ _

theorem away_cdcGetEncapsulated : Away s (cdcGetEncapsulated s) := away_setReply s _

theorem away_cdcClassRequest : Away s (cdcClassRequest s) := by
  unfold cdcClassRequest
  split
  · exact away_cdcSetLineCoding s
  · exact away_cdcGetLineCoding s
  · exact away_cdcSetControlLineState s _ _
  · exact away_cdcSendEncapsulated s
  · exact away_cdcGetEncapsulated s
  · exact away_refuse s

theorem away_cdcOutFinished : Away s (cdcOutFinished s) := by
  unfold cdcOutFinished
  split
  · exact Away.trans (s := s)
      (t :=
        { s with
          ram := writeBytes s.cfg.addrW s.ram s.cfg.cdc.lineCoding (readBytes s.cfg.addrW s.ram s.cfg.cdc.staging 7)
          cdc := { s.cdc with pending := .none } })
      (fun _ => ⟨rfl, rfl, rfl, rfl, rfl, rfl, rfl, rfl, rfl, fun _ => rfl, fun _ _ => rfl, rfl⟩) (away_setReply _ _)
  · exact away_cdc s _ _
  · exact away_refuse s

theorem away_ram (m : Memory) : Away s { s with ram := m } :=
  (fun _ => ⟨rfl, rfl, rfl, rfl, rfl, rfl, rfl, rfl, rfl, fun _ => rfl, fun _ _ => rfl, rfl⟩)

theorem away_ramCdc (m : Memory) (c : Cdc) : Away s { s with ram := m, cdc := c } :=
  (fun _ => ⟨rfl, rfl, rfl, rfl, rfl, rfl, rfl, rfl, rfl, fun _ => rfl, fun _ _ => rfl, rfl⟩)

theorem nonzeroEp_ne {c : Config} {ep : Ep} (h : c.nonzeroEp ep = true) : ep ≠ 0 := by
  simp only [Config.nonzeroEp, Bool.and_eq_true, decide_eq_true_eq] at h
  intro hc
  rw [hc] at h
  simp at h

/-- What the bound CDC function needs of its configuration. -/
theorem cdcOk_of_wf {c : Config} (hw : c.wf = true) (hf : c.function = .cdc) : c.cdcOk = true := by
  simp only [Config.wf, Config.functionOk, hf, Bool.and_eq_true] at hw
  exact hw.2

/-- What the bound HID function needs of its configuration. -/
theorem hidOk_of_wf {c : Config} (hw : c.wf = true) (hf : c.function = .hid) : c.hidOk = true := by
  simp only [Config.wf, Config.functionOk, hf, Bool.and_eq_true] at hw
  exact hw.2

theorem cdc_ne {c : Config} (hw : c.wf = true) (hf : c.function = .cdc) :
    c.cdc.notifyEp ≠ 0 ∧ c.cdc.dataOutEp ≠ 0 ∧ c.cdc.dataInEp ≠ 0 := by
  have h := cdcOk_of_wf hw hf
  simp only [Config.cdcOk, Bool.and_eq_true] at h
  exact ⟨nonzeroEp_ne h.1.1.1.1.1.2, nonzeroEp_ne h.1.1.1.1.2, nonzeroEp_ne h.1.1.1.2⟩

theorem hid_ne {c : Config} (hw : c.wf = true) (hf : c.function = .hid) :
    c.hid.inEp ≠ 0 ∧ ∀ o, c.hid.outEp = some o → o ≠ 0 := by
  have h := hidOk_of_wf hw hf
  simp only [Config.hidOk, Bool.and_eq_true] at h
  refine ⟨nonzeroEp_ne h.1.1.1.1.1.1.1.2, fun o ho => ?_⟩
  have h := h.1.1.1.1.1.1.2
  rw [ho] at h
  exact nonzeroEp_ne (by simpa using h)

theorem away_cdcInit (hf : s.cfg.function = .cdc) : Away s (cdcInit s) := by
  refine away_of_wf fun hw => ?_
  obtain ⟨h1, h2, h3⟩ := cdc_ne hw hf
  unfold cdcInit
  dsimp only
  refine Away.trans ?_ (away_armBd _ _ _ _ h2 _ _)
  refine Away.trans ?_ (away_setCtrl _ _ h3 _)
  refine Away.trans ?_ (away_setCtrl _ _ h2 _)
  refine Away.trans ?_ (away_setCtrl _ _ h1 _)
  refine Away.trans ?_ (away_setAddresses _ _ _ h3)
  refine Away.trans ?_ (away_setAddresses _ _ _ h2)
  refine Away.trans ?_ (away_setAddresses _ _ _ h1)
  exact away_ramCdc s _ _

theorem away_cdcTasks (ep : Ep) (dir : Dir) (par : Parity) (n : Nat) : Away s (cdcTasks ep dir par n s) := by
  unfold cdcTasks
  split
  · exact (fun _ => ⟨rfl, rfl, rfl, rfl, rfl, rfl, rfl, rfl, rfl, fun _ => rfl, fun _ _ => rfl, rfl⟩)
  · split
    · exact (fun _ => ⟨rfl, rfl, rfl, rfl, rfl, rfl, rfl, rfl, rfl, fun _ => rfl, fun _ _ => rfl, rfl⟩)
    · exact .refl s

theorem away_hidGetReport (t r : Byte) : Away s (hidGetReport t r s) := by
  unfold hidGetReport
  dsimp only
  split <;> (try split) <;> exact away_setReply s _

theorem away_hid (h : Hid) : Away s { s with hid := h } := (fun _ => ⟨rfl, rfl, rfl, rfl, rfl, rfl, rfl, rfl, rfl, fun _ => rfl, fun _ _ => rfl, rfl⟩)

theorem away_takeReport (l : List Nat) (r : Byte) (p : Nat → HidPending) : Away s (takeReport l r p s) := by
  unfold takeReport
  dsimp only
  split
  · exact away_refuse s
  · split
    · exact away_refuse s
    · exact (away_hid s _).trans (away_setReply _ _)

theorem away_hidSetReport (t r : Byte) : Away s (hidSetReport t r s) := by
  unfold hidSetReport
  split
  · exact away_takeReport s _ _ _
  · exact away_takeReport s _ _ _
  · exact away_refuse s

theorem away_ramHid (m : Memory) (h : Hid) : Away s { s with ram := m, hid := h } :=
  (fun _ => ⟨rfl, rfl, rfl, rfl, rfl, rfl, rfl, rfl, rfl, fun _ => rfl, fun _ _ => rfl, rfl⟩)

theorem away_commitReport (a : Addr) (n : Nat) : Away s (commitReport a n s) := (away_ramHid s _ _).trans (away_accept _)

theorem away_hidOutFinished : Away s (hidOutFinished s) := by
  unfold hidOutFinished
  dsimp only
  split
  · exact away_refuse s
  · exact away_commitReport s _ _
  · exact away_commitReport s _ _

theorem away_hidGetIdle (r : Byte) : Away s (hidGetIdle r s) := by
  unfold hidGetIdle
  dsimp only
  split <;> exact away_setReply s _

theorem away_setIdle (d : Byte) (i : Nat) : Away s (setIdle d s i) :=
  (fun _ => ⟨rfl, rfl, rfl, rfl, rfl, rfl, rfl, rfl, rfl, fun _ => rfl, fun _ _ => rfl, rfl⟩)

theorem away_hidSetIdle (d r : Byte) : Away s (hidSetIdle d r s) := by
  unfold hidSetIdle
  dsimp only
  split
  · exact (away_foldl _ _ (fun t i => away_setIdle t d i) s).trans (away_accept _)
  · split
    · exact away_refuse s
    · exact (away_setIdle s _ _).trans (away_accept _)

theorem away_hidClassRequest : Away s (hidClassRequest s) := by
  unfold hidClassRequest
  dsimp only
  split
  · exact away_hidGetReport s _ _
  · split
    · exact away_hidSetReport s _ _
    · split
      · exact away_hidGetIdle s _
      · split
        · exact away_hidSetIdle s _ _
        · exact away_refuse s

theorem away_hidClassDescriptor : Away s (hidClassDescriptor s) := by
  unfold hidClassDescriptor
  dsimp only
  split <;> exact away_setReply s _

theorem away_hidInit (hf : s.cfg.function = .hid) : Away s (hidInit s) := by
  refine away_of_wf fun hw => ?_
  obtain ⟨h1, h2⟩ := hid_ne hw hf
  unfold hidInit
  dsimp only
  split
  · refine Away.trans ?_ (away_setCtrl _ _ h1 _)
    refine Away.trans ?_ (away_setAddresses _ _ _ h1)
    exact (fun _ => ⟨rfl, rfl, rfl, rfl, rfl, rfl, rfl, rfl, rfl, fun _ => rfl, fun _ _ => rfl, rfl⟩)
  · rename_i o ho
    refine Away.trans ?_ (away_armBd _ _ _ _ (h2 o ho) _ _)
    refine Away.trans ?_ (away_setCtrl _ _ (h2 o ho) _)
    refine Away.trans ?_ (away_setCtrl _ _ h1 _)
    refine Away.trans ?_ (away_setAddresses _ _ _ (h2 o ho))
    refine Away.trans ?_ (away_setAddresses _ _ _ h1)
    exact (fun _ => ⟨rfl, rfl, rfl, rfl, rfl, rfl, rfl, rfl, rfl, fun _ => rfl, fun _ _ => rfl, rfl⟩)

theorem away_hidTasks (ep : Ep) (dir : Dir) : Away s (hidTasks ep dir s) := by
  unfold hidTasks
  split
  · split
    · exact .refl s
    · exact away_hid s _
  · exact .refl s

theorem away_sofReport (i : Nat) : Away s (sofReport s i) := by
  unfold sofReport
  dsimp only
  split
  · exact .refl s
  · exact away_hid s _

theorem away_hidSof : Away s (hidSof s) := away_foldl _ _ (fun t i => away_sofReport t i) s

/-! The application's turns. -/

theorem away_sendOwn (ep : Ep) (h : ep ≠ 0) (b : List Byte) : Away s (sendOwn ep b s) :=
  (away_fillOwn s _ _ _ _).trans (away_armBd _ _ _ _ h _ _)

theorem away_serialState (dcd dsr : Bool) : Away s (serialState dcd dsr s) :=
  (fun _ => ⟨rfl, rfl, rfl, rfl, rfl, rfl, rfl, rfl, rfl, fun _ => rfl, fun _ _ => rfl, rfl⟩)

theorem away_serialNotify (hf : s.cfg.function = .cdc) : Away s (serialNotify s) := by
  refine away_of_wf fun hw => ?_
  unfold serialNotify
  dsimp only
  split
  · exact .refl s
  · split
    exacts [.refl s, away_sendOwn s _ (cdc_ne hw hf).1 _]

theorem away_cdcSend (b : List Byte) (hf : s.cfg.function = .cdc) : Away s (cdcSend b s) := by
  refine away_of_wf fun hw => ?_
  unfold cdcSend
  dsimp only
  split
  · exact .refl s
  · exact (away_sendOwn s _ (cdc_ne hw hf).2.2 _).trans
      (fun _ => ⟨rfl, rfl, rfl, rfl, rfl, rfl, rfl, rfl, rfl, fun _ => rfl, fun _ _ => rfl, rfl⟩)

theorem away_cdcReceive (hf : s.cfg.function = .cdc) : Away s (cdcReceive s) := by
  refine away_of_wf fun hw => ?_
  unfold cdcReceive
  dsimp only
  split
  · exact (fun _ => ⟨rfl, rfl, rfl, rfl, rfl, rfl, rfl, rfl, rfl, fun _ => rfl, fun _ _ => rfl, rfl⟩)
  · exact (away_armBd s _ _ _ (cdc_ne hw hf).2.1 _ _).trans
      (fun _ => ⟨rfl, rfl, rfl, rfl, rfl, rfl, rfl, rfl, rfl, fun _ => rfl, fun _ _ => rfl, rfl⟩)

theorem away_sendReportAt (i : Nat) (b : List Byte) (hf : s.cfg.function = .hid) : Away s (sendReportAt i b s) := by
  refine away_of_wf fun hw => ?_
  unfold sendReportAt
  dsimp only
  split
  · exact .refl s
  · refine Away.trans ?_ (away_hid _ _)
    exact (away_ram s _).trans (away_sendOwn _ _ (hid_ne hw hf).1 _)

theorem away_withReport (rid : Byte) {f : Nat → State → State} (hf : ∀ i, Away s (f i s)) :
    Away s (withReport rid f s) := by
  unfold withReport
  split
  · exact .refl s
  · exact hf _

theorem away_pollReport (rid : Byte) (hf : s.cfg.function = .hid) : Away s (pollReport rid s) :=
  away_withReport s rid fun i => by
    split
    · exact away_sendReportAt s i _ hf
    · exact .refl s

theorem away_runApp (a : AppCall) : Away s (runApp a s) := by
  unfold runApp
  split <;> (try split) <;>
    first
      | exact .refl s
      | exact away_withReport s _ (fun i => away_sendReportAt s i _ ‹_›)
      | exact away_pollReport s _ ‹_›
      | exact away_withReport s _ (fun i => away_hid s _)
      | exact away_hid s _
      | exact away_cdcSend s _ ‹_›
      | exact away_cdcReceive s ‹_›
      | exact away_serialState s _ _
      | exact away_serialNotify s ‹_›
      | exact away_fnFill s _ _ _ _
      | exact away_fnRun s _ _ _ _

theorem away_classRequest : Away s (classRequest s) := by
  unfold classRequest
  split
  · exact away_mscClassRequest s
  · exact away_cdcClassRequest s
  · exact away_hidClassRequest s
  · exact away_oracleHook s _ _

theorem away_getClassDescriptor : Away s (getClassDescriptor s) := by
  unfold getClassDescriptor
  split
  · exact away_refuse s
  · exact away_refuse s
  · exact away_hidClassDescriptor s
  · exact away_oracleHook s _ _

theorem away_fnInit : Away s (fnInit s) := by
  unfold fnInit
  split
  · exact away_botInit s
  · exact away_cdcInit s ‹_›
  · exact away_hidInit s ‹_›
  · exact (away_oracleInit s).trans (away_setReply _ _)

theorem awayR_fnTasks (ep : Ep) (dir : Dir) (par : Parity) (n : Nat) : AwayR s (fnTasks ep dir par n s) := by
  unfold fnTasks
  split
  · exact awayR_botEnqueue s _ _ _ _
  · exact awayR_next (away_cdcTasks s _ _ _ _)
  · exact awayR_next (away_hidTasks s _ _)
  · exact awayR_next (away_quietHook s _ _ _)

theorem away_clearHalt (i : Nat) (ep : Ep) (dir : Dir) (h0 : ep ≠ 0) : Away s (clearHalt i ep dir s) := by
  unfold clearHalt
  split
  · exact away_botClearHalt s _ _ _ h0
  all_goals exact away_quietHook s _ _ _

theorem away_setInterfaceHook (alt iface : Byte) : Away s (setInterfaceHook alt iface s) := by
  unfold setInterfaceHook
  split
  · split <;> exact away_setReply s _
  all_goals exact away_oracleHook s _ _

theorem away_getInterfaceHook (iface : Byte) : Away s (getInterfaceHook iface s) := by
  unfold getInterfaceHook
  split
  · split <;> exact away_setReply s _
  all_goals exact away_oracleHook s _ _

theorem away_outControlFinished : Away s (outControlFinished s) := by
  unfold outControlFinished
  split
  · exact away_refuse s
  · exact away_cdcOutFinished s
  · exact away_hidOutFinished s
  · exact away_oracleHook s _ _

theorem away_interfaceEndpoints (iface : Byte) : Away s (interfaceEndpoints iface s) := by
  unfold interfaceEndpoints
  split
  · exact away_setReply s _
  · exact away_setReply s _
  · exact away_setReply s _
  · exact away_oracleHook s _ _

theorem away_fnSof : Away s (fnSof s) := by
  unfold fnSof
  split
  · exact .refl s
  · exact .refl s
  · exact away_hidSof s
  · exact away_quietHook s _ _ _

end

end Sys2Proof.Machine
end

