-- ==== Sys2Proof/Laws/Armed.lean ====
section
/-! SUPPORT. What the control engine does to the BDs of EP0 OUT (70 R441): it only ever arms the next one. One lemma
for each operation, as in `Calm`. -/

namespace Sys2Proof.Machine

/-- Every EP0 OUT BD is owned by whom it was owned by, but the next one may have been armed; the next parity, the flags
and the latch are kept. -/
structure Spares (s t : State) : Prop where
  cfg : t.cfg = s.cfg
  last : (t.epsAt 0 .out).lastParity = (s.epsAt 0 .out).lastParity
  own : ∀ par ∈ parities s.cfg.ppMode 0 .out, (t.bd 0 .out par).stat.own = (s.bd 0 .out par).stat.own ∨
    (par = s.nextPar 0 .out ∧ (t.bd 0 .out par).stat.own = true)

theorem Spares.next {s t : State} (a : Spares s t) : t.nextPar 0 .out = s.nextPar 0 .out := by
  unfold State.nextPar State.pp
  rw [a.cfg, a.last]

theorem Spares.refl (s : State) : Spares s s := ⟨rfl, rfl, fun _ _ => .inl rfl⟩

theorem Spares.trans {s t u : State} (a : Spares s t) (b : Spares t u) : Spares s u where
  cfg := b.cfg.trans a.cfg
  last := b.last.trans a.last
  own := fun par h => by
    rcases b.own par (by rw [a.cfg]; exact h) with h1 | ⟨h1, h2⟩
    · rcases a.own par h with h3 | ⟨h3, h4⟩
      · exact .inl (h1.trans h3)
      · exact .inr ⟨h3, h1.trans h4⟩
    · exact .inr ⟨h1.trans a.next, h2⟩

theorem Apart.spares {s t : State} (k : Apart s t) : Spares s t :=
  ⟨k.cfg, by rw [k.eps], fun par _ => .inl (by rw [k.bd])⟩

/-- `Spares`, of a machine with a well-formed configuration. -/
def Outs (s t : State) : Prop := s.cfg.wf = true → Spares s t

theorem Outs.refl (s : State) : Outs s s := fun _ => .refl s

theorem Outs.trans {s t u : State} (a : Outs s t) (b : Outs t u) : Outs s u :=
  fun h => (a h).trans (b (by rw [(a h).cfg]; exact h))

theorem Away.outs {s t : State} (k : Away s t) : Outs s t := fun h => (k h).spares

theorem outs_foldl {α : Type} (l : List α) (f : State → α → State) (hf : ∀ t a, Outs t (f t a)) (s : State) :
    Outs s (l.foldl f s) := by
  induction l generalizing s with
  | nil => exact .refl s
  | cons a r ih => exact (hf s a).trans (ih _)

section
variable (s : State) (ep : Ep) (dir : Dir) (par : Parity)

theorem outs_setBd_other (h : ep ≠ 0 ∨ dir ≠ .out) (b : Bd) : Outs s (s.setBd ep dir par b) := fun _ =>
  ⟨rfl, rfl, fun p _ => .inl (by rw [State.bd_setBd_other (e := 0) (d := .out) b (by
    rcases h with h | h
    · exact .inl (Ne.symm h)
    · exact .inr (Ne.symm h))])⟩

theorem own_setBd (b : Bd) (p : Parity) :
    ((s.setBd 0 .out par b).bd 0 .out p) = (s.bd 0 .out p) ∨ ((s.setBd 0 .out par b).bd 0 .out p) = b := by
  unfold State.bd State.setBd
  dsimp only
  simp only [List.getD_eq_getElem?_getD, List.getElem?_set]
  split
  · split
    · exact .inr rfl
    · next h => exact .inl (by rw [List.getElem?_eq_none (by omega)])
  · exact .inl rfl

/-- A write of the next EP0 OUT BD that leaves it owned. -/
theorem outs_setBd_next (b : Bd) (hb : b.stat.own = true) : Outs s (s.setBd 0 .out (s.nextPar 0 .out) b) := fun _ => by
  refine ⟨rfl, rfl, fun p hp => ?_⟩
  by_cases hq : p = s.nextPar 0 .out
  · rcases own_setBd s (s.nextPar 0 .out) b p with h | h
    · exact .inl (by rw [h])
    · exact .inr ⟨hq, by rw [h]; exact hb⟩
  · refine .inl ?_
    rw [State.bd_setBd_of_ne]
    intro hc
    by_cases hpp : pp s.cfg.ppMode 0 .out = true
    · have hne := bdIndex_par hpp (s.nextPar 0 .out)
      have ho : p = (s.nextPar 0 .out).other := by
        revert hq
        cases p <;> cases s.nextPar 0 .out <;> simp [Parity.other]
      rw [ho] at hc
      exact hne hc.symm
    · simp only [parities, hpp, Bool.false_eq_true, if_false, List.mem_singleton] at hp
      have hn : s.nextPar 0 .out = .even := by simp only [State.nextPar, State.pp, hpp, Bool.false_eq_true, if_false]
      exact hq (hp.trans hn.symm)

theorem outs_free (n : Nat) : Outs s { s with free := n } := fun _ => ⟨rfl, rfl, fun _ _ => .inl rfl⟩

theorem outs_armBd_other (h : ep ≠ 0 ∨ dir ≠ .out) (tog : Bool) (n : Nat) : Outs s (armBd ep dir par tog n s) := by
  unfold armBd
  split
  · exact (outs_setBd_other s ep dir par h _).trans (outs_free _ _)
  · exact outs_setBd_other _ _ _ _ h _

theorem outs_rearm_other (h : ep ≠ 0 ∨ dir ≠ .out) (tog : Bool) (n : Nat) : Outs s (rearm ep dir par tog n s) := by
  unfold rearm
  split
  · exact (outs_setBd_other s ep dir par h _).trans (outs_armBd_other _ _ _ _ h _ _)
  · exact outs_armBd_other _ _ _ _ h _ _

theorem outs_armNextOut (tog : Bool) (n : Nat) : Outs s (rearmNext 0 .out tog n s) := by
  unfold rearmNext rearm
  split
  · unfold reclaim armBd
    rw [set_set_bd, set_set_bd]
    split
    · exact (outs_setBd_next s _ rfl).trans (outs_free _ _)
    · exact outs_setBd_next s _ rfl
  · unfold armBd
    split
    · exact (outs_setBd_next s _ rfl).trans (outs_free _ _)
    · exact outs_setBd_next s _ rfl

theorem outs_setEps (e : Eps) (h : e.lastParity = (s.epsAt ep dir).lastParity) : Outs s (s.setEps ep dir e) := by
  intro _
  exact ⟨rfl, ((calm_setEps s ep dir e h).parity 0 .out).1, fun _ _ => .inl rfl⟩

theorem outs_setToggle (v : Bool) : Outs s (setToggle ep dir v s) := outs_setEps _ _ _ _ rfl

theorem outs_setHalted (v : Bool) : Outs s (setHalted ep dir v s) := outs_setEps _ _ _ _ rfl

theorem Outs.stage {s t : State} (k : Outs s t) (x : Stage) : Outs s { t with stage := x } :=
  k.trans (fun _ => ⟨rfl, rfl, fun _ _ => .inl rfl⟩)

theorem outs_armStatusIn : Outs s (armStatusIn s) := outs_rearm_other _ _ _ _ (.inr (by decide)) _ _

theorem outs_statusIn : Outs s (statusIn s) := (outs_armStatusIn s).stage _

theorem outs_stallIn : Outs s (stallEp 0 .inp s) := by
  unfold stallEp
  dsimp only
  rw [if_pos rfl]
  exact outs_foldl _ _ (fun t p => outs_setBd_other t _ _ p (.inr (by decide)) _) s

theorem outs_requestError : Outs s (requestError s) := (outs_stallIn s).stage _

theorem outs_cancelEp0In : Outs s (cancelEp0In s) := outs_foldl _ _ (fun t p => outs_setBd_other t _ _ p (.inr (by decide)) _) s

theorem outs_stallEp (h : ep ≠ 0) : Outs s (stallEp ep dir s) := (away_stallEp s ep dir h).outs

theorem outs_unstallEp (h : ep ≠ 0) : Outs s (unstallEp ep dir s) := by
  unfold unstallEp
  refine ((outs_setHalted s ep dir false).trans (outs_setToggle (setHalted ep dir false s) ep dir false)).trans ?_
  refine outs_foldl _ _ (fun t p => ?_) _
  unfold unstallBd
  split
  · exact outs_setBd_other t _ _ p (.inl h) _
  · exact .refl t

theorem outs_ep0ArmSetup : Outs s (ep0ArmSetup s) := outs_armNextOut _ _ _

theorem outs_ep0ArmStatusOut : Outs s (ep0ArmStatusOut s) := outs_armNextOut _ _ _

theorem outs_ep0ArmDataOut : Outs s (ep0ArmDataOut s) := outs_armNextOut _ _ _

theorem outs_ep0SendIn (n : Nat) : Outs s (ep0SendIn n s) := by
  unfold ep0SendIn
  dsimp only
  exact Outs.trans (t := loadEp0In n s) (away_fillBuf s _ _ _ _).outs
    ((outs_armBd_other (loadEp0In n s) 0 .inp _ (.inr (by decide)) _ n).trans (fun _ => ⟨rfl, rfl, fun _ _ => .inl rfl⟩))

end

section
variable (s : State)

theorem outs_clearHalt (i : Nat) (ep : Ep) (dir : Dir) (h : ep ≠ 0) : Outs s (clearHalt i ep dir s) := (away_clearHalt s i ep dir h).outs

theorem outs_classRequest : Outs s (classRequest s) := (away_classRequest s).outs

theorem outs_getClassDescriptor : Outs s (getClassDescriptor s) := (away_getClassDescriptor s).outs

theorem outs_fnInit : Outs s (fnInit s) := (away_fnInit s).outs

theorem outs_setInterfaceHook (a i : Byte) : Outs s (setInterfaceHook a i s) := (away_setInterfaceHook s a i).outs

theorem outs_getInterfaceHook (i : Byte) : Outs s (getInterfaceHook i s) := (away_getInterfaceHook s i).outs

theorem outs_outControlFinished : Outs s (outControlFinished s) := (away_outControlFinished s).outs

theorem outs_interfaceEndpoints (i : Byte) : Outs s (interfaceEndpoints i s) := (away_interfaceEndpoints s i).outs

/-! The control engine. -/

theorem outs_ctl (c : Ctl) (g : Stage) : Outs s { s with ctl := c, stage := g } :=
  fun _ => ⟨rfl, rfl, fun _ _ => .inl rfl⟩

theorem outs_dataInNext : Outs s (dataInNext s) := by
  unfold dataInNext
  split
  · exact outs_ep0SendIn s _
  · split
    · exact Outs.trans (outs_ctl s _ s.stage) (outs_ep0SendIn _ 0)
    · exact (outs_ep0ArmStatusOut s).stage _

theorem outs_startDataIn (src : Source) (ptr : Addr) (d : Nat) : Outs s (startDataIn src ptr d s) := by
  unfold startDataIn
  dsimp only
  split
  · exact outs_statusIn s
  · exact Outs.trans (outs_ctl s _ _) (outs_dataInNext _)

theorem outs_startDataOut (a : Addr) (n : Nat) : Outs s (startDataOut a n s) := by
  unfold startDataOut
  split
  · exact outs_statusIn s
  · exact Outs.trans (outs_ctl s _ _) (outs_ep0ArmDataOut _)

theorem outs_storeDataOut (par : Parity) (n : Nat) : Outs s (storeDataOut par n s) :=
  fun _ => ⟨rfl, rfl, fun _ _ => .inl rfl⟩

theorem outs_finishDataOut : Outs s (finishDataOut s) := by
  unfold finishDataOut
  split
  · exact outs_statusIn s
  · exact outs_requestError s

theorem outs_dataOutStep (par : Parity) (n : Nat) : Outs s (dataOutStep par n s) := by
  unfold dataOutStep
  dsimp only
  split
  · exact ((outs_storeDataOut s par n).trans (outs_ep0ArmSetup _)).trans
      ((outs_outControlFinished _).trans (outs_finishDataOut _))
  · exact (outs_storeDataOut s par n).trans (outs_ep0ArmDataOut _)

theorem outs_respondStage : Outs s (respondStage s) := by
  unfold respondStage
  split
  · split
    · exact outs_statusIn s
    · exact outs_startDataIn s _ _ _
    · exact outs_startDataOut s _ _
  · exact outs_requestError s

theorem outs_classDispatch : Outs s (classDispatch s) := (outs_classRequest s).trans (outs_respondStage _)

/-! The standard requests. -/

theorem outs_setScratch (b : List Byte) : Outs s (s.setScratch b) := fun _ => ⟨rfl, rfl, fun _ _ => .inl rfl⟩

theorem outs_answerScratch (b : List Byte) : Outs s (answerScratch b s) :=
  (outs_setScratch s b).trans (outs_startDataIn _ _ _ _)

theorem outs_getStatusDevice : Outs s (getStatusDevice s) := outs_answerScratch s _

theorem outs_getStatusInterface (i : Byte) : Outs s (getStatusInterface i s) := by
  unfold getStatusInterface
  split
  · exact outs_requestError s
  · exact outs_answerScratch s _

theorem outs_getStatusEndpoint (ep : Ep) (dir : Dir) : Outs s (getStatusEndpoint ep dir s) := by
  unfold getStatusEndpoint
  split
  · exact outs_requestError s
  · exact outs_answerScratch s _

theorem outs_remoteWakeup (v : Bool) : Outs s { s with remoteWakeup := v } :=
  fun _ => ⟨rfl, rfl, fun _ _ => .inl rfl⟩

theorem outs_clearFeatureDevice (x : Half) : Outs s (clearFeatureDevice x s) := by
  unfold clearFeatureDevice
  split
  · exact (outs_remoteWakeup s _).trans (outs_statusIn _)
  · exact outs_requestError s

theorem outs_setFeatureDevice (x : Half) : Outs s (setFeatureDevice x s) := by
  unfold setFeatureDevice
  split
  · exact (outs_remoteWakeup s _).trans (outs_statusIn _)
  · exact outs_requestError s

theorem outs_clearFeatureEndpoint (x : Half) (ep : Ep) (dir : Dir) : Outs s (clearFeatureEndpoint x ep dir s) := by
  unfold clearFeatureEndpoint
  split
  · exact outs_requestError s
  · next h =>
    have h0 : ep ≠ 0 := fun hc => h (by simp [haltRefused, hc])
    exact (outs_unstallEp s _ _ h0).trans ((outs_clearHalt _ _ _ _ h0).trans (outs_statusIn _))

theorem outs_setFeatureEndpoint (x : Half) (ep : Ep) (dir : Dir) : Outs s (setFeatureEndpoint x ep dir s) := by
  unfold setFeatureEndpoint
  split
  · exact outs_requestError s
  · next h =>
    have h0 : ep ≠ 0 := fun hc => h (by simp [haltRefused, hc])
    exact (outs_stallEp s _ _ h0).trans (outs_statusIn _)

theorem outs_setAddress (a : DevAddr) : Outs s (setAddress a s) :=
  Outs.trans (s := s) (t := { s with pendingAddress := a, addressPending := true })
    (fun _ => ⟨rfl, rfl, fun _ _ => .inl rfl⟩) (outs_statusIn _)

theorem outs_getDescDevice : Outs s (getDescDevice s) := outs_startDataIn s _ _ _

theorem outs_getDescConfig (i : Byte) : Outs s (getDescConfig i s) := by
  unfold getDescConfig
  split
  · exact outs_requestError s
  · exact outs_startDataIn s _ _ _

theorem outs_getDescString (i : Byte) : Outs s (getDescString i s) := by
  unfold getDescString
  split
  · exact outs_requestError s
  · exact outs_startDataIn s _ _ _

theorem outs_getDescClass : Outs s (getDescClass s) := by
  unfold getDescClass
  dsimp only
  split
  · split
    · exact (outs_getClassDescriptor s).trans (outs_startDataIn _ _ _ _)
    · exact (outs_getClassDescriptor s).trans (outs_requestError _)
    · exact (outs_getClassDescriptor s).trans (outs_requestError _)
  · exact (outs_getClassDescriptor s).trans (outs_requestError _)

theorem outs_getDescriptor (t i : Byte) : Outs s (getDescriptor t i s) := by
  unfold getDescriptor
  split
  · exact outs_getDescDevice s
  · exact outs_getDescConfig s _
  · exact outs_getDescString s _
  · exact outs_getDescClass s

theorem outs_getConfiguration : Outs s (getConfiguration s) := outs_answerScratch s _

theorem outs_config {s t : State} (k : Outs s t) (c : Byte) : Outs s { t with currentConfiguration := c } :=
  k.trans (fun _ => ⟨rfl, rfl, fun _ _ => .inl rfl⟩)


theorem outs_getInterface (i : Byte) : Outs s (getInterface i s) := by
  unfold getInterface
  dsimp only
  split
  · exact (outs_getInterfaceHook s i).trans (outs_answerScratch _ _)
  · exact (outs_getInterfaceHook s i).trans (outs_requestError _)

theorem outs_clearToggles (l : List (Ep × Dir)) : Outs s (clearToggles l s) :=
  outs_foldl _ _ (fun t _ => outs_setToggle t _ _ _) s

theorem outs_setInterface (a i : Byte) : Outs s (setInterface a i s) := by
  unfold setInterface
  dsimp only
  split
  · exact ((outs_setInterfaceHook s a i).trans (outs_interfaceEndpoints _ _)).trans
      ((outs_clearToggles _ _).trans (outs_statusIn _))
  · exact (outs_setInterfaceHook s a i).trans (outs_requestError _)

theorem outs_getStatus : Outs s (getStatus s) := by
  unfold getStatus
  split
  · exact outs_getStatusDevice s
  · exact outs_getStatusInterface s _
  · exact outs_getStatusEndpoint s _ _
  · exact outs_requestError s

theorem outs_clearFeature : Outs s (clearFeature s) := by
  unfold clearFeature
  split
  · exact outs_clearFeatureDevice s _
  · exact outs_clearFeatureEndpoint s _ _ _
  · exact outs_requestError s

theorem outs_setFeature : Outs s (setFeature s) := by
  unfold setFeature
  split
  · exact outs_setFeatureDevice s _
  · exact outs_setFeatureEndpoint s _ _ _
  · exact outs_requestError s

/-! Transactions. -/

theorem outs_setupSteps (par : Parity) : Outs s (setupSteps par s) := by
  have h1 : Outs s (copySetup par s) :=
    fun _ => ⟨rfl, rfl, fun _ _ => .inl rfl⟩
  have h3 : ∀ t, Outs t (enablePackets t) := fun t _ => ⟨rfl, rfl, fun _ _ => .inl rfl⟩
  have h5 : ∀ t, Outs t (abandonTransfer t) := fun t _ => ⟨rfl, rfl, fun _ _ => .inl rfl⟩
  exact ((h1.trans (outs_cancelEp0In _)).trans ((h3 _).trans (outs_ep0ArmSetup _))).trans
    (((outs_setToggle _ _ _ _).trans (outs_setToggle _ _ _ _)).trans (h5 _))

theorem outs_setConfigZero : Outs s (setConfigZero s) := by
  unfold setConfigZero
  split
  · exact Outs.trans (t := { s with deviceState := .address, currentConfiguration := 0 })
      (fun _ => ⟨rfl, rfl, fun _ _ => .inl rfl⟩) (outs_statusIn _)
  · exact outs_requestError s

theorem outs_ppReset : Outs s (ppReset s) := fun _ => ⟨rfl, by rw [epsAt_ppReset_zero], fun _ _ => .inl rfl⟩

theorem bdIndex_zero_lt (m : PpMode) (dir : Dir) (par : Parity) : bdIndex m 0 dir par < ep0Entries m := by
  cases m <;> cases dir <;> cases par <;> decide

theorem bd_clearNonzero_zero (dir : Dir) (par : Parity) : (clearNonzero s).bd 0 dir par = s.bd 0 dir par := by
  have hi := bdIndex_zero_lt s.cfg.ppMode dir par
  simp only [State.bd, clearNonzero, List.getD_eq_getElem?_getD, List.getElem?_append, List.length_take]
  split
  · rw [List.getElem?_take_of_lt hi]
  · next h =>
    have hl : s.bdt.length ≤ bdIndex s.cfg.ppMode 0 dir par := by omega
    rw [List.drop_eq_nil_of_le (by omega), List.getElem?_eq_none hl]
    rfl

theorem outs_clearNonzero : Outs s (clearNonzero s) := fun _ =>
  ⟨rfl, by rw [epsAt_clearNonzero_zero], fun _ _ => .inl (by rw [bd_clearNonzero_zero])⟩

theorem outs_device {s t : State} (k : Outs s t) (d : DeviceState) : Outs s { t with deviceState := d } := k.trans (fun _ => ⟨rfl, rfl, fun _ _ => .inl rfl⟩)

theorem outs_setConfigNonzero (v : Byte) : Outs s (setConfigNonzero v s) := by
  unfold setConfigNonzero
  split
  · exact outs_requestError s
  · have h : Outs s { clearNonzero (ppReset s) with currentConfiguration := v } :=
      ((outs_ppReset s).trans (outs_clearNonzero _)).trans (fun _ => ⟨rfl, rfl, fun _ _ => .inl rfl⟩)
    exact (h.trans (outs_device (outs_fnInit _) .configured)).trans (outs_statusIn _)

theorem outs_setConfiguration (v : Byte) : Outs s (setConfiguration v s) := by
  unfold setConfiguration
  split
  · exact outs_setConfigZero s
  · exact outs_setConfigNonzero s v

theorem outs_standardDispatch : Outs s (standardDispatch s) := by
  unfold standardDispatch
  split
  · exact (outs_getStatus s)
  · exact (outs_clearFeature s)
  · exact (outs_setFeature s)
  · exact (outs_setAddress s _)
  · exact (outs_getDescriptor s _ _)
  · exact (outs_requestError s)
  · exact (outs_getConfiguration s)
  · exact outs_setConfiguration s _
  · exact (outs_getInterface s _)
  · exact (outs_setInterface s _ _)
  · exact (outs_requestError s)
  · exact (outs_requestError s)

theorem outs_typeDispatch : Outs s (typeDispatch s) := by
  unfold typeDispatch
  split
  · exact outs_standardDispatch s
  · exact (outs_classDispatch s)
  · exact (outs_requestError s)

theorem outs_setupHandler (par : Parity) : Outs s (setupHandler par s) :=
  (outs_setupSteps s par).trans (outs_typeDispatch _)

theorem outs_commitAddress : Outs s (commitAddress s) := by
  unfold commitAddress
  split
  · exact fun _ => ⟨rfl, rfl, fun _ _ => .inl rfl⟩
  · exact .refl s

theorem outs_statusComplete : Outs s (statusComplete s) := (outs_commitAddress s).trans ((outs_ep0ArmSetup _).stage _)

end

end Sys2Proof.Machine
end

