-- ==== Sys2Proof/Laws/CalmExec.lean ====
section
/-! SUPPORT. The operations of the table that are calm: all but the events, the service of a completion, the end of a
status stage and the sequences, one line each. -/

namespace Sys2Proof.Machine

/-- Not an event, not the note of a parity. -/
def isQuiet : Instr → Bool
  | .attach => false
  | .idle => false
  | .activity => false
  | .sof => false
  | .error => false
  | .noteCompletion _ _ _ => false
  | _ => true

theorem calmPp_exec (i : Instr) (s t : State) (h : exec i s = .next t) (hm : mayReaddress i = false)
    (hq : isQuiet i = true) : CalmPp s t := by
  cases i with
  | isr => cases hm
  | attach => cases hq
  | detach => cases hm
  | reset => cases hm
  | idle => cases hq
  | activity => cases hq
  | sof => cases hq
  | error => cases hq
  | trn => cases hm
  | powerOnInit => cases hm
  | ep0Setup _ => cases h; exact calmPp_setupHandler _ _
  | ep0OutData _ _ => cases h; exact Calm.pp (by apply calm_dataOutStep)
  | ep0OutStatus => cases hm
  | ep0OutEarlyStatus => cases hm
  | ep0OutStray => cases h; exact Calm.pp (by apply calm_ep0ArmSetup)
  | ep0InData => cases h; exact Calm.pp (by apply calm_dataInNext)
  | ep0InStatus => cases hm
  | ep0InStray => cases h; exact (Calm.refl s).pp
  | epnCompletion _ _ _ _ => exact (calmR_fnTasks _ _ _ _ _ t h).pp
  | epOutOfRange _ => cases h; exact (Calm.refl s).pp
  | ep0Dispatch _ _ _ _ => cases hm
  | typeDispatch => cases h; exact calmPp_typeDispatch _
  | classDispatch => cases h; exact Calm.pp (by apply calm_classDispatch)
  | standardDispatch => cases h; exact calmPp_standardDispatch _
  | startDataIn _ _ _ => cases h; exact Calm.pp (by apply calm_startDataIn)
  | dataInNext => cases h; exact Calm.pp (by apply calm_dataInNext)
  | startDataOut _ _ => cases h; exact Calm.pp (by apply calm_startDataOut)
  | dataOutStep _ _ => cases h; exact Calm.pp (by apply calm_dataOutStep)
  | statusComplete => cases hm
  | vendorRequest => cases h; exact Calm.pp (by apply calm_requestError)
  | reservedTypeRequest => cases h; exact Calm.pp (by apply calm_requestError)
  | getStatusDevice => cases h; exact Calm.pp (by apply calm_getStatusDevice)
  | getStatusInterface _ => cases h; exact Calm.pp (by apply calm_getStatusInterface)
  | getStatusEndpoint _ _ => cases h; exact Calm.pp (by apply calm_getStatusEndpoint)
  | getStatusOther => cases h; exact Calm.pp (by apply calm_requestError)
  | clearFeatureDevice _ => cases h; exact Calm.pp (by apply calm_clearFeatureDevice)
  | clearFeatureEndpoint _ _ _ => cases h; exact Calm.pp (by apply calm_clearFeatureEndpoint)
  | clearFeatureOther => cases h; exact Calm.pp (by apply calm_requestError)
  | reservedRequest2 => cases h; exact Calm.pp (by apply calm_requestError)
  | setFeatureDevice _ => cases h; exact Calm.pp (by apply calm_setFeatureDevice)
  | setFeatureEndpoint _ _ _ => cases h; exact Calm.pp (by apply calm_setFeatureEndpoint)
  | setFeatureOther => cases h; exact Calm.pp (by apply calm_requestError)
  | reservedRequest4 => cases h; exact Calm.pp (by apply calm_requestError)
  | setAddress _ => cases h; exact Calm.pp (by apply calm_setAddress)
  | getDescriptor _ _ => cases h; exact Calm.pp (by apply calm_getDescriptor)
  | setDescriptor => cases h; exact Calm.pp (by apply calm_requestError)
  | getConfiguration => cases h; exact Calm.pp (by apply calm_getConfiguration)
  | setConfiguration _ => cases h; exact calmPp_setConfiguration _ _
  | getInterface _ => cases h; exact Calm.pp (by apply calm_getInterface)
  | setInterface _ _ => cases h; exact Calm.pp (by apply calm_setInterface)
  | syncFrame => cases h; exact Calm.pp (by apply calm_requestError)
  | reservedRequest13To255 _ => cases h; exact Calm.pp (by apply calm_requestError)
  | classRequest => cases h; exact Calm.pp (by apply calm_classDispatch)
  | getDescriptorDevice => cases h; exact Calm.pp (by apply calm_getDescDevice)
  | getDescriptorConfiguration _ => cases h; exact Calm.pp (by apply calm_getDescConfig)
  | getDescriptorString _ => cases h; exact Calm.pp (by apply calm_getDescString)
  | getDescriptorClassOrUnknown => cases h; exact Calm.pp (by apply calm_getDescClass)
  | setConfigurationZero => cases h; exact calmPp_setConfigZero _
  | setConfigurationNonzero _ => cases h; exact calmPp_setConfigNonzero _ _
  | bomsr => cases h; exact (Calm.trans (by apply calm_bomsr) (calm_respondStage _)).pp
  | getMaxLun => cases h; exact (Calm.trans (by apply calm_getMaxLun) (calm_respondStage _)).pp
  | mscClassOther => cases h; exact (Calm.trans (by apply calm_refuse) (calm_respondStage _)).pp
  | cdcSetLineCoding => cases h; exact (Calm.trans (by apply calm_cdcSetLineCoding) (calm_respondStage _)).pp
  | cdcGetLineCoding => cases h; exact (Calm.trans (by apply calm_cdcGetLineCoding) (calm_respondStage _)).pp
  | cdcSetControlLineState _ _ => cases h; exact (Calm.trans (by apply calm_cdcSetControlLineState) (calm_respondStage _)).pp
  | cdcSendEncapsulatedCommand => cases h; exact (Calm.trans (by apply calm_cdcSendEncapsulated) (calm_respondStage _)).pp
  | cdcGetEncapsulatedResponse => cases h; exact (Calm.trans (by apply calm_cdcGetEncapsulated) (calm_respondStage _)).pp
  | hidGetReport _ _ => cases h; exact (Calm.trans (by apply calm_hidGetReport) (calm_respondStage _)).pp
  | hidSetReport _ _ => cases h; exact (Calm.trans (by apply calm_hidSetReport) (calm_respondStage _)).pp
  | hidGetIdle _ => cases h; exact (Calm.trans (by apply calm_hidGetIdle) (calm_respondStage _)).pp
  | hidSetIdle _ _ => cases h; exact (Calm.trans (by apply calm_hidSetIdle) (calm_respondStage _)).pp
  | hidGetProtocol => cases h; exact (Calm.trans (by apply calm_refuse) (calm_respondStage _)).pp
  | hidSetProtocol => cases h; exact (Calm.trans (by apply calm_refuse) (calm_respondStage _)).pp
  | hookClassRequest => cases h; exact Calm.pp (by apply calm_classRequest)
  | hookGetClassDescriptor => cases h; exact Calm.pp (by apply calm_getClassDescriptor)
  | hookInit => cases h; exact Calm.pp (by apply calm_fnInit)
  | hookTasks _ _ _ _ => exact (calmR_fnTasks _ _ _ _ _ t h).pp
  | hookClearHalt _ _ _ => cases h; exact Calm.pp (by apply calm_clearHalt)
  | hookSetInterface _ _ => cases h; exact Calm.pp (by apply calm_setInterfaceHook)
  | hookGetInterface _ => cases h; exact Calm.pp (by apply calm_getInterfaceHook)
  | hookOutControlFinished => cases h; exact Calm.pp (by apply calm_outControlFinished)
  | hookInterfaceEndpoints _ => cases h; exact Calm.pp (by apply calm_interfaceEndpoints)
  | reclaim _ _ _ => cases h; exact Calm.pp (by apply calm_reclaim)
  | armOut _ _ _ _ => cases h; exact Calm.pp (by apply calm_armBd)
  | armIn _ _ _ _ => cases h; exact Calm.pp (by apply calm_armBd)
  | stall _ _ _ => cases h; exact Calm.pp (by apply calm_stall)
  | armStatusIn => cases h; exact Calm.pp (by apply calm_armStatusIn)
  | rearmOut _ _ _ _ => cases h; exact Calm.pp (by apply calm_rearm)
  | rearmIn _ _ _ _ => cases h; exact Calm.pp (by apply calm_rearm)
  | stallEp _ _ => cases h; exact Calm.pp (by apply calm_stallEp)
  | requestError => cases h; exact Calm.pp (by apply calm_requestError)
  | unstallEp _ _ => cases h; exact Calm.pp (by apply calm_unstallEp)
  | noteCompletion _ _ _ => cases hq
  | ppReset => cases h; exact calmPp_ppReset _
  | ep0ArmSetup => cases h; exact Calm.pp (by apply calm_ep0ArmSetup)
  | ep0ArmStatusOut => cases h; exact Calm.pp (by apply calm_ep0ArmStatusOut)
  | ep0ArmDataOut => cases h; exact Calm.pp (by apply calm_ep0ArmDataOut)
  | ep0SendIn _ => cases h; exact Calm.pp (by apply calm_ep0SendIn)
  | bulkArmOut _ => cases h; exact Calm.pp (by apply calm_bulkArmOut)
  | bulkArmIn _ => cases h; exact Calm.pp (by apply calm_bulkArmIn)
  | msdTasks => cases h; exact Calm.pp (by apply calm_msdTasks)
  | botEnqueue _ _ _ _ => exact (calmR_botEnqueue _ _ _ _ _ t h).pp
  | botCbwReceived _ _ => cases h; exact Calm.pp (by apply calm_handleCbw)
  | botDataOutChunk _ _ => cases h; exact Calm.pp (by apply calm_dataOutChunk)
  | botDataInNext => cases h; exact Calm.pp (by apply calm_sendInChunk)
  | botDataInEnd => cases h; exact Calm.pp (by apply calm_endOfDataIn)
  | botCswSent => cases h; exact Calm.pp (by apply calm_cswComplete)
  | botStaleEntry => cases h; exact (Calm.refl s).pp
  | cbwValid _ => cases h; exact Calm.pp (by apply calm_acceptCbw)
  | cbwInvalid => cases h; exact Calm.pp (by apply calm_invalidCbw)
  | arbitrate _ _ _ => cases h; exact Calm.pp (by apply calm_arbitrate)
  | botCase1 => cases h; exact Calm.pp (by apply calm_case1)
  | botCase2 => cases h; exact Calm.pp (by apply calm_case2)
  | botCase3 => cases h; exact Calm.pp (by apply calm_case3)
  | botCase4 => cases h; exact Calm.pp (by apply calm_case4)
  | botCase5 _ _ => cases h; exact Calm.pp (by apply calm_case5)
  | botCase6 _ _ => cases h; exact Calm.pp (by apply calm_case6)
  | botCase7 _ => cases h; exact Calm.pp (by apply calm_case7)
  | botCase8 => cases h; exact Calm.pp (by apply calm_case8)
  | botCase9 => cases h; exact Calm.pp (by apply calm_case9)
  | botCase10 => cases h; exact Calm.pp (by apply calm_case10)
  | botCase11 _ => cases h; exact Calm.pp (by apply calm_case11)
  | botCase12 _ => cases h; exact Calm.pp (by apply calm_case12)
  | botCase13 => cases h; exact Calm.pp (by apply calm_case13)
  | startIn _ _ _ => cases h; exact Calm.pp (by apply calm_startIn)
  | startOut _ _ => cases h; exact Calm.pp (by apply calm_startOut)
  | stallAndWait _ => cases h; exact Calm.pp (by apply calm_stallAndWait)
  | sendInChunk => cases h; exact Calm.pp (by apply calm_sendInChunk)
  | endOfDataIn => cases h; exact Calm.pp (by apply calm_endOfDataIn)
  | dataOutChunk _ _ => cases h; exact Calm.pp (by apply calm_dataOutChunk)
  | sendCsw => cases h; exact Calm.pp (by apply calm_sendCsw)
  | cswComplete => cases h; exact Calm.pp (by apply calm_cswComplete)
  | failCommand _ _ _ _ => cases h; exact Calm.pp (by apply calm_failCommand)
  | phaseFail => cases h; exact Calm.pp (by apply calm_phaseFail)
  | botClearHalt _ _ _ => cases h; exact Calm.pp (by apply calm_botClearHalt)
  | botInit => cases h; exact Calm.pp (by apply calm_botInit)
  | cswWrapper => cases h; exact Calm.pp (by apply calm_fillBuf)
  | testUnitReady => cases h; exact Calm.pp (by apply calm_testUnitReady)
  | requestSense _ => cases h; exact Calm.pp (by apply calm_requestSense)
  | inquiry => cases h; exact Calm.pp (by apply calm_respond)
  | modeSense6 => cases h; exact Calm.pp (by apply calm_respond)
  | readCapacity10 _ _ => cases h; exact Calm.pp (by apply calm_readCapacity10)
  | read10 _ _ => cases h; exact Calm.pp (by apply calm_read10)
  | write10 _ _ => cases h; exact Calm.pp (by apply calm_write10)
  | scsiUnknownOpcode => cases h; exact Calm.pp (by apply calm_failCommand)
  | scsiDispatch => cases h; exact Calm.pp (by apply calm_scsiDispatch)
  | respond _ _ => cases h; exact Calm.pp (by apply calm_respond)
  | senseOnComplete => cases h; exact Calm.pp (by apply calm_senseOnComplete)
  | rwParse => cases h; exact Calm.pp (by apply calm_rwLoad)
  | pseudoClearHalt _ => cases hm
  | pseudoSetHalt _ => cases hm
  | bomsrSeq => cases hm
  | setAddressSeq _ => cases hm
  | setConfigSeq _ => cases hm
  | cbwSeq _ _ _ _ => cases hm

end Sys2Proof.Machine
end

