-- ==== Sys2Proof/Laws/Fields.lean ====
section
/-! SUPPORT. A packet built from its fields gives them back: byte orders, the fields of a SETUP packet, of a CBW. -/

namespace Sys2Proof.Machine

@[simp] theorem le16_bytes (h : Half) : le16 (loByte h) (hiByte h) = h := by
  apply BitVec.eq_of_getLsbD_eq
  intro i hi
  simp only [le16, loByte, hiByte, BitVec.getLsbD_append, BitVec.getLsbD_extractLsb']
  by_cases h8 : i < 8
  · simp [h8]
  · have e : 8 + (i - 8) = i := by omega
    have l : i - 8 < 8 := by omega
    simp [h8, e, l]

@[simp] theorem loByte_halfOf (a b : Byte) : loByte (halfOf a b) = b := by
  apply BitVec.eq_of_getLsbD_eq
  intro i hi
  simp only [loByte, halfOf, BitVec.getLsbD_append, BitVec.getLsbD_extractLsb']
  simp [hi]

@[simp] theorem hiByte_halfOf (a b : Byte) : hiByte (halfOf a b) = a := by
  apply BitVec.eq_of_getLsbD_eq
  intro i hi
  simp only [hiByte, halfOf, BitVec.getLsbD_append, BitVec.getLsbD_extractLsb']
  simp [hi]

@[simp] theorem bRequest_setup (a b : Byte) (v i l : Half) : bRequest (setupBytes a b v i l) = b := rfl

@[simp] theorem wValue_setup (a b : Byte) (v i l : Half) : wValue (setupBytes a b v i l) = v := le16_bytes v

@[simp] theorem wIndex_setup (a b : Byte) (v i l : Half) : wIndex (setupBytes a b v i l) = i := le16_bytes i

@[simp] theorem indexEp_index (a b : Byte) (v l : Half) (ep : Ep) (dir : Dir) :
    indexEp (setupBytes a b v (endpointIndex ep dir) l) = ep := by
  unfold indexEp; rw [wIndex_setup]; cases dir <;> revert ep <;> decide

@[simp] theorem indexDir_index (a b : Byte) (v l : Half) (ep : Ep) (dir : Dir) :
    indexDir (setupBytes a b v (endpointIndex ep dir) l) = dir := by
  unfold indexDir; rw [wIndex_setup]; cases dir <;> revert ep <;> decide

@[simp] theorem extractLsb_setWidth_address (a : DevAddr) : (a.setWidth 16).extractLsb' 0 7 = a := by
  apply BitVec.eq_of_getLsbD_eq
  intro i hi
  have : i < 16 := by omega
  simp [hi, this]

@[simp] theorem be32_bytes (w : Word) :
    be32 (w.extractLsb' 24 8) (w.extractLsb' 16 8) (w.extractLsb' 8 8) (w.extractLsb' 0 8) = w := by
  apply BitVec.eq_of_getLsbD_eq
  intro i hi
  simp only [be32, BitVec.getLsbD_append, BitVec.getLsbD_extractLsb']
  by_cases h8 : i < 8
  · simp [h8]
  · by_cases h16 : i < 16
    · have l : i - 8 < 8 := by omega
      simp [h8, l, show 8 + (i - 8) = i by omega]
    · by_cases h24 : i < 24
      · have l : ¬ i - 8 < 8 := by omega
        have m : i - 8 - 8 < 8 := by omega
        simp [h8, l, m, show 16 + (i - 8 - 8) = i by omega]
      · have l : ¬ i - 8 < 8 := by omega
        have m : ¬ i - 8 - 8 < 8 := by omega
        have n : i - 8 - 8 - 8 < 8 := by omega
        simp [h8, l, m, n, show 24 + (i - 8 - 8 - 8) = i by omega]

@[simp] theorem le32_bytes (w : Word) :
    le32 (w.extractLsb' 0 8) (w.extractLsb' 8 8) (w.extractLsb' 16 8) (w.extractLsb' 24 8) = w := be32_bytes w

@[simp] theorem be16_bytes (h : Half) : be16 (hiByte h) (loByte h) = h := le16_bytes h

@[simp] theorem reqType_setup (a b : Byte) (v i l : Half) : reqType (setupBytes a b v i l) = a.extractLsb' 5 2 := rfl

@[simp] theorem recipient_setup (a b : Byte) (v i l : Half) : recipient (setupBytes a b v i l) = a.extractLsb' 0 5 := rfl

@[simp] theorem decodeSetup_request (a b : Byte) (v i l : Half) :
    decodeSetup (setupBytes a b v i l) =
      match (a.extractLsb' 5 2).toNat with
      | 0 => some (decodeStandard (setupBytes a b v i l))
      | 1 => some .classRequest
      | 2 => some .vendorRequest
      | _ => some .reservedTypeRequest := by
  unfold decodeSetup
  rw [reqType_setup]
  rfl

theorem map_byteAt {b : List Byte} {n : Nat} (h : b.length = n) : (List.range n).map (byteAt b) = b := by
  refine List.ext_getElem (by simp [h]) (fun i h1 h2 => ?_)
  simp [byteAt, h2]

/-- The fields of the bytes of a CBW are its fields (30 R135). -/
theorem cbwFields_bytes (w : Cbw) (h : w.cb.length = 16) :
    wordAt (cbwBytes w) 0 = cbwSignature ∧ cbwFields (cbwBytes w) = w := by
  have hf : fit 16 w.cb = w.cb := map_byteAt h
  have e : cbwBytes w = le32Bytes cbwSignature ++ le32Bytes w.tag ++ le32Bytes w.h ++ [w.flags, w.lun, w.cbLength] ++ w.cb := by
    unfold cbwBytes
    rw [hf]
  refine ⟨by rw [e]; exact le32_bytes _, ?_⟩
  have hcb : (List.range 16).map (fun i => byteAt (cbwBytes w) (15 + i)) = w.cb := by
    rw [e]
    refine Eq.trans (List.map_congr_left (fun i _ => ?_)) (map_byteAt h)
    simp only [byteAt, List.getD_eq_getElem?_getD]
    rw [List.getElem?_append_right (by simp [le32Bytes])]
    simp [le32Bytes]
  unfold cbwFields
  rw [hcb, e]
  have ht := le32_bytes w.tag
  have hh := le32_bytes w.h
  obtain ⟨tag, hl, flags, lun, cbl, cb⟩ := w
  simp only [Cbw.mk.injEq]
  exact ⟨ht, hh, rfl, rfl, rfl, trivial⟩

end Sys2Proof.Machine
end

