-- ==== Sys2Proof/Laws/Sound.lean ====
section
/-! SUPPORT. What a sound state gives (sizes and bounds), what a completed transaction of the SIE does, what the reset of
the tables does, what an arm of EP0 OUT does to its ownership. -/

namespace Sys2Proof.Machine

/-! Bounds of a sound state. -/

theorem State.Sound.numEp_pos {s : State} (hs : s.Sound) : 1 ≤ s.cfg.numEp := by
  have h := hs.cfg
  simp only [Config.wf, Config.numEpOk, Bool.and_eq_true, decide_eq_true_eq] at h
  omega

/-- With MSC bound the bulk endpoints exist (00 R12, R13). -/
theorem State.Sound.bulkEps {s : State} (hs : s.Sound) (hf : s.cfg.function = .msc) : s.cfg.bulkEpsOk = true := by
  have h := hs.cfg
  simp only [Config.wf, Config.functionOk, hf, Bool.and_eq_true] at h
  exact h.2

theorem bulk_lt {s : State} (h : s.cfg.bulkEpsOk = true) (dir : Dir) : (s.bulkEp dir).toNat < s.cfg.numEp := by
  simp only [Config.bulkEpsOk, Bool.and_eq_true, decide_eq_true_eq] at h
  cases dir
  · exact h.1.1.2
  · exact h.2

theorem State.Sound.sizes {s : State} (hs : s.Sound) : 1 ≤ s.cfg.bulkMax ∧ s.cfg.bulkMax ≤ 64 ∧ 1 ≤ s.cfg.blockSize := by
  have h := hs.cfg
  simp only [Config.wf, Config.sizesOk, Bool.and_eq_true, decide_eq_true_eq] at h
  exact ⟨h.1.1.1.1.1.1.2.1.1.1.1.1, h.1.1.1.1.1.1.2.1.1.1.1.2, h.1.1.1.1.1.1.2.1.1.1.2⟩

/-- At least 1024 addresses, so that the bytes of any `count` have addresses of their own. -/
theorem State.Sound.addrs {s : State} (hs : s.Sound) : 1024 ≤ 2 ^ s.cfg.addrW := by
  have h := hs.cfg
  simp only [Config.wf, Config.addrWOk, Bool.and_eq_true, decide_eq_true_eq] at h
  exact Nat.pow_le_pow_right (by decide : 0 < 2) h.1.1.1.1.1.1.1.1.1.1.2

/-- Every buffer lies in the address space (00 R15). -/
theorem State.Sound.bufAddr_lt {s : State} (hs : s.Sound) {ep : Ep} {dir : Dir} {par : Parity}
    (hv : s.validBd ep dir par) : s.bufAddr ep dir par < 2 ^ s.cfg.addrW := by
  have h := hs.cfg
  simp only [Config.wf, Config.buffersOk, Bool.and_eq_true, beq_iff_eq, List.all_eq_true, decide_eq_true_eq,
    List.mem_range] at h
  have hb := h.1.1.1.1.2
  have hi : bdIndex s.cfg.ppMode ep dir par < s.cfg.bufAddrs.length := by rw [hb.1]; exact bdIndex_lt hv.1 hv.2
  have hl := (hb.2 _ hi).1
  have h1 : 1 ≤ s.cfg.bufSize (bdIndex s.cfg.ppMode ep dir par) := by
    unfold Config.bufSize
    split
    · cases s.cfg.ep0Max <;> decide
    · exact hs.sizes.1
  exact Nat.lt_of_lt_of_le (Nat.lt_of_lt_of_le (Nat.lt_succ_self _) (Nat.add_le_add_left h1 _)) hl

theorem ep0Max_le (c : Config) : c.ep0Max.bytes ≤ 64 := by cases c.ep0Max <;> decide

/-- A change of other fields keeps the tables' sizes. -/
theorem shaped_of {s t : State} (h : s.Shaped) (hc : t.cfg = s.cfg) (hb : t.bdt.length = s.bdt.length)
    (he : t.eps.length = s.eps.length) (hp : t.sie.ptr.length = s.sie.ptr.length)
    (hx : t.sie.epCtrl.length = s.sie.epCtrl.length) (hu : t.setup.length = s.setup.length)
    (hw : t.cbw.length = s.cbw.length) (hr : t.bot.resp.length = s.bot.resp.length) (hq : t.bot.q.length ≤ 4) : t.Shaped :=
  ⟨by rw [hb, hc]; exact h.bdt, by rw [he, hc]; exact h.eps, by rw [hp, hc]; exact h.ptr, by rw [hx, hc]; exact h.ctrl,
    by rw [hu]; exact h.setup, by rw [hw]; exact h.cbw, by rw [hr]; exact h.resp, hq⟩


/-! A transaction of the SIE. -/

/-- A completion on the consulted BD does what 20 R89 says. -/
theorem complete_completes {s : State} (hs : s.Shaped) (ep : Ep) (dir : Dir) (hep : ep.toNat < s.cfg.numEp)
    (b : Bd) (u : State) (pid : BitVec 4) (n : Nat) (w : Answer) (hu : u = { s with buf := u.buf, wire := u.wire })
    (h1 : b.stat.own = false) (h2 : BdStat.pid b.stat = pid) (h3 : b.count = BitVec.ofNat 10 n)
    (h4 : b.address = (s.bd ep dir (s.siePar ep dir)).address) (pkt : Bool) :
    Completes ep dir (s.siePar ep dir) pid n pkt w s
      { complete ep dir b u with wire := w, sie := { (complete ep dir b u).sie with pktDisable := pkt } } := by
  have sp : u.siePar ep dir = s.siePar ep dir := by rw [hu]; rfl
  have hv : s.validBd ep dir (s.siePar ep dir) := by
    refine ⟨hep, ?_⟩
    unfold State.siePar
    by_cases hp : s.pp ep dir = true
    · exact .inr hp
    · exact .inl (by rw [if_neg hp])
  have hlt := hs.bd_lt hv
  have hpl : epsIndex ep dir < s.sie.ptr.length := by rw [hs.ptr]; exact epsIndex_lt dir hep
  have cb : ∀ e d p, (complete ep dir b u).bd e d p = (s.setBd ep dir (s.siePar ep dir) b).bd e d p := by
    intro e d p
    unfold complete flipPtr
    dsimp only
    rw [sp, hu]
    split <;> rfl
  have cp : (complete ep dir b u).sie = 
      { s.sie with
        lastTrn := ⟨ep, dir, s.siePar ep dir⟩
        ptr := if s.pp ep dir then s.sie.ptr.set (epsIndex ep dir) (s.ptrAt ep dir).other else s.sie.ptr } := by
    unfold complete flipPtr
    dsimp only
    rw [sp, hu]
    cases h : s.pp ep dir
    · rw [if_neg (by show ¬ s.pp ep dir = true; simp [h])]; simp
    · rw [if_pos (by show s.pp ep dir = true; exact h)]; rfl
  have own := State.bd_setBd (s := s) (ep := ep) (dir := dir) (par := s.siePar ep dir) b hlt
  have cbo : ∀ e d p,
      ({ complete ep dir b u with
          wire := w
          sie := { (complete ep dir b u).sie with pktDisable := pkt } } : State).bd e d p =
        (s.setBd ep dir (s.siePar ep dir) b).bd e d p := cb
  refine ⟨by rw [cbo, own]; exact h1, by rw [cbo, own]; exact h2, by rw [cbo, own]; exact h3, by rw [cbo, own]; exact h4, ?_, ?_, ?_, ?_⟩
  · intro e d p hne
    rw [cbo]; exact State.bd_setBd_of_ne _ hne
  · show (complete ep dir b u).sie.ptr.getD _ _ = _
    rw [cp]
    split
    · next hp =>
      simp only [hp]
      exact getD_set_eq _ _ _ _ hpl
    · rfl
  · intro e d hne
    show (complete ep dir b u).sie.ptr.getD _ _ = _
    rw [cp]
    cases hp : s.pp ep dir
    · rfl
    · exact getD_set_ne _ _ _ _ _ (Ne.symm (epsIndex_ne hne))
  · have : complete ep dir b u =
        { s with
          bdt := (complete ep dir b u).bdt
          buf := u.buf
          sie := (complete ep dir b u).sie
          ev := { s.ev with trn := true }
          wire := u.wire
          free := (complete ep dir b u).free } := by
      unfold complete flipPtr
      dsimp only
      rw [hu]
      split <;> rfl
    have bb : (complete ep dir b u).buf = u.buf := by rw [this]
    rw [cp] at this ⊢
    rw [this]

theorem hears_iff {s : State} {addr : Option DevAddr} {ep : Ep} {dir : Dir} :
    s.hears addr ep dir = true ↔ s.listens addr ep dir := by
  unfold State.hears State.dirEnabled State.listens
  cases addr <;> cases dir <;> simp [and_assoc]

/-- The SIE acts on a BD that it owns, unless packets are disabled. -/
theorem mute_eq_false {s : State} {ep : Ep} {dir : Dir} :
    s.mute ep dir = false ↔ s.sie.pktDisable = false ∧ (s.bd ep dir (s.siePar ep dir)).stat.own = true := by
  unfold State.mute
  cases s.sie.pktDisable <;> simp

theorem statWritten_pid (b : Bool) (p : BitVec 4) : BdStat.pid (statWritten b p) = p := by
  revert p; cases b <;> decide

theorem fit_self {b : List Byte} {n} (h : b.length = n) : fit n b = b := by
  unfold fit; refine List.ext_getElem (by simp [h]) (fun i h1 h2 => ?_); simp [byteAt, h2]


/-! The reset of the tables (70 R432). -/

theorem getD_map_stat (l : List Bd) (i : Nat) :
    (l.map (fun b => { b with stat := statClear })).getD i bdReset = { l.getD i bdReset with stat := statClear } := by
  simp only [List.getD_eq_getElem?_getD, List.getElem?_map]
  cases l[i]? <;> rfl

theorem bd_resetTables (s : State) (ep : Ep) (dir : Dir) (par : Parity) : 
   (resetTables s).bd ep dir par = { s.bd ep dir par with stat := statClear } := getD_map_stat s.bdt _

theorem ctrl_resetTables (s : State) (ep : Ep) (h : ep ≠ 0) : (resetTables s).ctrlAt ep = ctrlOff := by
  have h0 : ep.toNat ≠ 0 := fun hc => h (BitVec.eq_of_toNat_eq hc)
  show (s.sie.epCtrl.take 1 ++ (s.sie.epCtrl.drop 1).map (fun _ => ctrlOff)).getD ep.toNat ctrlOff = _
  simp only [List.getD_eq_getElem?_getD, List.getElem?_append, List.length_take, List.getElem?_map]
  split
  · omega
  · cases (List.drop 1 s.sie.epCtrl)[ep.toNat - min 1 s.sie.epCtrl.length]? <;> rfl


/-! EP0 OUT (70 R441). -/

/-- No EP0 OUT BD but the next one is owned. -/
def Lone (s : State) : Prop := ∀ par ∈ parities s.cfg.ppMode 0 .out, par ≠ s.nextPar 0 .out → (s.bd 0 .out par).stat.own = false

theorem armed_lone {s : State} (h : s.Ep0OutArmed) : Lone s := fun p hp hn => by rw [h p hp]; exact decide_eq_false hn

theorem Spares.armed {s t : State} (k : Spares s t) (h : s.Ep0OutArmed) : t.Ep0OutArmed := by
  intro p hp
  rw [k.cfg] at hp
  rw [k.next]
  rcases k.own p hp with h1 | ⟨h1, h2⟩
  · rw [h1, h p hp]
  · rw [h2, h1]; simp

theorem Spares.lone {s t : State} (k : Spares s t) (h : Lone s) : Lone t := by
  intro p hp hn
  rw [k.cfg] at hp
  rw [k.next] at hn
  rcases k.own p hp with h1 | ⟨h1, h2⟩
  · rw [h1, h p hp hn]
  · exact absurd h1 hn

theorem arm_armed {s : State} (hs : s.Shaped) (h1 : 1 ≤ s.cfg.numEp) (hl : Lone s) (tog : Bool) (n : Nat) : (rearmNext 0 .out tog n s).Ep0OutArmed := by
  have a := rearmNext_arms (dir := .out) hs (zero_lt_numEp h1) tog n
  have c : (rearmNext 0 .out tog n s).cfg = s.cfg := by rw [a.rest]
  have hn : (rearmNext 0 .out tog n s).nextPar 0 .out = s.nextPar 0 .out := by rw [a.rest]; rfl
  intro p hp
  rw [c] at hp
  rw [hn]
  by_cases hq : p = s.nextPar 0 .out
  · rw [hq, a.bd]; simp [armedBd, statArmed]
  · have hne : bdIndex s.cfg.ppMode 0 .out p ≠ bdIndex s.cfg.ppMode 0 .out (s.nextPar 0 .out) := by
      intro hc
      by_cases hpp : pp s.cfg.ppMode 0 .out = true
      · have hne := bdIndex_par hpp (s.nextPar 0 .out)
        have ho : p = (s.nextPar 0 .out).other := by
          clear hc hne hn a hp
          revert hq
          generalize s.nextPar 0 .out = q
          cases p <;> cases q <;> simp [Parity.other]
        rw [ho] at hc
        exact hne hc.symm
      · simp only [parities, hpp, Bool.false_eq_true, if_false, List.mem_singleton] at hp
        have hn : s.nextPar 0 .out = .even := by simp only [State.nextPar, State.pp, hpp, Bool.false_eq_true, if_false]
        exact hq (hp.trans hn.symm)
    rw [a.others _ _ _ hne, hl p hp hq, decide_eq_false hq]


end Sys2Proof.Machine
end

