-- ==== Sys2Proof/Laws/Functions.lean ====
section
/-! SUPPORT. What the operations of the functions do, each said once: the addresses and the arms of an `init()`, the idle
durations and the SOF counts of HID, the descriptors in ROM. -/

namespace Sys2Proof.Machine

section Init

variable {s t : State}

/-- An arm, whoever owns the BD: only that BD changes, its address stays (40 R162, 70 R445). -/
theorem armBd_bd (h : s.Shaped) {ep : Ep} {dir : Dir} {par : Parity} (hv : s.validBd ep dir par) (tog : Bool) (n : Nat) :
    (∃ c, (armBd ep dir par tog n s).bd ep dir par = ⟨statArmed true tog, c, (s.bd ep dir par).address⟩ ∧
      ((s.bd ep dir par).stat.own = false → c = BitVec.ofNat 10 n)) ∧
    SameBdsBut ep dir par s (armBd ep dir par tog n s) ∧
    armBd ep dir par tog n s =
      { s with bdt := (armBd ep dir par tog n s).bdt, free := (armBd ep dir par tog n s).free } := by
  cases ho : (s.bd ep dir par).stat.own
  · have w := armBd_writes h hv tog n ho
    exact ⟨⟨_, w.bd, fun _ => rfl⟩, w.others, by rw [w.rest]⟩
  · have w := armBd_owned_writes h hv tog n ho
    exact ⟨⟨_, w.bd, nofun⟩, w.others, by rw [w.rest]⟩

/-- The address writes of an `init()` on the endpoint directions `l` (43 R273). -/
structure Readdresses (l : List (Ep × Dir)) (s t : State) : Prop where
  shaped : t.Shaped
  bds : ∀ x ∈ l, ∀ par ∈ parities s.cfg.ppMode x.1 x.2,
    ∃ a, s.Addressed x.1 x.2 par a ∧ t.bd x.1 x.2 par = { s.bd x.1 x.2 par with address := a }
  others : ∀ e d p, (e, d) ∉ l → t.bd e d p = s.bd e d p
  rest : t = { s with bdt := t.bdt, free := t.free }

theorem readdresses_nil (h : s.Shaped) : Readdresses [] s s := ⟨h, by simp, fun _ _ _ _ => rfl, rfl⟩

theorem Readdresses.cons {l : List (Ep × Dir)} (k : Readdresses l s t) {ep : Ep} {dir : Dir} (hep : ep.toNat < s.cfg.numEp)
    (hn : (ep, dir) ∉ l) : Readdresses ((ep, dir) :: l) s (setAddresses ep dir t) := by
  have hc : t.cfg = s.cfg := by rw [k.rest]
  have ke := keeps_setAddresses t ep dir
  obtain ⟨b, o, r⟩ := setAddresses_bd (dir := dir) k.shaped (by rw [hc]; exact hep)
  generalize setAddresses ep dir t = u at *
  have bt : ∀ p, t.bd ep dir p = s.bd ep dir p := fun p => k.others ep dir p hn
  refine ⟨ke.shaped k.shaped, ?_, ?_, by rw [r, k.rest]⟩
  · intro x hx par hp
    rcases List.mem_cons.1 hx with rfl | hx
    · obtain ⟨a, ha, e⟩ := b par (by rw [hc]; exact hp)
      refine ⟨a, fun ho => ?_, by rw [e, bt]⟩
      rw [ha (by rw [bt]; exact ho)]
      simp only [State.bufAddr, hc]
    · obtain ⟨a, ha, e⟩ := k.bds x hx par hp
      refine ⟨a, ha, ?_⟩
      rw [o _ _ _ (Decidable.or_iff_not_not_and_not.2 fun hc => hn ?_), e]
      have h1 : x.1 = ep := by simpa using hc.1
      have h2 : x.2 = dir := by simpa using hc.2
      rw [← h1, ← h2]
      exact hx
  · intro e d p hm
    simp only [List.mem_cons, Prod.mk.injEq, not_or] at hm
    rw [o e d p (Decidable.or_iff_not_not_and_not.2 fun hc => hm.1 (by simpa using hc)), k.others e d p hm.2]

/-- The enables of one endpoint written. -/
theorem ctrlAt_setCtrl (s : State) {ep : Ep} (c : EpCtrl) (e : Ep) (h : ep.toNat < s.sie.epCtrl.length) :
    (s.setCtrl ep c).ctrlAt e = if e = ep then c else s.ctrlAt e := by
  unfold State.ctrlAt State.setCtrl
  by_cases he : e = ep
  · subst he
    rw [if_pos rfl]
    exact getD_set_eq _ _ _ _ h
  · rw [if_neg he]
    exact getD_set_ne _ _ _ _ _ (fun hc => he (BitVec.eq_of_toNat_eq hc.symm))

/-- BDs of different endpoint directions are different entries. -/
theorem bdIndex_ne_of {m : PpMode} {e ep : Ep} {d dir : Dir} {p par : Parity} (h : ¬(e = ep ∧ d = dir)) :
    bdIndex m e d p ≠ bdIndex m ep dir par := bdIndex_ne (Decidable.or_iff_not_not_and_not.2 (by simpa using h))

theorem zeroObjects_zeroes {w : Nat} {m : Memory} (l : List (Addr × Nat)) (h : memWf m) (hl : ∀ x ∈ l, x.2 ≤ 2 ^ w) :
    ZeroesObjects w l m (zeroObjects w l m) :=
  ⟨fun x hx i hi => memRead_zeroObjects w l m h hl x hx i hi, fun k hk => memRead_zeroObjects_other w l m k h hk⟩

/-- The RAM objects of the bound function fit the address space. -/
theorem functionRam_le (h : s.Sound) {x : Addr × Nat} (hx : x ∈ functionRam s.cfg) : x.2 ≤ 2 ^ s.cfg.addrW := by
  have hc := h.cfg
  simp only [Config.wf, Config.ramOk, Bool.and_eq_true, List.all_eq_true, decide_eq_true_eq] at hc
  exact Nat.le_trans (Nat.le_add_left _ _) (hc.1.1.1.2.1 x (by simp [hx]))

/-- Bytes put into the function's own next IN buffer, then the arm: `send_report`, a CDC chunk, a notification. -/
theorem sendOwn_sends (h : s.Shaped) (hm : memWf s.buf) {ep : Ep} (hep : ep.toNat < s.cfg.numEp) (b : List Byte)
    (hb : b.length ≤ 2 ^ s.cfg.addrW) (ho : (s.bd ep .inp (s.nextPar ep .inp)).stat.own = false) :
    SendsOwn ep b s (sendOwn ep b s) := by
  unfold sendOwn
  dsimp only
  rw [fillOwn_free_eq b ho]
  let u : State := { s with buf := writeBytes s.cfg.addrW s.buf (s.bufAddr ep .inp (s.nextPar ep .inp)) b }
  have hu : u.Shaped := ⟨h.1, h.2, h.3, h.4, h.5, h.6, h.7, h.8⟩
  have hv : u.validBd ep .inp (s.nextPar ep .inp) := validBd_nextPar (s := s) hep
  have w := armBd_writes hu hv (s.epsAt ep .inp).toggle b.length ho
  generalize armBd _ _ _ _ _ _ = t at *
  refine ⟨?_, w.bd, w.others, by rw [w.rest]⟩
  rw [show t.buf = u.buf by rw [w.rest]]
  exact writeBytes_holds _ _ hm hb

end Init

/-! What is the function's own (43 R278). -/

/-- The endpoints of the function's own exist and are not endpoint 0. -/
theorem functionEps_nonzero {c : Config} (hw : c.wf = true) {e : Ep × Dir} (he : e ∈ functionEps c) :
    c.nonzeroEp e.1 = true := by
  simp only [Config.wf, Bool.and_eq_true] at hw
  have ok := hw.2
  unfold Config.functionOk at ok
  unfold functionEps at he
  split at he
  · next hf =>
    simp only [hf, Config.bulkEpsOk, Bool.and_eq_true] at ok
    unfold Config.nonzeroEp
    simp only [List.mem_cons, List.not_mem_nil, or_false] at he
    obtain rfl | rfl := he
    · rw [Bool.and_eq_true]; exact ⟨ok.1.1.1, ok.1.1.2⟩
    · rw [Bool.and_eq_true]; exact ⟨ok.1.2, ok.2⟩
  · next hf =>
    simp only [hf, Config.cdcOk, Bool.and_eq_true] at ok
    simp only [List.mem_cons, List.not_mem_nil, or_false] at he
    obtain rfl | rfl | rfl := he
    exacts [ok.1.1.1.1.1.2, ok.1.1.1.1.2, ok.1.1.1.2]
  · next hf =>
    simp only [hf, Config.hidOk, Bool.and_eq_true] at ok
    simp only [List.mem_cons, List.mem_map, Option.mem_toList] at he
    obtain rfl | ⟨o, ho, rfl⟩ := he
    · exact ok.1.1.1.1.1.1.1.2
    · have := ok.1.1.1.1.1.1.2
      rw [ho] at this
      exact this
  · next hf =>
    simp only [hf] at ok
    exact List.all_eq_true.1 ok _ he

theorem functionEps_lt {c : Config} (hw : c.wf = true) {ep : Ep} {dir : Dir} (he : (ep, dir) ∈ functionEps c) :
    ep ≠ 0 ∧ ep.toNat < c.numEp := by
  have h := functionEps_nonzero hw he
  simp only [Config.nonzeroEp, Bool.and_eq_true, decide_eq_true_eq] at h
  exact ⟨by rintro rfl; exact absurd h.1 (by decide), h.2⟩

/-- An endpoint direction of the function's own is one that the configuration lists. -/
theorem ownDir_iff {c : Config} (hw : c.wf = true) {ep : Ep} {dir : Dir} :
    ownDir c ep dir = true ↔ (ep, dir) ∈ functionEps c := by
  unfold ownDir ownEp
  simp only [Bool.and_eq_true, beq_iff_eq, decide_eq_true_eq, bne_iff_ne, List.any_eq_true, List.contains_iff_mem]
  exact ⟨fun h => h.2, fun h => ⟨⟨functionEps_lt hw h, _, h, rfl⟩, h⟩⟩

/-- A BD of the function's own is a BD of such a direction. -/
theorem ownBd_iff {s : State} (h : s.cfg.wf = true) {ep : Ep} {dir : Dir} {par : Parity} :
    ownBd s.cfg ep dir par = true ↔ (ep, dir) ∈ functionEps s.cfg ∧ s.validBd ep dir par := by
  unfold ownBd State.validBd State.pp
  rw [Bool.and_eq_true, ownDir_iff h, Bool.or_eq_true, beq_iff_eq]
  exact ⟨fun x => ⟨x.1, (functionEps_lt h x.1).2, x.2⟩, fun x => ⟨x.1, x.2.2⟩⟩

/-! HID (46 R375, R376). -/

theorem reportIndex_lt {u : Bool} {k i : Nat} {r : Byte} (h : reportIndex u k r = some i) : i < k := by
  unfold reportIndex at h
  dsimp only at h
  generalize (if u = true then BitVec.toNat r - 1 else BitVec.toNat r) = j at h
  split at h
  · cases h
  · next hc =>
    cases h
    rw [Bool.or_eq_true, not_or, decide_eq_true_eq] at hc
    exact Nat.lt_of_not_le hc.2

/-- What SOF does to each report of a list. -/
structure CountsSof (l : List Nat) (s t : State) : Prop where
  counters : ∀ i, t.hid.counters.getD i 0 =
    if i ∈ l ∧ (memRead s.ram (idlePtr s.cfg i)).toNat ≠ 0 then s.hid.counters.getD i 0 + 1 else s.hid.counters.getD i 0
  expired : ∀ i, t.hid.expired.getD i false =
    if i ∈ l then
      s.hid.expired.getD i false || ((memRead s.ram (idlePtr s.cfg i)).toNat != 0 &&
        decide (4 * (memRead s.ram (idlePtr s.cfg i)).toNat - 1 < s.hid.counters.getD i 0 + 1))
    else s.hid.expired.getD i false
  rest : t = { s with hid := { s.hid with counters := t.hid.counters, expired := t.hid.expired } }

theorem sofReport_counts (s : State) (a : Nat) (h : a < s.hid.counters.length ∧ a < s.hid.expired.length) :
    CountsSof [a] s (sofReport s a) := by
  unfold sofReport
  dsimp only
  split
  · next hd =>
    refine ⟨fun i => (if_neg fun hc => ?_).symm, fun i => ?_, rfl⟩
    · rw [List.mem_singleton.1 hc.1] at hc
      exact hc.2 hd
    · split
      · next hi => simp [List.mem_singleton.1 hi, hd]
      · rfl
  · next hd =>
    refine ⟨fun i => ?_, fun i => ?_, rfl⟩
    · show (s.hid.counters.set a _).getD i 0 = _
      by_cases hi : i = a
      · subst hi
        rw [getD_set_eq _ _ _ _ h.1, if_pos ⟨List.mem_singleton.2 rfl, hd⟩]
      · rw [getD_set_ne _ _ _ _ _ (Ne.symm hi), if_neg fun hc => hi (List.mem_singleton.1 hc.1)]
    · show (if _ then s.hid.expired.set a true else s.hid.expired).getD i false = _
      by_cases hi : i = a
      · subst hi
        rw [if_pos (List.mem_singleton.2 rfl : i ∈ [i]),
          show ((memRead s.ram (idlePtr s.cfg i)).toNat != 0) = true by simpa using hd]
        by_cases hk : 4 * (memRead s.ram (idlePtr s.cfg i)).toNat - 1 < s.hid.counters.getD i 0 + 1
        · rw [if_pos hk, getD_set_eq _ _ _ _ h.2, decide_eq_true hk, Bool.and_self, Bool.or_true]
        · rw [if_neg hk, decide_eq_false hk, Bool.and_false, Bool.or_false]
      · rw [if_neg (fun hc => hi (List.mem_singleton.1 hc) : i ∉ [a])]
        split
        · exact getD_set_ne _ _ _ _ _ (Ne.symm hi)
        · rfl

theorem sofReports_count (l : List Nat) (hn : l.Nodup) (s : State)
    (hl : ∀ i ∈ l, i < s.hid.counters.length ∧ i < s.hid.expired.length) :
    CountsSof l s (l.foldl sofReport s) := by
  induction l generalizing s with
  | nil => exact ⟨by simp, by simp, rfl⟩
  | cons a r ih =>
    obtain ⟨c1, x1, e⟩ := sofReport_counts s a (hl a (by simp))
    have lc : (sofReport s a).hid.counters.length = s.hid.counters.length := by
      unfold sofReport
      dsimp only
      split <;> simp
    have le : (sofReport s a).hid.expired.length = s.hid.expired.length := by
      unfold sofReport
      dsimp only
      split <;> (try split) <;> simp
    obtain ⟨hn1, hn2⟩ := List.nodup_cons.1 hn
    obtain ⟨c2, x2, e2⟩ := ih hn2 (sofReport s a) (fun i hi => by rw [lc, le]; exact hl i (by simp [hi]))
    rw [show (sofReport s a).ram = s.ram by rw [e], show (sofReport s a).cfg = s.cfg by rw [e]] at c2 x2
    refine ⟨fun i => ?_, fun i => ?_, by rw [List.foldl_cons, e2, e]⟩
    · rw [List.foldl_cons, c2, c1]
      by_cases hi : i = a
      · subst hi
        simp [hn1]
      · simp [hi]
    · rw [List.foldl_cons, x2, x1, c1]
      by_cases hi : i = a
      · subst hi
        simp [hn1]
      · simp [hi]

/-- The idle duration `d` given to each report of a list. -/
structure SetsIdle (d : Byte) (l : List Nat) (s t : State) : Prop where
  ram : memWf t.ram
  set : ∀ i ∈ l, memRead t.ram (idlePtr s.cfg i) = d
  others : ∀ k, (∀ i ∈ l, k ≠ idlePtr s.cfg i) → memRead t.ram k = memRead s.ram k
  counters : ∀ i, t.hid.counters.getD i 0 = if i ∈ l then 0 else s.hid.counters.getD i 0
  expired : ∀ i, t.hid.expired.getD i false =
    if i ∈ l then s.hid.expired.getD i false && d != 0 else s.hid.expired.getD i false
  rest : t = { s with ram := t.ram, hid := { s.hid with counters := t.hid.counters, expired := t.hid.expired } }

/-- An entry of a list set to the default: the entry reads the default, the others as before. -/
theorem getD_set_default {α : Type} (l : List α) (a i : Nat) (x : α) : (l.set a x).getD i x = if i = a then x else l.getD i x := by
  by_cases hi : i = a
  · subst hi
    by_cases hb : i < l.length
    · rw [if_pos rfl, getD_set_eq _ _ _ _ hb]
    · rw [if_pos rfl, List.getD_eq_default _ _ (by simp; omega)]
  · rw [if_neg hi, getD_set_ne _ _ _ _ _ (Ne.symm hi)]

theorem setIdle_sets (d : Byte) (s : State) (a : Nat) (h : memWf s.ram) : SetsIdle d [a] s (setIdle d s a) := by
  refine ⟨memWrite_wf _ _ h, fun i hi => ?_, fun k hk => memRead_memWrite_other _ _ _ _ h (hk a (by simp)),
    fun i => ?_, fun i => ?_, rfl⟩
  · rw [List.mem_singleton.1 hi]
    exact memRead_memWrite_same _ _ _ h
  · show (s.hid.counters.set a 0).getD i 0 = _
    rw [getD_set_default]
    simp only [List.mem_singleton]
  · show (if d = 0 then s.hid.expired.set a false else s.hid.expired).getD i false = _
    by_cases hd : d = 0
    · rw [if_pos hd, getD_set_default]
      by_cases hi : i = a <;> simp [hi, hd]
    · rw [if_neg hd, show (d != 0) = true by simpa using hd, Bool.and_true]
      split <;> rfl

theorem setIdles_set (d : Byte) (l : List Nat) (s : State) (h : memWf s.ram) : SetsIdle d l s (l.foldl (setIdle d) s) := by
  induction l generalizing s with
  | nil => exact ⟨h, by simp, by simp, by simp, by simp, rfl⟩
  | cons a r ih =>
    obtain ⟨m1, s1, o1, c1, x1, e1⟩ := setIdle_sets d s a h
    obtain ⟨m2, s2, o2, c2, x2, e2⟩ := ih (setIdle d s a) m1
    rw [List.foldl_cons]
    refine ⟨m2, fun i hi => ?_, fun k hk => ?_, fun i => ?_, fun i => ?_, by rw [e2, e1]⟩
    · by_cases hr : ∃ j ∈ r, idlePtr s.cfg i = idlePtr s.cfg j
      · obtain ⟨j, hj, he⟩ := hr
        rw [he]
        exact s2 j hj
      · rw [o2 _ (fun j hj he => hr ⟨j, hj, he⟩)]
        rcases List.mem_cons.1 hi with rfl | hm
        · exact s1 i (by simp)
        · exact absurd ⟨i, hm, rfl⟩ hr
    · rw [o2 k (fun i hi => hk i (by simp [hi])), o1 k (fun i hi => hk i (List.mem_singleton.1 hi ▸ List.mem_cons_self))]
    · rw [c2, c1]
      by_cases h1 : i ∈ r <;> by_cases h2 : i = a <;> simp [h1, h2]
    · rw [x2, x1]
      by_cases h1 : i ∈ r <;> by_cases h2 : i = a <;> simp [h1, h2]

/-! The descriptors in ROM (20 R82, log 22). -/

theorem romOffset_place (w b k i : Nat) (h : b + (k + i) < 2 ^ w) (hb : b ≤ 2 ^ w) :
    (place w (place w b k) i + (2 ^ w - b)) % 2 ^ w = k + i := by
  rw [place_place]
  unfold place
  have : (b + (k + i)) % 2 ^ w = b + (k + i) := Nat.mod_eq_of_lt h
  rw [this]
  have : b + (k + i) + (2 ^ w - b) = k + i + 2 ^ w := by omega
  rw [this, Nat.add_mod_right, Nat.mod_eq_of_lt (by omega)]

/-- The bytes of one descriptor of the store. -/
theorem romBytes_of_rom (c : Config)
    (h : @LE.le Nat _ (@HAdd.hAdd Nat Nat Nat _ c.romBase (rom c).length) (2 ^ c.addrW)) (p x q : List Byte)
    (e : rom c = p ++ x ++ q) :
    romBytes c (place c.addrW c.romBase p.length) x.length = x := by
  refine List.ext_getElem (by simp [romBytes]) (fun i h1 h2 => ?_)
  simp only [romBytes, List.getElem_map, List.getElem_range]
  have hlen : (rom c).length = p.length + x.length + q.length := by rw [e]; simp [Nat.add_assoc]
  have : romOffset c (place c.addrW (place c.addrW c.romBase p.length) i) = p.length + i := by
    unfold romOffset
    exact romOffset_place _ _ _ _ (by omega) (by omega)
  rw [this, e]
  simp [byteAt, List.getD, List.getElem?_append, h2]

end Sys2Proof.Machine
end

