-- ==== Sys2Proof/Laws/PerInstr.lean ====
section
/-! SUPPORT. One lemma for each instruction: the decoder reads its word back, with every operand (30 R146, R148). The
operations that the table calls internal, and the trace-script pseudo-operations, have no word. -/

namespace Sys2Proof.Laws.RoundTrip

open Sys2Proof Sys2Proof.Machine

/-- The word of a well-formed instruction decodes to it. -/
def Statement (i : Instr) : Prop :=
  ∀ (c : Config) (w : OpWord), c.wf = true → i.wf c = true → encode c i = some w → decode c w = some i

theorem statement_of_none {i : Instr} (h : ∀ c, encode c i = none) : Statement i := fun c w _ _ hw => by
  rw [h c] at hw
  cases hw

theorem numEp_pos {c : Config} (h : c.wf = true) : 0 < c.numEp := by
  simp only [Config.wf, Config.numEpOk, Bool.and_eq_true, decide_eq_true_eq] at h
  omega

theorem hidCodes_ne {c : Config} (h : c.wf = true) :
    c.hid.setReport ≠ c.hid.getReport ∧ c.hid.getIdle ≠ c.hid.getReport ∧ c.hid.setIdle ≠ c.hid.getReport ∧
      c.hid.getProtocol ≠ c.hid.getReport ∧ c.hid.setProtocol ≠ c.hid.getReport ∧ c.hid.getIdle ≠ c.hid.setReport ∧
      c.hid.setIdle ≠ c.hid.setReport ∧ c.hid.getProtocol ≠ c.hid.setReport ∧ c.hid.setProtocol ≠ c.hid.setReport ∧
      c.hid.setIdle ≠ c.hid.getIdle ∧ c.hid.getProtocol ≠ c.hid.getIdle ∧ c.hid.setProtocol ≠ c.hid.getIdle ∧
      c.hid.getProtocol ≠ c.hid.setIdle ∧ c.hid.setProtocol ≠ c.hid.setIdle ∧ c.hid.setProtocol ≠ c.hid.getProtocol := by
  simp only [Config.wf, Bool.and_eq_true] at h
  have k := h.1.2
  simp only [Config.hidCodesOk, List.nodup_cons, List.mem_cons, List.not_mem_nil, or_false, not_or, decide_eq_true_eq] at k
  tauto

theorem succ_facts {d : Word} (h : 0 < d.toNat) (h2 : d.toNat + 1 < 2 ^ 32) : d ≠ 0 ∧ d + 1 ≠ 0 ∧ d < d + 1 := by
  have e : (d + 1).toNat = d.toNat + 1 := by
    rw [BitVec.toNat_add]
    exact Nat.mod_eq_of_lt h2
  refine ⟨fun hd => by simp [hd] at h, fun hd => ?_, ?_⟩
  · rw [hd] at e
    simp at e
  · rw [BitVec.lt_def, e]
    omega

theorem isr : Statement .isr := by
  intro c w _ _ h
  cases h
  rfl

theorem attach : Statement .attach := by
  intro c w _ _ h
  cases h
  rfl

theorem detach : Statement .detach := by
  intro c w _ _ h
  cases h
  rfl

theorem reset : Statement .reset := by
  intro c w _ _ h
  cases h
  rfl

theorem idle : Statement .idle := by
  intro c w _ _ h
  cases h
  rfl

theorem activity : Statement .activity := by
  intro c w _ _ h
  cases h
  rfl

theorem sof : Statement .sof := by
  intro c w _ _ h
  cases h
  rfl

theorem error : Statement .error := by
  intro c w _ _ h
  cases h
  rfl

theorem trn : Statement .trn := by
  intro c w _ _ h
  cases h
  rfl

theorem powerOnInit : Statement .powerOnInit := statement_of_none (fun _ => rfl)

theorem ep0Setup (par : Parity) : Statement (.ep0Setup par) := by
  intro c w hc _ h
  cases h
  simp [decode, decodeTrn, Nat.not_le.2 (numEp_pos hc), pidSetup, pidOut]

theorem ep0OutData (par : Parity) (n : Nat) : Statement (.ep0OutData par n) := by
  intro c w hc _ h
  cases h
  simp [decode, decodeTrn, Nat.not_le.2 (numEp_pos hc), pidSetup, pidOut]

theorem ep0OutStatus : Statement .ep0OutStatus := by
  intro c w hc _ h
  cases h
  simp [decode, decodeTrn, Nat.not_le.2 (numEp_pos hc), pidSetup, pidOut]

theorem ep0OutEarlyStatus : Statement .ep0OutEarlyStatus := by
  intro c w hc _ h
  cases h
  simp [decode, decodeTrn, Nat.not_le.2 (numEp_pos hc), pidSetup, pidOut]

theorem ep0OutStray : Statement .ep0OutStray := by
  intro c w hc _ h
  cases h
  simp [decode, decodeTrn, Nat.not_le.2 (numEp_pos hc), pidSetup, pidOut]

theorem ep0InData : Statement .ep0InData := by
  intro c w hc _ h
  cases h
  simp [decode, decodeTrn, Nat.not_le.2 (numEp_pos hc), pidSetup, pidOut]

theorem ep0InStatus : Statement .ep0InStatus := by
  intro c w hc _ h
  cases h
  simp [decode, decodeTrn, Nat.not_le.2 (numEp_pos hc), pidSetup, pidOut]

theorem ep0InStray : Statement .ep0InStray := by
  intro c w hc _ h
  cases h
  simp [decode, decodeTrn, Nat.not_le.2 (numEp_pos hc), pidSetup, pidOut]

theorem epnCompletion (ep : Ep) (dir : Dir) (par : Parity) (n : Nat) : Statement (.epnCompletion ep dir par n) := by
  intro c w _ hw h
  cases h
  simp only [Instr.wf, Instr.bdOk, Instr.epOk, Bool.and_eq_true, decide_eq_true_eq, bne_iff_ne] at hw
  show some (decodeTrn _ _ _ _ _ _ _) = _
  unfold decodeTrn
  rw [if_neg (Nat.not_le.2 hw.1.1.1), if_pos hw.1.2]

theorem epOutOfRange (ep : Ep) : Statement (.epOutOfRange ep) := by
  intro c w _ hw h
  cases h
  have h1 : c.numEp ≤ ep.toNat := by simpa [Instr.wf, Instr.epOk] using hw
  simp [decode, decodeTrn, h1]

theorem ep0Dispatch (dir : Dir) (pid : BitVec 4) (par : Parity) (n : Nat) : Statement (.ep0Dispatch dir pid par n) := statement_of_none (fun _ => rfl)

theorem typeDispatch : Statement .typeDispatch := statement_of_none (fun _ => rfl)

theorem classDispatch : Statement .classDispatch := statement_of_none (fun _ => rfl)

theorem standardDispatch : Statement .standardDispatch := statement_of_none (fun _ => rfl)

theorem startDataIn (src : Source) (ptr : Addr) (d : Nat) : Statement (.startDataIn src ptr d) := statement_of_none (fun _ => rfl)

theorem dataInNext : Statement .dataInNext := statement_of_none (fun _ => rfl)

theorem startDataOut (target : Addr) (len : Nat) : Statement (.startDataOut target len) := statement_of_none (fun _ => rfl)

theorem dataOutStep (par : Parity) (n : Nat) : Statement (.dataOutStep par n) := statement_of_none (fun _ => rfl)

theorem statusComplete : Statement .statusComplete := statement_of_none (fun _ => rfl)

theorem vendorRequest : Statement .vendorRequest := by
  intro c w _ _ h
  cases h
  simp [decode, decodeStandard]

theorem reservedTypeRequest : Statement .reservedTypeRequest := by
  intro c w _ _ h
  cases h
  simp [decode, decodeStandard]

theorem getStatusDevice : Statement .getStatusDevice := by
  intro c w _ _ h
  cases h
  simp [decode, decodeStandard]

theorem getStatusInterface (iface : Byte) : Statement (.getStatusInterface iface) := by
  intro c w _ _ h
  cases h
  simp [decode, decodeStandard]

theorem getStatusEndpoint (ep : Ep) (dir : Dir) : Statement (.getStatusEndpoint ep dir) := by
  intro c w _ _ h
  cases h
  simp [decode, decodeStandard]

theorem getStatusOther : Statement .getStatusOther := by
  intro c w _ _ h
  cases h
  simp [decode, decodeStandard]

theorem clearFeatureDevice (sel : Half) : Statement (.clearFeatureDevice sel) := by
  intro c w _ _ h
  cases h
  simp [decode, decodeStandard]

theorem clearFeatureEndpoint (sel : Half) (ep : Ep) (dir : Dir) : Statement (.clearFeatureEndpoint sel ep dir) := by
  intro c w _ _ h
  cases h
  simp [decode, decodeStandard]

theorem clearFeatureOther : Statement .clearFeatureOther := by
  intro c w _ _ h
  cases h
  simp [decode, decodeStandard]

theorem reservedRequest2 : Statement .reservedRequest2 := by
  intro c w _ _ h
  cases h
  simp [decode, decodeStandard]

theorem setFeatureDevice (sel : Half) : Statement (.setFeatureDevice sel) := by
  intro c w _ _ h
  cases h
  simp [decode, decodeStandard]

theorem setFeatureEndpoint (sel : Half) (ep : Ep) (dir : Dir) : Statement (.setFeatureEndpoint sel ep dir) := by
  intro c w _ _ h
  cases h
  simp [decode, decodeStandard]

theorem setFeatureOther : Statement .setFeatureOther := by
  intro c w _ _ h
  cases h
  simp [decode, decodeStandard]

theorem reservedRequest4 : Statement .reservedRequest4 := by
  intro c w _ _ h
  cases h
  simp [decode, decodeStandard]

theorem setAddress (a : DevAddr) : Statement (.setAddress a) := by
  intro c w _ _ h
  cases h
  simp [decode, decodeStandard]

theorem getDescriptor (dtype didx : Byte) : Statement (.getDescriptor dtype didx) := by
  intro c w _ _ h
  cases h
  simp [decode, decodeStandard]

theorem setDescriptor : Statement .setDescriptor := by
  intro c w _ _ h
  cases h
  simp [decode, decodeStandard]

theorem getConfiguration : Statement .getConfiguration := by
  intro c w _ _ h
  cases h
  simp [decode, decodeStandard]

theorem setConfiguration (v : Byte) : Statement (.setConfiguration v) := by
  intro c w _ _ h
  cases h
  simp [decode, decodeStandard]

theorem getInterface (iface : Byte) : Statement (.getInterface iface) := by
  intro c w _ _ h
  cases h
  simp [decode, decodeStandard]

theorem setInterface (alt iface : Byte) : Statement (.setInterface alt iface) := by
  intro c w _ _ h
  cases h
  simp [decode, decodeStandard]

theorem syncFrame : Statement .syncFrame := by
  intro c w _ _ h
  cases h
  simp [decode, decodeStandard]

theorem reservedRequest13To255 (code : Byte) : Statement (.reservedRequest13To255 code) := by
  intro c w _ hw h
  cases h
  have h13 : 13 ≤ code.toNat := by simpa [Instr.wf] using hw
  simp only [decode, decodeSetup_request]
  show some (decodeStandard _) = _
  unfold decodeStandard
  rw [bRequest_setup]
  split <;> first | omega | rfl

theorem classRequest : Statement .classRequest := by
  intro c w _ _ h
  cases h
  simp [decode, decodeStandard]

theorem getDescriptorDevice : Statement .getDescriptorDevice := by
  intro c w _ _ h
  cases h
  rfl

theorem getDescriptorConfiguration (didx : Byte) : Statement (.getDescriptorConfiguration didx) := by
  intro c w _ _ h
  cases h
  rfl

theorem getDescriptorString (didx : Byte) : Statement (.getDescriptorString didx) := by
  intro c w _ _ h
  cases h
  rfl

theorem getDescriptorClassOrUnknown : Statement .getDescriptorClassOrUnknown := by
  intro c w _ _ h
  cases h
  rfl

theorem setConfigurationZero : Statement .setConfigurationZero := by
  intro c w _ _ h
  cases h
  rfl

theorem setConfigurationNonzero (v : Byte) : Statement (.setConfigurationNonzero v) := by
  intro c w _ hw h
  cases h
  have h0 : v ≠ 0 := by simpa [Instr.wf] using hw
  exact congrArg some (if_neg h0)

theorem bomsr : Statement .bomsr := by
  intro c w _ _ h
  cases h
  rfl

theorem getMaxLun : Statement .getMaxLun := by
  intro c w _ _ h
  cases h
  rfl

theorem mscClassOther : Statement .mscClassOther := by
  intro c w _ _ h
  cases h
  rfl

theorem cdcSetLineCoding : Statement .cdcSetLineCoding := by
  intro c w _ _ h
  cases h
  rfl

theorem cdcGetLineCoding : Statement .cdcGetLineCoding := by
  intro c w _ _ h
  cases h
  rfl

theorem cdcSetControlLineState (dtr rts : Bool) : Statement (.cdcSetControlLineState dtr rts) := by
  intro c w _ _ h
  cases h
  cases dtr <;> cases rts <;> rfl

theorem cdcSendEncapsulatedCommand : Statement .cdcSendEncapsulatedCommand := by
  intro c w _ _ h
  cases h
  rfl

theorem cdcGetEncapsulatedResponse : Statement .cdcGetEncapsulatedResponse := by
  intro c w _ _ h
  cases h
  rfl

theorem hidGetReport (rtype rid : Byte) : Statement (.hidGetReport rtype rid) := by
  intro c w hc _ h
  cases h
  have hd := hidCodes_ne hc
  simp [decode, decodeClass, hd]

theorem hidSetReport (rtype rid : Byte) : Statement (.hidSetReport rtype rid) := by
  intro c w hc _ h
  cases h
  have hd := hidCodes_ne hc
  simp [decode, decodeClass, hd]

theorem hidGetIdle (rid : Byte) : Statement (.hidGetIdle rid) := by
  intro c w hc _ h
  cases h
  have hd := hidCodes_ne hc
  simp [decode, decodeClass, hd]

theorem hidSetIdle (duration rid : Byte) : Statement (.hidSetIdle duration rid) := by
  intro c w hc _ h
  cases h
  have hd := hidCodes_ne hc
  simp [decode, decodeClass, hd]

theorem hidGetProtocol : Statement .hidGetProtocol := by
  intro c w hc _ h
  cases h
  have hd := hidCodes_ne hc
  simp [decode, decodeClass, hd]

theorem hidSetProtocol : Statement .hidSetProtocol := by
  intro c w hc _ h
  cases h
  have hd := hidCodes_ne hc
  simp [decode, decodeClass, hd]

theorem hookClassRequest : Statement .hookClassRequest := statement_of_none (fun _ => rfl)

theorem hookGetClassDescriptor : Statement .hookGetClassDescriptor := statement_of_none (fun _ => rfl)

theorem hookInit : Statement .hookInit := statement_of_none (fun _ => rfl)

theorem hookTasks (ep : Ep) (dir : Dir) (par : Parity) (n : Nat) : Statement (.hookTasks ep dir par n) := statement_of_none (fun _ => rfl)

theorem hookClearHalt (index : Nat) (ep : Ep) (dir : Dir) : Statement (.hookClearHalt index ep dir) := statement_of_none (fun _ => rfl)

theorem hookSetInterface (alt iface : Byte) : Statement (.hookSetInterface alt iface) := statement_of_none (fun _ => rfl)

theorem hookGetInterface (iface : Byte) : Statement (.hookGetInterface iface) := statement_of_none (fun _ => rfl)

theorem hookOutControlFinished : Statement .hookOutControlFinished := statement_of_none (fun _ => rfl)

theorem hookInterfaceEndpoints (iface : Byte) : Statement (.hookInterfaceEndpoints iface) := statement_of_none (fun _ => rfl)

theorem reclaim (ep : Ep) (dir : Dir) (par : Parity) : Statement (.reclaim ep dir par) := by
  intro c w _ _ h
  cases h
  rfl

theorem armOut (ep : Ep) (par : Parity) (tog : Bool) (n : Nat) : Statement (.armOut ep par tog n) := by
  intro c w _ _ h
  cases h
  cases tog <;> rfl

theorem armIn (ep : Ep) (par : Parity) (tog : Bool) (n : Nat) : Statement (.armIn ep par tog n) := by
  intro c w _ _ h
  cases h
  cases tog <;> rfl

theorem stall (ep : Ep) (dir : Dir) (par : Parity) : Statement (.stall ep dir par) := by
  intro c w _ _ h
  cases h
  rfl

theorem armStatusIn : Statement .armStatusIn := statement_of_none (fun _ => rfl)

theorem rearmOut (ep : Ep) (par : Parity) (tog : Bool) (n : Nat) : Statement (.rearmOut ep par tog n) := statement_of_none (fun _ => rfl)

theorem rearmIn (ep : Ep) (par : Parity) (tog : Bool) (n : Nat) : Statement (.rearmIn ep par tog n) := statement_of_none (fun _ => rfl)

theorem stallEp (ep : Ep) (dir : Dir) : Statement (.stallEp ep dir) := statement_of_none (fun _ => rfl)

theorem requestError : Statement .requestError := statement_of_none (fun _ => rfl)

theorem unstallEp (ep : Ep) (dir : Dir) : Statement (.unstallEp ep dir) := statement_of_none (fun _ => rfl)

theorem noteCompletion (ep : Ep) (dir : Dir) (par : Parity) : Statement (.noteCompletion ep dir par) := statement_of_none (fun _ => rfl)

theorem ppReset : Statement .ppReset := statement_of_none (fun _ => rfl)

theorem ep0ArmSetup : Statement .ep0ArmSetup := statement_of_none (fun _ => rfl)

theorem ep0ArmStatusOut : Statement .ep0ArmStatusOut := statement_of_none (fun _ => rfl)

theorem ep0ArmDataOut : Statement .ep0ArmDataOut := statement_of_none (fun _ => rfl)

theorem ep0SendIn (n : Nat) : Statement (.ep0SendIn n) := statement_of_none (fun _ => rfl)

theorem bulkArmOut (n : Nat) : Statement (.bulkArmOut n) := statement_of_none (fun _ => rfl)

theorem bulkArmIn (n : Nat) : Statement (.bulkArmIn n) := statement_of_none (fun _ => rfl)

theorem msdTasks : Statement .msdTasks := statement_of_none (fun _ => rfl)

theorem botEnqueue (ep : Ep) (dir : Dir) (par : Parity) (n : Nat) : Statement (.botEnqueue ep dir par n) := statement_of_none (fun _ => rfl)

theorem botCbwReceived (par : Parity) (n : Nat) : Statement (.botCbwReceived par n) := by
  intro c w _ _ h
  cases h
  rfl

theorem botDataOutChunk (par : Parity) (n : Nat) : Statement (.botDataOutChunk par n) := by
  intro c w _ _ h
  cases h
  rfl

theorem botDataInNext : Statement .botDataInNext := by
  intro c w _ _ h
  cases h
  rfl

theorem botDataInEnd : Statement .botDataInEnd := by
  intro c w _ _ h
  cases h
  rfl

theorem botCswSent : Statement .botCswSent := by
  intro c w _ _ h
  cases h
  rfl

theorem botStaleEntry : Statement .botStaleEntry := by
  intro c w _ _ h
  cases h
  rfl

theorem cbwValid (w : Cbw) : Statement (.cbwValid w) := by
  intro c u _ hw h
  cases h
  obtain ⟨h1, h2⟩ := cbwFields_bytes w (by simpa [Instr.wf] using hw)
  simp [decode, decodeCbw, h1, h2]

theorem cbwInvalid : Statement .cbwInvalid := by
  intro c w _ _ h
  cases h
  rfl

theorem arbitrate (e : Expect) (d : Word) (src : Src) : Statement (.arbitrate e d src) := statement_of_none (fun _ => rfl)

theorem botCase1 : Statement .botCase1 := by
  intro c w _ _ h
  cases h
  rfl

theorem botCase2 : Statement .botCase2 := by
  intro c w _ _ h
  cases h
  rfl

theorem botCase3 : Statement .botCase3 := by
  intro c w _ _ h
  cases h
  rfl

theorem botCase4 : Statement .botCase4 := by
  intro c w _ _ h
  cases h
  rfl

theorem botCase5 (d : Word) (src : Src) : Statement (.botCase5 d src) := by
  intro c w _ hw h
  cases h
  simp only [Instr.wf, Bool.and_eq_true, decide_eq_true_eq] at hw
  obtain ⟨h1, h2, h3⟩ := succ_facts hw.1.1 hw.1.2
  show some (decodeCase _ _ _ _ _) = _
  unfold decodeCase
  rw [if_neg h1]
  simp only [h2, h3, if_true, if_false]

theorem botCase6 (d : Word) (src : Src) : Statement (.botCase6 d src) := by
  intro c w _ hw h
  cases h
  simp only [Instr.wf, Bool.and_eq_true, decide_eq_true_eq] at hw
  have h1 : d ≠ 0 := fun hd => by simp [hd] at hw
  show some (decodeCase _ _ _ _ _) = _
  unfold decodeCase
  rw [if_neg h1]
  simp only [h1, BitVec.lt_irrefl, if_true, if_false, Bool.false_eq_true]

theorem botCase7 (src : Src) : Statement (.botCase7 src) := by
  intro c w _ _ h
  cases h
  rfl

theorem botCase8 : Statement .botCase8 := by
  intro c w _ _ h
  cases h
  rfl

theorem botCase9 : Statement .botCase9 := by
  intro c w _ _ h
  cases h
  rfl

theorem botCase10 : Statement .botCase10 := by
  intro c w _ _ h
  cases h
  rfl

theorem botCase11 (d : Word) : Statement (.botCase11 d) := by
  intro c w _ hw h
  cases h
  simp only [Instr.wf, Bool.and_eq_true, decide_eq_true_eq] at hw
  obtain ⟨h1, h2, h3⟩ := succ_facts hw.1 hw.2
  show some (decodeCase _ _ _ _ _) = _
  unfold decodeCase
  rw [if_neg h1]
  simp only [h2, h3, if_true, if_false, Bool.false_eq_true]

theorem botCase12 (d : Word) : Statement (.botCase12 d) := by
  intro c w _ hw h
  cases h
  simp only [Instr.wf, decide_eq_true_eq] at hw
  have h1 : d ≠ 0 := fun hd => by simp [hd] at hw
  show some (decodeCase _ _ _ _ _) = _
  unfold decodeCase
  rw [if_neg h1]
  simp only [h1, BitVec.lt_irrefl, if_true, if_false, Bool.false_eq_true]

theorem botCase13 : Statement .botCase13 := by
  intro c w _ _ h
  cases h
  rfl

theorem startIn (src : Src) (total : Word) (act : EndAction) : Statement (.startIn src total act) := statement_of_none (fun _ => rfl)

theorem startOut (total : Word) (act : EndAction) : Statement (.startOut total act) := statement_of_none (fun _ => rfl)

theorem stallAndWait (dir : Dir) : Statement (.stallAndWait dir) := statement_of_none (fun _ => rfl)

theorem sendInChunk : Statement .sendInChunk := statement_of_none (fun _ => rfl)

theorem endOfDataIn : Statement .endOfDataIn := statement_of_none (fun _ => rfl)

theorem dataOutChunk (par : Parity) (n : Nat) : Statement (.dataOutChunk par n) := statement_of_none (fun _ => rfl)

theorem sendCsw : Statement .sendCsw := statement_of_none (fun _ => rfl)

theorem cswComplete : Statement .cswComplete := statement_of_none (fun _ => rfl)

theorem failCommand (e : Expect) (key : BitVec 4) (asc ascq : Byte) : Statement (.failCommand e key asc ascq) := statement_of_none (fun _ => rfl)

theorem phaseFail : Statement .phaseFail := statement_of_none (fun _ => rfl)

theorem botClearHalt (index : Nat) (ep : Ep) (dir : Dir) : Statement (.botClearHalt index ep dir) := statement_of_none (fun _ => rfl)

theorem botInit : Statement .botInit := statement_of_none (fun _ => rfl)

theorem cswWrapper : Statement .cswWrapper := statement_of_none (fun _ => rfl)

theorem testUnitReady : Statement .testUnitReady := by
  intro c w _ _ h
  cases h
  rfl

theorem requestSense (alloc : Byte) : Statement (.requestSense alloc) := by
  intro c w _ _ h
  cases h
  rfl

theorem inquiry : Statement .inquiry := by
  intro c w _ _ h
  cases h
  rfl

theorem modeSense6 : Statement .modeSense6 := by
  intro c w _ _ h
  cases h
  rfl

theorem readCapacity10 (lba : Word) (pmi : Bool) : Statement (.readCapacity10 lba pmi) := by
  intro c w _ _ h
  cases h
  refine congrArg some (congrArg₂ Instr.readCapacity10 (be32_bytes lba) ?_)
  cases pmi <;> simp [be32Bytes, byteAt]

theorem read10 (lba : Word) (len : Half) : Statement (.read10 lba len) := by
  intro c w _ _ h
  cases h
  exact congrArg some (congrArg₂ Instr.read10 (be32_bytes lba) (be16_bytes len))

theorem write10 (lba : Word) (len : Half) : Statement (.write10 lba len) := by
  intro c w _ hw h
  cases h
  have he : c.writeEnabled = true := hw
  simp only [decode, he]
  exact congrArg some (congrArg₂ Instr.write10 (be32_bytes lba) (be16_bytes len))

theorem scsiUnknownOpcode : Statement .scsiUnknownOpcode := by
  intro c w _ _ h
  cases h
  rfl

theorem scsiDispatch : Statement .scsiDispatch := statement_of_none (fun _ => rfl)

theorem respond (bytes : List Byte) (d : Nat) : Statement (.respond bytes d) := statement_of_none (fun _ => rfl)

theorem senseOnComplete : Statement .senseOnComplete := statement_of_none (fun _ => rfl)

theorem rwParse : Statement .rwParse := statement_of_none (fun _ => rfl)

theorem pseudoClearHalt (ea : Byte) : Statement (.pseudoClearHalt ea) := statement_of_none (fun _ => rfl)

theorem pseudoSetHalt (ea : Byte) : Statement (.pseudoSetHalt ea) := statement_of_none (fun _ => rfl)

theorem bomsrSeq : Statement .bomsrSeq := statement_of_none (fun _ => rfl)

theorem setAddressSeq (a : Byte) : Statement (.setAddressSeq a) := statement_of_none (fun _ => rfl)

theorem setConfigSeq (c : Byte) : Statement (.setConfigSeq c) := statement_of_none (fun _ => rfl)

theorem cbwSeq (tag h : Word) (flags : Byte) (cdb : List Byte) : Statement (.cbwSeq tag h flags cdb) := statement_of_none (fun _ => rfl)

end Sys2Proof.Laws.RoundTrip
end

