-- ==== Sys2Proof/Laws/Rights.lean ====
section
/-! SUPPORT. The rights of a function outside the block (43 R278): what each operation of such a function may change, said
once, and that every hook keeps to it. -/

namespace Sys2Proof.Machine

/-- A byte of RAM of the function's own. -/
def OwnRam (c : Config) (k : Nat) : Prop := ∃ x ∈ functionRam c, ∃ j, j < x.2 ∧ k = place c.addrW x.1 j

/-- The buffer of a BD, by the configuration alone. -/
def bufOf (c : Config) (ep : Ep) (dir : Dir) (par : Parity) : Addr := c.bufAddrs.getD (bdIndex c.ppMode ep dir par) 0

/-- A byte of a buffer of the function's own. -/
def OwnBuf (c : Config) (k : Nat) : Prop :=
  ∃ ep dir par, (ep, dir) ∈ functionEps c ∧ (ep.toNat < c.numEp ∧ (par = .even ∨ pp c.ppMode ep dir = true)) ∧
    ∃ j, j < c.bulkMax ∧ k = place c.addrW (bufOf c ep dir par) j

/-- What a function outside the block may have changed from `s` to `t`: what is its own (43 R278). -/
structure Rights (s t : State) : Prop where
  keeps : Keeps s t
  ram : memWf s.ram → ∀ k, ¬OwnRam s.cfg k → memRead t.ram k = memRead s.ram k
  buf : memWf s.buf → ∀ k, ¬OwnBuf s.cfg k → memRead t.buf k = memRead s.buf k
  bds : ∀ e d, (e, d) ∉ functionEps s.cfg → ∀ p, t.bd e d p = s.bd e d p
  eps : ∀ e d, (e, d) ∉ functionEps s.cfg → t.epsAt e d = s.epsAt e d
  ctrl : ∀ e, (∀ d, (e, d) ∉ functionEps s.cfg) → t.ctrlAt e = s.ctrlAt e

theorem Rights.refl (s : State) : Rights s s :=
  ⟨.refl s, fun _ _ _ => rfl, fun _ _ _ => rfl, fun _ _ _ _ => rfl, fun _ _ _ => rfl, fun _ _ => rfl⟩

theorem Rights.trans {s t u : State} (a : Rights s t) (b : Rights t u) : Rights s u where
  keeps := a.keeps.trans b.keeps
  ram h k hk := (b.ram (a.keeps.ram h) k (by rw [a.keeps.cfg]; exact hk)).trans (a.ram h k hk)
  buf h k hk := (b.buf (a.keeps.buf h) k (by rw [a.keeps.cfg]; exact hk)).trans (a.buf h k hk)
  bds e d h p := (b.bds e d (by rw [a.keeps.cfg]; exact h) p).trans (a.bds e d h p)
  eps e d h := (b.eps e d (by rw [a.keeps.cfg]; exact h)).trans (a.eps e d h)
  ctrl e h := (b.ctrl e (by rw [a.keeps.cfg]; exact h)).trans (a.ctrl e h)

/-- Fields that hold nothing of the control engine's or of another endpoint. -/
theorem Rights.of {s t : State} (k : Keeps s t)
    (h : t = { s with cdc := t.cdc, hid := t.hid, fnState := t.fnState, reply := t.reply, free := t.free }) : Rights s t := by
  refine ⟨k, ?_, ?_, ?_, ?_, ?_⟩ <;> rw [h]
  exacts [fun _ _ _ => rfl, fun _ _ _ => rfl, fun _ _ _ _ => rfl, fun _ _ _ => rfl, fun _ _ => rfl]

section
variable (s : State) {ep : Ep} {dir : Dir}

theorem rights_foldl {α : Type} (l : List α) (f : State → α → State) (hf : ∀ t a, a ∈ l → t.cfg = s.cfg → Rights t (f t a)) :
    Rights s (l.foldl f s) := by
  suffices h : ∀ u, u.cfg = s.cfg → Rights u (l.foldl f u) from h s rfl
  induction l with
  | nil => exact fun u _ => .refl u
  | cons a r ih =>
    intro u hu
    have k := hf u a (by simp) hu
    exact k.trans (ih (fun t b hb => hf t b (by simp [hb])) _ (k.keeps.cfg.trans hu))

theorem rights_setBd (h : (ep, dir) ∈ functionEps s.cfg) (par : Parity) (b : Bd) (k : Keeps s (s.setBd ep dir par b)) :
    Rights s (s.setBd ep dir par b) := by
  refine ⟨k, fun _ _ _ => rfl, fun _ _ _ => rfl, fun e d hm p => ?_, fun _ _ _ => rfl, fun _ _ => rfl⟩
  exact State.bd_setBd_of_ne _ (bdIndex_ne_of (by rintro ⟨rfl, rfl⟩; exact hm h))

theorem rights_free (n : Nat) : Rights s { s with free := n } :=
  .of ⟨rfl, rfl, rfl, rfl, rfl, id, id, id, id, id, id, id, id, fun _ => id⟩ rfl

theorem rights_armBd (h : (ep, dir) ∈ functionEps s.cfg) (par : Parity) (tog : Bool) (n : Nat) :
    Rights s (armBd ep dir par tog n s) := by
  unfold armBd
  split
  · exact (rights_setBd s h par _ (keeps_setStat _ _ _ _ _ _)).trans (rights_free _ _)
  · exact rights_setBd s h par _ (keeps_setStat _ _ _ _ _ _)

theorem rights_reclaim (h : (ep, dir) ∈ functionEps s.cfg) (par : Parity) : Rights s (reclaim ep dir par s) :=
  rights_setBd s h par _ (keeps_setStat _ _ _ _ _ _)

theorem rights_rearm (h : (ep, dir) ∈ functionEps s.cfg) (par : Parity) (tog : Bool) (n : Nat) :
    Rights s (rearm ep dir par tog n s) := by
  unfold rearm
  split
  · exact (rights_reclaim s h par).trans (rights_armBd (reclaim ep dir par s) h par tog n)
  · exact rights_armBd s h par tog n

theorem rights_forParities (f : Parity → State → State) (hf : ∀ p t, t.cfg = s.cfg → Rights t (f p t)) :
    Rights s (forParities ep dir f s) := rights_foldl s _ _ (fun t p _ hc => hf p t hc)

theorem rights_stallEp (h : (ep, dir) ∈ functionEps s.cfg) : Rights s (stallEp ep dir s) := by
  have k : Rights s (forParities ep dir (stall ep dir) s) :=
    rights_forParities s _ (fun p t hc => rights_setBd t (by rw [hc]; exact h) p _ (keeps_setStat _ _ _ _ _ _))
  unfold stallEp
  dsimp only
  split
  · exact k
  · next h0 =>
    refine k.trans ⟨keeps_setHalted _ _ _ _ (.inl h0), fun _ _ _ => rfl, fun _ _ _ => rfl, fun _ _ _ _ => rfl,
      fun e d hm => ?_, fun _ _ => rfl⟩
    rw [k.keeps.cfg] at hm
    exact State.epsAt_setEps_other _ (Decidable.or_iff_not_not_and_not.2 fun hc => hm (by
      have h1 : e = ep := by simpa using hc.1
      have h2 : d = dir := by simpa using hc.2
      rw [h1, h2]; exact h))

theorem rights_writeAddress (h : (ep, dir) ∈ functionEps s.cfg) (par : Parity) : Rights s (writeAddress ep dir par s) := by
  have k := keeps_writeAddress s ep dir par
  unfold writeAddress at k ⊢
  split
  · exact (rights_setBd s h par _ (keeps_setBd s ep dir par fun _ _ => place_lt _ _ _)).trans (rights_free _ _)
  · exact rights_setBd s h par _ (keeps_setBd s ep dir par fun w _ => bufAddr_fits w ep dir par)

theorem rights_setAddresses (h : (ep, dir) ∈ functionEps s.cfg) : Rights s (setAddresses ep dir s) :=
  rights_forParities s _ (fun p t hc => rights_writeAddress t (by rw [hc]; exact h) p)

theorem rights_setCtrl (h : ∃ d, (ep, d) ∈ functionEps s.cfg) (c : EpCtrl) : Rights s (s.setCtrl ep c) := by
  refine ⟨keeps_setCtrl _ _ _, fun _ _ _ => rfl, fun _ _ _ => rfl, fun _ _ _ _ => rfl, fun _ _ _ => rfl, fun e hm => ?_⟩
  obtain ⟨d, hd⟩ := h
  exact getD_set_ne _ _ _ _ _ fun hc => hm d (by rw [← ep_eq_of_toNat hc]; exact hd)

theorem rights_fillOwn (h : (ep, dir) ∈ functionEps s.cfg) {par : Parity} (hv : s.validBd ep dir par) (b : List Byte)
    (hb : b.length ≤ s.cfg.bulkMax) : Rights s (fillOwn ep dir par b s) := by
  have r := fillOwn_rest s ep dir par b
  refine ⟨keeps_fillOwn _ _ _ _ _, ?_, fun hm k hk => ?_, ?_, ?_, ?_⟩
  rotate_left
  · exact fillOwn_others b hm k fun i hi hc => hk ⟨ep, dir, par, h, hv, i, Nat.lt_of_lt_of_le hi hb, hc⟩
  all_goals rw [r]
  exacts [fun _ _ _ _ => rfl, fun _ _ _ => rfl, fun _ _ => rfl, fun _ _ _ => rfl]

/-- Bytes written within an object of the function's own. -/
theorem rights_ram {x : Addr × Nat} (hx : x ∈ functionRam s.cfg) (b : List Byte) (hb : b.length ≤ x.2) :
    Rights s { s with ram := writeBytes s.cfg.addrW s.ram x.1 b } := by
  refine ⟨keeps_ram s (writeBytes_wf _ _), fun hm k hk => ?_, fun _ _ _ => rfl, fun _ _ _ _ => rfl, fun _ _ _ => rfl,
    fun _ _ => rfl⟩
  exact memRead_writeBytes_other _ _ _ _ _ hm fun i hi hc => hk ⟨x, hx, i, Nat.lt_of_lt_of_le hi hb, hc⟩

/-- One byte written within an object of the function's own. -/
theorem rights_byte {x : Addr × Nat} (hx : x ∈ functionRam s.cfg) {j : Nat} (hj : j < x.2) (v : Byte) :
    Rights s { s with ram := memWrite s.ram (place s.cfg.addrW x.1 j) v } := by
  refine ⟨keeps_ram s (memWrite_wf _ _), fun hm k hk => ?_, fun _ _ _ => rfl, fun _ _ _ _ => rfl, fun _ _ _ => rfl,
    fun _ _ => rfl⟩
  exact memRead_memWrite_other _ _ _ _ hm fun hc => hk ⟨x, hx, j, hj, hc⟩

theorem rights_zeroRam : Rights s (zeroRam s) := by
  refine ⟨keeps_ram s (zeroObjects_wf _), fun hm k hk => ?_, fun _ _ _ => rfl, fun _ _ _ _ => rfl, fun _ _ _ => rfl,
    fun _ _ => rfl⟩
  exact memRead_zeroObjects_other _ _ _ _ hm fun x hx i hi hc => hk ⟨x, hx, i, hi, hc⟩

end

/-! A function that is an oracle. -/

section
variable {s : State} (hw : s.cfg.wf = true)
include hw

theorem rights_fnFill (ep : Ep) (dir : Dir) (par : Parity) (b : List Byte) : Rights s (fnFill ep dir par b s) := by
  unfold fnFill
  split
  · next h =>
    rw [Bool.and_eq_true, ownBd_iff hw, decide_eq_true_eq] at h
    exact rights_fillOwn s h.1.1 h.1.2 b h.2
  · exact .refl s

theorem rights_fnCall (i : Bool) (f : FnCall) : Rights s (fnCall i s f) := by
  have own : ∀ {ep dir par}, ownBd s.cfg ep dir par = true → (ep, dir) ∈ functionEps s.cfg :=
    fun h => ((ownBd_iff hw).1 h).1
  unfold fnCall
  cases f with
  | reclaim ep dir par => dsimp only; split; exacts [rights_reclaim s (own ‹_›) _, .refl s]
  | armOut ep par tog n => dsimp only; split; exacts [rights_armBd s (own ‹_›) _ _ _, .refl s]
  | armIn ep par tog n => dsimp only; split; exacts [rights_armBd s (own ‹_›) _ _ _, .refl s]
  | rearmOut ep par tog n => dsimp only; split; exacts [rights_rearm s (own ‹_›) _ _ _, .refl s]
  | rearmIn ep par tog n => dsimp only; split; exacts [rights_rearm s (own ‹_›) _ _ _, .refl s]
  | stallEp ep dir => dsimp only; split; exacts [rights_stallEp s ((ownDir_iff hw).1 ‹_›), .refl s]
  | setCtrl ep c =>
    dsimp only
    split
    · next h =>
      rw [Bool.and_eq_true, ownEp, Bool.and_eq_true, List.any_eq_true] at h
      obtain ⟨x, hx, he⟩ := h.2.2
      rw [beq_iff_eq] at he
      exact rights_setCtrl s ⟨x.2, by rw [← he]; exact hx⟩ _
    · exact .refl s
  | fill ep dir par b => exact rights_fnFill hw _ _ _ _

theorem rights_fnCalls (i : Bool) (l : List FnCall) : Rights s (fnCalls i l s) :=
  rights_foldl s _ _ (fun t f _ hc => rights_fnCall (by rw [hc]; exact hw) i f)

omit hw in
theorem rights_fnWrite (w : Addr × Byte) : Rights s (fnWrite s w) := by
  unfold fnWrite ownRam
  split
  · next h =>
    rw [List.any_eq_true] at h
    obtain ⟨x, hx, hh⟩ := h
    simp only [holds, Bool.and_eq_true, decide_eq_true_eq] at hh
    have h1 : @LE.le Nat _ x.1 w.1 := hh.1.1
    have h2 : @LT.lt Nat _ w.1 (@HAdd.hAdd Nat Nat Nat _ x.1 x.2) := hh.1.2
    have e : place s.cfg.addrW w.1 0 = place s.cfg.addrW x.1 (@HSub.hSub Nat Nat Nat _ w.1 x.1) := by
      show (@HAdd.hAdd Nat Nat Nat _ w.1 0) % _ = (@HAdd.hAdd Nat Nat Nat _ x.1 (@HSub.hSub Nat Nat Nat _ w.1 x.1)) % _
      rw [Nat.add_sub_cancel' h1]
      rfl
    rw [e]
    exact rights_byte s hx (by omega) _
  · exact .refl s

omit hw in
theorem rights_addressOwn : Rights s (addressOwn s) :=
  rights_foldl s _ _ (fun t e he hc => by
    split
    · exact rights_setAddresses t (by rw [hc]; exact he)
    · exact .refl t)

theorem rights_fnRun (i : Bool) (l : List FnCall) (r : List (Addr × Byte)) (n : Nat) : Rights s (fnRun i l r n s) :=
  ((rights_fnCalls hw i _).trans (rights_foldl _ _ _ (fun _ w _ _ => rights_fnWrite w))).trans
    (.of ⟨rfl, rfl, rfl, rfl, rfl, id, id, id, id, id, id, id, id, fun _ => id⟩ rfl)

theorem rights_answerHook (i : Bool) (a : FnAnswer) : Rights s (answerHook i a s) :=
  (rights_fnRun hw i _ _ _).trans (.of (keeps_setReply _ _) rfl)

theorem rights_oracleHook (h : Hook) (args : List Nat) : Rights s (oracleHook h args s) := rights_answerHook hw _ _

theorem rights_oracleInit : Rights s (oracleInit s) :=
  rights_addressOwn.trans (rights_answerHook (by rw [(keeps_addressOwn s).cfg]; exact hw) _ _)

theorem rights_quietHook (h : Hook) (args : List Nat) (r : FnReply) : Rights s (keepReply r (oracleHook h args s)) :=
  (rights_oracleHook hw h args).trans (.of (keeps_setReply _ _) rfl)

end

/-! CDC and HID. -/

section
variable {s : State}

/-- A reply, the registers of CDC or HID. -/
theorem rights_reply (r : FnReply) (c : Cdc) (h : Hid) : Rights s { s with reply := r, cdc := c, hid := h } :=
  .of ⟨rfl, rfl, rfl, rfl, rfl, id, id, id, id, id, id, id, id, fun _ => id⟩ rfl

theorem rights_setReply (r : FnReply) : Rights s (setReply r s) := .of (keeps_setReply _ _) rfl

theorem rights_cdcClassRequest : Rights s (cdcClassRequest s) := by
  unfold cdcClassRequest
  split
  · unfold cdcSetLineCoding; split; exacts [rights_setReply _, rights_reply _ _ s.hid]
  · exact rights_setReply _
  · exact rights_reply _ _ s.hid
  · unfold cdcSendEncapsulated; split; exacts [rights_setReply _, rights_reply _ _ s.hid]
  · exact rights_setReply _
  · exact rights_setReply _

theorem rights_cdcOutFinished (hf : s.cfg.function = .cdc) : Rights s (cdcOutFinished s) := by
  unfold cdcOutFinished
  split
  · have hx : (s.cfg.cdc.lineCoding, 7) ∈ functionRam s.cfg := by simp [functionRam, hf]
    exact (rights_ram s hx (readBytes s.cfg.addrW s.ram s.cfg.cdc.staging 7) (by rw [length_readBytes])).trans
      (rights_reply _ _ s.hid)
  · exact rights_reply _ _ s.hid
  · exact rights_setReply _

theorem rights_cdcInit (hf : s.cfg.function = .cdc) : Rights s (cdcInit s) := by
  have h1 : (s.cfg.cdc.notifyEp, Dir.inp) ∈ functionEps s.cfg := by simp [functionEps, hf]
  have h2 : (s.cfg.cdc.dataOutEp, Dir.out) ∈ functionEps s.cfg := by simp [functionEps, hf]
  have h3 : (s.cfg.cdc.dataInEp, Dir.inp) ∈ functionEps s.cfg := by simp [functionEps, hf]
  have k0 : Rights s { zeroRam s with cdc := cdcReset } := (rights_zeroRam s).trans (rights_reply s.reply cdcReset s.hid)
  have k1 := k0.trans (rights_setAddresses _ (by rw [k0.keeps.cfg]; exact h1))
  have k2 := k1.trans (rights_setAddresses _ (by rw [k1.keeps.cfg]; exact h2))
  have k3 := k2.trans (rights_setAddresses _ (by rw [k2.keeps.cfg]; exact h3))
  have en : ∀ {t : State}, Rights s t → ∀ {e d}, (e, d) ∈ functionEps s.cfg → ∀ c, Rights s (t.setCtrl e c) :=
    fun k _ d h c => k.trans (rights_setCtrl _ ⟨d, by rw [k.keeps.cfg]; exact h⟩ c)
  let c (e : Ep) : EpCtrl := ⟨true, decide (e = s.cfg.cdc.notifyEp ∨ e = s.cfg.cdc.dataInEp), decide (e = s.cfg.cdc.dataOutEp)⟩
  have k6 := en (en (en k3 h1 (c s.cfg.cdc.notifyEp)) h2 (c s.cfg.cdc.dataOutEp)) h3 (c s.cfg.cdc.dataInEp)
  exact k6.trans (rights_armBd _ (by rw [k6.keeps.cfg]; exact h2) _ _ _)

theorem rights_cdcTasks (ep : Ep) (dir : Dir) (par : Parity) (n : Nat) : Rights s (cdcTasks ep dir par n s) := by
  unfold cdcTasks
  split
  · exact rights_reply s.reply _ s.hid
  · split
    exacts [rights_reply s.reply _ s.hid, .refl s]

theorem rights_takeReport (l : List Nat) (r : Byte) (p : Nat → HidPending) : Rights s (takeReport l r p s) := by
  unfold takeReport
  dsimp only
  split
  · exact rights_setReply _
  · split
    exacts [rights_setReply _, rights_reply _ s.cdc _]

/-- A byte of the idle durations. -/
theorem rights_setIdle (hf : s.cfg.function = .hid) {i : Nat} (hi : i < s.cfg.hid.inSizes.length) (d : Byte) :
    Rights s (setIdle d s i) := by
  have hx : (s.cfg.hid.idleAddr, s.cfg.hid.inSizes.length) ∈ functionRam s.cfg := by simp [functionRam, hf]
  exact (rights_byte s hx hi d).trans (rights_reply s.reply s.cdc _)

theorem rights_hidClassRequest (hf : s.cfg.function = .hid) : Rights s (hidClassRequest s) := by
  unfold hidClassRequest
  dsimp only
  split
  · unfold hidGetReport; dsimp only; split <;> (try split) <;> exact rights_setReply _
  split
  · unfold hidSetReport; split
    exacts [rights_takeReport _ _ _, rights_takeReport _ _ _, rights_setReply _]
  split
  · unfold hidGetIdle; dsimp only; split <;> exact rights_setReply _
  split
  · unfold hidSetIdle
    dsimp only
    split
    · exact (rights_foldl s _ _ fun t i hi hc =>
        rights_setIdle (by rw [hc]; exact hf) (by rw [hc]; exact List.mem_range.1 hi) _).trans (rights_setReply _)
    · split
      · exact rights_setReply _
      · next i hi => exact (rights_setIdle hf (reportIndex_lt hi) _).trans (rights_setReply _)
  · exact rights_setReply _

/-- The place and the size of a report are an object of the function's own. -/
theorem report_mem {l : List Nat} {a : List Addr} (h : l.length = a.length) {i : Nat} (hi : i < l.length) :
    (a.getD i 0, l.getD i 0) ∈ a.zip l := by
  rw [List.mem_iff_getElem]
  have ha : i < a.length := by omega
  exact ⟨i, by simp; exact ⟨ha, hi⟩, by simp [ha, hi]⟩

theorem rights_commitReport (a : Addr) (n : Nat) (h : n = 0 ∨ (a, n) ∈ functionRam s.cfg) : Rights s (commitReport a n s) := by
  have hl : (readBytes s.cfg.addrW s.ram s.cfg.hid.staging (min n s.ctl.bytesReceived.toNat)).length ≤ n := by
    rw [length_readBytes]
    omega
  obtain rfl | h := h
  · rw [commitReport, List.eq_nil_of_length_eq_zero (Nat.le_zero.1 hl)]
    exact rights_reply _ s.cdc _
  · exact (rights_ram s h _ hl).trans (rights_reply _ s.cdc _)

theorem rights_hidOutFinished (hw : s.cfg.wf = true) (hf : s.cfg.function = .hid) : Rights s (hidOutFinished s) := by
  have ok := hidOk_of_wf hw hf
  simp only [Config.hidOk, Bool.and_eq_true, beq_iff_eq] at ok
  have obj : ∀ (a : List Addr) (l : List Nat), l.length = a.length → (∀ x ∈ a.zip l, x ∈ functionRam s.cfg) → ∀ i,
      l.getD i 0 = 0 ∨ (a.getD i 0, l.getD i 0) ∈ functionRam s.cfg := fun a l h hm i => by
    by_cases hi : i < l.length
    · exact .inr (hm _ (report_mem h hi))
    · exact .inl (List.getD_eq_default _ _ (Nat.le_of_not_lt hi))
  unfold hidOutFinished
  dsimp only
  split
  · exact rights_setReply _
  · exact rights_commitReport _ _ (obj _ _ ok.1.1.2 (fun x hx => by simp [functionRam, hf, hx]) _)
  · exact rights_commitReport _ _ (obj _ _ ok.1.2 (fun x hx => by simp [functionRam, hf, hx]) _)

theorem rights_hidInit (hf : s.cfg.function = .hid) : Rights s (hidInit s) := by
  have h1 : (s.cfg.hid.inEp, Dir.inp) ∈ functionEps s.cfg := by simp [functionEps, hf]
  have k0 : Rights s { zeroRam s with hid := hidReset s.cfg } :=
    (rights_zeroRam s).trans (rights_reply s.reply s.cdc (hidReset s.cfg))
  have k1 := k0.trans (rights_setAddresses _ (by rw [k0.keeps.cfg]; exact h1))
  unfold hidInit
  dsimp only
  split
  · exact k1.trans (rights_setCtrl _ ⟨_, by rw [k1.keeps.cfg]; exact h1⟩ _)
  · next o ho =>
    have h2 : (o, Dir.out) ∈ functionEps s.cfg := by simp [functionEps, hf, ho]
    have k2 := k1.trans (rights_setAddresses _ (by rw [k1.keeps.cfg]; exact h2))
    have k3 := k2.trans (rights_setCtrl _ ⟨_, by rw [k2.keeps.cfg]; exact h1⟩ ⟨true, true, decide (o = s.cfg.hid.inEp)⟩)
    have k4 := k3.trans (rights_setCtrl _ ⟨_, by rw [k3.keeps.cfg]; exact h2⟩ ⟨true, decide (o = s.cfg.hid.inEp), true⟩)
    exact k4.trans (rights_armBd _ (by rw [k4.keeps.cfg]; exact h2) _ _ _)

theorem rights_hidTasks (ep : Ep) (dir : Dir) : Rights s (hidTasks ep dir s) := by
  unfold hidTasks
  split
  · split
    exacts [.refl s, rights_reply s.reply s.cdc _]
  · exact .refl s

end

/-- Every hook of a function outside the block keeps to its rights (43 R278). -/
theorem rights_hook {s t : State} {i : Instr} (hw : s.cfg.wf = true) (hf : s.cfg.function ≠ .msc) (hi : isHook i = true)
    (h : exec i s = .next t) : Rights s t := by
  have o : ∀ k a, Rights s (oracleHook k a s) := rights_oracleHook hw
  have q : ∀ k a r, Rights s (keepReply r (oracleHook k a s)) := rights_quietHook hw
  cases i
  case hookClassRequest =>
    cases h
    show Rights s (classRequest s)
    unfold classRequest
    split
    exacts [absurd ‹_› hf, rights_cdcClassRequest, rights_hidClassRequest ‹_›, o _ _]
  case hookGetClassDescriptor =>
    cases h
    show Rights s (getClassDescriptor s)
    unfold getClassDescriptor
    split
    · exact absurd ‹_› hf
    · exact rights_setReply _
    · unfold hidClassDescriptor; dsimp only; split <;> exact rights_setReply _
    · exact o _ _
  case hookInit =>
    cases h
    show Rights s (fnInit s)
    unfold fnInit
    split
    exacts [absurd ‹_› hf, rights_cdcInit ‹_›, rights_hidInit ‹_›, (rights_oracleInit hw).trans (rights_setReply _)]
  case hookTasks ep dir par n =>
    have h : fnTasks ep dir par n s = .next t := h
    unfold fnTasks at h
    split at h
    · exact absurd ‹_› hf
    · cases h; exact rights_cdcTasks _ _ _ _
    · cases h; exact rights_hidTasks _ _
    · cases h; exact q _ _ _
  case hookClearHalt k ep dir =>
    cases h
    show Rights s (clearHalt k ep dir s)
    unfold clearHalt
    split
    exacts [absurd ‹_› hf, q _ _ _, q _ _ _, q _ _ _]
  case hookSetInterface a b =>
    cases h
    show Rights s (setInterfaceHook a b s)
    unfold setInterfaceHook
    split
    exacts [absurd ‹_› hf, o _ _, o _ _, o _ _]
  case hookGetInterface a =>
    cases h
    show Rights s (getInterfaceHook a s)
    unfold getInterfaceHook
    split
    exacts [absurd ‹_› hf, o _ _, o _ _, o _ _]
  case hookOutControlFinished =>
    cases h
    show Rights s (outControlFinished s)
    unfold outControlFinished
    split
    exacts [absurd ‹_› hf, rights_cdcOutFinished ‹_›, rights_hidOutFinished hw ‹_›, o _ _]
  case hookInterfaceEndpoints a =>
    cases h
    show Rights s (interfaceEndpoints a s)
    unfold interfaceEndpoints
    split
    exacts [absurd ‹_› hf, rights_setReply _, rights_setReply _, o _ _]
  all_goals cases hi

end Sys2Proof.Machine
end

