-- ==== Sys2Proof/Tests/Slice0.lean ====
section
/-! SUPPORT. Tests: the checks of WellFormed on ill-formed terms, words written out from the spec's encodings, single
operations on the vectors of spec/95, and a witness for the hypotheses of every obligation. -/

namespace Sys2Proof.Tests

open Sys2Proof Sys2Proof.Machine

abbrev cfgA : Config := Config.configA

/-! WellFormed: one ill-formed term for each check. -/

theorem test_wf_configA : cfgA.wf = true := by decide

/-- Two endpoints more, and a CDC function on them. -/
abbrev cfgCdc : Config :=
  { cfgA with
    function := .cdc
    numEp := 3
    numInterfaces := 2
    bufAddrs := [0x0100, 0x0140, 0x0180, 0x01C0, 0x0200, 0x0240] }

/-- 00 R9: one endpoint is enough for a function that uses none; 46 R370; 00 R15 (`ADDR_W`). -/
theorem test_wf_other_configs :
    cfgCdc.wf = true ∧ ({ cfgA with function := .hid } : Config).wf = true ∧
      ({ cfgA with function := .user, numEp := 1, bufAddrs := [0x0100, 0x0140], userEps := [] } : Config).wf = true ∧
      ({ cfgA with addrW := 13, capacity := 0 } : Config).wf = true := by decide

theorem test_wf_refuses_configs :
    [{ cfgA with numEp := 17 },                                  -- NUM_EP
     { cfgA with addrW := 9 },                                   -- ADDR_W (log 22)
     { cfgA with addrW := 12 },                                  -- the ROM passes the end of the space
     { cfgA with configDescs := [[0x09, 0x02, 0x21, 0x00]] },    -- wTotalLength is not the length
     { cfgA with numInterfaces := 0 },
     { cfgA with bulkInEp := 2 },                                -- not an endpoint of this machine
     { cfgA with function := .user, bulkInEp := 0 },             -- endpoint 0
     { cfgA with bulkMax := 60 },                                -- 512 mod 60 is not 0
     { cfgA with inqRev := [0x31] },
     { cfgA with bufAddrs := [0x0100, 0x0104, 0x0180, 0x01C0] }, -- two buffers overlap
     { cfgA with lunAddr := 0x0001 },                            -- scratch[1] and the LUN byte
     { cfgA with romBase := 0xFFF0 },                            -- the descriptors pass the end of ROM
     { cfgA with hid := { cfgA.hid with setIdle := 0x01 } },     -- two HID requests with one code
     { cfgA with function := .hid, numInterfaces := 2 },
     { cfgA with function := .hid, hid := { cfgA.hid with idleAddr := 0x0002 } }, -- on the LUN byte
     { cfgA with function := .hid, hid := { cfgA.hid with max := 7, inSizes := [7] } }, -- a HID endpoint of 7 bytes
     { cfgA with function := .user, userEps := [(0, .inp)] },    -- endpoint 0 is no function's own
     { cfgA with function := .user, userRam := [(0x0001, 1)] },  -- on ctl.scratch
     { cfgCdc with numInterfaces := 1 },
     { cfgCdc with bulkMax := 8, cdc := { cfgA.cdc with max := 8 } }, -- no room for a notification
     { cfgCdc with cdc := { cfgA.cdc with staging := 0x0001 } }, -- on ctl.scratch
     { cfgCdc with cdc := { cfgA.cdc with dataInEp := 0 } }].all (fun c => !c.wf) = true := by decide

theorem test_wf_refuses_operands :
    [Instr.epnCompletion 0 .out .even 8, .epnCompletion 1 .out .odd 8, .epnCompletion 1 .out .even 1024,
     .epOutOfRange 1, .ep0Setup .odd, .startDataIn .rom 0 65536, .startDataOut 0 65536, .reservedRequest13To255 12,
     .setConfigurationNonzero 0, .hookTasks 0 .out .even 8, .hookClearHalt 1 0 .inp, .reclaim 2 .out .even,
     .armOut 1 .odd false 64, .armIn 1 .even false 1024, .stallEp 2 .inp, .ep0SendIn 9, .bulkArmOut 65, .bulkArmIn 65,
     .cbwValid ⟨1, 0, 0, 0, 6, []⟩, .botCase5 0 .resp, .botCase5 8 .zeros, .botCase6 0 .resp, .botCase7 .zeros,
     .botCase11 0, .botCase12 0, .startIn .resp 0 .sendCsw, .startOut 0 .sendCsw, .botClearHalt 1 0 .inp,
     .respond [0x00] 2, .cbwSeq 1 0 0 (List.replicate 17 0)].all (fun i => !i.wf cfgA) = true := by decide

theorem test_wf_refuses_write_when_disabled : (Instr.write10 0 1).wf { cfgA with writeEnabled := false } = false := by
  decide

/-! Decoding: words written out from the spec. -/

/-- 30 R146, 60 R401: one flag at a time, and the service order where several are set. -/
theorem test_decode_events :
    decode cfgA .irq = some .isr ∧
    decode cfgA (.event ⟨false, false, false, false, false, false, true, false⟩) = some .attach ∧
    decode cfgA (.event ⟨true, true, true, true, true, true, true, true⟩) = some .detach ∧
    decode cfgA (.event ⟨true, true, false, true, true, true, false, false⟩) = some .reset ∧
    decode cfgA (.event ⟨false, true, false, true, true, true, false, false⟩) = some .idle ∧
    decode cfgA (.event ⟨true, true, true, true, true, true, false, false⟩) = some .activity ∧
    decode cfgA (.event ⟨false, false, false, true, true, true, false, false⟩) = some .sof ∧
    decode cfgA (.event ⟨false, false, false, true, false, true, false, false⟩) = some .error ∧
    decode cfgA (.event ⟨false, false, false, true, false, false, false, false⟩) = some .trn ∧
    decode cfgA (.event ⟨false, false, false, false, false, false, false, false⟩) = none := by decide

/-- 30 R121, 41 R191, R192: PID 0b1101 is SETUP, 0b0001 OUT, 0b1001 IN. -/
theorem test_decode_trn :
    decode cfgA (.trn 0 .out .even 0b1101 .statusIn 8) = some (.ep0Setup .even) ∧
    decode cfgA (.trn 0 .out .even 0b0001 .dataOut 7) = some (.ep0OutData .even 7) ∧
    decode cfgA (.trn 0 .out .even 0b0001 .statusOut 0) = some .ep0OutStatus ∧
    decode cfgA (.trn 0 .out .even 0b0001 .dataIn 0) = some .ep0OutEarlyStatus ∧
    decode cfgA (.trn 0 .out .even 0b0001 .setup 2) = some .ep0OutStray ∧
    decode cfgA (.trn 0 .out .even 0b0001 .statusIn 2) = some .ep0OutStray ∧
    decode cfgA (.trn 0 .inp .even 0b1001 .dataIn 8) = some .ep0InData ∧
    decode cfgA (.trn 0 .inp .even 0b1001 .statusIn 0) = some .ep0InStatus ∧
    decode cfgA (.trn 0 .inp .even 0b1001 .statusOut 8) = some .ep0InStray ∧
    decode cfgA (.trn 1 .inp .even 0b1001 .setup 13) = some (.epnCompletion 1 .inp .even 13) ∧
    decode cfgA (.trn 5 .inp .even 0b1001 .setup 13) = some (.epOutOfRange 5) := by decide

/-- 30 R111 to R113, 42 R230: the packets of 95 section 2.3. -/
theorem test_decode_standard_requests :
    decode cfgA (.setup [0x80, 0x00, 0x00, 0x00, 0x00, 0x00, 0x02, 0x00]) = some .getStatusDevice ∧
    decode cfgA (.setup [0x81, 0x00, 0x00, 0x00, 0x01, 0x00, 0x02, 0x00]) = some (.getStatusInterface 1) ∧
    decode cfgA (.setup [0x82, 0x00, 0x00, 0x00, 0x81, 0x00, 0x02, 0x00]) = some (.getStatusEndpoint 1 .inp) ∧
    decode cfgA (.setup [0x83, 0x00, 0x00, 0x00, 0x00, 0x00, 0x02, 0x00]) = some .getStatusOther ∧
    decode cfgA (.setup [0x00, 0x01, 0x01, 0x00, 0x00, 0x00, 0x00, 0x00]) = some (.clearFeatureDevice 1) ∧
    decode cfgA (.setup [0x02, 0x01, 0x01, 0x00, 0x81, 0x00, 0x00, 0x00]) = some (.clearFeatureEndpoint 1 1 .inp) ∧
    decode cfgA (.setup [0x01, 0x01, 0x00, 0x00, 0x00, 0x00, 0x00, 0x00]) = some .clearFeatureOther ∧
    decode cfgA (.setup [0x80, 0x02, 0x00, 0x00, 0x00, 0x00, 0x00, 0x00]) = some .reservedRequest2 ∧
    decode cfgA (.setup [0x00, 0x03, 0x02, 0x00, 0x00, 0x01, 0x00, 0x00]) = some (.setFeatureDevice 2) ∧
    decode cfgA (.setup [0x02, 0x03, 0x00, 0x00, 0x01, 0x00, 0x00, 0x00]) = some (.setFeatureEndpoint 0 1 .out) ∧
    decode cfgA (.setup [0x01, 0x03, 0x00, 0x00, 0x00, 0x00, 0x00, 0x00]) = some .setFeatureOther ∧
    decode cfgA (.setup [0x80, 0x04, 0x00, 0x00, 0x00, 0x00, 0x00, 0x00]) = some .reservedRequest4 ∧
    decode cfgA (.setup [0x00, 0x05, 0x85, 0x00, 0x00, 0x00, 0x00, 0x00]) = some (.setAddress 5) ∧
    decode cfgA (.setup [0x80, 0x06, 0x02, 0x03, 0x09, 0x04, 0xFF, 0x00]) = some (.getDescriptor 3 2) ∧
    decode cfgA (.setup [0x00, 0x07, 0x00, 0x01, 0x00, 0x00, 0x12, 0x00]) = some .setDescriptor ∧
    decode cfgA (.setup [0x80, 0x08, 0x00, 0x00, 0x00, 0x00, 0x01, 0x00]) = some .getConfiguration ∧
    decode cfgA (.setup [0x00, 0x09, 0x01, 0x00, 0x00, 0x00, 0x00, 0x00]) = some (.setConfiguration 1) ∧
    decode cfgA (.setup [0x81, 0x0A, 0x00, 0x00, 0x01, 0x00, 0x01, 0x00]) = some (.getInterface 1) ∧
    decode cfgA (.setup [0x01, 0x0B, 0x01, 0x00, 0x02, 0x00, 0x00, 0x00]) = some (.setInterface 1 2) ∧
    decode cfgA (.setup [0x82, 0x0C, 0x00, 0x00, 0x81, 0x00, 0x02, 0x00]) = some .syncFrame ∧
    decode cfgA (.setup [0x80, 0x0D, 0x00, 0x00, 0x00, 0x00, 0x00, 0x00]) = some (.reservedRequest13To255 13) ∧
    decode cfgA (.setup [0x80, 0xFF, 0x00, 0x00, 0x00, 0x00, 0x00, 0x00]) = some (.reservedRequest13To255 255) := by
  decide

/-- 41 R195, 42 R241, R248, R249: the request types and the second levels. -/
theorem test_decode_other_requests :
    decode cfgA (.setup [0x40, 0x01, 0x00, 0x00, 0x00, 0x00, 0x00, 0x00]) = some .vendorRequest ∧
    decode cfgA (.setup [0x60, 0x00, 0x00, 0x00, 0x00, 0x00, 0x00, 0x00]) = some .reservedTypeRequest ∧
    decode cfgA (.setup [0x21, 0xFF, 0x00, 0x00, 0x00, 0x00, 0x00, 0x00]) = some .classRequest ∧
    decode cfgA (.setup [0x21, 0xFF, 0x00, 0x00, 0x00, 0x00, 0x00]) = none ∧
    decode cfgA (.getDesc 0x01 0x00) = some .getDescriptorDevice ∧
    decode cfgA (.getDesc 0x02 0x01) = some (.getDescriptorConfiguration 1) ∧
    decode cfgA (.getDesc 0x03 0x02) = some (.getDescriptorString 2) ∧
    decode cfgA (.getDesc 0x06 0x00) = some .getDescriptorClassOrUnknown ∧
    decode cfgA (.getDesc 0x22 0x00) = some .getDescriptorClassOrUnknown ∧
    decode cfgA (.setCfg 0x00) = some .setConfigurationZero ∧
    decode cfgA (.setCfg 0xFF) = some (.setConfigurationNonzero 255) := by decide

/-- 30 R130, 43 R271, 46 R371, R375: the class requests of each function. -/
theorem test_decode_class_requests :
    decode cfgA (.classReq .msc [0x21, 0xFF, 0x00, 0x00, 0x00, 0x00, 0x00, 0x00]) = some .bomsr ∧
    decode cfgA (.classReq .msc [0xA1, 0xFE, 0x00, 0x00, 0x00, 0x00, 0x01, 0x00]) = some .getMaxLun ∧
    decode cfgA (.classReq .msc [0x21, 0x01, 0x00, 0x00, 0x00, 0x00, 0x00, 0x00]) = some .mscClassOther ∧
    decode cfgA (.classReq .cdc [0x21, 0x20, 0x00, 0x00, 0x00, 0x00, 0x07, 0x00]) = some .cdcSetLineCoding ∧
    decode cfgA (.classReq .cdc [0xA1, 0x21, 0x00, 0x00, 0x00, 0x00, 0x07, 0x00]) = some .cdcGetLineCoding ∧
    decode cfgA (.classReq .cdc [0x21, 0x22, 0x01, 0x00, 0x00, 0x00, 0x00, 0x00]) =
      some (.cdcSetControlLineState true false) ∧
    decode cfgA (.classReq .cdc [0x21, 0x22, 0x02, 0x00, 0x00, 0x00, 0x00, 0x00]) =
      some (.cdcSetControlLineState false true) ∧
    decode cfgA (.classReq .cdc [0x21, 0x00, 0x00, 0x00, 0x00, 0x00, 0x08, 0x00]) = some .cdcSendEncapsulatedCommand ∧
    decode cfgA (.classReq .cdc [0xA1, 0x01, 0x00, 0x00, 0x00, 0x00, 0x08, 0x00]) = some .cdcGetEncapsulatedResponse ∧
    decode cfgA (.classReq .cdc [0x21, 0x02, 0x00, 0x00, 0x00, 0x00, 0x00, 0x00]) = none ∧
    decode cfgA (.classReq .hid [0xA1, cfgA.hid.getReport, 0x02, 0x01, 0x00, 0x00, 0x08, 0x00]) =
      some (.hidGetReport 1 2) ∧
    decode cfgA (.classReq .hid [0x21, cfgA.hid.setReport, 0x00, 0x02, 0x00, 0x00, 0x01, 0x00]) =
      some (.hidSetReport 2 0) ∧
    decode cfgA (.classReq .hid [0xA1, cfgA.hid.getIdle, 0x03, 0x00, 0x00, 0x00, 0x01, 0x00]) = some (.hidGetIdle 3) ∧
    decode cfgA (.classReq .hid [0x21, cfgA.hid.setIdle, 0x00, 0x7D, 0x00, 0x00, 0x00, 0x00]) =
      some (.hidSetIdle 0x7D 0) ∧
    decode cfgA (.classReq .hid [0xA1, cfgA.hid.getProtocol, 0x00, 0x00, 0x00, 0x00, 0x01, 0x00]) = some .hidGetProtocol ∧
    decode cfgA (.classReq .hid [0x21, cfgA.hid.setProtocol, 0x00, 0x00, 0x00, 0x00, 0x00, 0x00]) =
      some .hidSetProtocol ∧
    decode cfgA (.classReq .user [0x21, 0xFF, 0x00, 0x00, 0x00, 0x00, 0x00, 0x00]) = none := by decide

/-- 30 R120, R122: the status bytes that an arming operation writes. -/
theorem test_decode_status_bytes :
    decode cfgA (.bdStat 0b00000000 1 .inp .even 0) = some (.reclaim 1 .inp .even) ∧
    decode cfgA (.bdStat 0b10000100 0 .inp .even 0) = some (.stall 0 .inp .even) ∧
    decode cfgA (.bdStat 0b10001000 0 .out .even 8) = some (.armOut 0 .even false 8) ∧
    decode cfgA (.bdStat 0b11001000 1 .out .even 64) = some (.armOut 1 .even true 64) ∧
    decode cfgA (.bdStat 0b11001000 0 .inp .even 0) = some (.armIn 0 .even true 0) ∧
    decode cfgA (.bdStat 0b10001000 1 .inp .even 13) = some (.armIn 1 .even false 13) ∧
    decode cfgA (.bdStat 0b01001000 1 .inp .even 13) = none := by decide

/-- 44 R295, R296: the intake of the BOT engine. -/
theorem test_decode_bot :
    decode cfgA (.botStep .cbw .out .even 31) = some (.botCbwReceived .even 31) ∧
    decode cfgA (.botStep .writeData .out .even 64) = some (.botDataOutChunk .even 64) ∧
    decode cfgA (.botStep .readData .inp .even 64) = some .botDataInNext ∧
    decode cfgA (.botStep .readFinished .inp .even 64) = some .botDataInEnd ∧
    decode cfgA (.botStep .dataSent .inp .even 36) = some .botDataInEnd ∧
    decode cfgA (.botStep .csw .inp .even 13) = some .botCswSent ∧
    decode cfgA (.botStep .csw .out .even 31) = some .botStaleEntry ∧
    decode cfgA (.cbw 31 ([0x55, 0x53, 0x42, 0x43, 0x78, 0x56, 0x34, 0x12, 0x24, 0x00, 0x00, 0x00, 0x80, 0x05, 0x06] ++
        [0x12, 0x00, 0x00, 0x00, 0x24, 0, 0, 0, 0, 0, 0, 0, 0, 0, 0, 0])) =
      some (.cbwValid ⟨0x12345678, 36, 0x80, 5, 6, [0x12, 0x00, 0x00, 0x00, 0x24, 0, 0, 0, 0, 0, 0, 0, 0, 0, 0, 0]⟩) ∧
    decode cfgA (.cbw 31 ([0x55, 0x53, 0x42, 0x53] ++ List.replicate 27 0)) = some .cbwInvalid ∧
    decode cfgA (.cbw 30 ([0x55, 0x53, 0x42, 0x43] ++ List.replicate 26 0)) = some .cbwInvalid ∧
    decode cfgA (.cbw 32 ([0x55, 0x53, 0x42, 0x43] ++ List.replicate 27 0)) = some .cbwInvalid := by decide

/-- 30 R137, 45 R340: the command blocks of 95 section 2.6; LBA and length are big-endian. -/
theorem test_decode_commands :
    decode cfgA (.cdb [0x00, 0x00, 0x00, 0x00, 0x00, 0x00]) = some .testUnitReady ∧
    decode cfgA (.cdb [0x03, 0x00, 0x00, 0x00, 0x12, 0x00]) = some (.requestSense 18) ∧
    decode cfgA (.cdb [0x12, 0x01, 0x80, 0x00, 0xFF, 0x00]) = some .inquiry ∧
    decode cfgA (.cdb [0x1A, 0x00, 0x3F, 0x00, 0xC0, 0x00]) = some .modeSense6 ∧
    decode cfgA (.cdb [0x25, 0x00, 0x00, 0x00, 0x00, 0x01, 0x00, 0x00, 0x01, 0x00]) = some (.readCapacity10 1 true) ∧
    decode cfgA (.cdb [0x28, 0x00, 0x01, 0x02, 0x03, 0x04, 0x00, 0x05, 0x06, 0x00]) =
      some (.read10 0x01020304 0x0506) ∧
    decode cfgA (.cdb [0x2A, 0x00, 0x00, 0x00, 0x00, 0x07, 0x00, 0x00, 0x01, 0x00]) = some (.write10 7 1) ∧
    decode { cfgA with writeEnabled := false } (.cdb [0x2A, 0x00, 0x00, 0x00, 0x00, 0x07, 0x00, 0x00, 0x01, 0x00]) =
      some .scsiUnknownOpcode ∧
    decode cfgA (.cdb [0x1E, 0x00, 0x00, 0x00, 0x01, 0x00]) = some .scsiUnknownOpcode := by decide

/-- 44 R299: the thirteen cells, with the D and H of 95 section 2.5. -/
theorem test_decode_cases :
    decode cfgA (.bot13 .dn 0 0 false .resp) = some .botCase1 ∧
    decode cfgA (.bot13 .di 36 0 true .resp) = some .botCase2 ∧
    decode cfgA (.bot13 .dO 512 0 false .backend) = some .botCase3 ∧
    decode cfgA (.bot13 .dn 0 16 true .resp) = some .botCase4 ∧
    decode cfgA (.bot13 .di 0 512 true .backend) = some .botCase4 ∧
    decode cfgA (.bot13 .di 36 255 true .resp) = some (.botCase5 36 .resp) ∧
    decode cfgA (.bot13 .di 36 36 true .resp) = some (.botCase6 36 .resp) ∧
    decode cfgA (.bot13 .di 36 8 true .resp) = some (.botCase7 .resp) ∧
    decode cfgA (.bot13 .dO 512 512 true .backend) = some .botCase8 ∧
    decode cfgA (.bot13 .dn 0 512 false .resp) = some .botCase9 ∧
    decode cfgA (.bot13 .di 36 36 false .resp) = some .botCase10 ∧
    decode cfgA (.bot13 .dO 512 1024 false .backend) = some (.botCase11 512) ∧
    decode cfgA (.bot13 .dO 512 512 false .backend) = some (.botCase12 512) ∧
    decode cfgA (.bot13 .dO 1024 512 false .backend) = some .botCase13 := by decide

/-- 30 R148: the table's words, bit 0 the least significant bit of the first byte. -/
theorem test_decode_table_words :
    decodeTableWord 16 0x0680 = some (.getDescriptor 0 0) ∧ decodeTableWord 16 0xFF21 = some .bomsr ∧
    decodeTableWord 8 0x12 = some .inquiry ∧ decodeTableWord 8 0x84 = some (.stall 1 .out .even) ∧
    decodeTableWord 32 0x43425355 = some (.cbwValid ⟨0, 0, 0, 0, 0, List.replicate 16 0⟩) ∧
    decodeTableWord 32 0x53425355 = some .cbwInvalid ∧ decodeTableWord 24 0 = none := by decide

/-! One operation each, on the vectors of 95. -/

/-- `S0` of 95 section 0: DEFAULT, EP0 OUT armed for a SETUP. -/
def s0 : State :=
  { State.powerOn cfgA with
    deviceState := .dflt
    bdt :=
      [⟨statArmed true false, 8, 0x0100⟩, ⟨statClear, 0, 0x0140⟩, ⟨statClear, 0, 0x0180⟩, ⟨statClear, 0, 0x01C0⟩]
    sie := ⟨0, false, [⟨true, true, true⟩, ctrlOff], ⟨0, .out, .even⟩, true, List.replicate 4 .even⟩ }

/-- `S1` of 95 section 0: CONFIGURED at address 5, bulk OUT armed for a CBW. -/
def s1 : State :=
  { s0 with
    deviceState := .configured
    currentConfiguration := 1
    bdt :=
      [⟨statArmed true false, 8, 0x0100⟩, ⟨statClear, 0, 0x0140⟩, ⟨statArmed true false, 64, 0x0180⟩,
        ⟨statClear, 0, 0x01C0⟩]
    sie :=
      ⟨5, false, [⟨true, true, true⟩, ⟨true, true, true⟩], ⟨0, .out, .even⟩, true, List.replicate 4 .even⟩ }

/-- Ping-pong everywhere, after reset (95 section 2.8). -/
def s8 : State :=
  { s0 with
    cfg := { cfgA with ppMode := .all, bufAddrs := [0x0100, 0x0140, 0x0180, 0x01C0, 0x0200, 0x0240, 0x0280, 0x02C0] }
    bdt := (List.range 8).map (fun i => ⟨if i = 0 then statArmed true false else statClear, 8, 0x0100 + 0x40 * i⟩) }

/-- A next state of which `p` holds. -/
def after (r : Result) (p : State → Bool) : Bool :=
  match r with
  | .next t => p t
  | .fault _ => false
  | .refused _ => false

/-- This next state. -/
def goes (r : Result) (t : State) : Bool := after r (fun u => u = t)

/-- The fault of the ring. -/
def faults (r : Result) : Bool :=
  match r with
  | .next _ => false
  | .fault e => e = .ringOverflow
  | .refused _ => false

/-- `{status_byte, count}` of an EVEN BD. -/
def bdNow (t : State) (ep : Ep) (dir : Dir) : Byte × Nat := (Bd.statusByte (t.bd ep dir .even), (t.bd ep dir .even).count.toNat)

/-- The packet in the IN buffer. -/
def sent (t : State) (ep : Ep) : List Byte := readBytes t.cfg.addrW t.buf (t.bd ep .inp .even).address (t.bd ep .inp .even).count.toNat

/-- A SETUP packet received and served. -/
def request (s : State) (b : List Byte) : Result := exec (.ep0Setup .even) { s with buf := writeBytes s.cfg.addrW s.buf 0x0100 b }

/-- The request is answered with these bytes in one DATA1 packet. -/
def answers (s : State) (b reply : List Byte) : Bool :=
  after (request s b) (fun t => bdNow t 0 .inp = (0xC8, reply.length) ∧ sent t 0 = reply ∧ t.stage = .dataIn ∧
    bdNow t 0 .out = (0x88, 8))

/-- The request is answered with STATUS_IN. -/
def grants (s : State) (b : List Byte) (p : State → Bool) : Bool :=
  after (request s b) (fun t => bdNow t 0 .inp = (0xC8, 0) ∧ t.stage = .statusIn ∧ p t)

/-- "stall" of 95 section 2.3. -/
def stalls (s : State) (b : List Byte) : Bool :=
  after (request s b) (fun t => Bd.statusByte (t.bd 0 .inp .even) = 0x84 ∧ t.stage = .setup ∧ (t.epsAt 0 .inp).halted = false ∧
    bdNow t 0 .out = (0x88, 8) ∧ (t.epsAt 0 .out).toggle ∧ (t.epsAt 0 .inp).toggle)

/-- A valid CBW served. -/
def command (s : State) (tag h : Word) (flags : Byte) (cdb : List Byte) : Result :=
  exec (.cbwValid ⟨tag, h, flags, 0, 0, fit 16 cdb⟩) s

/-- The command ends with its CSW at once: bytes 4 to 12. -/
def cswIs (t : State) (b : List Byte) : Bool := t.bot.state = .csw ∧ sent t 1 = [0x55, 0x53, 0x42, 0x53] ++ b

/-- The command answers with these bytes, and its CSW will hold this residue and status. -/
def gives (r : Result) (b : List Byte) (residue : Word) (status : CswStatus) (act : EndAction) : Bool :=
  after r (fun t => t.bot.state = .dataSent ∧ sent t 1 = b ∧ t.csw.residue = residue ∧ t.csw.status = status ∧
    t.bot.endAction = act)

/-- The command stalls a direction and waits. -/
def stallsBulk (r : Result) (dir : Dir) (residue : Word) (status : CswStatus) (sense : Sense) : Bool :=
  after r (fun t => Bd.statusByte (t.bd 1 dir .even) = 0x84 ∧ (t.epsAt 1 dir).halted ∧ t.bot.state = .waitIllegal ∧
    t.bot.stalled = some dir ∧ t.csw.residue = residue ∧ t.csw.status = status ∧ t.sense = sense)

abbrev inq : List Byte :=
  [0x00, 0x80, 0x04, 0x02, 0x20, 0x00, 0x00, 0x00, 0x43, 0x39, 0x42, 0x4F, 0x54, 0x20, 0x20, 0x20, 0x4D, 0x61, 0x73] ++
    [0x73, 0x20, 0x53, 0x74, 0x6F, 0x72, 0x61, 0x67, 0x65, 0x20, 0x20, 0x20, 0x20, 0x31, 0x2E, 0x30, 0x30]

/-- V40.1, V40.2. For (2, IN, ODD) of ALL_NONZERO the vector and R81 say 11; the formula of R80 gives 9 (log 15). -/
theorem test_bd_index :
    bdIndex .none 1 .inp .even = 3 ∧ bdIndex .all 1 .inp .odd = 7 ∧ bdIndex .ep0OutOnly 0 .out .odd = 1 ∧
    bdIndex .ep0OutOnly 0 .inp .even = 2 ∧ bdIndex .ep0OutOnly 1 .out .even = 3 ∧
    bdIndex .allNonzero 1 .out .even = 2 ∧ bdIndex .allNonzero 2 .inp .odd = 9 ∧
    bdtEntries .none 2 = 4 ∧ bdtEntries .ep0OutOnly 2 = 5 ∧ bdtEntries .allNonzero 2 = 6 ∧ bdtEntries .all 2 = 8 := by
  decide

/-- V40.3: `{0x88, 8}`, `{0xC8, 64}`, `{0xC8, 0}`, `{0x88, 13}`. -/
theorem test_arms :
    after (exec (.armOut 1 .even false 8) s0) (fun t => bdNow t 1 .out = (0x88, 8)) ∧
    after (exec (.armOut 1 .even true 64) s0) (fun t => bdNow t 1 .out = (0xC8, 64)) ∧
    after (exec (.armIn 0 .even true 0) s0) (fun t => bdNow t 0 .inp = (0xC8, 0)) ∧
    after (exec (.armIn 0 .even false 13) s0) (fun t => bdNow t 0 .inp = (0x88, 13)) ∧
    after (exec .armStatusIn s0) (fun t => bdNow t 0 .inp = (0xC8, 0)) := by decide

/-- V40.4, V40.5, V40.6. -/
theorem test_reclaim_stall_rearm :
    after (exec (.reclaim 0 .out .even) s0) (fun t => bdNow t 0 .out = (0x00, 8)) ∧
    after (exec (.stall 1 .out .even) s1) (fun t => bdNow t 1 .out = (0x84, 64) ∧
      applyLine (.out none 1 false [0x00]) t = { t with wire := .stall }) ∧
    after (exec (.rearmOut 0 .even true 8) s0) (fun t => bdNow t 0 .out = (0xC8, 8) ∧ t.free = s0.free) ∧
    after (exec (.rearmIn 1 .even true 13) s0) (fun t => bdNow t 1 .inp = (0xC8, 13)) := by decide

/-- V40.7, V40.8. -/
theorem test_stall_ep :
    after (exec (.stallEp 1 .inp) s8) (fun t => Bd.statusByte (t.bd 1 .inp .even) = 0x84 ∧
      Bd.statusByte (t.bd 1 .inp .odd) = 0x84 ∧ (t.epsAt 1 .inp).halted ∧ Bd.statusByte (t.bd 1 .out .odd) = 0x00) ∧
    after (exec .requestError s0) (fun t => bdNow t 0 .inp = (0x84, 0) ∧ !(t.epsAt 0 .inp).halted) := by decide

/-- V40.9, V40.10. -/
theorem test_unstall_ep :
    after (exec (.unstallEp 1 .inp) ((s1.setBd 1 .inp .even ⟨statStalled, 0, 0x01C0⟩).setEps 1 .inp ⟨true, true, .odd⟩))
      (fun t => bdNow t 1 .inp = (0x00, 0) ∧ t.epsAt 1 .inp = ⟨false, false, .odd⟩ ∧
        goes (exec (.unstallEp 1 .inp) t) t) ∧
    after (exec (.unstallEp 1 .out) ((s1.setBd 1 .out .even ⟨statArmed true true, 64, 0x0180⟩).setEps 1 .out ⟨true, false, .odd⟩))
      (fun t => bdNow t 1 .out = (0xC8, 64) ∧ t.epsAt 1 .out = ⟨false, false, .odd⟩) := by decide

/-- V40.11, V40.12. -/
theorem test_parity :
    after (exec (.noteCompletion 1 .inp .even) s8) (fun t => (t.epsAt 1 .inp).lastParity = .even ∧ t.nextPar 1 .inp = .odd) ∧
    goes (exec (.noteCompletion 1 .inp .even) s1) s1 ∧
    after (exec .ppReset { s8 with eps := List.replicate 4 ⟨true, false, .even⟩ })
      (fun t => t.epsAt 1 .out = ⟨true, false, .odd⟩ ∧ t.epsAt 0 .out = ⟨true, false, .even⟩) := by decide

/-- V40.13, 40 R172, R173, R176. -/
theorem test_engine_arms :
    after (exec .ep0ArmDataOut { s0.setEps 0 .out ⟨true, false, .odd⟩ with ctl := ⟨.ram, 0, 7, 0, false⟩ })
      (fun t => bdNow t 0 .out = (0xC8, 7)) ∧
    after (exec .ep0ArmDataOut { s0 with ctl := ⟨.ram, 0, 20, 0, false⟩ }) (fun t => bdNow t 0 .out = (0x88, 8)) ∧
    after (exec .ep0ArmStatusOut s0) (fun t => bdNow t 0 .out = (0xC8, 8)) ∧
    after (exec .ep0ArmSetup (s0.setBd 0 .out .even ⟨statArmed true true, 4, 0x0100⟩)) (fun t => bdNow t 0 .out = (0x88, 8)) ∧
    after (exec (.bulkArmOut 31) s1) (fun t => bdNow t 1 .out = (0x88, 31)) ∧
    after (exec (.bulkArmIn 36) (s1.setEps 1 .inp ⟨true, false, .odd⟩)) (fun t => bdNow t 1 .inp = (0xC8, 36)) := by decide

/-- V40.14, V40.15: a repeated packet is acknowledged and dropped; a SETUP goes past the toggle. -/
theorem test_sie :
    applyLine (.out none 0 true []) s0 = { s0 with wire := .ack } ∧
    (let t := applyLine (.setup none [0x80, 0x06, 0, 1, 0, 0, 0x40, 0]) (s0.setBd 0 .out .even ⟨statArmed true true, 8, 0x0100⟩)
     t.wire = .ack ∧ t.sie.pktDisable = true ∧ t.ev.trn = true ∧ BdStat.pid (t.bd 0 .out .even).stat = 0b1101 ∧
       (t.bd 0 .out .even).stat.own = false ∧ readBytes 16 t.buf 0x0100 8 = [0x80, 0x06, 0, 1, 0, 0, 0x40, 0]) := by decide

/-- 20 R93, R94, R97: while a completion waits for its service, STALL and the answer to a repeated packet are as ever, and
nothing completes. -/
theorem test_sie_pending :
    let s := { s1.setBd 1 .inp .even ⟨statStalled, 0, 0x01C0⟩ with ev := { evReset with trn := true } }
    applyLine (.inp none 1 true) s = { s with wire := .stall } ∧ applyLine (.out none 1 true []) s = { s with wire := .ack } ∧
      applyLine (.out none 1 false [0x00]) s = { s with wire := .nak } := by decide

/-- The plan of a DATA_IN stage. -/
def plan (e : Ep0Max) (d : Nat) (w : Byte) (rest : Nat) (zlp : Bool) (first : Nat) : Bool :=
  after (exec (.startDataIn .rom 0x1000 d) { s0 with cfg := { cfgA with ep0Max := e }, setup := [0, 0, 0, 0, 0, 0, w, 0] })
    (fun t => t.ctl.bytesRemaining = BitVec.ofNat 16 (rest - first) ∧ t.ctl.sendShortZlp = zlp ∧
      (bdNow t 0 .inp).2 = first ∧ t.stage = .dataIn)

/-- V41.1 to V41.12; the flag of V41.7 is used up by the packet that the start sends (R201). -/
theorem test_start_data_in :
    plan .b8 18 64 18 false 8 ∧ plan .b8 16 255 16 true 8 ∧ plan .b8 18 8 8 false 8 ∧ plan .b8 16 16 16 false 8 ∧
    plan .b8 2 2 2 false 2 ∧ plan .b8 2 1 1 false 1 ∧ plan .b8 0 5 0 false 0 ∧ plan .b64 18 64 18 false 18 ∧
    plan .b64 64 255 64 true 64 ∧ plan .b16 32 32 32 false 16 ∧ plan .b8 32 33 32 true 8 ∧
    after (exec (.startDataIn .rom 0x1000 32) s0) (fun t => t.stage = .statusIn ∧ bdNow t 0 .inp = (0xC8, 0)) := by decide

/-- P1 lines 2 to 4, P2 line 3: the next packet, the zero-length packet, the status arm. -/
theorem test_data_in_next :
    after (exec .ep0InData { s0 with stage := .dataIn, ctl := ⟨.rom, 0x1010, 2, 0, false⟩ })
      (fun t => bdNow t 0 .inp = (0x88, 2) ∧ sent t 0 = [0x00, 0x01] ∧ t.ctl.bytesRemaining = 0) ∧
    after (exec .dataInNext { s0.setEps 0 .inp ⟨true, false, .odd⟩ with stage := .dataIn, ctl := ⟨.rom, 0x1010, 0, 0, true⟩ })
      (fun t => bdNow t 0 .inp = (0xC8, 0) ∧ t.ctl.sendShortZlp = false ∧ t.stage = .dataIn) ∧
    after (exec .ep0InData { s0 with stage := .dataIn })
      (fun t => bdNow t 0 .out = (0xC8, 8) ∧ t.stage = .statusOut) ∧
    after (exec (.ep0SendIn 8) { s0 with ctl := ⟨.rom, 0x1000, 18, 0, false⟩ })
      (fun t => bdNow t 0 .inp = (0x88, 8) ∧ sent t 0 = [0x12, 1, 0, 2, 0, 0, 0, 8] ∧ t.ctl.bytesRemaining = 10) := by decide

/-- V41.28 to V41.30: a DATA_OUT stage, its final chunk with a hook that refuses (MSC has none that accepts). -/
theorem test_data_out :
    after (exec (.startDataOut 0x0020 20) (s0.setEps 0 .out ⟨true, false, .odd⟩))
      (fun t => bdNow t 0 .out = (0xC8, 8) ∧ t.stage = .dataOut ∧ t.ctl = ⟨.rom, 0x0020, 20, 0, false⟩) ∧
    after (exec (.dataOutStep .even 8) { s0 with stage := .dataOut, ctl := ⟨.rom, 0x0028, 12, 8, false⟩, buf := [(0x0100, 0xAA)] })
      (fun t => bdNow t 0 .out = (0x88, 4) ∧ t.stage = .dataOut ∧ t.ctl = ⟨.rom, 0x0030, 4, 16, false⟩ ∧
        memRead t.ram 0x0028 = 0xAA) ∧
    after (exec (.ep0OutData .even 3) { s0 with stage := .dataOut, ctl := ⟨.rom, 0x0028, 12, 8, false⟩ })
      (fun t => t.ctl.bytesReceived = 11 ∧ (bdNow t 0 .inp).1 = 0x84 ∧ t.stage = .setup ∧ bdNow t 0 .out = (0x88, 8)) := by
  decide

/-- V41.23, V41.24, R194: the SETUP handler drops what was under way. -/
theorem test_setup_handler :
    grants ({ s0.setBd 0 .inp .even ⟨statArmed true false, 8, 0x0140⟩ with
      stage := .dataIn, ctl := ⟨.rom, 0x1008, 2, 0, true⟩, sie := { s0.sie with pktDisable := true } })
      [0x00, 0x05, 0x05, 0, 0, 0, 0, 0] (fun t => t.addressPending ∧ t.pendingAddress = 5 ∧ t.sie.address = 0 ∧
        !t.ctl.sendShortZlp ∧ t.ctl.bytesRemaining = 0 ∧ !t.sie.pktDisable) ∧
    after (request { s0 with stage := .statusIn, addressPending := true, pendingAddress := 9 } [0x80, 6, 0, 1, 0, 0, 0x12, 0])
      (fun t => !t.addressPending ∧ t.stage = .dataIn ∧ bdNow t 0 .inp = (0xC8, 8) ∧ t.sie.address = 0) := by decide

/-- V41.25, V41.27, V42.10, V42.11. -/
theorem test_status_completions :
    after (exec .ep0OutStray (s0.setBd 0 .out .even ⟨statWritten false 1, 2, 0x0100⟩)) (fun t => bdNow t 0 .out = (0x88, 8) ∧ t.stage = .setup) ∧
    after (exec .ep0OutEarlyStatus { s0 with stage := .dataIn }) (fun t => bdNow t 0 .out = (0x88, 8) ∧ t.stage = .setup) ∧
    after (exec .ep0OutStatus { s0 with stage := .statusOut }) (fun t => bdNow t 0 .out = (0x88, 8) ∧ t.stage = .setup) ∧
    after (exec .ep0InStatus { s0 with stage := .statusIn, addressPending := true, pendingAddress := 5 })
      (fun t => t.sie.address = 5 ∧ t.deviceState = .address ∧ !t.addressPending ∧ t.stage = .setup) ∧
    after (exec .statusComplete { s1 with stage := .statusIn, addressPending := true, pendingAddress := 0 })
      (fun t => t.sie.address = 0 ∧ t.deviceState = .dflt) ∧
    goes (exec .ep0InStray s0) s0 := by decide

/-- V41.31, R191: the service of a latch. -/
theorem test_trn :
    goes (exec .trn { s0 with ev := { evReset with trn := true }, sie := { s0.sie with lastTrn := ⟨5, .out, .even⟩ } })
      { s0 with sie := { s0.sie with lastTrn := ⟨5, .out, .even⟩ } } ∧
    goes (exec (.epOutOfRange 5) s0) s0 ∧
    after (exec .trn { s1.setBd 1 .out .even ⟨statWritten false 1, 31, 0x0180⟩ with
        ev := { evReset with trn := true }, sie := { s1.sie with lastTrn := ⟨1, .out, .even⟩ } })
      (fun t => t.bot.q = [⟨.out, .even, 31⟩] ∧ !t.ev.trn ∧ (t.epsAt 1 .out).toggle ∧ !(t.epsAt 0 .out).toggle) ∧
    after (exec (.ep0Dispatch .out pidSetup .even 8) { s0 with buf := writeBytes 16 [] 0x0100 [0x80, 8, 0, 0, 0, 0, 1, 0] })
      (fun t => bdNow t 0 .inp = (0xC8, 1)) := by decide

/-- V41.20, V41.22, V42.3, V42.19, V42.27, V42.28, V43.4: refused requests. -/
theorem test_refused_requests :
    [[0x40, 0x01, 0, 0, 0, 0, 0, 0], [0x60, 0, 0, 0, 0, 0, 0, 0], [0x00, 0x03, 0x02, 0, 0, 0x01, 0, 0],
     [0x00, 0x07, 0, 1, 0, 0, 0x12, 0], [0x80, 0x02, 0, 0, 0, 0, 0, 0], [0x80, 0x04, 0, 0, 0, 0, 0, 0],
     [0x80, 0x0D, 0, 0, 0, 0, 0, 0], [0x80, 0xFF, 0, 0, 0, 0, 0, 0], [0x82, 0x0C, 0, 0, 0x81, 0, 2, 0],
     [0x83, 0, 0, 0, 0, 0, 2, 0], [0x82, 0, 0, 0, 2, 0, 2, 0], [0x81, 0, 0, 0, 1, 0, 2, 0], [0x00, 0x09, 1, 0, 0, 0, 0, 0],
     [0x01, 0x03, 0, 0, 0, 0, 0, 0], [0x01, 0x01, 0, 0, 0, 0, 0, 0], [0x80, 0x06, 3, 3, 9, 4, 0xFF, 0],
     [0x80, 0x06, 1, 2, 0, 0, 9, 0], [0x80, 0x06, 0, 6, 0, 0, 0x0A, 0], [0x80, 0x06, 0, 0x22, 0, 0, 0x40, 0],
     [0x21, 0x01, 0, 0, 0, 0, 0, 0]].all (stalls s0) = true := by decide

/-- V42.1, V42.2, V42.4 to V42.6, V42.20: the status answers. -/
theorem test_status_requests :
    answers s0 [0x80, 0, 0, 0, 0, 0, 2, 0] [0, 0] ∧ answers { s0 with remoteWakeup := true } [0x80, 0, 0, 0, 0, 0, 2, 0] [2, 0] ∧
    answers { s0 with cfg := { cfgA with selfPowered := true } } [0x80, 0, 0, 0, 0, 0, 2, 0] [1, 0] ∧
    answers s0 [0x81, 0, 0, 0, 0, 0, 2, 0] [0, 0] ∧ answers s1 [0x82, 0, 0, 0, 0x81, 0, 2, 0] [0, 0] ∧
    answers (s1.setEps 1 .inp ⟨false, true, .odd⟩) [0x82, 0, 0, 0, 0x81, 0, 2, 0] [1, 0] ∧
    answers s0 [0x80, 8, 0, 0, 0, 0, 1, 0] [0] ∧ answers s1 [0x80, 8, 0, 0, 0, 0, 1, 0] [1] := by decide

/-- V42.2, V42.5, V42.8, V42.9: features. -/
theorem test_features :
    grants s0 [0x00, 3, 1, 0, 0, 0, 0, 0] (fun t => t.remoteWakeup) ∧
    grants { s0 with remoteWakeup := true } [0x00, 1, 1, 0, 0, 0, 0, 0] (fun t => !t.remoteWakeup) ∧
    grants s1 [0x02, 3, 0, 0, 0x81, 0, 0, 0] (fun t => (t.epsAt 1 .inp).halted ∧ (bdNow t 1 .inp).1 = 0x84) ∧
    stalls s1 [0x02, 1, 0, 0, 0, 0, 0, 0] ∧ stalls s1 [0x02, 1, 1, 0, 0x81, 0, 0, 0] ∧ stalls s1 [0x02, 3, 0, 0, 0x82, 0, 0, 0] ∧
    grants (s1.setEps 1 .inp ⟨true, false, .odd⟩) [0x02, 1, 0, 0, 0x81, 0, 0, 0]
      (fun t => t.epsAt 1 .inp = ⟨false, false, .odd⟩ ∧ bdNow t 1 .inp = (0x00, 0)) := by decide

/-- V42.12, V42.15, V42.16 and P1 line 1: descriptors. -/
theorem test_descriptors :
    answers s0 [0x80, 6, 0, 1, 0, 0, 0x40, 0] [0x12, 1, 0, 2, 0, 0, 0, 8] ∧
    answers s0 [0x80, 6, 0, 2, 0, 0, 9, 0] [9, 2, 0x20, 0, 1, 1, 0, 0x80] ∧
    answers s0 [0x80, 6, 0, 3, 0, 0, 0xFF, 0] [4, 3, 9, 4] ∧
    answers s0 [0x80, 6, 2, 3, 9, 4, 0xFF, 0] [0x0A, 3, 0x44, 0, 0x69, 0, 0x73, 0] := by decide

/-- V42.21 to V42.24. -/
theorem test_set_configuration :
    stalls { s0 with deviceState := .address } [0x00, 9, 2, 0, 0, 0, 0, 0] ∧
    grants { s0 with deviceState := .address } [0x00, 9, 1, 0, 0, 0, 0, 0] (fun t => t.deviceState = .configured ∧
      t.currentConfiguration = 1 ∧ t.ctrlAt 1 = ⟨true, true, true⟩ ∧ bdNow t 1 .out = (0x88, 64) ∧
      (t.bd 1 .out .even).address = 0x0180 ∧ (t.bd 1 .inp .even).address = 0x01C0) ∧
    grants s1 [0x00, 9, 0, 0, 0, 0, 0, 0] (fun t => t.deviceState = .address ∧ t.currentConfiguration = 0 ∧
      bdNow t 1 .out = (0x88, 64)) ∧
    grants { (s1.setBd 1 .inp .even ⟨statArmed true false, 13, 0x01C0⟩).setEps 1 .out ⟨true, true, .odd⟩ with
        bot := { botReset with state := .csw } } [0x00, 9, 1, 0, 0, 0, 0, 0]
      (fun t => (bdNow t 1 .inp).1 = 0x00 ∧ bdNow t 1 .out = (0x88, 64) ∧ t.epsAt 1 .out = ⟨false, false, .odd⟩ ∧
        t.bot.state = .cbw) := by decide

/-- V42.25, V42.26. -/
theorem test_interfaces :
    answers s1 [0x81, 0x0A, 0, 0, 0, 0, 1, 0] [0] ∧ stalls s1 [0x81, 0x0A, 0, 0, 1, 0, 1, 0] ∧
    grants ((s1.setEps 1 .inp ⟨true, false, .odd⟩).setEps 1 .out ⟨true, false, .odd⟩) [0x01, 0x0B, 0, 0, 0, 0, 0, 0]
      (fun t => !(t.epsAt 1 .inp).toggle ∧ !(t.epsAt 1 .out).toggle ∧ bdNow t 1 .out = (0x88, 64)) ∧
    stalls s1 [0x01, 0x0B, 1, 0, 0, 0, 0, 0] := by decide

/-- V43.1 to V43.3, V43.5, V44.22: the class requests of MSC. -/
theorem test_msc_requests :
    answers s1 [0xA1, 0xFE, 0, 0, 0, 0, 1, 0] [0] ∧ grants s1 [0xA1, 0xFE, 0, 0, 0, 0, 0, 0] (fun _ => true) ∧
    grants s0 [0x21, 0xFF, 0, 0, 0, 0, 0, 0] (fun t => t.bot.state = .cbw ∧ bdNow t 1 .out = (0x88, 64) ∧ t.ctrlAt 1 = ctrlOff) ∧
    grants { (s1.setBd 1 .inp .even ⟨statArmed true true, 64, 0x01C0⟩).setEps 1 .out ⟨true, false, .odd⟩ with
        bot := { botReset with state := .readData, q := [⟨.inp, .even, 64⟩] }, sense := ⟨5, 0x21, 0⟩ }
      [0x21, 0xFF, 0, 0, 0, 0, 0, 0]
      (fun t => (bdNow t 1 .inp).1 = 0x00 ∧ bdNow t 1 .out = (0xC8, 64) ∧ t.bot.state = .cbw ∧ t.bot.q = [] ∧
        t.sense = ⟨5, 0x21, 0⟩) := by decide

/-- V43.6, 44 R292: the ring; a fifth entry is the one fault. -/
theorem test_ring :
    after (exec (.epnCompletion 1 .out .even 31) s1) (fun t => t.bot.q = [⟨.out, .even, 31⟩] ∧ t.bot.state = .cbw) ∧
    faults (exec (.botEnqueue 1 .inp .even 13) { s1 with bot := { botReset with q := List.replicate 4 ⟨.out, .even, 31⟩ } }) ∧
    goes (exec (.hookTasks 1 .inp .even 13) { s1 with cfg := { cfgA with numEp := 3, bulkInEp := 2 } })
      { s1 with cfg := { cfgA with numEp := 3, bulkInEp := 2 } } ∧
    goes (exec .msdTasks s1) s1 := by decide

/-- V44.2, V44.3, V44.5: an invalid CBW, and a clear of the halt that comes straight back. -/
theorem test_cbw_invalid :
    [(Instr.cbwInvalid), .botCbwReceived .even 30, .botCbwReceived .even 32, .botCbwReceived .even 0].all (fun i =>
      after (exec i s1) (fun t => (bdNow t 1 .out).1 = 0x84 ∧ (bdNow t 1 .inp).1 = 0x84 ∧ (t.epsAt 1 .out).halted ∧
        (t.epsAt 1 .inp).halted ∧ t.bot.state = .waitInvalid ∧ t.csw = s1.csw)) = true ∧
    grants ({ s1 with bot := { botReset with state := .waitInvalid } }.setEps 1 .inp ⟨false, true, .odd⟩)
      [0x02, 1, 0, 0, 0x81, 0, 0, 0] (fun t => (t.epsAt 1 .inp).halted ∧ (bdNow t 1 .inp).1 = 0x84) := by decide

/-- V44.4 and P3 line 5: the wrapper's fields. -/
theorem test_cbw_valid :
    let cbw := [0x55, 0x53, 0x42, 0x43, 0x78, 0x56, 0x34, 0x12, 0x24, 0, 0, 0, 0xFF, 5, 0, 0x12, 0, 0, 0, 0x24]
    after (exec (.botCbwReceived .even 31) { s1 with buf := writeBytes 16 [] 0x0180 (cbw ++ List.replicate 11 0) })
      (fun t => t.csw = ⟨0x12345678, 0, .passed⟩ ∧ t.bot.dir ∧ t.bot.opcode = 0x12 ∧ sent t 1 = inq ∧ bdNow t 1 .inp = (0x88, 36)) := by
  decide

/-- 95 section 2.5, cases 1 to 4, 8. -/
theorem test_cases_without_data :
    after (command s1 1 0 0x00 [0]) (fun t => cswIs t [1, 0, 0, 0, 0, 0, 0, 0, 0]) ∧
    after (command s1 2 0 0x80 [0x12, 0, 0, 0, 0x24]) (fun t => cswIs t [2, 0, 0, 0, 0, 0, 0, 0, 2]) ∧
    after (command s1 3 0 0x00 [0x2A, 0, 0, 0, 0, 0, 0, 0, 1]) (fun t => cswIs t [3, 0, 0, 0, 0, 0, 0, 0, 2]) ∧
    gives (command s1 4 16 0x80 [0]) (List.replicate 16 0) 16 .passed .sendCsw ∧
    after (command s1 8 512 0x80 [0x2A, 0, 0, 0, 0, 0, 0, 0, 1]) (fun t => t.csw = ⟨8, 512, .phaseError⟩ ∧
      t.bot.state = .readData ∧ t.bot.xferRemaining = 448 ∧ sent t 1 = List.replicate 64 0) := by decide

/-- 95 section 2.5, cases 5 to 7, 9 to 13. -/
theorem test_cases_with_data :
    gives (command s1 5 255 0x80 [0x12, 0, 0, 0, 0x24]) inq 0xDB .passed .stallThenCsw ∧
    gives (command s1 6 36 0x80 [0x12, 0, 0, 0, 0x24]) inq 0 .passed .sendCsw ∧
    gives (command s1 7 8 0x80 [0x12, 0, 0, 0, 0x24]) [0, 0x80, 4, 2, 0x20, 0, 0, 0] 0 .phaseError .stallThenCsw ∧
    stallsBulk (command s1 9 512 0x00 [0]) .out 512 .passed ⟨0, 0, 0⟩ ∧
    stallsBulk (command s1 10 36 0x00 [0x12, 0, 0, 0, 0x24]) .out 36 .phaseError ⟨0, 0, 0⟩ ∧
    after (command s1 11 1024 0x00 [0x2A, 0, 0, 0, 0, 0, 0, 0, 1]) (fun t => t.csw = ⟨11, 512, .passed⟩ ∧
      t.bot.state = .writeData ∧ t.bot.endAction = .stallThenCsw ∧ bdNow t 1 .out = (0x88, 64)) ∧
    after (command s1 12 512 0x00 [0x2A, 0, 0, 0, 0, 0, 0, 0, 1]) (fun t => t.csw = ⟨12, 0, .passed⟩ ∧
      t.bot.state = .writeData ∧ t.bot.endAction = .sendCsw ∧ t.bot.xferRemaining = 512) ∧
    stallsBulk (command s1 13 512 0x00 [0x2A, 0, 0, 0, 0, 0, 0, 0, 2]) .out 512 .phaseError ⟨0, 0, 0⟩ := by decide

/-- V44.24: the chunks of a READ(10) of two blocks from LBA 3, `k = 1`, 8 and 16. -/
theorem test_start_in :
    after (exec (.startIn .backend 1024 .sendCsw) { s1 with rw := ⟨3, 3, 2, 1024, 1024, 0⟩, media := [(1536, 0xEE)] })
      (fun t => t.bot.xferRemaining = 960 ∧ t.rw.currentLba = 3 ∧ t.rw.byteOfSector = 64 ∧ t.bot.state = .readData ∧
        memRead t.buf 0x01C0 = 0xEE) := by decide

/-- The state after chunk `k` of that READ(10). -/
def chunk (k : Nat) : State :=
  { s1 with
    rw := ⟨3, BitVec.ofNat 32 (3 + 64 * k / 512), 2, 1024, BitVec.ofNat 32 (1024 - 64 * k), 64 * k % 512⟩
    bot := { botReset with state := .readData, src := .backend, xferRemaining := BitVec.ofNat 32 (1024 - 64 * k) } }

theorem test_send_in_chunk :
    after (exec .botDataInNext (chunk 7)) (fun t => t.rw = (chunk 8).rw ∧ t.bot = (chunk 8).bot) ∧
    after (exec .sendInChunk (chunk 15))
      (fun t => t.bot.xferRemaining = 0 ∧ t.rw.currentLba = 5 ∧ t.rw.byteOfSector = 0 ∧ t.bot.state = .readFinished) := by
  decide

/-- P6 lines 3 and 10. -/
theorem test_data_out_chunk :
    after (exec (.botDataOutChunk .even 64) { s1.setEps 1 .out ⟨false, false, .odd⟩ with rw := ⟨7, 7, 1, 512, 512, 0⟩, buf := [(0x0180, 0xFF), (0x01BF, 0xC0)], bot := { botReset with state := .writeData, xferRemaining := 512 } })
      (fun t => t.bot.xferRemaining = 448 ∧ t.rw.currentLba = 7 ∧ t.rw.byteOfSector = 64 ∧ bdNow t 1 .out = (0x88, 64) ∧
        memRead t.media 3584 = 0xFF ∧ memRead t.media 3647 = 0xC0) ∧
    after (exec (.dataOutChunk .even 64) { s1 with csw := ⟨12, 0, .passed⟩, rw := ⟨7, 7, 1, 512, 64, 448⟩, bot := { botReset with state := .writeData, xferRemaining := 64 } })
      (fun t => t.rw.currentLba = 8 ∧ t.rw.byteOfSector = 0 ∧ t.rw.cbwDeclaredBytes = 0 ∧ cswIs t [12, 0, 0, 0, 0, 0, 0, 0, 0] ∧
        bdNow t 1 .inp = (0x88, 13)) := by decide

/-- P3 lines 8 and 10, cases 5 and 11 of 95 section 2.5: how a data stage ends. -/
theorem test_command_end :
    after (exec .botDataInEnd { s1.setEps 1 .inp ⟨true, false, .odd⟩ with csw := ⟨0x12345678, 0, .passed⟩, sense := ⟨5, 0x21, 0⟩ })
      (fun t => cswIs t [0x78, 0x56, 0x34, 0x12, 0, 0, 0, 0, 0] ∧ bdNow t 1 .inp = (0xC8, 13) ∧ t.sense = ⟨0, 0, 0⟩) ∧
    stallsBulk (exec .endOfDataIn { s1 with csw := ⟨5, 0xDB, .passed⟩, bot := { botReset with endAction := .stallThenCsw } }) .inp
      0xDB .passed ⟨0, 0, 0⟩ ∧
    stallsBulk (exec (.stallAndWait .out) { s1 with csw := ⟨9, 512, .passed⟩ }) .out 512 .passed ⟨0, 0, 0⟩ ∧
    after (exec .botCswSent (s1.setEps 1 .out ⟨true, false, .odd⟩)) (fun t => bdNow t 1 .out = (0xC8, 64) ∧ t.bot.state = .cbw) ∧
    after (exec .sendCsw { s1 with csw := ⟨2, 1024, .failed⟩, sense := ⟨5, 0x21, 0⟩ })
      (fun t => cswIs t [2, 0, 0, 0, 0, 4, 0, 0, 1] ∧ t.sense = ⟨5, 0x21, 0⟩) := by decide

/-- P4 line 4, V44.21, P5 line 7, V42.9: a clear of a bulk halt in each state. -/
theorem test_bot_clear_halt :
    after (exec (.botClearHalt 3 1 .inp) { s1 with csw := ⟨2, 1024, .failed⟩, bot := { botReset with state := .waitIllegal, stalled := some .inp } })
      (fun t => cswIs t [2, 0, 0, 0, 0, 4, 0, 0, 1] ∧ t.bot.stalled = none) ∧
    goes (exec (.botClearHalt 2 1 .out) { s1 with bot := { botReset with state := .waitIllegal, stalled := some .inp } })
      { s1 with bot := { botReset with state := .waitIllegal, stalled := some .inp } } ∧
    after (exec (.hookClearHalt 2 1 .out) s0) (fun t => bdNow t 1 .out = (0x88, 64)) ∧
    goes (exec (.botClearHalt 3 1 .inp) s1) s1 := by decide

/-- V45.1 to V45.4, V45.6, V45.7, V45.10 to V45.12: responses and status. -/
theorem test_scsi_responses :
    after (command { s1 with mediaPresent := false } 1 0 0 [0]) (fun t => cswIs t [1, 0, 0, 0, 0, 0, 0, 0, 1] ∧ t.sense = ⟨2, 0x3A, 0⟩) ∧
    gives (command s1 1 36 0x80 [0x12, 1, 0x80, 0, 0xFF]) inq 0 .passed .sendCsw ∧
    gives (command { s1 with writeProtected := true } 1 4 0x80 [0x1A, 0, 0x3F, 0, 0xC0]) [3, 0, 0x80, 0] 0 .passed .sendCsw ∧
    gives (command s1 1 192 0x80 [0x1A, 0, 0x3F, 0, 0xC0]) [3, 0, 0, 0] 188 .passed .stallThenCsw ∧
    gives (command s1 1 8 0x80 [0x25]) [0, 0, 0, 0x3F, 0, 0, 2, 0] 0 .passed .sendCsw ∧
    gives (command s1 1 8 0x80 [0x25, 0, 0, 0, 0, 1, 0, 0, 1]) [0, 0, 0, 0x3F, 0, 0, 2, 0] 0 .passed .sendCsw ∧
    gives (command s1 1 18 0x80 [3, 0, 0, 0, 0x12]) [0x70, 0, 0, 0, 0, 0, 0, 0x0A, 0, 0, 0, 0, 0, 0, 0, 0, 0, 0] 0 .passed .sendCsw ∧
    gives (command { s1 with sense := ⟨5, 0x21, 0⟩ } 1 8 0x80 [3, 0, 0, 0, 8]) [0x70, 0, 5, 0, 0, 0, 0, 0x0A] 0 .passed .sendCsw ∧
    after (command { s1 with sense := ⟨5, 0x21, 0⟩ } 1 0 0 [3]) (fun t => cswIs t [1, 0, 0, 0, 0, 0, 0, 0, 0] ∧ t.sense = ⟨0, 0, 0⟩) := by
  decide

/-- V45.8, V45.9, V45.15, V45.17 to V45.19: failures. -/
theorem test_scsi_failures :
    stallsBulk (command { s1 with sense := ⟨1, 2, 3⟩ } 1 8 0x80 [0x25, 0, 0, 0, 0, 1]) .inp 8 .phaseError ⟨1, 2, 3⟩ ∧
    stallsBulk (command { s1 with writeProtected := true } 1 512 0 [0x2A, 0, 0, 0, 0, 0, 0, 0, 1]) .out 512 .failed ⟨7, 0x27, 0⟩ ∧
    stallsBulk (command s1 1 1024 0x80 [0x28, 0, 0xFF, 0xFF, 0xFF, 0xFF, 0, 0, 2]) .inp 1024 .failed ⟨5, 0x21, 0⟩ ∧
    after (command s1 1 0 0 [0x1E, 0, 0, 0, 1]) (fun t => cswIs t [1, 0, 0, 0, 0, 0, 0, 0, 1] ∧ t.sense = ⟨5, 0x20, 0⟩) ∧
    stallsBulk (command { s1 with cfg := { cfgA with writeEnabled := false } } 1 512 0 [0x2A, 0, 0, 0, 0, 7, 0, 0, 1]) .out 512
      .failed ⟨5, 0x20, 0⟩ ∧
    stallsBulk (command s1 1 1024 0 [0x2A, 0, 0, 0, 0, 0x3F, 0, 0, 2]) .out 1024 .failed ⟨5, 0x21, 0⟩ := by decide

/-- V45.13, V45.14, V45.16: the range check at the capacity. -/
theorem test_read10 :
    after (command s1 1 512 0x80 [0x28, 0, 0, 0, 0, 0x3F, 0, 0, 1]) (fun t => t.rw = ⟨63, 63, 1, 512, 448, 64⟩ ∧
      t.csw = ⟨1, 0, .passed⟩ ∧ t.bot.state = .readData) ∧
    after (command s1 1 0 0 [0x28, 0, 0, 0, 0, 0x40, 0, 0, 0]) (fun t => cswIs t [1, 0, 0, 0, 0, 0, 0, 0, 0]) ∧
    after (command s1 1 1024 0x80 [0x28, 0, 0, 0, 0, 0, 0, 0, 1]) (fun t => t.csw = ⟨1, 512, .passed⟩ ∧
      t.bot.endAction = .stallThenCsw ∧ t.bot.xferRemaining = 448) := by decide

/-- V60.2, V60.3, V60.5 and V60.8 (R401: the completion is discarded). -/
theorem test_attach_reset :
    after (exec .attach (State.powerOn cfgA)) (fun t => t.deviceState = .powered ∧ t.sie.enable ∧ bdNow t 0 .out = (0, 0)) ∧
    after (exec .reset
        { s1 with
          ev := { evReset with reset := true, trn := true, idle := true }
          deviceState := .suspended
          suspendedFrom := .configured
          bot := { botReset with state := .readData } })
      (fun t => t.deviceState = .dflt ∧ t.sie.address = 0 ∧ t.ev = evReset ∧ t.bdt.map Bd.statusByte = [0x88, 0, 0, 0] ∧
        t.currentConfiguration = 0 ∧ t.bot.state = .cbw ∧ t.ctrlAt 1 = ctrlOff ∧ t.stage = .setup) ∧
    goes (exec .reset { State.powerOn cfgA with ev := { evReset with reset := true } }) (State.powerOn cfgA) := by decide

/-- V60.4, V60.6, V60.9. -/
theorem test_events :
    goes (exec .idle { s0 with ev := { evReset with idle := true } }) { s0 with deviceState := .suspended, suspendedFrom := .dflt } ∧
    goes (exec .activity { s1 with deviceState := .suspended, suspendedFrom := .configured }) { s1 with suspendedFrom := .configured } ∧
    goes (exec .activity { s1 with ev := { evReset with activity := true } }) s1 ∧
    goes (exec .attach { s1 with ev := { evReset with attach := true } }) s1 ∧
    goes (exec .error { s1 with ev := { evReset with error := true } }) s1 ∧
    goes (exec .sof { s1 with ev := { evReset with sof := true } }) s1 := by decide

/-- V60.7, V60.1. -/
theorem test_detach :
    after (exec .detach { s1 with ev := { evReset with detach := true }, bot := { botReset with state := .readData } })
      (fun t => t.deviceState = .detached ∧ !t.sie.enable ∧ t.sie.address = 0 ∧ t.bot = botReset ∧ t.ev = evReset) ∧
    (applyLine (.setup none [0x80, 6, 0, 1, 0, 0, 0x40, 0]) (State.powerOn cfgA)).wire = .none := by decide

/-- 46 R371: the CDC requests, a staged line coding applied. -/
theorem test_cdc :
    let s : State := { s1 with cfg := { cfgA with function := .cdc, numInterfaces := 2 } }
    after (request s [0x21, 0x20, 0, 0, 0, 0, 7, 0]) (fun t => t.stage = .dataOut ∧ t.ctl.ptr = 0x0018 ∧ t.cdc.pending = .lineCoding ∧
      t.ctl.bytesRemaining = 7) ∧
    answers { s with ram := [(0x0011, 0xC2)] } [0xA1, 0x21, 0, 0, 0, 0, 7, 0] [0, 0xC2, 0, 0, 0, 0, 0] ∧
    grants s [0x21, 0x22, 3, 0, 0, 0, 0, 0] (fun t => t.cdc.dtr ∧ t.cdc.rts) ∧
    after (exec .hookOutControlFinished { s with ram := [(0x0018, 0x80)], cdc := { cdcReset with pending := .lineCoding } })
      (fun t => memRead t.ram 0x0010 = 0x80 ∧ t.reply.accepted ∧ t.cdc.pending = .none) := by decide

/-- 46 R370, R373: `init()` of CDC, its endpoints, the next chunk handed to bulk IN and its completion. -/
theorem test_cdc_application :
    let s : State := { State.powerOn cfgCdc with deviceState := .configured }
    after (exec .hookInit s) (fun t => bdNow t 1 .out = (0x88, 64) ∧ (t.bd 2 .inp .even).address = 0x0240 ∧
      t.ctrlAt 2 = ⟨true, true, false⟩ ∧
      (let u := runApp (.cdcSend [0x41, 0x42]) { t with cdc := { t.cdc with txReady := true } }
       bdNow u 1 .inp = (0x88, 2) ∧ sent u 1 = [0x41, 0x42] ∧ !u.cdc.txReady ∧ runApp (.cdcSend [0x43]) u = u)) ∧
    goes (exec (.hookTasks 1 .inp .even 2) s) { s with cdc := { s.cdc with txReady := true } } ∧
    after (exec (.hookInterfaceEndpoints 1) s) (fun t => t.reply.endpoints = [(1, .out), (1, .inp)]) := by decide

/-- 46 R374: an 8-byte header and a 2-byte bitfield on the notification endpoint, with the lines as they were told. -/
theorem test_cdc_notification :
    let s : State := { State.powerOn cfgCdc with deviceState := .configured }
    after (exec .hookInit s) (fun t =>
        let u := runApp .serialNotify (runApp (.serialState true true) t)
        bdNow u 2 .inp = (0x88, 10) ∧ sent u 2 = [0xA1, 0x20, 0, 0, 0, 0, 2, 0, 3, 0] ∧ runApp .serialNotify u = u) ∧
      goes (exec (.hookTasks 2 .inp .even 10) s) s := by decide

/-- 46 R375, R376: the HID requests and the idle count at a start of frame. -/
theorem test_hid :
    let s : State := { s1 with cfg := { cfgA with function := .hid } }
    answers { s with ram := [(0x0047, 9)] } [0xA1, 0x01, 0, 1, 0, 0, 8, 0] [0, 0, 0, 0, 0, 0, 0, 9] ∧
    after (request s [0x21, 0x09, 0, 2, 0, 0, 1, 0]) (fun t => t.stage = .dataOut ∧ t.ctl.ptr = 0x0058 ∧ t.hid.pending = .output 0) ∧
    after (exec .hookOutControlFinished
        { s with ram := [(0x0058, 3)], ctl := ⟨.rom, 0x0059, 0, 1, false⟩, hid := { s.hid with pending := .output 0 } })
      (fun t => memRead t.ram 0x0048 = 3 ∧ t.reply.accepted ∧ t.hid.pending = .none) ∧
    grants s [0x21, 0x0A, 0, 0x7D, 0, 0, 0, 0] (fun t => memRead t.ram 0x0050 = 0x7D) ∧
    answers { s with ram := [(0x0050, 0x7D)] } [0xA1, 0x02, 0, 0, 0, 0, 1, 0] [0x7D] ∧
    stalls s [0xA1, 0x03, 0, 0, 0, 0, 1, 0] ∧
    after (exec .sof { s with ram := [(0x0050, 2)], hid := { s.hid with counters := [7] } })
      (fun t => t.hid.counters = [8] ∧ t.hid.expired = [true]) := by decide

/-- 46 R375: without an IN report there is no idle duration to answer. -/
theorem test_hid_no_report :
    stalls { s1 with cfg := { cfgA with function := .hid, hid := { cfgA.hid with inSizes := [], inAddrs := [] } } }
      [0xA1, 0x02, 0, 0, 0, 0, 1, 0] := by decide

/-- 46 R377: the keyboard report {02,00,04,00,00,00,00,00} sent, its completion noted. -/
theorem test_hid_report :
    let s : State := { s1 with cfg := { cfgA with function := .hid } }
    let b : List Byte := [0x02, 0, 0x04, 0, 0, 0, 0, 0]
    let t := runApp (.sendReport 0 b) s
    bdNow t 1 .inp = (0x88, 8) ∧ sent t 1 = b ∧ t.hid.inFlight = some 0 ∧ runApp (.sendReport 0 b) t = t ∧
      runApp (.pollReport 0) s = s ∧ bdNow (runApp (.pollReport 0) (runApp (.requestReport 0) s)) 1 .inp = (0x88, 8) ∧
      after (exec (.hookTasks 1 .inp .even 8) t) (fun u => u.hid.sent = [true] ∧ u.hid.sentGlobal ∧ u.hid.inFlight = none) := by
  decide

/-- 70 R455: the engine takes the target that a function names, whatever room is there, and writes over what follows. -/
theorem test_data_out_beyond_target :
    let c : Config := { cfgA with function := .user }
    ownReply c ⟨true, .dataOut 0x0070 8, 0, []⟩ = refusedReply ∧
      ownReply c ⟨true, .dataOut 0x006F 8, 0, []⟩ = ⟨true, .dataOut 0x006F 8, 0, []⟩ ∧
      after (exec (.dataOutStep .even 8) { s0 with stage := .dataOut, ctl := ⟨.rom, 0x006F, 8, 0, false⟩, buf := [(0x0107, 0xAA)] })
        (fun t => memRead t.ram 0x0076 = 0xAA) := by decide

/-- 43 R271, R278, R280: data that spans two adjacent objects of the function's own is its own, empty data names no byte. -/
theorem test_own_data :
    let c : Config := { cfgA with function := .user, userRam := [(0x0060, 8), (0x0068, 8)] }
    (∀ k ∈ [RespKind.dataIn .ram 0x0064 8, .dataIn .ram 0 0, .dataOut 0 0, .dataIn .rom 0 18], ownReply c ⟨true, k, 0, []⟩ = ⟨true, k, 0, []⟩) ∧
      ownReply c ⟨true, .dataIn .ram 0x0069 8, 0, []⟩ = refusedReply := by decide

/-- 43 R278, R281: the function's own code arms its IN endpoint, writes its RAM and keeps a new private state, from the main
loop; MSC has none. -/
theorem test_own_code :
    let s : State := { s1 with cfg := { cfgA with function := .user } }
    let t := runApp (.own [.armIn 1 .even true 8, .armIn 0 .even true 8] [(0x0060, 7), (0x0070, 7)] 5) s
    bdNow t 1 .inp = (0xC8, 8) ∧ t.bd 0 .inp .even = s.bd 0 .inp .even ∧ memRead t.ram 0x0060 = 7 ∧
      memRead t.ram 0x0070 = memRead s.ram 0x0070 ∧ t.fnState = 5 ∧ runApp (.own [] [(0x0060, 7)] 5) s1 = s1 := by decide

/-- 43 R278, 00 R15: bytes go into a buffer of the function's own and no further; a RAM write and an enable likewise. -/
theorem test_function_rights :
    let s : State := { s1 with cfg := { cfgA with function := .user } }
    memRead (fnFill 1 .inp .even (List.replicate 64 7) s).buf 0x01FF = 7 ∧ fnFill 1 .inp .even (List.replicate 65 7) s = s ∧
      fnFill 0 .inp .even [7] s = s ∧ memRead (fnWrite s (0x006F, 7)).ram 0x006F = 7 ∧ fnWrite s (0x0070, 7) = s ∧
      fnWrite s (0, 7) = s ∧ fnCall false s (.setCtrl 1 ⟨false, false, false⟩) = s ∧
      fnCall true s (.setCtrl 0 ⟨false, false, false⟩) = s ∧ fnCall true s (.setCtrl 1 ⟨false, false, false⟩) ≠ s := by
  decide

/-- P1 lines 6 and 7, P3 line 3, P5 line 5, P4 line 4: the sequences of 30 R151 from end to end. -/
theorem test_sequences :
    after (exec (.setAddressSeq 5) s0) (fun t => t.sie.address = 5 ∧ t.deviceState = .address ∧ t.stage = .setup ∧ bdNow t 0 .out = (0x88, 8)) ∧
    after (exec (.setConfigSeq 1) { s0 with deviceState := .address }) (fun t => t.deviceState = .configured ∧ bdNow t 1 .out = (0x88, 64)) := by
  decide

/-- V42.9, V44.23 and P3 line 5; a CBW of a host whose toggle is not the device's is acknowledged and dropped (20 R94). -/
theorem test_sequences_bulk :
    after (exec (.pseudoSetHalt 0x81) s1) (fun t => (t.epsAt 1 .inp).halted ∧ (bdNow t 1 .inp).1 = 0x84) ∧
    after (exec (.cbwSeq 1 0 0x00 [0, 0, 0, 0, 0, 0]) s1) (fun t => t.bot.q = [⟨.out, .even, 31⟩] ∧ (t.epsAt 1 .out).toggle ∧
      (t.bd 1 .out .even).count = 31 ∧ t.hostTog) ∧
    after (exec (.cbwSeq 1 0 0x00 [0, 0, 0, 0, 0, 0]) { s1 with hostTog := true }) (fun t => t.wire = .ack ∧ t.bot.q = [] ∧ t.bdt = s1.bdt) ∧
    after (exec .bomsrSeq { s1 with bot := { botReset with state := .csw } }) (fun t => t.bot.state = .cbw ∧ bdNow t 1 .out = (0x88, 64) ∧
      t.stage = .setup) := by decide

/-- 30 R151, 70 R456: a Clear-Feature of the bulk OUT endpoint resets the host's toggle, one of bulk IN does not; NAK leaves it. -/
theorem test_host_toggle :
    let s : State := { s1 with hostTog := true }
    after (exec (.pseudoClearHalt 0x01) s) (fun t => !t.hostTog) ∧ after (exec (.pseudoClearHalt 0x81) s) (fun t => t.hostTog) ∧
      after (exec (.setConfigSeq 1) { s with deviceState := .address }) (fun t => !t.hostTog) ∧
      (applyLine (.out none 1 true [0]) (s.setBd 1 .out .even ⟨statClear, 0, 0⟩)).hostTog ∧
      !(applyLine .reset s).hostTog ∧ (applyLine (.hostToggle true) s1).hostTog := by decide

/-- 95 section 2.8, lines 1 and 2: the other parity each time. -/
theorem test_ping_pong :
    after (exec .isr (applyLine (.setup none [0x80, 6, 0, 1, 0, 0, 0x40, 0]) s8)) (fun t =>
      (t.epsAt 0 .out).lastParity = .even ∧ Bd.statusByte (t.bd 0 .out .odd) = 0x88 ∧ bdNow t 0 .inp = (0xC8, 8) ∧
      after (exec .isr (applyLine (.inp none 0 true) t)) (fun u => Bd.statusByte (u.bd 0 .inp .odd) = 0x88 ∧
        (u.epsAt 0 .inp).lastParity = .even ∧ u.ptrAt 0 .inp = .odd ∧ u.ctl.bytesRemaining = 2)) := by decide

/-- One step from reset runs a placed word; a flag set and nothing scripted runs its service (60 R401). -/
theorem test_step :
    after (step (State.reset.withFetchWord 16 0x0500)) (fun t => t.setup = [0, 5, 0, 0, 0, 0, 0, 0] ∧ t.stage = .statusIn ∧
      t.addressPending) ∧
    goes (step { s0 with ev := { evReset with idle := true } }) { s0 with deviceState := .suspended, suspendedFrom := .dflt } ∧
    goes (step s0) s0 := by decide

/-- 30 R150, 20 R85, 10 R52: a script's next line waits for the flags of the one before, the main loop's turn waits too; with
nothing left an entry of the ring is drained. -/
theorem test_turns :
    let s : State := { s1 with ev := { evReset with idle := true } }
    after (step { s with script := [.line .reset] }) (fun t => t.deviceState = .suspended ∧ t.script = [.line .reset]) ∧
    after (step { s with script := [.app .takeSent] }) (fun t => t.deviceState = .suspended ∧ t.script = [.app .takeSent]) ∧
    after (step { s with script := [.early .reset] }) (fun t => t.ev.reset ∧ t.ev.idle ∧ t.script = []) ∧
    after (step { s1 with bot := { botReset with q := [⟨.out, .even, 30⟩] } })
      (fun t => t.bot.q = [] ∧ t.bot.state = .waitInvalid) := by decide

/-! Witnesses: for every statement with hypotheses, states and operands that meet them, clause by clause. -/

/-- The check behind `State.Sound`. -/
def soundB (s : State) : Bool :=
  s.cfg.wf ∧ s.bdt.length = bdtEntries s.cfg.ppMode s.cfg.numEp ∧ s.eps.length = 2 * s.cfg.numEp ∧
    s.sie.ptr.length = 2 * s.cfg.numEp ∧ s.sie.epCtrl.length = s.cfg.numEp ∧ s.setup.length = 8 ∧ s.cbw.length = 31 ∧
    s.bot.resp.length = 36 ∧ s.bot.q.length ≤ 4 ∧ memWf s.buf ∧ memWf s.ram ∧ memWf s.media

theorem sound_of {s : State} (h : soundB s = true) : s.Sound := by
  simp only [soundB, decide_eq_true_eq] at h
  obtain ⟨h1, h2, h3, h4, h5, h6, h7, h8, h9, h10, h11, h12⟩ := h
  exact ⟨h1, ⟨h2, h3, h4, h5, h6, h7, h8, h9⟩, ⟨h10, h11, h12⟩⟩

/-- The operation answers a next state. -/
theorem runs_of {r : Result} (h : after r (fun _ => true) = true) : ∃ t, r = .next t := by
  cases r with
  | next t => exact ⟨t, rfl⟩
  | fault e => exact absurd h (by simp [after])
  | refused e => exact absurd h (by simp [after])

/-- Other functions bound. -/
abbrev sCdc : State := { State.powerOn cfgCdc with deviceState := .configured }
abbrev sHid : State := { s1 with cfg := { cfgA with function := .hid } }
abbrev sUser : State := { s1 with cfg := { cfgA with function := .user } }

/-- Report ids in use, and a feature report. -/
abbrev sIds : State :=
  { sHid with
    cfg :=
      { cfgA with
        function := .hid
        hid := { cfgA.hid with useIds := true, featureSizes := [2], featureAddrs := [0x0060] } } }

/-- A setup packet whose `wLength` is `n`. -/
abbrev withLen (n : Byte) (s : State) : State := { s with setup := [0, 0, 0, 0, 0, 0, n, 0] }

theorem witness_DecodeEncodeRoundTrip :
    cfgA.wf = true ∧ (Instr.epnCompletion 1 .out .even 1023).wf cfgA = true ∧
      (encode cfgA (.epnCompletion 1 .out .even 1023)).isSome = true ∧
      decode cfgA (.setup [0x00, 0x05, 0x7F, 0, 0, 0, 0, 0]) = some (.setAddress 127) := by decide

theorem witness_SpecWordsDecode : cfgA.numEp = 2 := rfl

theorem witness_StepRunsTheDecodedOperation :
    (decodeEvent { evReset with error := true } = some .error ∧ decodeEvent s0.ev = none ∧ s0.script = [] ∧ s0.bot.q = []) ∧
      ({ s1 with bot := { botReset with q := [⟨.out, .even, 31⟩] } } : State).bot.q ≠ [] ∧
      callable cfgA (.armIn 1 .even false 64) = true ∧ callable cfgA (.armIn 0 .even false 8) = false ∧
      callable cfgCdc (.armOut 2 .even false 8) = false ∧ callable cfgA (.stall 1 .inp .even) = false ∧
      Instr.msdTasks ≠ .isr ∧ Line.reset ≠ .drain ∧ s0.Quiescent := ⟨by decide, by decide, by decide, by decide, by decide,
        by decide, by decide, by decide, by unfold State.Quiescent; decide⟩

theorem witness_TransactionRunsDecoded :
    let u : State := { s1 with sie := { s1.sie with lastTrn := ⟨2, .out, .even⟩ } }
    (s1.Shaped ∧ 1 ≤ s1.cfg.numEp ∧ s1.bot.q.length < 4 ∧ s1.sie.lastTrn.ep.toNat < s1.cfg.numEp) ∧
      u.Shaped ∧ u.cfg.numEp ≤ u.sie.lastTrn.ep.toNat :=
  ⟨⟨(sound_of (by decide)).shaped, by decide⟩, (sound_of (by decide)).shaped, by decide⟩

theorem witness_RequestRunsDecoded :
    let u : State := { s1 with setup := [0x80, 8, 0, 0, 0, 0, 1, 0] }
    let v : State := { s1 with setup := [0x21, 0xFF, 0, 0, 0, 0, 0, 0] }
    let w : State := { sCdc with setup := [0x21, 0x02, 0, 0, 0, 0, 0, 0] }
    (u.Sound ∧ decode u.cfg (.setup u.setup) = some .getConfiguration ∧ reqType u.setup = 0) ∧
      (v.Sound ∧ decode v.cfg (.classReq v.cfg.function v.setup) = some .bomsr) ∧
      w.Sound ∧ w.cfg.function ≠ .user ∧ decode w.cfg (.classReq w.cfg.function w.setup) = none :=
  ⟨⟨sound_of (by decide), by decide⟩, ⟨sound_of (by decide), by decide⟩, sound_of (by decide), by decide⟩

theorem witness_CommandRunsDecoded : s1.Shaped := (sound_of (by decide)).shaped

/-- A step that stays close: the idle flag of S0 serviced. -/
abbrev sIdle : State := { s0 with ev := { evReset with idle := true } }

theorem sIdle_busState : sIdle.BusState :=
  ⟨by decide, by decide, by decide, by decide⟩

theorem s0_busState : s0.BusState := ⟨by decide, by decide, by decide, by decide⟩

theorem witness_StepKeepsShapeAndConfiguration :
    (∃ t, step sIdle = .next t) ∧ sIdle.Shaped ∧ sIdle.Canonical ∧ sIdle.Ep0Clear ∧ sIdle.cfg.wf = true ∧ sIdle.BdsFit :=
  ⟨runs_of (by decide), (sound_of (by decide)).shaped, (sound_of (by decide)).canonical, fun d => by cases d <;> decide,
    by decide, by unfold State.BdsFit; decide⟩

theorem witness_StepKeepsBusState : sIdle.Shaped ∧ sIdle.BusState ∧ ∃ t, step sIdle = .next t :=
  ⟨(sound_of (by decide)).shaped, sIdle_busState, runs_of (by decide)⟩

/-- Engine and SIE in step on ping-ponged endpoints, with a completion that is not serviced yet and without one. -/
abbrev s8Pending : State := applyLine (.setup none [0x80, 8, 0, 0, 0, 0, 1, 0]) s8

theorem inStep_of {s : State} (h : ∀ ep : Ep, ∀ b : Bool,
    let dir := if b then Dir.inp else .out
    s.pp ep dir = true → ep.toNat < s.cfg.numEp →
      if s.ev.trn = true ∧ s.sie.lastTrn.ep = ep ∧ s.sie.lastTrn.dir = dir then
        s.nextPar ep dir = s.sie.lastTrn.parity ∧ s.ptrAt ep dir = s.sie.lastTrn.parity.other
      else s.ptrAt ep dir = s.nextPar ep dir) : s.InStep := by
  intro ep dir
  cases dir
  · exact h ep false
  · exact h ep true

theorem witness_StepKeepsParityInStep :
    (s8.Shaped ∧ s8.BusState ∧ s8.InStep ∧ ∃ t, step s8 = .next t) ∧
      s8Pending.Shaped ∧ s8Pending.BusState ∧ s8Pending.InStep ∧ ∃ t, step s8Pending = .next t :=
  ⟨⟨(sound_of (by decide)).shaped, ⟨by decide, by decide, by decide, by decide⟩, inStep_of (by decide), runs_of (by decide)⟩,
    (sound_of (by decide)).shaped, ⟨by decide, by decide, by decide, by decide⟩, inStep_of (by decide), runs_of (by decide)⟩

/-- A SETUP received on endpoint 0 and not served yet. -/
abbrev sSetup : State := applyLine (.setup none [0x80, 8, 0, 0, 0, 0, 1, 0]) s0

theorem witness_Ep0OutStaysArmed :
    (sSetup.Sound ∧ sSetup.BusState ∧ sSetup.deviceState ≠ .detached ∧ sSetup.Ep0OutReady ∧
        decodeEvent sSetup.ev = some .trn ∧ ∃ t, exec .trn sSetup = .next t) ∧
      s0.Sound ∧ s0.BusState ∧ s0.deviceState ≠ .detached ∧ s0.Ep0OutReady ∧ ∃ t, exec .msdTasks s0 = .next t :=
  ⟨⟨sound_of (by decide), ⟨by decide, by decide, by decide, by decide⟩, by decide,
      by unfold State.Ep0OutReady State.Ep0OutArmed; decide, by decide, runs_of (by decide)⟩,
    sound_of (by decide), s0_busState, by decide, by unfold State.Ep0OutReady State.Ep0OutArmed; decide, runs_of (by decide)⟩

theorem witness_AddressChangesOnlyByCommitOrReset :
    (mayReaddress .vendorRequest = false ∧ ∃ t, exec .vendorRequest s0 = .next t) ∧
      ∃ t, exec .statusComplete { s0 with addressPending := true, pendingAddress := 5 } = .next t :=
  ⟨⟨by decide, runs_of (by decide)⟩, runs_of (by decide)⟩

/-- The ring is full. -/
abbrev sFull : State := { s1 with bot := { botReset with q := List.replicate 4 ⟨.out, .even, 31⟩ } }

theorem witness_OnlyAFullRingFaults : exec (.botEnqueue 1 .inp .even 13) sFull = .fault .ringOverflow := rfl

theorem witness_BdIndexNumbersTheTable :
    (1 ≤ 16 ∧ 16 ≤ 16 ∧ (15 : Ep).toNat < 16 ∧ Parity.odd ∈ parities .all 15 .inp ∧ 63 < bdtEntries .all 16) ∧
      (0 : Ep).toNat < 1 ∧ Parity.odd ∈ parities .ep0OutOnly 0 .out ∧ 0 < bdtEntries .ep0OutOnly 1 ∧
      Parity.even ∈ parities .allNonzero 0 .out := by decide

theorem witness_ReclaimAndStallWriteTheStatus :
    s1.Shaped ∧ s1.validBd 1 .out .even ∧ (s1.bd 1 .out .even).count.toNat < 256 :=
  ⟨(sound_of (by decide)).shaped, by unfold State.validBd; decide⟩

theorem witness_ArmHandsTheBdToTheSie :
    s1.Shaped ∧ 1023 ≤ 1023 ∧ 255 < 256 ∧ s1.validBd 1 .inp .even ∧ (s1.bd 1 .inp .even).stat.own = false ∧
      s8.Shaped ∧ s8.validBd 0 .out .odd ∧ (s8.bd 0 .out .odd).stat.own = false :=
  ⟨(sound_of (by decide)).shaped, by decide, by decide, by unfold State.validBd; decide, by decide,
    (sound_of (by decide)).shaped, by unfold State.validBd; decide⟩

theorem witness_ArmingAnOwnedBdLeavesTheCountOpen :
    let u := s1.setBd 1 .inp .even ⟨statArmed true false, 64, 0x01C0⟩
    (s1.Shaped ∧ s1.validBd 1 .out .even ∧ (s1.bd 1 .out .even).stat.own = true) ∧
      u.Shaped ∧ u.validBd 1 .inp .even ∧ (u.bd 1 .inp .even).stat.own = true :=
  ⟨⟨(sound_of (by decide)).shaped, by unfold State.validBd; decide⟩, (sound_of (by decide)).shaped, by unfold State.validBd; decide⟩

theorem witness_RearmArmsWhoeverOwnsTheBd :
    s1.Shaped ∧ s1.validBd 1 .out .even ∧ s1.validBd 1 .inp .even ∧ 1023 ≤ 1023 :=
  ⟨(sound_of (by decide)).shaped, by unfold State.validBd; decide⟩

theorem witness_EngineArmsUseTheNextBd : s1.Shaped ∧ 1 ≤ s1.cfg.numEp ∧ s1.cfg.bulkEpsOk = true ∧ 64 ≤ s1.cfg.bulkMax :=
  ⟨(sound_of (by decide)).shaped, by decide⟩

theorem witness_StallEpAndRequestError : s8.Shaped ∧ (1 : Ep).toNat < s8.cfg.numEp ∧ 1 ≤ s8.cfg.numEp :=
  ⟨(sound_of (by decide)).shaped, by decide⟩

theorem witness_UnstallEpClearsHaltToggleAndStall : s8.Shaped ∧ (1 : Ep).toNat < s8.cfg.numEp :=
  ⟨(sound_of (by decide)).shaped, by decide⟩

theorem witness_ParityIsNotedAndReset :
    s8.Shaped ∧ (1 : Ep).toNat < s8.cfg.numEp ∧ (1 : Ep) ≠ 0 ∧ s8.pp 1 .inp = true :=
  ⟨(sound_of (by decide)).shaped, by decide⟩

theorem witness_Ep0SendInSendsTheNextBytes :
    s0.Sound ∧ 8 ≤ s0.cfg.ep0Max.bytes ∧ (s0.bd 0 .inp (s0.nextPar 0 .inp)).stat.own = false :=
  ⟨sound_of (by decide), by decide⟩

theorem witness_SetupHandlerStepsThenDispatch :
    (s0.Sound ∧ s0.validBd 0 .out .even) ∧ s8.Sound ∧ s8.validBd 0 .out .odd ∧ s8.pp 0 .out = true ∧
      Parity.odd ≠ s8.nextPar 0 .out ∧ (1 : Ep) ≠ 0 :=
  ⟨⟨sound_of (by decide), by unfold State.validBd; decide⟩, sound_of (by decide), by unfold State.validBd; decide⟩

theorem witness_DataInStage :
    let u : State := { s0 with ctl := ⟨.rom, 0x1000, 9, 0, false⟩ }
    let v : State := { s0 with ctl := ⟨.rom, 0x1000, 0, 0, true⟩ }
    (s0.Sound ∧ wLength s0.setup = 0 ∧ s0.ctl.bytesRemaining = 0 ∧ s0.ctl.sendShortZlp = false) ∧
      ((withLen 1 s0).Sound ∧ wLength (withLen 1 s0).setup ≠ 0) ∧
      (u.Sound ∧ u.ctl.bytesRemaining ≠ 0 ∧ (u.bd 0 .inp (u.nextPar 0 .inp)).stat.own = false) ∧
      v.Sound ∧ v.ctl.bytesRemaining = 0 ∧ v.ctl.sendShortZlp = true ∧ (v.bd 0 .inp (v.nextPar 0 .inp)).stat.own = false :=
  ⟨⟨sound_of (by decide), by decide⟩, ⟨sound_of (by decide), by decide⟩, ⟨sound_of (by decide), by decide⟩,
    sound_of (by decide), by decide⟩

theorem witness_DataOutStage :
    let u : State := { s0 with ctl := ⟨.ram, 0x0020, 20, 0, false⟩ }
    (u.Sound ∧ 65535 < 2 ^ 16 ∧ 65535 ≠ 0 ∧ 0 < 2 ^ 16) ∧
      (8 ≤ 1023 ∧ u.ctl.bytesRemaining - BitVec.ofNat 16 8 ≠ 0 ∧ u.cfg.ep0Max.bytes ≤ 8) ∧ 7 < u.cfg.ep0Max.bytes :=
  ⟨⟨sound_of (by decide), by decide⟩, by decide, by decide⟩

theorem witness_StatusAndStrayCompletions : s0.Shaped ∧ 1 ≤ s0.cfg.numEp ∧ s0.cfg.numEp ≤ (2 : Ep).toNat :=
  ⟨(sound_of (by decide)).shaped, by decide⟩

theorem witness_UnsupportedRequestsAreRefused : s0.Shaped ∧ 1 ≤ s0.cfg.numEp := ⟨(sound_of (by decide)).shaped, by decide⟩

theorem witness_StatusAndConfigurationAnswers :
    s1.Sound ∧ (0 : Byte).toNat < s1.cfg.numInterfaces ∧ s1.cfg.numInterfaces ≤ (1 : Byte).toNat ∧
      (1 : Ep).toNat < s1.cfg.numEp ∧ s1.cfg.numEp ≤ (2 : Ep).toNat := ⟨sound_of (by decide), by decide⟩

theorem witness_DeviceFeaturesAndAddress : s0.Shaped ∧ 1 ≤ s0.cfg.numEp ∧ (0 : Half) ≠ 1 ∧ (2 : Half) ≠ 1 :=
  ⟨(sound_of (by decide)).shaped, by decide⟩

theorem witness_EndpointFeatures :
    s1.Sound ∧ (1 : Ep) ≠ 0 ∧ (1 : Ep).toNat < s1.cfg.numEp ∧ s1.cfg.numEp ≤ (2 : Ep).toNat ∧ (1 : Half) ≠ 0 :=
  ⟨sound_of (by decide), by decide⟩

theorem witness_DescriptorsAreSentFromRom :
    s0.Sound ∧ (s0.cfg.configDescs[(0 : Byte).toNat]?).isSome = true ∧ s0.cfg.configDescs.length ≤ (1 : Byte).toNat ∧
      (s0.cfg.stringDescs[(2 : Byte).toNat]?).isSome = true ∧ s0.cfg.stringDescs.length ≤ (3 : Byte).toNat :=
  ⟨sound_of (by decide), by decide⟩

/-- A class descriptor of the HID function: accepted, from ROM. -/
theorem witness_DescriptorsAreSentFromRom_class :
    sHid.Sound ∧ after (exec .hookGetClassDescriptor { sHid with setup := [0x81, 6, 0, 0x22, 0, 0, 4, 0] })
      (fun u => u.reply.accepted = true ∧ u.reply.kind = .dataIn .rom (reportDescPtr sHid.cfg) 4) = true ∧
    after (exec .hookGetClassDescriptor s0) (fun u => u.reply.accepted = false) = true :=
  ⟨sound_of (by decide), by decide⟩

theorem witness_SetConfigurationByValueAndState :
    (s1.Shaped ∧ 1 ≤ s1.cfg.numEp ∧ s1.deviceState = .configured) ∧
      (s0.Shaped ∧ s0.deviceState ≠ .address ∧ s0.deviceState ≠ .configured) ∧
      s1.Sound ∧ (1 : Byte) ≠ 0 ∧ (1 : Byte).toNat ≤ s1.cfg.configDescs.length ∧
      s1.cfg.configDescs.length < (2 : Byte).toNat ∧ (1 : Ep) ≠ 0 ∧ (1 : Ep).toNat < s1.cfg.numEp :=
  ⟨⟨(sound_of (by decide)).shaped, by decide⟩, ⟨(sound_of (by decide)).shaped, by decide⟩, sound_of (by decide), by decide⟩

theorem witness_InterfaceRequests :
    s1.Sound ∧ after (exec (.hookSetInterface 0 0) s1) (fun u => u.reply.accepted = true) = true ∧
      after (exec (.hookSetInterface 1 0) s1) (fun u => u.reply.accepted = false) = true ∧
      after (exec (.hookGetInterface 0) s1) (fun u => u.reply.accepted = true) = true ∧
      after (exec (.hookGetInterface 1) s1) (fun u => u.reply.accepted = false) = true ∧
      after (exec (.hookInterfaceEndpoints 0) s1) (fun x => (1, Dir.inp) ∈ x.reply.endpoints ∧
        (1 : Ep).toNat < s1.cfg.numEp ∧ (0, Dir.inp) ∉ x.reply.endpoints) = true := ⟨sound_of (by decide), by decide⟩

theorem witness_MscHookBindings : s1.cfg.function = .msc ∧
    bRequest [0x21, 0x01, 0, 0, 0, 0, 0, 0] ≠ 0xFF ∧ bRequest [0x21, 0x01, 0, 0, 0, 0, 0, 0] ≠ 0xFE := by decide

theorem witness_HooksKeepToTheirWriteRights :
    (sUser.Sound ∧ sUser.cfg.function = .user ∧ isHook .hookInit = true ∧ Instr.hookInit.wf sUser.cfg = true ∧
        sUser.bot.q.length < 4 ∧ ∃ t, exec .hookInit sUser = .next t) ∧
      s1.Sound ∧ isHook (.hookTasks 1 .out .even 31) = true ∧ (Instr.hookTasks 1 .out .even 31).wf s1.cfg = true ∧
      ∃ t, exec (.hookTasks 1 .out .even 31) s1 = .next t :=
  ⟨⟨sound_of (by decide), by decide, by decide, by decide, by decide, ⟨_, rfl⟩⟩, sound_of (by decide), by decide, by decide,
    runs_of (by decide)⟩

/-- A byte of RAM and of BUF that is not the function's own, an endpoint direction that is not. -/
theorem witness_HooksKeepToTheirWriteRights_rights :
    sUser.Sound ∧ sUser.cfg.function ≠ .msc ∧
      (∀ x ∈ functionRam sUser.cfg, ∀ j, j < x.2 → (0x0070 : Nat) ≠ place sUser.cfg.addrW x.1 j) ∧
      (∀ (e : Ep) (d : Dir) (p : Parity), (e, d) ∈ functionEps sUser.cfg → sUser.validBd e d p → ∀ j, j < sUser.cfg.bulkMax →
        (0x0100 : Nat) ≠ place sUser.cfg.addrW (sUser.bufAddr e d p) j) ∧
      ((2 : Ep), Dir.out) ∉ functionEps sUser.cfg ∧ (∀ d, ((2 : Ep), d) ∉ functionEps sUser.cfg) ∧
      ((1 : Ep), Dir.inp) ∈ functionEps sUser.cfg ∧ sUser.validBd 1 .inp .even := by
  refine ⟨sound_of (by decide), by decide, by decide, ?_, by decide, fun d => by cases d <;> decide, by decide,
    by unfold State.validBd; decide⟩
  intro e d p h _ j hj
  have he : e = 1 := by
    obtain h | h := List.mem_cons.1 h
    · cases h; rfl
    · cases List.mem_singleton.1 h; rfl
  subst he
  have hb : sUser.bufAddr 1 d p = 0x0180 ∨ sUser.bufAddr 1 d p = 0x01C0 := by cases d <;> cases p <;> decide
  have hj : j < 64 := hj
  unfold place
  show (0x0100 : Nat) ≠ (sUser.bufAddr 1 d p + j) % 2 ^ 16
  obtain hb | hb := hb <;> rw [hb]
  · show (0x0100 : Nat) ≠ (0x0180 + j) % 2 ^ 16
    omega
  · show (0x0100 : Nat) ≠ (0x01C0 + j) % 2 ^ 16
    omega

/-- An `init()` that arms a BD, made with no BD of the function owned by the SIE. -/
theorem witness_HooksKeepToTheirWriteRights_init :
    State.reset.Sound ∧ (∀ (e : Ep) (d : Dir) (p : Parity), e ≠ 0 → (State.reset.bd e d p).stat.own = false) ∧
      after (exec .hookInit State.reset) (fun t => (t.bd 1 .out .even).stat.own ∧ !BdStat.stallBit (t.bd 1 .out .even).stat) = true ∧
      State.reset.validBd 1 .out .even := by
  refine ⟨sound_of (by decide), fun e d p => ?_, by decide, by unfold State.validBd; decide⟩
  cases d <;> cases p <;> revert e <;> decide

theorem witness_CdcRequests :
    ((withLen 7 sCdc).Sound ∧ (wLength (withLen 7 sCdc).setup).toNat ≤ 7) ∧
      ((withLen 8 sCdc).Sound ∧ 7 < (wLength (withLen 8 sCdc).setup).toNat ∧ (wLength (withLen 8 sCdc).setup).toNat ≤ 8) ∧
      ((withLen 9 sCdc).Sound ∧ 8 < (wLength (withLen 9 sCdc).setup).toNat) ∧
      ({ sCdc with cdc := { cdcReset with pending := .lineCoding } } : State).Sound ∧ sCdc.cfg.function = .cdc ∧
      Parity.even ∈ parities sCdc.cfg.ppMode sCdc.cfg.cdc.notifyEp .inp ∧ (sCdc.bd sCdc.cfg.cdc.dataOutEp .out .even).stat.own = false :=
  ⟨⟨sound_of (by decide), by decide⟩, ⟨sound_of (by decide), by decide⟩, ⟨sound_of (by decide), by decide⟩,
    sound_of (by decide), by decide⟩

/-- The end of an encapsulated command, and a hook with nothing pending. -/
theorem witness_CdcRequests_finish :
    let e : State := { sCdc with cdc := { cdcReset with pending := .encapsulated } }
    (e.Sound ∧ e.cfg.function = .cdc ∧ e.cdc.pending = .encapsulated) ∧ sCdc.Sound ∧ sCdc.cdc.pending = .none :=
  ⟨⟨sound_of (by decide), by decide⟩, sound_of (by decide), by decide⟩

/-- A request for the HID descriptor, its report descriptor, another descriptor. -/
abbrev sDesc (n : Byte) : State := { sHid with setup := [0x81, 6, 0, n, 0, 0, 9, 0] }

theorem witness_HidRequests :
    (sIds.Sound ∧ reportIndex true sIds.cfg.hid.inSizes.length 1 = some 0 ∧ (1 : Byte) ≠ 0 ∧
        reportIndex true sIds.cfg.hid.featureSizes.length 1 = some 0 ∧
        reportIndex true sIds.cfg.hid.outSizes.length 0 = none ∧ reportIndex true sIds.cfg.hid.inSizes.length 2 = none) ∧
      ((withLen 2 sIds).Sound ∧ (wLength (withLen 2 sIds).setup).toNat ≤ sIds.cfg.hid.featureSizes.getD 0 0 ∧
        sIds.cfg.hid.outSizes.getD 0 0 < (wLength (withLen 2 sIds).setup).toNat) ∧
      ((withLen 1 sHid).Sound ∧ (wLength (withLen 1 sHid).setup).toNat ≤ sHid.cfg.hid.outSizes.getD 0 0 ∧
        reportIndex false sHid.cfg.hid.outSizes.length 0 = some 0) ∧
      (2 : Byte) ≠ 1 ∧ (2 : Byte) ≠ 3 ∧ (1 : Byte) ≠ 2 ∧ (1 : Byte) ≠ 3 ∧
      sHid.cfg.function = .hid ∧ ({ sHid with hid := hidReset sHid.cfg } : State).hid.counters.length = sHid.cfg.hid.inSizes.length ∧
      sHid.hid.expired.length = sHid.cfg.hid.inSizes.length ∧ 0 < sHid.cfg.hid.inSizes.length :=
  ⟨⟨sound_of (by decide), by decide⟩, ⟨sound_of (by decide), by decide⟩, ⟨sound_of (by decide), by decide⟩, by decide⟩

/-- A HID function with no IN report, and one with an IN report. -/
theorem witness_HidRequests_noReport :
    let n : State := { sHid with cfg := { cfgA with function := .hid, hid := { cfgA.hid with inSizes := [], inAddrs := [] } } }
    (n.Sound ∧ n.cfg.hid.inSizes = []) ∧ sHid.Sound ∧ sHid.cfg.hid.inSizes ≠ [] :=
  ⟨⟨sound_of (by decide), by decide⟩, sound_of (by decide), by decide⟩

theorem witness_HidRequests_hooks :
    (sIds.hid.pending = .none ∧ sIds.cfg.function = .hid ∧
        ({ sIds with hid := { sIds.hid with pending := .feature 0 } } : State).Sound ∧ 0 < sIds.cfg.hid.featureSizes.length ∧
        0 < sIds.cfg.hid.outSizes.length) ∧
      ((sDesc 0x21).Sound ∧ hiByte (wValue (sDesc 0x21).setup) = 0x21) ∧
      ((sDesc 0x22).Sound ∧ hiByte (wValue (sDesc 0x22).setup) = 0x22) ∧
      (sDesc 0x23).Sound ∧ hiByte (wValue (sDesc 0x23).setup) ≠ 0x21 ∧ hiByte (wValue (sDesc 0x23).setup) ≠ 0x22 :=
  ⟨⟨by decide, by decide, sound_of (by decide), by decide, by decide⟩, ⟨sound_of (by decide), by decide⟩,
    ⟨sound_of (by decide), by decide⟩, sound_of (by decide), by decide⟩

theorem witness_FunctionAndApplicationTurns :
    let h := sHid.cfg.hid
    let v := sHid.setBd h.inEp .inp .even ⟨statArmed true false, 8, 0x01C0⟩
    let f : State := { sHid with hid := { sHid.hid with inFlight := some 0 } }
    let p : State := { s8 with cfg := { s8.cfg with function := .hid } }
    (sHid.Sound ∧ sHid.cfg.function = .hid ∧ h.outEp = some 1 ∧ Parity.even ∈ parities sHid.cfg.ppMode h.inEp .inp ∧
        (State.powerOn sHid.cfg).Sound ∧ ((State.powerOn sHid.cfg).bd 1 .out .even).stat.own = false ∧
        reportIndex h.useIds h.inSizes.length 0 = some 0 ∧ reportIndex h.useIds h.inSizes.length 1 = none ∧
        (sHid.bd h.inEp .inp (sHid.nextPar h.inEp .inp)).stat.own = false) ∧
      (v.Sound ∧ (v.bd h.inEp .inp (v.nextPar h.inEp .inp)).stat.own = true) ∧
      (f.Sound ∧ f.hid.inFlight = some 0 ∧ sHid.hid.inFlight = none ∧ ¬((1 : Ep) = h.inEp ∧ Dir.out = .inp)) ∧
      (p.Sound ∧ p.cfg.function = .hid ∧ p.cfg.hid.outEp = some 1 ∧ Parity.odd ∈ parities p.cfg.ppMode 1 .out ∧ Parity.odd ≠ .even) ∧
      s1.cfg.function ≠ .hid ∧
      s1.cfg.function ≠ .cdc :=
  ⟨⟨sound_of (by decide), by decide, by decide, by decide, sound_of (by decide), by decide⟩, ⟨sound_of (by decide), by decide⟩,
    ⟨sound_of (by decide), by decide⟩, ⟨sound_of (by decide), by decide⟩, by decide⟩

theorem witness_FunctionAndApplicationTurns_cdc :
    let c := sCdc.cfg.cdc
    let v := (sCdc.setBd c.dataInEp .inp .even ⟨statArmed true false, 8, 0x01C0⟩).setBd c.dataOutEp .out .even
      ⟨statArmed true false, 64, 0x0180⟩
    (sCdc.Sound ∧ sCdc.cfg.function = .cdc ∧ (sCdc.bd c.dataInEp .inp (sCdc.nextPar c.dataInEp .inp)).stat.own = false ∧
        (sCdc.bd c.dataOutEp .out (sCdc.nextPar c.dataOutEp .out)).stat.own = false ∧
        (List.replicate 64 (0 : Byte)).length ≤ c.max ∧ c.max < (List.replicate 65 (0 : Byte)).length ∧
        c.serialHeader = some [0xA1, 0x20, 0, 0, 0, 0, 2, 0] ∧
        (sCdc.bd c.notifyEp .inp (sCdc.nextPar c.notifyEp .inp)).stat.own = false) ∧
      (v.Sound ∧ (v.bd c.dataInEp .inp (v.nextPar c.dataInEp .inp)).stat.own = true ∧
        (v.bd c.dataOutEp .out (v.nextPar c.dataOutEp .out)).stat.own = true) ∧
      (List.replicate 64 (0 : Byte)).length ≤ sCdc.cfg.bulkMax ∧ sCdc.cfg.bulkMax < (List.replicate 65 (0 : Byte)).length ∧
      ((1 : Ep), Dir.inp) ∈ functionEps sCdc.cfg ∧ ((0 : Ep), Dir.inp) ∉ functionEps sCdc.cfg ∧ sCdc.validBd 1 .inp .even ∧
      ¬sCdc.validBd 1 .inp .odd :=
  ⟨⟨sound_of (by decide), by decide⟩, ⟨sound_of (by decide), by decide⟩, by decide, by decide, by decide, by decide,
    by unfold State.validBd; decide, by unfold State.validBd; decide⟩

/-- A user-written function's own code: a byte of its RAM and one that is not, a HAL call that it may make and one it may not. -/
theorem witness_FunctionAndApplicationTurns_own :
    let u : State := { s1 with cfg := { s1.cfg with function := .user } }
    u.Sound ∧ u.cfg.function ≠ .msc ∧ s1.cfg.function = .msc ∧
      (∃ x ∈ functionRam u.cfg, x.1 ≤ 0x006F ∧ 0x006F < x.1 + x.2) ∧
      (∀ x ∈ functionRam u.cfg, ¬(x.1 ≤ 0x0070 ∧ 0x0070 < x.1 + x.2)) ∧
      callable u.cfg (.armIn 1 .even true 8) = true ∧ callable u.cfg (.armIn 1 .odd true 8) = false :=
  ⟨sound_of (by decide), by decide, by decide, ⟨(0x0060, 16), by decide⟩, by decide, by decide⟩

/-- Notifications not enabled; enabled with the notification BD owned by the SIE. -/
theorem witness_FunctionAndApplicationTurns_notify :
    let n : State := { State.powerOn { cfgCdc with cdc := { cfgCdc.cdc with serialHeader := none } } with deviceState := .configured }
    let v := sCdc.setBd 2 .inp .even ⟨statArmed true false, 10, 0x0240⟩
    (n.Sound ∧ n.cfg.function = .cdc ∧ n.cfg.cdc.serialHeader = none) ∧
      v.Sound ∧ v.cfg.function = .cdc ∧ (v.bd v.cfg.cdc.notifyEp .inp (v.nextPar v.cfg.cdc.notifyEp .inp)).stat.own = true :=
  ⟨⟨sound_of (by decide), by decide⟩, sound_of (by decide), by decide⟩

theorem witness_RingIsFirstInFirstOut :
    let three : State := { s1 with bot := { botReset with q := List.replicate 3 ⟨.out, .even, 31⟩ } }
    (s1.cfg.function = .msc ∧ (1 : Ep) = s1.cfg.bulkOutEp ∧ three.bot.q.length < 4 ∧ 4 ≤ sFull.bot.q.length) ∧
      (¬((2 : Ep) = s1.cfg.bulkOutEp ∧ Dir.out = .out) ∧ ¬((2 : Ep) = s1.cfg.bulkInEp ∧ Dir.out = .inp)) ∧
      s1.bot.q = [] ∧ three.bot.q = ⟨.out, .even, 31⟩ :: List.replicate 2 ⟨.out, .even, 31⟩ := by decide

theorem witness_CbwValidation :
    let u : State := { s1 with buf := writeBytes 16 [] 0x0180 [0x55, 0x53, 0x42, 0x43] }
    let b := readBytes u.cfg.addrW u.buf (u.bd u.cfg.bulkOutEp .out .even).address 31
    (u.Sound ∧ u.cfg.bulkEpsOk = true ∧ le32 (byteAt b 0) (byteAt b 1) (byteAt b 2) (byteAt b 3) = 0x43425355) ∧ 30 ≠ 31 ∧
      (List.replicate 16 (0 : Byte)).length = 16 := ⟨⟨sound_of (by decide), by decide⟩, by decide⟩

/-- A command whose host length is 512. -/
abbrev sLen : State := { s1 with cbw := List.replicate 9 0 ++ [2] ++ List.replicate 21 0 }

theorem witness_CasesAndFailures : s1.hostLen = 0 ∧ sLen.hostLen ≠ 0 := by decide

theorem witness_ArbitrationOutcome :
    s1.csw.status = .passed ∧ s1.hostLen = 0 ∧ sLen.csw.status = .passed ∧ sLen.hostLen = 512 ∧ sLen.bot.dir = false := by
  decide

theorem witness_DataInStreaming :
    let u : State :=
      { s1 with
        rw := { rwReset with byteOfSector := 448 }
        bot := { botReset with src := .backend, xferRemaining := 512, state := .readData } }
    u.Sound ∧ u.cfg.bulkEpsOk = true ∧ u.bot.src = .backend ∧ u.mediaPresent = true ∧ u.rw.byteOfSector < u.cfg.blockSize ∧
      u.rw.currentLba.toNat + 1 < 2 ^ 32 ∧ s1.bot.src = .resp := ⟨sound_of (by decide), by decide⟩

theorem witness_DataOutStreaming :
    let u : State := { s1 with bot := { botReset with xferRemaining := 64, endAction := .stallThenCsw } }
    (u.Sound ∧ u.cfg.bulkEpsOk = true ∧ 64 ≤ 1023 ∧ u.mediaPresent = true ∧ u.writeProtected = false ∧
        u.bot.xferRemaining - BitVec.ofNat 32 64 = 0 ∧ u.bot.endAction = .stallThenCsw ∧
        u.bot.xferRemaining - BitVec.ofNat 32 63 ≠ 0) ∧ botReset.endAction = .sendCsw :=
  ⟨⟨sound_of (by decide), by decide⟩, by decide⟩

theorem witness_CommandEnd :
    let u : State := { s1 with bot := { botReset with endAction := .stallThenCsw } }
    let v := s1.setBd 1 .inp .even ⟨statArmed true false, 13, 0x01C0⟩
    (s1.Sound ∧ s1.cfg.bulkEpsOk = true ∧ s1.bot.endAction = .sendCsw ∧ (s1.bd 1 .inp (s1.nextPar 1 .inp)).stat.own = false) ∧
      (u.Sound ∧ u.bot.endAction = .stallThenCsw) ∧
      v.Sound ∧ (v.bd v.cfg.bulkInEp .inp (v.nextPar v.cfg.bulkInEp .inp)).stat.own = true :=
  ⟨⟨sound_of (by decide), by decide⟩, ⟨sound_of (by decide), by decide⟩, sound_of (by decide), by decide⟩

/-- A BOT state and a stalled direction. -/
abbrev sBot (st : BotState) (d : Option Dir) : State := { s1 with bot := { botReset with state := st, stalled := d } }

theorem witness_ClearHaltByBotState :
    ((sBot .waitInvalid none).Sound ∧ (1 : Ep) ≠ 0 ∧ (1 : Ep).toNat < s1.cfg.numEp) ∧
      ((sBot .waitIllegal (some .inp)).Sound ∧ (sBot .waitIllegal (some .inp)).bot.stalled = some .inp ∧
        (sBot .waitIllegal (some .inp)).bot.stalled ≠ some .out) ∧
      ((sBot .cbw none).Sound ∧ (1 : Ep) = s1.cfg.bulkOutEp ∧ ¬((1 : Ep) = s1.cfg.bulkOutEp ∧ Dir.inp = .out)) ∧
      (sBot .csw none).Sound ∧ (sBot .csw none).bot.state ≠ .waitInvalid ∧ (sBot .csw none).bot.state ≠ .waitIllegal ∧
      (sBot .csw none).bot.state ≠ .cbw :=
  ⟨⟨sound_of (by decide), by decide⟩, ⟨sound_of (by decide), by decide⟩, ⟨sound_of (by decide), by decide⟩,
    sound_of (by decide), by decide⟩

theorem witness_MscClassRequests :
    let u : State := { s1 with setup := [0x21, 0xFF, 0, 0, 0, 0, 0, 0] }
    let v : State := { s1 with setup := [0xA1, 0xFE, 0, 0, 0, 0, 1, 0] }
    (u.Sound ∧ u.cfg.bulkEpsOk = true ∧ u.cfg.function = .msc ∧ bRequest u.setup = 0xFF) ∧ v.Sound ∧ v.cfg.function = .msc ∧ bRequest v.setup = 0xFE :=
  ⟨⟨sound_of (by decide), by decide⟩, sound_of (by decide), by decide⟩

theorem witness_BotInitReadiesTheBulkEndpoints :
    s1.Sound ∧ (s8.Sound ∧ s8.cfg.bulkEpsOk = true ∧ Parity.odd ∈ parities s8.cfg.ppMode 1 .out ∧ Parity.odd ≠ s8.nextPar 1 .out) :=
  ⟨sound_of (by decide), sound_of (by decide), by decide⟩

theorem witness_ScsiResponses :
    let u : State := { s1 with mediaPresent := false }
    s1.Sound ∧ u.Sound ∧ s1.mediaPresent = true ∧ u.mediaPresent = false ∧ (1 : Word) ≠ 0 ∧
      (List.replicate 36 (0 : Byte)).length = 36 ∧ 36 ≤ 36 := ⟨sound_of (by decide), sound_of (by decide), by decide⟩

theorem witness_ReadAndWriteTen :
    let u : State := { s1 with writeProtected := true }
    let v : State := { s1 with cbw := List.replicate 20 0 ++ [63] ++ List.replicate 2 0 ++ [1] ++ List.replicate 7 0 }
    (s1.Sound ∧ s1.cfg.capacity < (64 : Word).toNat + (1 : Half).toNat ∧
        (64 : Word).toNat + (0 : Half).toNat ≤ s1.cfg.capacity ∧ s1.writeProtected = false) ∧
      (u.Sound ∧ u.writeProtected = true) ∧
      v.Sound ∧ be32 (v.cb 2) (v.cb 3) (v.cb 4) (v.cb 5) = 63 ∧ be16 (v.cb 7) (v.cb 8) = 1 :=
  ⟨⟨sound_of (by decide), by decide⟩, ⟨sound_of (by decide), by decide⟩, sound_of (by decide), by decide⟩

theorem witness_EventTransitions :
    State.reset.deviceState = .detached ∧ s1.deviceState ≠ .detached ∧
      s1.deviceState ∈ [DeviceState.powered, .dflt, .address, .configured] ∧
      State.reset.deviceState ∉ [DeviceState.powered, .dflt, .address, .configured] ∧
      ({ s1 with deviceState := .suspended } : State).deviceState = .suspended ∧ s1.deviceState ≠ .suspended ∧
      s1.cfg.function = .msc ∧ sCdc.cfg.function = .cdc := by decide

theorem witness_BusResetSequence :
    s1.Sound ∧ s1.deviceState ≠ .detached ∧ (1 : Ep).toNat < s1.cfg.numEp ∧ s1.validBd 1 .inp .even :=
  ⟨sound_of (by decide), by decide, by decide, by unfold State.validBd; decide⟩

theorem witness_ResetIsNotAcceptedWhenDetached : State.reset.deviceState = .detached := rfl

theorem witness_PowerOnValues : s1.Sound := sound_of (by decide)

theorem witness_IsrServicesEveryFlag :
    decodeEvent s0.ev = none ∧ decodeEvent sIdle.ev = some .idle ∧ s0.bot.q.length < 4 ∧
      ∃ t, exec .isr sIdle = .next t := ⟨by decide, by decide, by decide, runs_of (by decide)⟩

/-- A token that is heard, and what may stand at the BD that its pointer names. -/
theorem witness_SieTransactions :
    (s0.Sound ∧ s0.listens none 0 .out ∧ s0.sie.pktDisable = false ∧ s0.ev.trn = false ∧ (s0.bd 0 .out .even).stat.own = true ∧
        BdStat.stallBit (s0.bd 0 .out .even).stat = false ∧ BdStat.dten (s0.bd 0 .out .even).stat = true ∧
        false = (s0.bd 0 .out .even).stat.dtv ∧ true ≠ (s0.bd 0 .out .even).stat.dtv ∧
        (List.replicate 8 (0 : Byte)).length ≤ (s0.bd 0 .out .even).count.toNat ∧
        (s0.bd 0 .out .even).count.toNat < (List.replicate 9 (0 : Byte)).length) ∧
      s0.listens (some 0) 0 .inp ∧ (s0.bd 0 .inp .even).stat.own = false :=
  ⟨⟨sound_of (by decide), by unfold State.listens; decide, by decide⟩, by unfold State.listens; decide, by decide⟩

/-- A stalled BD, an armed IN, a completion that is pending, `sie.pkt_disable`, and the tokens that are not heard. -/
theorem witness_SieTransactions_refusals :
    let u := s1.setBd 1 .out .even ⟨statStalled, 64, 0x0180⟩
    let v := s1.setBd 1 .inp .even ⟨statArmed true true, 13, 0x01C0⟩
    let w := s1.setBd 1 .inp .even ⟨statStalled, 13, 0x01C0⟩
    let x : State := { s0 with sie := { s0.sie with pktDisable := true } }
    let y : State := { v with ev := { evReset with trn := true } }
    (u.Sound ∧ u.listens none 1 .out ∧ BdStat.stallBit (u.bd 1 .out .even).stat = true ∧ (u.bd 1 .out .even).stat.own = true) ∧
      (v.Sound ∧ v.listens none 1 .inp ∧ (v.bd 1 .inp .even).stat.own = true ∧ BdStat.stallBit (v.bd 1 .inp .even).stat = false) ∧
      (w.Sound ∧ w.listens none 1 .inp ∧ (w.bd 1 .inp .even).stat.own = true ∧ BdStat.stallBit (w.bd 1 .inp .even).stat = true) ∧
      (x.Sound ∧ x.listens none 0 .out ∧ x.sie.pktDisable = true) ∧
      (y.Sound ∧ y.listens (some 5) 1 .inp ∧ y.listens (some 5) 1 .out ∧ y.ev.trn = true) ∧
      ¬s1.listens (some 6) 1 .out ∧ ¬s1.listens none 2 .inp ∧ ¬s0.listens none 1 .out ∧ ¬State.reset.listens none 0 .out ∧
      ({ s1 with deviceState := .suspended } : State).sie.enable = true :=
  ⟨⟨sound_of (by decide), by unfold State.listens; decide⟩, ⟨sound_of (by decide), by unfold State.listens; decide⟩,
    ⟨sound_of (by decide), by unfold State.listens; decide⟩, ⟨sound_of (by decide), by unfold State.listens; decide⟩,
    ⟨sound_of (by decide), by unfold State.listens; decide⟩, by unfold State.listens; decide⟩

/-- A SETUP that arrives on an EP0 OUT BD armed for 7 bytes. -/
theorem witness_SieTransactions_shortSetup :
    let u := s0.setBd 0 .out .even ⟨statArmed true true, 7, 0x0100⟩
    u.Sound ∧ u.listens none 0 .out ∧ u.sie.pktDisable = false ∧ (u.bd 0 .out .even).stat.own = true ∧ u.ev.trn = false ∧
      (u.bd 0 .out .even).count.toNat < 8 :=
  ⟨sound_of (by decide), by unfold State.listens; decide, by decide⟩

theorem witness_PseudoOperationsRunTheirLines : s1.bot.q.length < 4 ∧ (List.replicate 16 (0 : Byte)).length ≤ 16 := by decide

theorem witness_SetAddressTransferCommitsAfterStatus :
    (s0.Sound ∧ s0.InStep ∧ s0.Ep0OutReady ∧ s0.ev = evReset ∧ s0.deviceState ≠ .suspended ∧ s0.sie.enable = true ∧
        s0.ctrlAt 0 = ⟨true, true, true⟩ ∧ s0.sie.pktDisable = false ∧ 8 ≤ (s0.bd 0 .out (s0.nextPar 0 .out)).count.toNat) ∧
      s8.Sound ∧ s8.InStep ∧ s8.Ep0OutReady ∧ s8.ev = evReset ∧ s8.deviceState ≠ .suspended ∧ s8.sie.enable = true ∧
      s8.ctrlAt 0 = ⟨true, true, true⟩ ∧ s8.sie.pktDisable = false ∧ 8 ≤ (s8.bd 0 .out (s8.nextPar 0 .out)).count.toNat :=
  ⟨⟨sound_of (by decide), inStep_of (by decide), by unfold State.Ep0OutReady State.Ep0OutArmed; decide, by decide⟩,
    sound_of (by decide), inStep_of (by decide), by unfold State.Ep0OutReady State.Ep0OutArmed; decide, by decide⟩

end Sys2Proof.Tests
end

section
/-! The family of the state (10): what a step keeps (O7), and engine and SIE in step (O9). -/

namespace Sys2Proof.Machine

/-- A part of a step keeps device state and attachment in agreement and, from such a state, engine and SIE in step: a
reset flag in DETACHED clears `ev.trn`, which leaves the pointers in step only because none is pending there. -/
def KeepsBusInStep (s t : State) : Prop := (s.BusState → t.BusState) ∧ (s.BusState → s.InStep → t.InStep)

/-- Neither invariant looks at the script. -/
theorem raises_script (s : State) (l : List Turn) : Raises s { s with script := l } :=
  ⟨rfl, rfl, rfl, rfl, rfl, rfl, fun _ _ => ⟨rfl, rfl⟩⟩

theorem Raises.keepsBusInStep {s t : State} (k : Raises s t) : KeepsBusInStep s t := ⟨k.bus, fun _ => k.instep⟩

theorem KeepsBusInStep.trans {s t u : State} (a : KeepsBusInStep s t) (b : KeepsBusInStep t u) : KeepsBusInStep s u :=
  ⟨fun hb => b.1 (a.1 hb), fun hb hi => b.2 (a.1 hb) (a.2 hb hi)⟩

/-- What a step runs: the service of the first flag, the whole `isr()`, the main loop's drain, or a call of software. -/
theorem fetch_cases {s u : State} {i : Instr} (h : fetch s = some (i, u)) :
    decodeEvent u.ev = some i ∨ i = .isr ∨ i = .msdTasks ∨ callable u.cfg i = true := by
  have hu := fetch_script h
  have hev : u.ev = s.ev := by rw [hu]
  have hcfg : u.cfg = s.cfg := by rw [hu]
  rw [hev, hcfg]
  unfold fetch at h
  split at h
  · next j hd =>
    obtain ⟨rfl | rfl, -⟩ := fetchPending_cases h
    · exact .inl hd
    · exact .inr (.inl rfl)
  · exact .inr (.inr (fetchIdle_cases h).1)

/-- The operation that a step fetches keeps both invariants. -/
theorem fetched_keepsBusInStep {s u t : State} {i : Instr} (hf : fetch s = some (i, u)) (h : exec i u = .next t)
    (hs : u.Shaped) : KeepsBusInStep u t := by
  obtain hd | rfl | rfl | hc := fetch_cases hf
  · rw [← (serviceOne_decoded hd).1] at h
    have k := serviceOne_keeps h
    exact ⟨k.1, k.2 hs⟩
  · exact callable_keeps (i := .isr) rfl h hs
  · exact callable_keeps (i := .msdTasks) rfl h hs
  · exact callable_keeps hc h hs

/-- So does the turn of an agent outside the engine. -/
theorem environment_keepsBusInStep {s : State} (hs : s.Shaped) : KeepsBusInStep s (environment s) := by
  unfold environment
  split
  · exact (Raises.refl s).keepsBusInStep
  · next a r _ =>
    have k := applyTurn_keeps a ((keeps_script s r).shaped hs)
    exact (raises_script s r).keepsBusInStep.trans ⟨k.1, fun _ => k.2⟩

/-- A step keeps the agreement of the device states, and with it the parities in step. -/
theorem step_keepsBusInStep {s t : State} (h : step s = .next t) (hs : s.Shaped) : KeepsBusInStep s t := by
  unfold step at h
  split at h
  · next i u hf =>
    have hu := fetch_script hf
    have hr : Raises s u := by rw [hu]; exact raises_script s _
    have hsu : u.Shaped := by rw [hu]; exact (keeps_script s _).shaped hs
    exact hr.keepsBusInStep.trans (fetched_keepsBusInStep hf h hsu)
  · cases h
    exact environment_keepsBusInStep hs

/-- Settles O7: each clause is one that every operation keeps (`step_keeps`). -/
theorem stepKeepsShapeAndConfiguration : Obligations.StepKeepsShapeAndConfiguration := by
  intro s t h
  have k := step_keeps s t h
  exact ⟨k.cfg, k.shaped, k.canonical, k.ep0, k.addr⟩

/-- Settles O9: engine and SIE move a direction's parity together, the SIE at a completion and the engine at its
service, and the latch names the one direction in between. -/
theorem stepKeepsParityInStep : Obligations.StepKeepsParityInStep :=
  fun _ _ hs hb hi h => (step_keepsBusInStep h hs).2 hb hi

end Sys2Proof.Machine
end

section
/-! The family of the memory (20): how `bd_index` numbers the table (O14). -/

namespace Sys2Proof.Machine

theorem mem_parities_iff {m : PpMode} {ep : Ep} {dir : Dir} {par : Parity} :
    par ∈ parities m ep dir ↔ par = .even ∨ pp m ep dir = true := by
  unfold parities
  cases pp m ep dir <;> cases par <;> simp

theorem other_of_ne {p q : Parity} (h : p ≠ q) : p = q.other := by
  cases p <;> cases q <;> simp [Parity.other] at h ⊢

/-- Two valid triples at one place are one triple (20 R80). -/
theorem bdIndex_inj {m : PpMode} {e ep : Ep} {d dir : Dir} {p par : Parity} (hp : p ∈ parities m e d)
    (hpar : par ∈ parities m ep dir) (h : bdIndex m e d p = bdIndex m ep dir par) : e = ep ∧ d = dir ∧ p = par := by
  obtain ⟨rfl, rfl⟩ := bdIndex_ep_dir h
  refine ⟨rfl, rfl, ?_⟩
  by_contra hne
  rw [mem_parities_iff] at hp hpar
  have hpp : pp m e d = true := by
    rcases hp with rfl | hp
    · exact hpar.resolve_left (Ne.symm hne)
    · exact hp
  rw [other_of_ne hne] at h
  exact bdIndex_par hpp par h.symm

theorem exists_dirBit {n : Nat} (h : n < 2) : ∃ dir, dirBit dir = n := by
  obtain rfl | rfl : n = 0 ∨ n = 1 := by omega
  exacts [⟨.out, rfl⟩, ⟨.inp, rfl⟩]

theorem exists_parBit {n : Nat} (h : n < 2) : ∃ par, parBit par = n := by
  obtain rfl | rfl : n = 0 ∨ n = 1 := by omega
  exacts [⟨.even, rfl⟩, ⟨.odd, rfl⟩]

theorem exists_ep {n : Nat} (h : n < 16) : ∃ ep : Ep, ep.toNat = n := ⟨BitVec.ofNat 4 n, Nat.mod_eq_of_lt h⟩

theorem ep_ne_zero_of_toNat {ep : Ep} (h : 0 < ep.toNat) : ep ≠ 0 := by
  rintro rfl
  exact absurd h (by decide)

/-- Place `i` belongs to the valid triple whose endpoint, direction and parity are the quotient and the remainders of `i`
in the mode's formula (20 R80). -/
theorem bdIndex_surj (m : PpMode) {n i : Nat} (hn : 1 ≤ n) (h16 : n ≤ 16) (hi : i < bdtEntries m n) :
    ∃ (ep : Ep) (dir : Dir) (par : Parity), ep.toNat < n ∧ par ∈ parities m ep dir ∧ bdIndex m ep dir par = i := by
  cases m with
  | none =>
    simp only [bdtEntries] at hi
    obtain ⟨ep, hep⟩ := exists_ep (n := i / 2) (by omega)
    obtain ⟨dir, hdir⟩ := exists_dirBit (n := i % 2) (by omega)
    refine ⟨ep, dir, .even, by omega, mem_parities_iff.2 (.inl rfl), ?_⟩
    simp only [bdIndex]
    omega
  | all =>
    simp only [bdtEntries] at hi
    obtain ⟨ep, hep⟩ := exists_ep (n := i / 4) (by omega)
    obtain ⟨dir, hdir⟩ := exists_dirBit (n := i / 2 % 2) (by omega)
    obtain ⟨par, hpar⟩ := exists_parBit (n := i % 2) (by omega)
    refine ⟨ep, dir, par, by omega, mem_parities_iff.2 (.inr rfl), ?_⟩
    simp only [bdIndex]
    omega
  | ep0OutOnly =>
    simp only [bdtEntries] at hi
    obtain hlo | rfl | hhi : i < 2 ∨ i = 2 ∨ 3 ≤ i := by omega
    · obtain ⟨par, hpar⟩ := exists_parBit hlo
      exact ⟨0, .out, par, hn, mem_parities_iff.2 (.inr rfl), hpar⟩
    · exact ⟨0, .inp, .even, hn, mem_parities_iff.2 (.inl rfl), rfl⟩
    · obtain ⟨ep, hep⟩ := exists_ep (n := (i - 1) / 2) (by omega)
      obtain ⟨dir, hdir⟩ := exists_dirBit (n := (i - 1) % 2) (by omega)
      refine ⟨ep, dir, .even, by omega, mem_parities_iff.2 (.inl rfl), ?_⟩
      simp only [bdIndex, if_neg (ep_ne_zero_of_toNat (ep := ep) (by omega))]
      omega
  | allNonzero =>
    simp only [bdtEntries] at hi
    obtain hlo | hhi : i < 2 ∨ 2 ≤ i := by omega
    · obtain ⟨dir, hdir⟩ := exists_dirBit hlo
      exact ⟨0, dir, .even, hn, mem_parities_iff.2 (.inl rfl), hdir⟩
    · obtain ⟨ep, hep⟩ := exists_ep (n := (i + 2) / 4) (by omega)
      obtain ⟨dir, hdir⟩ := exists_dirBit (n := (i + 2) / 2 % 2) (by omega)
      obtain ⟨par, hpar⟩ := exists_parBit (n := i % 2) (by omega)
      have h0 : ep ≠ 0 := ep_ne_zero_of_toNat (by omega)
      refine ⟨ep, dir, par, by omega, mem_parities_iff.2 (.inr (by simpa [pp] using h0)), ?_⟩
      simp only [bdIndex, if_neg h0]
      omega

/-- Settles O14: the formulas are the definition's; bound, surjectivity and injectivity are lemmas of their own. -/
theorem bdIndexNumbersTheTable : Obligations.BdIndexNumbersTheTable := by
  unfold Obligations.BdIndexNumbersTheTable
  refine ⟨fun ep dir par => ?_, fun m n hn h16 => ⟨fun ep dir par hep hpar => ?_, fun i hi => ?_, ?_⟩⟩
  · cases dir <;> cases par <;> exact ⟨rfl, rfl, rfl, rfl⟩
  · exact bdIndex_lt hep (mem_parities_iff.1 hpar)
  · exact bdIndex_surj m hn h16 hi
  · exact fun _ _ _ _ _ _ => bdIndex_inj

end Sys2Proof.Machine
end

section
/-! The SIE's transactions (20 R86 to R97; O58): each token by cases of its guards, then the host's toggle. -/

namespace Sys2Proof.Machine

section Token

variable {s : State} {addr : Option DevAddr} {ep : Ep} {dir : Dir} {tog ack : Bool} {b : List Byte}

theorem not_hears (h : ¬s.listens addr ep dir) : s.hears addr ep dir = false := by
  rwa [← hears_iff, Bool.not_eq_true] at h

theorem mute_eq_true :
    s.mute ep dir = true ↔ s.sie.pktDisable = true ∨ (s.bd ep dir (s.siePar ep dir)).stat.own = false := by
  unfold State.mute
  cases s.sie.pktDisable <;> simp

/-! The flag of a token on a suspended device. -/

theorem wake_eq (s : State) :
    wake s = if s.sie.enable ∧ s.deviceState = .suspended then { s with ev := { s.ev with activity := true } } else s := by
  simp [wake]

/-- Only flags change, and not `ev.trn`. -/
theorem wake_rest (s : State) : ∃ e, wake s = { s with ev := e } ∧ e.trn = s.ev.trn :=
  ⟨(wake s).ev, by unfold wake; split <;> rfl, wake_trn s⟩

theorem State.Sound.withFlags (hs : s.Sound) (e : Events) : ({ s with ev := e } : State).Sound :=
  ⟨hs.cfg, shaped_of hs.shaped rfl rfl rfl rfl rfl rfl rfl rfl hs.shaped.ring,
    ⟨hs.canonical.buf, hs.canonical.ram, hs.canonical.media⟩⟩

/-! The host's toggle. -/

theorem hostAfterOut_eq (t : State) :
    hostAfterOut ep tog t =
      { t with hostTog := if t.wire = .ack then (if ep = t.cfg.bulkOutEp then !tog else t.hostTog) else t.hostTog } := by
  unfold hostAfterOut
  by_cases he : ep = t.cfg.bulkOutEp
  · simp only [he, true_and, if_true]
    split <;> rfl
  · simp only [he, false_and, if_false, ite_self]

theorem hostAfterOut_answer {a : Answer} (ha : a ≠ .ack) : hostAfterOut ep tog (answer a s) = { s with wire := a } := by
  rw [hostAfterOut_eq, if_neg (show (answer a s).wire ≠ .ack from ha)]
  rfl

theorem hostAfterIn_answer {a : Answer} (ha : gotData a = false) :
    hostAfterIn ep ack (answer a s) = { s with wire := a } := by
  simp [hostAfterIn, answer, ha]

theorem hostAfterIn_unacknowledged (t : State) : hostAfterIn ep false t = t := by
  simp [hostAfterIn]

theorem hostAfterIn_data {t : State} (h : gotData t.wire = true) :
    hostAfterIn ep true t =
      { t with
        hostTog := if ep = 0 ∧ t.stage = .statusIn ∧ hostRestarts t.cfg t.setup = true then false else t.hostTog } := by
  unfold hostAfterIn
  simp only [h, true_and]
  split <;> rfl

/-- The host's toggle is no part of a completion. -/
theorem Completes.withHostTog {t : State} {par : Parity} {pid : BitVec 4} {n : Nat} {pkt : Bool} {w : Answer}
    (k : Completes ep dir par pid n pkt w s t) (x : Bool) :
    Completes ep dir par pid n pkt w s { t with hostTog := x } :=
  ⟨k.own, k.pid, k.count, k.address, k.bds, k.ptr, k.ptrs, congrArg (fun u : State => { u with hostTog := x }) k.rest⟩

/-! A transaction that completes. -/

theorem complete_rest (bd : Bd) :
    complete ep dir bd s =
      { s with
        bdt := (complete ep dir bd s).bdt
        sie := (complete ep dir bd s).sie
        ev := { s.ev with trn := true }
        free := s.free + 1 } := by
  unfold complete flipPtr
  dsimp only
  split <;> rfl

theorem complete_answer (w : Answer) (bd : Bd) : complete ep dir bd (answer w s) = answer w (complete ep dir bd s) := by
  unfold complete flipPtr
  show (if s.pp ep dir = true then _ else _) = answer w (if s.pp ep dir = true then _ else _)
  split <;> rfl

/-- A completion leaves `sie.pkt_disable`. -/
theorem answer_complete (w : Answer) (bd : Bd) :
    answer w (complete ep dir bd s) =
      { complete ep dir bd s with wire := w, sie := { (complete ep dir bd s).sie with pktDisable := s.sie.pktDisable } } := by
  unfold complete flipPtr
  dsimp only
  split <;> rfl

/-- Reception is the bytes stored and a completion (20 R90, R91). -/
theorem receive_eq (pid : BitVec 4) :
    receive ep pid b s =
      complete ep .out
        ⟨statWritten (Config.writeBackBit6 s.free) pid, BitVec.ofNat 10 b.length,
          (s.bd ep .out (s.siePar ep .out)).address⟩
        { s with buf := writeBytes s.cfg.addrW s.buf (s.bd ep .out (s.siePar ep .out)).address b } := rfl

theorem receive_completes (hs : s.Sound) (hep : ep.toNat < s.cfg.numEp) (pid : BitVec 4) (pkt : Bool) :
    Completes ep .out (s.siePar ep .out) pid b.length pkt .ack s
      { receive ep pid b s with wire := .ack, sie := { (receive ep pid b s).sie with pktDisable := pkt } } := by
  rw [receive_eq]
  refine complete_completes hs.shaped ep .out hep _ _ pid b.length .ack ?_ ?_ ?_ ?_ ?_ pkt
  · rfl
  · rfl
  · exact statWritten_pid _ _
  · rfl
  · rfl

theorem answer_receive (w : Answer) (pid : BitVec 4) :
    answer w (receive ep pid b s) =
      { receive ep pid b s with wire := w, sie := { (receive ep pid b s).sie with pktDisable := s.sie.pktDisable } } := by
  rw [receive_eq, answer_complete]

theorem receive_buf (pid : BitVec 4) :
    (receive ep pid b s).buf = writeBytes s.cfg.addrW s.buf (s.bd ep .out (s.siePar ep .out)).address b := by
  rw [receive_eq, complete_rest]

theorem receive_holds (hs : s.Sound) (hb : b.length ≤ (s.bd ep .out (s.siePar ep .out)).count.toNat) (pid : BitVec 4) :
    HoldsAt s.cfg.addrW (s.bd ep .out (s.siePar ep .out)).address b s.buf (receive ep pid b s).buf := by
  rw [receive_buf]
  have hc := (s.bd ep .out (s.siePar ep .out)).count.isLt
  have ha := hs.addrs
  exact writeBytes_holds _ _ hs.canonical.buf (by omega)

theorem receive_host (pid : BitVec 4) :
    (receive ep pid b s).cfg = s.cfg ∧ (receive ep pid b s).hostTog = s.hostTog := by
  rw [receive_eq, complete_rest]
  exact ⟨rfl, rfl⟩

/-- A packet too long for its BD: `ev.error`, an answer, one BD and bytes of one buffer written, nothing completed
(20 R95); `host` is the host's toggle after it. -/
def Overruns (ep : Ep) (n : Nat) (host : Bool) (s t : State) : Prop :=
  (t =
    { s with
      ev := { s.ev with error := true }
      bdt := t.bdt
      buf := t.buf
      wire := t.wire
      hostTog := host
      free := t.free }) ∧
  SameBdsBut ep .out (s.siePar ep .out) s t ∧
  SameBytesBut s.cfg.addrW (s.bd ep .out (s.siePar ep .out)).address n s.buf t.buf

/-- The model's overrun is that (20 R95, log 7). -/
theorem overrun_overruns (hs : s.Sound) (n : Nat) : Overruns ep n s.hostTog s (overrun ep n s) :=
  ⟨rfl, fun _ _ _ hne => State.bd_setBd_of_ne _ hne, fun k hk =>
    memRead_writeBytes_other _ _ _ _ _ hs.canonical.buf (by simpa using hk)⟩

end Token

/-! OUT (20 R88, R90, R93 to R95) and what the host does after it. -/

section Out

variable {s : State} {addr : Option DevAddr} {ep : Ep} {tog : Bool} {b : List Byte}

theorem outLine_unheard (hl : ¬s.listens addr ep .out) :
    hostAfterOut ep tog (outToken addr ep tog b s) = { s with wire := .none } := by
  have e : outToken addr ep tog b s = answer .none s := by simp [outToken, not_hears hl]
  rw [e, hostAfterOut_answer (by decide)]

variable (hs : s.Sound) (hl : s.listens addr ep .out)

include hl

theorem outLine_mute (hm : s.mute ep .out = true) :
    hostAfterOut ep tog (outToken addr ep tog b s) = { s with wire := .nak } := by
  have e : outToken addr ep tog b s = answer .nak s := by simp [outToken, hears_iff.2 hl, hm]
  rw [e, hostAfterOut_answer (by decide)]

variable (hm : s.mute ep .out = false)

include hm

theorem outLine_stalled (hb : BdStat.stallBit (s.bd ep .out (s.siePar ep .out)).stat = true) :
    hostAfterOut ep tog (outToken addr ep tog b s) = { s with wire := .stall } := by
  have e : outToken addr ep tog b s = answer .stall s := by simp [outToken, hears_iff.2 hl, hm, hb]
  rw [e, hostAfterOut_answer (by decide)]

variable (hb : BdStat.stallBit (s.bd ep .out (s.siePar ep .out)).stat = false)

include hb

theorem outLine_repeated (hd : BdStat.dten (s.bd ep .out (s.siePar ep .out)).stat = true)
    (ht : tog ≠ (s.bd ep .out (s.siePar ep .out)).stat.dtv) :
    hostAfterOut ep tog (outToken addr ep tog b s) =
      { s with wire := .ack, hostTog := if ep = s.cfg.bulkOutEp then !tog else s.hostTog } := by
  have e : outToken addr ep tog b s = answer .ack s := by simp [outToken, hears_iff.2 hl, hm, hb, hd, ht]
  rw [e, hostAfterOut_eq]
  rfl

variable (hd : BdStat.dten (s.bd ep .out (s.siePar ep .out)).stat = true →
  tog = (s.bd ep .out (s.siePar ep .out)).stat.dtv)

include hd

/-- Past the tests of the BD, a pending completion and the length decide. -/
theorem outToken_fresh :
    outToken addr ep tog b s =
      if s.ev.trn = true then answer .nak s
      else if b.length ≤ (s.bd ep .out (s.siePar ep .out)).count.toNat then answer .ack (receive ep pidOut b s)
      else overrun ep b.length s := by
  have hf : ¬((BdStat.dten (s.bd ep .out (s.siePar ep .out)).stat &&
      tog != (s.bd ep .out (s.siePar ep .out)).stat.dtv) = true) := by
    simpa using hd
  simp only [outToken, hears_iff.2 hl, hm, hb, hf, Bool.true_eq_false, Bool.false_eq_true, if_false]

theorem outLine_pending (ht : s.ev.trn = true) :
    hostAfterOut ep tog (outToken addr ep tog b s) = { s with wire := .nak } := by
  rw [outToken_fresh hl hm hb hd, if_pos ht, hostAfterOut_answer (by decide)]

include hs

theorem outLine_completes (ht : s.ev.trn = false)
    (hn : b.length ≤ (s.bd ep .out (s.siePar ep .out)).count.toNat) :
    Completes ep .out (s.siePar ep .out) pidOut b.length false .ack s
        (hostAfterOut ep tog (outToken addr ep tog b s)) ∧
      HoldsAt s.cfg.addrW (s.bd ep .out (s.siePar ep .out)).address b s.buf
        (hostAfterOut ep tog (outToken addr ep tog b s)).buf ∧
      (hostAfterOut ep tog (outToken addr ep tog b s)).hostTog = (if ep = s.cfg.bulkOutEp then !tog else s.hostTog) := by
  obtain ⟨hp, -⟩ := mute_eq_false.1 hm
  have e : outToken addr ep tog b s = answer .ack (receive ep pidOut b s) := by
    rw [outToken_fresh hl hm hb hd, if_neg (by simp [ht]), if_pos hn]
  have k : Completes ep .out (s.siePar ep .out) pidOut b.length false .ack s (answer .ack (receive ep pidOut b s)) := by
    rw [answer_receive, hp]
    exact receive_completes hs hl.2.2.1 pidOut false
  obtain ⟨hc, hh⟩ := receive_host (s := s) (ep := ep) (b := b) pidOut
  rw [e, hostAfterOut_eq]
  refine ⟨k.withHostTog _, receive_holds hs hn pidOut, ?_⟩
  simp [answer, hc, hh]

theorem outLine_overruns (ht : s.ev.trn = false)
    (hn : (s.bd ep .out (s.siePar ep .out)).count.toNat < b.length) :
    let t := hostAfterOut ep tog (outToken addr ep tog b s)
    Overruns ep b.length
      (if t.wire = .ack then (if ep = s.cfg.bulkOutEp then !tog else s.hostTog) else s.hostTog) s t := by
  have e : outToken addr ep tog b s = overrun ep b.length s := by
    rw [outToken_fresh hl hm hb hd, if_neg (by simp [ht]), if_neg (Nat.not_le.2 hn)]
  obtain ⟨-, hbd, hbuf⟩ := overrun_overruns (ep := ep) hs b.length
  rw [e, hostAfterOut_eq]
  exact ⟨rfl, hbd, hbuf⟩

end Out

/-! IN (20 R88, R92, R93) and what the host does after it. -/

section Inp

variable {s : State} {addr : Option DevAddr} {ep : Ep}

theorem inLine_unheard (hl : ¬s.listens addr ep .inp) (ack : Bool) :
    hostAfterIn ep ack (inToken addr ep ack s) = { s with wire := .none } := by
  have e : inToken addr ep ack s = answer .none s := by simp [inToken, not_hears hl]
  rw [e, hostAfterIn_answer rfl]

variable (hs : s.Sound) (hl : s.listens addr ep .inp)

include hl

theorem inLine_mute (hm : s.mute ep .inp = true) (ack : Bool) :
    hostAfterIn ep ack (inToken addr ep ack s) = { s with wire := .nak } := by
  have e : inToken addr ep ack s = answer .nak s := by simp [inToken, hears_iff.2 hl, hm]
  rw [e, hostAfterIn_answer rfl]

variable (hm : s.mute ep .inp = false)

include hm

theorem inLine_stalled (hb : BdStat.stallBit (s.bd ep .inp (s.siePar ep .inp)).stat = true) (ack : Bool) :
    hostAfterIn ep ack (inToken addr ep ack s) = { s with wire := .stall } := by
  have e : inToken addr ep ack s = answer .stall s := by simp [inToken, hears_iff.2 hl, hm, hb]
  rw [e, hostAfterIn_answer rfl]

variable (hb : BdStat.stallBit (s.bd ep .inp (s.siePar ep .inp)).stat = false)

include hb

theorem inLine_pending (ht : s.ev.trn = true) (ack : Bool) :
    hostAfterIn ep ack (inToken addr ep ack s) = { s with wire := .nak } := by
  have e : inToken addr ep ack s = answer .nak s := by simp [inToken, hears_iff.2 hl, hm, hb, ht]
  rw [e, hostAfterIn_answer rfl]

theorem inLine_unacknowledged (ht : s.ev.trn = false) :
    let i := s.bd ep .inp (s.siePar ep .inp)
    hostAfterIn ep false (inToken addr ep false s) =
      { s with wire := .data i.stat.dtv (readBytes s.cfg.addrW s.buf i.address i.count.toNat) } := by
  rw [hostAfterIn_unacknowledged]
  simp [inToken, hears_iff.2 hl, hm, hb, ht, answer]

theorem inToken_acknowledged (ht : s.ev.trn = false) :
    let i := s.bd ep .inp (s.siePar ep .inp)
    inToken addr ep true s =
      answer (.data i.stat.dtv (readBytes s.cfg.addrW s.buf i.address i.count.toNat))
        (complete ep .inp ⟨statWritten (Config.writeBackBit6 s.free) pidIn, i.count, i.address⟩ s) := by
  intro i
  rw [← complete_answer]
  simp [inToken, hears_iff.2 hl, hm, hb, ht, i]

include hs

theorem inLine_completes (ht : s.ev.trn = false) :
    let i := s.bd ep .inp (s.siePar ep .inp)
    let t := hostAfterIn ep true (inToken addr ep true s)
    Completes ep .inp (s.siePar ep .inp) pidIn i.count.toNat false
        (.data i.stat.dtv (readBytes s.cfg.addrW s.buf i.address i.count.toNat)) s t ∧
      t.buf = s.buf ∧
      t.hostTog =
        (if ep = 0 ∧ s.stage = .statusIn ∧ hostRestarts s.cfg s.setup = true then false else s.hostTog) := by
  intro i t
  obtain ⟨hp, -⟩ := mute_eq_false.1 hm
  have e : t = _ := congrArg (hostAfterIn ep true) (inToken_acknowledged hl hm hb ht)
  rw [e, hostAfterIn_data rfl]
  refine ⟨Completes.withHostTog ?_ _, ?_, ?_⟩
  · rw [answer_complete, hp]
    refine complete_completes hs.shaped ep .inp hl.2.2.1 _ s pidIn i.count.toNat _ rfl ?_ ?_ ?_ ?_ false
    · rfl
    · exact statWritten_pid _ _
    · simp [i]
    · rfl
  · rw [complete_rest]; rfl
  · rw [complete_rest]; rfl

end Inp

/-! SETUP (20 R91, 70 R449). -/

section Setup

variable {s : State} {addr : Option DevAddr} {b : List Byte}

theorem setupToken_dropped
    (h : ¬s.listens addr 0 .out ∨ s.sie.pktDisable = true ∨ (s.bd 0 .out (s.siePar 0 .out)).stat.own = false ∨
      s.ev.trn = true) :
    setupToken addr b s = { s with wire := .none } := by
  rw [← or_assoc (a := s.sie.pktDisable = true), ← mute_eq_true, ← hears_iff, Bool.not_eq_true] at h
  rw [setupToken, if_pos h]
  rfl

variable (hs : s.Sound) (hl : s.listens addr 0 .out) (hm : s.mute 0 .out = false) (ht : s.ev.trn = false)

include hl hm ht

/-- A packet that is taken is stored whole, or too long for its BD. -/
theorem setupToken_taken :
    setupToken addr b s =
      if (s.bd 0 .out (s.siePar 0 .out)).count.toNat < 8 then overrun 0 8 s
      else
        answer .ack
          { receive 0 pidSetup (fit 8 b) s with
            sie := { (receive 0 pidSetup (fit 8 b) s).sie with pktDisable := true } } := by
  rw [setupToken, if_neg (by rw [hears_iff.2 hl, hm, ht]; decide)]

include hs

theorem setupToken_completes (hb : b.length = 8) (hn : 8 ≤ (s.bd 0 .out (s.siePar 0 .out)).count.toNat) :
    Completes 0 .out (s.siePar 0 .out) pidSetup 8 true .ack s (setupToken addr b s) ∧
      HoldsAt s.cfg.addrW (s.bd 0 .out (s.siePar 0 .out)).address b s.buf (setupToken addr b s).buf ∧
      (setupToken addr b s).hostTog = s.hostTog := by
  have e : setupToken addr b s =
      answer .ack { receive 0 pidSetup b s with sie := { (receive 0 pidSetup b s).sie with pktDisable := true } } := by
    rw [setupToken_taken hl hm ht, if_neg (Nat.not_lt.2 hn), fit_self hb]
  have k := receive_completes (b := b) hs hl.2.2.1 pidSetup true
  rw [hb] at k
  rw [e]
  exact ⟨k, receive_holds hs (hb ▸ hn) pidSetup, (receive_host pidSetup).2⟩

theorem setupToken_overruns (hn : (s.bd 0 .out (s.siePar 0 .out)).count.toNat < 8) :
    Overruns 0 8 s.hostTog s (setupToken addr b s) := by
  rw [setupToken_taken hl hm ht, if_pos hn]
  exact overrun_overruns hs 8

end Setup

/-- Settles O58: a token runs on the woken state, which differs from the state before by flags alone, and each clause is
the lemma of its guard. -/
theorem sieTransactions : Obligations.SieTransactions := by
  unfold Obligations.SieTransactions
  intro s addr ep tog b hs v po pi o i out inp setup moved
  have hv : v = wake s := (wake_eq s).symm
  have hout : out = hostAfterOut ep tog (outToken addr ep tog b v) := hv ▸ rfl
  have hinp : inp = fun ack => hostAfterIn ep ack (inToken addr ep ack v) := hv ▸ rfl
  have hsetup : setup = setupToken addr b v := hv ▸ rfl
  obtain ⟨e, he, ht⟩ := wake_rest s
  rw [he] at hv
  clear_value v out inp setup
  subst hv hout hinp hsetup
  beta_reduce
  have hu := hs.withFlags e
  refine ⟨fun hl => outLine_unheard hl, fun hl => ⟨fun hm => outLine_mute hl (mute_eq_true.2 hm), fun hp ho => ?_⟩,
    fun hl => inLine_unheard hl, fun hl => ⟨fun hm => inLine_mute hl (mute_eq_true.2 hm), fun hp ho => ?_⟩, ?_, rfl, rfl⟩
  · have hm := mute_eq_false.2 ⟨hp, ho⟩
    exact ⟨fun hb => outLine_stalled hl hm hb, fun hb hd h => outLine_repeated hl hm hb hd h, fun hb hd =>
      ⟨fun h => outLine_pending hl hm hb hd (ht.trans h), fun h => outLine_completes hu hl hm hb hd (ht.trans h),
        fun h => outLine_overruns hu hl hm hb hd (ht.trans h)⟩⟩
  · have hm := mute_eq_false.2 ⟨hp, ho⟩
    refine ⟨fun hb => inLine_stalled hl hm hb, fun hb => ⟨fun h => inLine_pending hl hm hb (ht.trans h), fun h => ?_⟩⟩
    obtain ⟨hc, hbuf, hh⟩ := inLine_completes hu hl hm hb (ht.trans h)
    exact ⟨hc, hbuf, hh, inLine_unacknowledged hl hm hb (ht.trans h)⟩
  · rintro rfl
    exact ⟨fun h => setupToken_dropped (by rwa [← ht] at h),
      fun hl hp ho h => setupToken_completes hu hl (mute_eq_false.2 ⟨hp, ho⟩) (ht.trans h),
      fun hl hp ho h => setupToken_overruns hu hl (mute_eq_false.2 ⟨hp, ho⟩) (ht.trans h)⟩

end Sys2Proof.Machine
end

section
/-! The family of the encoding (30): decoding undoes encoding, and what is decoded has a word (O1). -/

namespace Sys2Proof.Laws.RoundTrip

open Sys2Proof Sys2Proof.Machine

/-- The round trip of each row: a row without a word has none to decode. -/
theorem statement_holds : ∀ i, Statement i
  | .isr => isr
  | .attach => attach
  | .detach => detach
  | .reset => reset
  | .idle => idle
  | .activity => activity
  | .sof => sof
  | .error => error
  | .trn => trn
  | .ep0Setup par => ep0Setup par
  | .ep0OutData par n => ep0OutData par n
  | .ep0OutStatus => ep0OutStatus
  | .ep0OutEarlyStatus => ep0OutEarlyStatus
  | .ep0OutStray => ep0OutStray
  | .ep0InData => ep0InData
  | .ep0InStatus => ep0InStatus
  | .ep0InStray => ep0InStray
  | .epnCompletion ep dir par n => epnCompletion ep dir par n
  | .epOutOfRange ep => epOutOfRange ep
  | .vendorRequest => vendorRequest
  | .reservedTypeRequest => reservedTypeRequest
  | .getStatusDevice => getStatusDevice
  | .getStatusInterface iface => getStatusInterface iface
  | .getStatusEndpoint ep dir => getStatusEndpoint ep dir
  | .getStatusOther => getStatusOther
  | .clearFeatureDevice sel => clearFeatureDevice sel
  | .clearFeatureEndpoint sel ep dir => clearFeatureEndpoint sel ep dir
  | .clearFeatureOther => clearFeatureOther
  | .reservedRequest2 => reservedRequest2
  | .setFeatureDevice sel => setFeatureDevice sel
  | .setFeatureEndpoint sel ep dir => setFeatureEndpoint sel ep dir
  | .setFeatureOther => setFeatureOther
  | .reservedRequest4 => reservedRequest4
  | .setAddress a => setAddress a
  | .getDescriptor dtype didx => getDescriptor dtype didx
  | .setDescriptor => setDescriptor
  | .getConfiguration => getConfiguration
  | .setConfiguration v => setConfiguration v
  | .getInterface iface => getInterface iface
  | .setInterface alt iface => setInterface alt iface
  | .syncFrame => syncFrame
  | .reservedRequest13To255 code => reservedRequest13To255 code
  | .classRequest => classRequest
  | .getDescriptorDevice => getDescriptorDevice
  | .getDescriptorConfiguration didx => getDescriptorConfiguration didx
  | .getDescriptorString didx => getDescriptorString didx
  | .getDescriptorClassOrUnknown => getDescriptorClassOrUnknown
  | .setConfigurationZero => setConfigurationZero
  | .setConfigurationNonzero v => setConfigurationNonzero v
  | .bomsr => bomsr
  | .getMaxLun => getMaxLun
  | .mscClassOther => mscClassOther
  | .cdcSetLineCoding => cdcSetLineCoding
  | .cdcGetLineCoding => cdcGetLineCoding
  | .cdcSetControlLineState dtr rts => cdcSetControlLineState dtr rts
  | .cdcSendEncapsulatedCommand => cdcSendEncapsulatedCommand
  | .cdcGetEncapsulatedResponse => cdcGetEncapsulatedResponse
  | .hidGetReport rtype rid => hidGetReport rtype rid
  | .hidSetReport rtype rid => hidSetReport rtype rid
  | .hidGetIdle rid => hidGetIdle rid
  | .hidSetIdle duration rid => hidSetIdle duration rid
  | .hidGetProtocol => hidGetProtocol
  | .hidSetProtocol => hidSetProtocol
  | .reclaim ep dir par => reclaim ep dir par
  | .armOut ep par tog n => armOut ep par tog n
  | .armIn ep par tog n => armIn ep par tog n
  | .stall ep dir par => stall ep dir par
  | .botCbwReceived par n => botCbwReceived par n
  | .botDataOutChunk par n => botDataOutChunk par n
  | .botDataInNext => botDataInNext
  | .botDataInEnd => botDataInEnd
  | .botCswSent => botCswSent
  | .botStaleEntry => botStaleEntry
  | .cbwValid w => cbwValid w
  | .cbwInvalid => cbwInvalid
  | .botCase1 => botCase1
  | .botCase2 => botCase2
  | .botCase3 => botCase3
  | .botCase4 => botCase4
  | .botCase5 d src => botCase5 d src
  | .botCase6 d src => botCase6 d src
  | .botCase7 src => botCase7 src
  | .botCase8 => botCase8
  | .botCase9 => botCase9
  | .botCase10 => botCase10
  | .botCase11 d => botCase11 d
  | .botCase12 d => botCase12 d
  | .botCase13 => botCase13
  | .testUnitReady => testUnitReady
  | .requestSense alloc => requestSense alloc
  | .inquiry => inquiry
  | .modeSense6 => modeSense6
  | .readCapacity10 lba pmi => readCapacity10 lba pmi
  | .read10 lba len => read10 lba len
  | .write10 lba len => write10 lba len
  | .scsiUnknownOpcode => scsiUnknownOpcode
  | .powerOnInit | .ep0Dispatch _ _ _ _ | .typeDispatch | .classDispatch | .standardDispatch | .startDataIn _ _ _
  | .dataInNext | .startDataOut _ _ | .dataOutStep _ _ | .statusComplete | .hookClassRequest
  | .hookGetClassDescriptor | .hookInit | .hookTasks _ _ _ _ | .hookClearHalt _ _ _ | .hookSetInterface _ _
  | .hookGetInterface _ | .hookOutControlFinished | .hookInterfaceEndpoints _ | .armStatusIn | .rearmOut _ _ _ _
  | .rearmIn _ _ _ _ | .stallEp _ _ | .requestError | .unstallEp _ _ | .noteCompletion _ _ _ | .ppReset
  | .ep0ArmSetup | .ep0ArmStatusOut | .ep0ArmDataOut | .ep0SendIn _ | .bulkArmOut _ | .bulkArmIn _ | .msdTasks
  | .botEnqueue _ _ _ _ | .arbitrate _ _ _ | .startIn _ _ _ | .startOut _ _ | .stallAndWait _ | .sendInChunk
  | .endOfDataIn | .dataOutChunk _ _ | .sendCsw | .cswComplete | .failCommand _ _ _ _ | .phaseFail
  | .botClearHalt _ _ _ | .botInit | .cswWrapper | .scsiDispatch | .respond _ _ | .senseOnComplete | .rwParse
  | .pseudoClearHalt _ | .pseudoSetHalt _ | .bomsrSeq | .setAddressSeq _ | .setConfigSeq _ | .cbwSeq _ _ _ _ =>
    statement_of_none fun _ => rfl

/-! What each format's decoder answers has a word (30 R148). -/

/-- The instruction has a word. -/
def HasWord (c : Config) (i : Instr) : Prop := ∃ w, encode c i = some w

section Formats

variable {c : Config} {i : Instr}

theorem decodeEvent_hasWord {e : Events} (h : decodeEvent e = some i) : HasWord c i := by
  unfold decodeEvent at h
  repeat' split at h
  all_goals cases h
  all_goals exact ⟨_, rfl⟩

theorem decodeTrn_hasWord (numEp : Nat) (ep : Ep) (dir : Dir) (par : Parity) (pid : BitVec 4) (stage : Stage) (n : Nat) :
    HasWord c (decodeTrn numEp ep dir par pid stage n) := by
  unfold decodeTrn
  split
  · exact ⟨_, rfl⟩
  split
  · exact ⟨_, rfl⟩
  cases dir with
  | out =>
    dsimp only
    split
    · exact ⟨_, rfl⟩
    · cases stage <;> exact ⟨_, rfl⟩
  | inp => cases stage <;> exact ⟨_, rfl⟩

/-- Requests 0, 1 and 3 are told apart by their recipient. -/
theorem decodeStandard_hasWord (b : List Byte) : HasWord c (decodeStandard b) := by
  unfold decodeStandard
  split
  case h_1 | h_2 | h_4 => split <;> exact ⟨_, rfl⟩
  all_goals exact ⟨_, rfl⟩

theorem decodeSetup_hasWord {b : List Byte} (h : decodeSetup b = some i) : HasWord c i := by
  unfold decodeSetup at h
  split at h
  · split at h <;> cases h
    · exact decodeStandard_hasWord b
    all_goals exact ⟨_, rfl⟩
  · cases h

theorem decodeGetDesc_hasWord (dtype didx : Byte) : HasWord c (decodeGetDesc dtype didx) := by
  unfold decodeGetDesc
  split <;> exact ⟨_, rfl⟩

theorem decodeSetCfg_hasWord (v : Byte) : HasWord c (decodeSetCfg v) := by
  unfold decodeSetCfg
  split <;> exact ⟨_, rfl⟩

theorem decodeClass_hasWord {hid : HidConfig} {f : FunctionKind} {b : List Byte} (h : decodeClass hid f b = some i) :
    HasWord c i := by
  unfold decodeClass at h
  repeat' split at h
  all_goals cases h
  all_goals exact ⟨_, rfl⟩

theorem decodeBdStat_hasWord {b : Byte} {ep : Ep} {dir : Dir} {par : Parity} {n : Nat}
    (h : decodeBdStat b ep dir par n = some i) : HasWord c i := by
  unfold decodeBdStat at h
  repeat' split at h
  all_goals cases h
  all_goals exact ⟨_, rfl⟩

theorem decodeBotStep_hasWord (st : BotState) (dir : Dir) (par : Parity) (n : Nat) :
    HasWord c (decodeBotStep st dir par n) := by
  cases st <;> cases dir <;> exact ⟨_, rfl⟩

theorem decodeCbw_hasWord (n : Nat) (b : List Byte) : HasWord c (decodeCbw n b) := by
  unfold decodeCbw
  split <;> exact ⟨_, rfl⟩

/-- WRITE(10), the seventh row, is read only where writes are enabled. -/
theorem decodeCdb_hasWord (writeEnabled : Bool) (op : Byte) (b : List Byte) : HasWord c (decodeCdb writeEnabled op b) := by
  unfold decodeCdb
  split
  case h_7 => split <;> exact ⟨_, rfl⟩
  all_goals exact ⟨_, rfl⟩

theorem decodeCase_hasWord (e : Expect) (d h : Word) (hostIn : Bool) (src : Src) :
    HasWord c (decodeCase e d h hostIn src) := by
  unfold decodeCase
  repeat' split
  all_goals exact ⟨_, rfl⟩

/-- Whatever the decoder reads has a word, format by format. -/
theorem decode_hasWord {w : OpWord} (h : decode c w = some i) : HasWord c i := by
  cases w with
  | irq => cases h; exact ⟨_, rfl⟩
  | event => exact decodeEvent_hasWord h
  | trn => cases h; exact decodeTrn_hasWord ..
  | setup => exact decodeSetup_hasWord h
  | getDesc => cases h; exact decodeGetDesc_hasWord ..
  | setCfg => cases h; exact decodeSetCfg_hasWord _
  | classReq => exact decodeClass_hasWord h
  | bdStat => exact decodeBdStat_hasWord h
  | botStep => cases h; exact decodeBotStep_hasWord ..
  | cbw => cases h; exact decodeCbw_hasWord ..
  | cdb => cases h; exact decodeCdb_hasWord ..
  | bot13 => cases h; exact decodeCase_hasWord ..

end Formats

/-- Settles O1: the round trip row by row, and the words of what is decoded format by format. -/
theorem decodeEncodeRoundTrip : Obligations.DecodeEncodeRoundTrip :=
  ⟨fun c i w => statement_holds i c w, fun _ _ _ => decode_hasWord⟩

end Sys2Proof.Laws.RoundTrip
end

section
/-! The family of the encoding (30): a pseudo-operation runs its lines, each followed by `isr()` (O59). -/

namespace Sys2Proof.Machine

theorem andThen_eq_next {r : Result} {f : State → Result} {t : State} :
    andThen r f = .next t ↔ ∃ u, r = .next u ∧ f u = .next t := by
  cases r <;> simp [andThen]

theorem runLines_single (l : Line) (s : State) : runLines [l] s = isr (applyLine l s) := by
  unfold runLines
  cases isr (applyLine l s) <;> rfl

/-- A request's two lines end, with the state between them, while the ring has room for one completion. -/
theorem requestLines_runs {s : State} (b : List Byte) (hq : s.bot.q.length < 4) :
    ∃ u t, isr (applyLine (.setup none b) s) = .next u ∧ isr (applyLine (.inp none 0 true) u) = .next t ∧
      runLines (requestLines b) s = .next t := by
  obtain ⟨t, ht⟩ : ∃ t, runLines (requestLines b) s = .next t :=
    (requestLines_ends b s).resolve_right fun h => absurd h.2 (Nat.not_le.2 hq)
  obtain ⟨u, hu, h⟩ := andThen_eq_next.1 ht
  exact ⟨u, t, hu, (runLines_single _ u).symm.trans h, ht⟩

theorem outLine_bot (addr : Option DevAddr) (ep : Ep) (tog : Bool) (b : List Byte) (s : State) :
    (applyLine (.out addr ep tog b) s).bot = s.bot := by
  show (hostAfterOut ep tog (outToken addr ep tog b (wake s))).bot = s.bot
  rw [hostAfterOut_eq]
  exact (outToken_bot _ _ _ _ _).trans (wake_bot s)

/-- An OUT line ends while the ring has room for one completion. -/
theorem outLine_runs {s : State} (addr : Option DevAddr) (ep : Ep) (tog : Bool) (b : List Byte) (hq : s.bot.q.length < 4) :
    ∃ t, isr (applyLine (.out addr ep tog b) s) = .next t :=
  (isr_ends _).resolve_right fun h => absurd h.2 (by rw [outLine_bot]; exact Nat.not_le.2 hq)

/-- A list of at most `n` bytes is fitted by zeros behind it. -/
theorem fit_of_length_le {b : List Byte} {n : Nat} (h : b.length ≤ n) : fit n b = b ++ List.replicate (n - b.length) 0 := by
  refine List.ext_getElem (by simp [length_fit]; omega) fun i h1 h2 => ?_
  simp only [fit, List.getElem_map, List.getElem_range, byteAt, List.getElem_append, List.getElem_replicate]
  split
  · next hi => exact List.getD_eq_getElem _ _ hi
  · next hi => exact List.getD_eq_default _ _ (Nat.not_lt.1 hi)

theorem cbwSeqBytes_eq (tag h : Word) (flags : Byte) {cdb : List Byte} (hl : cdb.length ≤ 16) :
    cbwSeqBytes tag h flags cdb =
      [0x55, 0x53, 0x42, 0x43] ++ le32Bytes tag ++ le32Bytes h ++ [flags, 0x00, BitVec.ofNat 8 cdb.length] ++ cdb ++
        List.replicate (16 - cdb.length) 0 := by
  unfold cbwSeqBytes cbwBytes
  rw [fit_of_length_le hl, ← List.append_assoc, show le32Bytes cbwSignature = [0x55, 0x53, 0x42, 0x43] from rfl]

/-- Settles O59: the lines that each pseudo-operation runs are its own by definition, and they end because the ring has
room for the one completion that can be served before its packet. -/
theorem pseudoOperationsRunTheirLines : Obligations.PseudoOperationsRunTheirLines := by
  unfold Obligations.PseudoOperationsRunTheirLines
  intro s x tag h flags cdb hq
  refine ⟨fun p hp => ?_, fun hl => ?_⟩
  · obtain ⟨u, t, hu, ht, hr⟩ := requestLines_runs p.2 hq
    have hlines : exec p.1 s = runLines (requestLines p.2) s := by
      simp only [List.mem_cons, List.not_mem_nil, or_false] at hp
      obtain rfl | rfl | rfl | rfl | rfl := hp <;> rfl
    exact ⟨u, t, hu, ht, hlines.trans hr⟩
  · rw [← cbwSeqBytes_eq tag h flags hl]
    obtain ⟨t, ht⟩ := outLine_runs none s.cfg.bulkOutEp s.hostTog (cbwSeqBytes tag h flags cdb) hq
    exact ⟨t, (runLines_single _ s).trans ht, ht⟩

end Sys2Proof.Machine
end

section
/-! The family of the arms (40): what each HAL operation writes and what it leaves. The operations' effects are those of
`Laws.Ops`; here stand the status bytes, the records and the packet of EP0 IN (O15, O16, O18 to O23). -/

namespace Sys2Proof.Machine

section StatusByte

/-- Bits 1:0 of a status byte are 0 where the count has no bit 8 or 9 (30 R120). -/
theorem count_high_eq_zero {c : BitVec 10} (h : c.toNat < 256) : c.extractLsb' 8 2 = 0 := by
  refine BitVec.eq_of_toNat_eq ?_
  rw [BitVec.extractLsb'_toNat, Nat.shiftRight_eq_div_pow, Nat.div_eq_of_lt h]
  rfl

/-- Below 256 the status byte does not depend on the count. -/
theorem statusByte_of_count_lt (st : BdStat) {c : BitVec 10} (a : Addr) (h : c.toNat < 256) :
    Bd.statusByte ⟨st, c, a⟩ = Bd.statusByte ⟨st, 0, 0⟩ := by
  simp only [Bd.statusByte, count_high_eq_zero h, count_high_eq_zero (c := 0) (by decide)]

/-- A stalled BD reads 0x84 (30 R122). -/
theorem statusByte_stalled {c : BitVec 10} (a : Addr) (h : c.toNat < 256) : Bd.statusByte ⟨statStalled, c, a⟩ = 0x84 :=
  (statusByte_of_count_lt _ a h).trans (by decide)

/-- An armed BD reads 0x88 with DATA0, 0xC8 with DATA1 (30 R122). -/
theorem statusByte_armed (tog : Bool) {n : Nat} (a : Addr) (h : n < 256) :
    Bd.statusByte (armedBd tog n a) = if tog then 0xC8 else 0x88 := by
  have hc : (BitVec.ofNat 10 n).toNat < 256 := Nat.lt_of_le_of_lt (Nat.mod_le _ _) h
  refine (statusByte_of_count_lt _ a hc).trans ?_
  cases tog <;> decide

end StatusByte

section Records

variable {s : State} {ep : Ep} {dir : Dir}

/-- Halt and toggle of one endpoint direction taken back, the first half of `unstall_ep` (40 R169). -/
theorem clearRecord_spec (h : s.Shaped) (hep : ep.toNat < s.cfg.numEp) :
    (setToggle ep dir false (setHalted ep dir false s)).epsAt ep dir =
      { s.epsAt ep dir with halted := false, toggle := false } ∧
    SameEpsBut ep dir s (setToggle ep dir false (setHalted ep dir false s)) := by
  have hl : epsIndex ep dir < (setHalted ep dir false s).eps.length := by
    rw [(keeps_setHalted s ep dir false (.inr rfl)).eps]
    exact h.eps_lt hep
  refine ⟨?_, fun x d hne => (State.epsAt_setEps_other _ hne).trans (State.epsAt_setEps_other _ hne)⟩
  rw [epsAt_setToggle hl, epsAt_setHalted (h.eps_lt hep)]

/-- A ping-ponged direction whose last parity is known takes the other one next (00 R17). -/
theorem nextPar_of_pp (hp : s.pp ep dir = true) : s.nextPar ep dir = (s.epsAt ep dir).lastParity.other := if_pos hp

/-- After a last parity ODD the next one is EVEN, with ping-pong or without. -/
theorem nextPar_of_odd (ho : (s.epsAt ep dir).lastParity = .odd) : s.nextPar ep dir = .even := by
  unfold State.nextPar
  rw [ho]
  exact ite_self _

theorem noteCompletion_rest (par : Parity) (s : State) :
    noteCompletion ep dir par s = { s with eps := (noteCompletion ep dir par s).eps } := by
  unfold noteCompletion
  split <;> rfl

/-- `note_completion` names the parity that comes next (40 R170). -/
theorem nextPar_noteCompletion (h : s.Shaped) (hep : ep.toNat < s.cfg.numEp) (hp : s.pp ep dir = true) (par : Parity) :
    (noteCompletion ep dir par s).nextPar ep dir = par.other := by
  have hc : (noteCompletion ep dir par s).cfg = s.cfg := by rw [noteCompletion_rest]
  have hpt : (noteCompletion ep dir par s).pp ep dir = true := by rw [State.pp, hc]; exact hp
  rw [nextPar_of_pp hpt, noteCompletion_own s par (h.eps_lt hep), if_pos hp]

end Records

section SendIn

variable {s t : State} {ep : Ep}

/-- Bytes put where the next IN BD points, then its arm: the packet is sent (40 R163, R175). -/
theorem fillArm_sends (h : s.Shaped) (hm : memWf s.buf) (hep : ep.toNat < s.cfg.numEp) (b : List Byte)
    (hb : b.length ≤ 2 ^ s.cfg.addrW) (ho : (s.bd ep .inp (s.nextPar ep .inp)).stat.own = false) :
    SendsIn ep b s
      (armBd ep .inp (s.nextPar ep .inp) (s.epsAt ep .inp).toggle b.length (fillBuf ep .inp (s.nextPar ep .inp) b s)) := by
  have hu := (keeps_fillBuf s ep .inp (s.nextPar ep .inp) b).shaped h
  rw [fillBuf_free_eq b ho] at hu ⊢
  have w := armBd_writes hu (validBd_nextPar (s := s) hep) (s.epsAt ep .inp).toggle b.length ho
  generalize armBd _ _ _ _ _ _ = t at w ⊢
  refine ⟨?_, w.bd, w.others, by rw [w.rest]⟩
  rw [w.rest]
  exact writeBytes_holds _ _ hm hb

/-- The control transfer registers play no part in it. -/
theorem SendsIn.withCtl {b : List Byte} (k : SendsIn ep b s t) (c : Ctl) :
    SendsIn ep b { s with ctl := c } { t with ctl := c } :=
  ⟨k.bytes, k.armed, k.others, congrArg (fun u : State => { u with ctl := c }) k.rest⟩

/-- `ep0_send_in` of a free BD: the packet, then pointer and count (40 R175). -/
theorem ep0SendIn_sends (hs : s.Sound) {n : Nat} (hn : n ≤ s.cfg.ep0Max.bytes)
    (ho : (s.bd 0 .inp (s.nextPar 0 .inp)).stat.own = false) :
    SendsIn 0 (s.fetchBytes s.ctl.source s.ctl.ptr n)
      { s with
        ctl :=
          { s.ctl with
            ptr := place s.cfg.addrW s.ctl.ptr n
            bytesRemaining := s.ctl.bytesRemaining - BitVec.ofNat 16 n } } (ep0SendIn n s) := by
  have hl := length_fetchBytes s s.ctl.source s.ctl.ptr n
  have hb : (s.fetchBytes s.ctl.source s.ctl.ptr n).length ≤ 2 ^ s.cfg.addrW := by
    have h64 := ep0Max_le s.cfg
    have h1024 := hs.addrs
    omega
  have k := fillArm_sends hs.shaped hs.canonical.buf (zero_lt_numEp hs.numEp_pos) _ hb ho
  rw [hl] at k
  exact k.withCtl _

end SendIn

/-- Settles O15: each is one write of the BD (`reclaim_writes`, `stall_writes`). -/
theorem reclaimAndStallWriteTheStatus : Obligations.ReclaimAndStallWriteTheStatus := by
  unfold Obligations.ReclaimAndStallWriteTheStatus
  intro s ep dir par hs hv
  have w := stall_writes hs hv
  refine ⟨⟨_, rfl, reclaim_writes hs hv⟩, _, rfl, w, fun hc => ?_⟩
  rw [w.bd]
  exact statusByte_stalled _ hc

/-- Settles O16: an arm of a free BD is one write of the armed BD (`armBd_writes`), the same for both directions. -/
theorem armHandsTheBdToTheSie : Obligations.ArmHandsTheBdToTheSie := by
  unfold Obligations.ArmHandsTheBdToTheSie
  intro s ep par tog n hs _
  have arm : ∀ dir, s.validBd ep dir par → (s.bd ep dir par).stat.own = false →
      WritesBd ep dir par (armedBd tog n (s.bd ep dir par).address) s (armBd ep dir par tog n s) ∧
        (n < 256 → Bd.statusByte ((armBd ep dir par tog n s).bd ep dir par) = if tog then 0xC8 else 0x88) :=
    fun dir hv ho => by
      have w := armBd_writes hs hv tog n ho
      exact ⟨w, fun hn => by rw [w.bd]; exact statusByte_armed tog _ hn⟩
  exact ⟨fun hv ho => ⟨_, rfl, arm .out hv ho⟩, fun hv ho => ⟨_, rfl, arm .inp hv ho⟩⟩

/-- Settles O18: a BD that the SIE owns is reclaimed first, so the arm meets a free one (`rearm_writes`). -/
theorem rearmArmsWhoeverOwnsTheBd : Obligations.RearmArmsWhoeverOwnsTheBd := by
  unfold Obligations.RearmArmsWhoeverOwnsTheBd
  intro s ep par tog n hs _
  exact ⟨fun hv => ⟨_, rfl, rearm_writes hs hv tog n⟩, fun hv => ⟨_, rfl, rearm_writes hs hv tog n⟩⟩

/-- Settles O19: each is `rearmNext` of an existing endpoint with its own toggle and count (`rearmNext_arms`). -/
theorem engineArmsUseTheNextBd : Obligations.EngineArmsUseTheNextBd := by
  unfold Obligations.EngineArmsUseTheNextBd
  intro s hs h1
  have h0 := zero_lt_numEp h1
  refine ⟨⟨_, rfl, rearmNext_arms hs h0 _ _⟩, ⟨_, rfl, rearmNext_arms hs h0 _ _⟩, ⟨_, rfl, rearmNext_arms hs h0 _ _⟩,
    ⟨_, rfl, rearmNext_arms hs h0 _ _⟩, fun n hb _ => ⟨⟨_, rfl, ?_⟩, ⟨_, rfl, ?_⟩⟩⟩
  · exact rearmNext_arms hs (bulk_lt hb .out) _ _
  · exact rearmNext_arms hs (bulk_lt hb .inp) _ _

/-- Settles O20 (`stallEp_stalls`, `requestError_refuses`). -/
theorem stallEpAndRequestError : Obligations.StallEpAndRequestError := by
  unfold Obligations.StallEpAndRequestError
  intro s ep dir hs
  exact ⟨fun hep => ⟨_, rfl, stallEp_stalls hs hep⟩, fun h1 => ⟨_, rfl, requestError_refuses hs h1⟩⟩

/-- Settles O21: the record is written before the loop over the BDs, which leaves the records alone. -/
theorem unstallEpClearsHaltToggleAndStall : Obligations.UnstallEpClearsHaltToggleAndStall := by
  unfold Obligations.UnstallEpClearsHaltToggleAndStall
  intro s ep dir hs hep
  obtain ⟨own, other⟩ := clearRecord_spec (dir := dir) hs hep
  have hu := ((keeps_setHalted s ep dir false (.inr rfl)).trans (keeps_setToggle _ ep dir false)).shaped hs
  obtain ⟨bds, others, rest⟩ := unstallAll_spec (ep := ep) (dir := dir) hu hep
  have heps : (unstallEp ep dir s).eps = (setToggle ep dir false (setHalted ep dir false s)).eps := by
    unfold unstallEp
    rw [rest]
  have hat : ∀ x d, (unstallEp ep dir s).epsAt x d = (setToggle ep dir false (setHalted ep dir false s)).epsAt x d :=
    fun x d => by simp only [State.epsAt, heps]
  refine ⟨_, rfl, (hat _ _).trans own, fun x d hne => (hat x d).trans (other x d hne), bds, others, ?_⟩
  rw [heps]
  exact rest

/-- Settles O22: what was noted stands in the record (`noteCompletion_own`), and after `pp_reset` every non-zero record
says ODD, so that EVEN is next, as the pointers say. -/
theorem parityIsNotedAndReset : Obligations.ParityIsNotedAndReset := by
  unfold Obligations.ParityIsNotedAndReset
  intro s hs
  refine ⟨fun ep dir par hep => ⟨_, rfl, ?_, fun hp => nextPar_noteCompletion hs hep hp par,
      fun _ _ hne => noteCompletion_other s par hne, noteCompletion_rest par s⟩,
    _, rfl, fun ep dir h0 _ => ?_, fun dir => ⟨epsAt_ppReset_zero s dir, ptrAt_ppReset_zero s dir⟩, rfl⟩
  · rw [noteCompletion_own s par (hs.eps_lt hep)]
    split <;> rfl
  · have he := epsAt_ppReset s ep dir h0
    exact ⟨he, ptrAt_ppReset s ep dir h0, nextPar_of_odd (by rw [he])⟩

/-- Settles O23 (`ep0SendIn_sends`). -/
theorem ep0SendInSendsTheNextBytes : Obligations.Ep0SendInSendsTheNextBytes := by
  unfold Obligations.Ep0SendInSendsTheNextBytes
  intro s n hs hn ho
  exact ⟨_, rfl, ep0SendIn_sends hs hn ho⟩

end Sys2Proof.Machine
end

section
/-! The control engine (41): what may write `sie.address` (R207, R209; O12). -/

namespace Sys2Proof.Machine

/-- The events without an address of their own, and the note of a parity, leave `sie.address` (60 R410, R413 to R415,
40 R170). -/
theorem address_of_not_quiet {i : Instr} {s t : State} (h : exec i s = .next t) (hq : isQuiet i = false) :
    t.sie.address = s.sie.address := by
  unfold isQuiet at hq
  split at hq
  · cases h
    show (onAttach _).sie.address = _
    unfold onAttach
    split <;> rfl
  · cases h
    show (onIdle _).sie.address = _
    unfold onIdle
    split <;> rfl
  · cases h
    show (onActivity _).sie.address = _
    unfold onActivity
    split <;> rfl
  · cases h; exact (calm_fnSof _).address
  · cases h; rfl
  · next ep dir par => cases h; exact congrArg (·.sie.address) (noteCompletion_rest par s)
  · cases hq

/-- The service of a completion commits the recorded address or leaves the register (41 R207). -/
theorem trnService_address {s t : State} (h : trnService s = .next t) :
    t.sie.address = s.sie.address ∨ (s.addressPending = true ∧ t.sie.address = s.pendingAddress) := by
  obtain ⟨-, rfl⟩ | ⟨-, k⟩ := trnService_cases h
  · exact .inl rfl
  · have hk := k.address
    rwa [bookCompletion_rest] at hk

/-- Settles O12: outside the list an operation is calm (`calmPp_exec`) or one of six that do not touch the register; an
EP0 completion ends in `commitAddress` at most (`Serves`). -/
theorem addressChangesOnlyByCommitOrReset : Obligations.AddressChangesOnlyByCommitOrReset := by
  unfold Obligations.AddressChangesOnlyByCommitOrReset
  intro s t i h
  refine ⟨fun hm => ?_, ?_⟩
  · cases hq : isQuiet i with
    | true => exact (calmPp_exec i s t h hm hq).address
    | false => exact address_of_not_quiet h hq
  · rintro (rfl | rfl | rfl | rfl | rfl | ⟨dir, pid, par, n, rfl⟩)
    · exact trnService_address h
    · cases h; exact (serves_statusComplete s).address
    · cases h; exact (serves_statusComplete s).address
    · cases h; exact (serves_statusComplete s).address
    · cases h; exact (serves_statusComplete s).address
    · cases h; exact (serves_ep0Dispatch s dir pid par n).address

end Sys2Proof.Machine
end

section
/-! The service of a completion (41 R191, R192; O4): its bookkeeping, then the operation it decodes to. -/

namespace Sys2Proof.Machine

section

variable {s : State}

/-- The dispatch of an EP0 completion is the operation that PID and stage decode to (41 R192). -/
theorem exec_decodeTrn_zero {numEp : Nat} {stage : Stage} (h1 : 1 ≤ numEp) (hst : s.stage = stage) (dir : Dir)
    (pid : BitVec 4) (par : Parity) (n : Nat) :
    exec (decodeTrn numEp 0 dir par pid stage n) s = .next (ep0Dispatch dir pid par n s) := by
  subst hst
  unfold decodeTrn ep0Dispatch
  rw [if_neg (show ¬numEp ≤ (0 : Ep).toNat from Nat.not_le.2 h1), if_neg (by simp)]
  cases dir with
  | out =>
    dsimp only
    split
    · rfl
    · cases s.stage <;> rfl
  | inp => cases s.stage <;> rfl

/-- A latch that names no endpoint of the device is discarded (41 R191). -/
theorem trnService_outOfRange (h : s.cfg.numEp ≤ s.sie.lastTrn.ep.toNat) : trnService s = .next (clearTrn s) := if_pos h

/-- The state on which the operation of a completion runs: its flag cleared, its parity and toggle booked (41 R191). -/
def booked (s : State) : State :=
  bookCompletion s.sie.lastTrn.ep s.sie.lastTrn.dir s.sie.lastTrn.parity (BdStat.pid s.latchedBd.stat) (clearTrn s)

theorem booked_rest (s : State) : booked s = { s with ev := { s.ev with trn := false }, eps := (booked s).eps } :=
  bookCompletion_rest _ _ _ _ _

theorem booked_other (s : State) : SameEpsBut s.sie.lastTrn.ep s.sie.lastTrn.dir s (booked s) :=
  fun _ _ h => bookCompletion_other _ _ _ h

/-- The service of a latch that names an endpoint is its bookkeeping and then the decoded operation (41 R191, R192). -/
theorem trnService_decoded (h : s.sie.lastTrn.ep.toNat < s.cfg.numEp) :
    trnService s =
      exec
        (decodeTrn s.cfg.numEp s.sie.lastTrn.ep s.sie.lastTrn.dir s.sie.lastTrn.parity (BdStat.pid s.latchedBd.stat)
          s.stage s.latchedBd.count.toNat)
        (booked s) := by
  have hst : (booked s).stage = s.stage := by rw [booked_rest]
  unfold trnService
  dsimp only
  rw [if_neg (Nat.not_le.2 h)]
  split
  · next h0 =>
    rw [h0, exec_decodeTrn_zero (by omega) hst, booked, h0]
  · next h0 =>
    unfold decodeTrn
    rw [if_neg (Nat.not_le.2 h), if_pos h0]
    rfl

end

/-- Settles O4: the dispatch is `exec_decodeTrn_zero`, the whole service `trnService_decoded`; the service ends while
the ring has room (`trnService_ends`). -/
theorem transactionRunsDecoded : Obligations.TransactionRunsDecoded := by
  unfold Obligations.TransactionRunsDecoded
  intro s hs
  refine ⟨fun dir x par m h1 => ⟨_, rfl, exec_decodeTrn_zero h1 rfl dir x par m⟩, fun hq => ?_, trnService_outOfRange,
    fun hep =>
      ⟨booked s, trnService_decoded hep, booked_rest s, booked_other s, bookCompletion_own _ _ _ (hs.eps_lt hep)⟩⟩
  exact (trnService_ends s).resolve_right fun h => absurd h.2 (Nat.not_le.2 hq)

end Sys2Proof.Machine
end

section
/-! Requests (41): every level of the dispatch is the decoded operation (R195, R196, 42 R230, R241, R248; O5). -/

namespace Sys2Proof.Machine

section

variable {s : State} {i : Instr}

/-- A standard request is the operation that `bRequest`, and for three of them the recipient, decode to (42 R230). -/
theorem exec_decodeStandard : exec (decodeStandard s.setup) s = .next (standardDispatch s) := by
  unfold decodeStandard standardDispatch
  generalize (bRequest s.setup).toNat = r
  match r with
  | 0 =>
    unfold getStatus
    generalize (recipient s.setup).toNat = x
    match x with
    | 0 | 1 | 2 | _ + 3 => rfl
  | 1 =>
    unfold clearFeature
    generalize (recipient s.setup).toNat = x
    match x with
    | 0 | 1 | 2 | _ + 3 => rfl
  | 3 =>
    unfold setFeature
    generalize (recipient s.setup).toNat = x
    match x with
    | 0 | 1 | 2 | _ + 3 => rfl
  | 2 | 4 | 5 | 6 | 7 | 8 | 9 | 10 | 11 | 12 | _ + 13 => rfl

/-- Eight bytes decode to a standard request, which the standard dispatch serves, or to what the dispatch by type serves
(41 R195). -/
theorem exec_decodeSetup (h : decodeSetup s.setup = some i) :
    exec i s = .next (typeDispatch s) ∧ (reqType s.setup = 0 → standardDispatch s = typeDispatch s) := by
  unfold decodeSetup at h
  split at h
  · refine ⟨?_, fun h0 => by rw [typeDispatch, h0]; rfl⟩
    unfold typeDispatch
    revert h
    generalize (reqType s.setup).toNat = r
    match r with
    | 0 => rintro ⟨⟩; exact exec_decodeStandard
    | 1 | 2 | _ + 3 => rintro ⟨⟩; rfl
  · cases h

theorem exists_decodeSetup {b : List Byte} (hl : b.length = 8) : ∃ j, decodeSetup b = some j := by
  unfold decodeSetup
  rw [if_pos hl]
  split <;> exact ⟨_, rfl⟩

/-- The second level of GET_DESCRIPTOR (42 R241). -/
theorem exec_decodeGetDesc (dtype didx : Byte) :
    exec (decodeGetDesc dtype didx) s = .next (getDescriptor dtype didx s) := by
  unfold decodeGetDesc getDescriptor
  generalize dtype.toNat = r
  match r with
  | 0 | 1 | 2 | 3 | _ + 4 => rfl

/-- The second level of SET_CONFIGURATION (42 R248, R249). -/
theorem exec_decodeSetCfg (v : Byte) : exec (decodeSetCfg v) s = .next (setConfiguration v s) := by
  unfold decodeSetCfg setConfiguration
  split <;> rfl

/-- A class request with a row is the function's handler for it and the stage that its reply asks for (41 R196, 43 R271,
46 R371, R375). -/
theorem exec_decodeClass (h : decodeClass s.cfg.hid s.cfg.function s.setup = some i) :
    exec i s = .next (classDispatch s) := by
  revert h
  unfold decodeClass classDispatch classRequest
  cases s.cfg.function with
  | msc =>
    dsimp only
    unfold mscClassRequest
    rintro ⟨⟩
    split
    · rfl
    · split <;> rfl
  | cdc =>
    unfold cdcClassRequest
    generalize (bRequest s.setup).toNat = r
    intro h
    dsimp only at h ⊢
    split at h <;> cases h <;> rfl
  | hid =>
    dsimp only
    unfold hidClassRequest
    intro h
    dsimp only
    split_ifs at h ⊢ <;> cases h <;> rfl
  | user => rintro ⟨⟩

/-- A class request that the block's functions have no row for is refused by their handler (43 R271). -/
theorem classRequest_of_no_row (hf : s.cfg.function ≠ .user) (h : decodeClass s.cfg.hid s.cfg.function s.setup = none) :
    classRequest s = refuse s := by
  revert h hf
  unfold decodeClass classRequest
  cases s.cfg.function with
  | msc => rintro - ⟨⟩
  | cdc =>
    unfold cdcClassRequest
    generalize (bRequest s.setup).toNat = r
    intro _ h
    dsimp only at h ⊢
    split
    · cases h
    · cases h
    · cases h
    · cases h
    · cases h
    · rfl
  | hid =>
    intro _ h
    dsimp only at h ⊢
    unfold hidClassRequest
    split_ifs at h with h1 h2 h3 h4
    simp only [h1, h2, h3, h4, if_false]
  | user => exact fun hf => absurd rfl hf

/-- The engine's answer to a refused class request (41 R196): `request_error`, beside the hook's answer. -/
theorem respondStage_refuse_refuses (hs : s.Shaped) (h1 : 1 ≤ s.cfg.numEp) :
    RefusesRequest { s with reply := (respondStage (refuse s)).reply } (respondStage (refuse s)) := by
  have k : RefusesRequest (refuse s) (requestError (refuse s)) := requestError_refuses ((keeps_refuse s).shaped hs) h1
  have hr : (requestError (refuse s)).reply = refusedReply := by rw [k.rest]; rfl
  show RefusesRequest { s with reply := (requestError (refuse s)).reply } (requestError (refuse s))
  rw [hr]
  exact k

end

/-- Settles O5: each level of the dispatch is the operation its word decodes to, and what no row names is refused. -/
theorem requestRunsDecoded : Obligations.RequestRunsDecoded := by
  unfold Obligations.RequestRunsDecoded
  intro s i hs
  refine ⟨exists_decodeSetup hs.shaped.setup, fun h => ?_, fun dtype didx => ⟨_, rfl, exec_decodeGetDesc dtype didx⟩,
    fun v => ⟨_, rfl, exec_decodeSetCfg v⟩, ⟨_, rfl, rfl⟩, fun h => ⟨_, rfl, exec_decodeClass h⟩, fun hf h => ?_⟩
  · obtain ⟨hi, h0⟩ := exec_decodeSetup h
    exact ⟨_, rfl, hi, fun hr => congrArg Host.Outcome.next (h0 hr)⟩
  · refine ⟨_, rfl, ?_⟩
    rw [classDispatch, classRequest_of_no_row hf h]
    exact respondStage_refuse_refuses hs.shaped hs.numEp_pos

end Sys2Proof.Machine
end

section
/-! The stages of a control transfer (41 R200 to R208; O25, O26, O27). -/

namespace Sys2Proof.Machine

section

variable {s t : State}

theorem Keeps.sound (k : Keeps s t) (hs : s.Sound) : t.Sound :=
  ⟨by rw [k.cfg]; exact hs.cfg, k.shaped hs.shaped, k.canonical hs.canonical⟩

/-- The stage plays no part in an arm. -/
theorem ArmsNext.withStage {ep : Ep} {dir : Dir} {tog : Bool} {n : Nat} (k : ArmsNext ep dir tog n s t) (g : Stage) :
    ArmsNext ep dir tog n { s with stage := g } { t with stage := g } :=
  ⟨k.bd, k.others, congrArg (fun u : State => { u with stage := g }) k.rest⟩

/-! The end of a transfer (41 R207, R208). -/

theorem ep0ArmSetup_arms (h : s.Shaped) (h1 : 1 ≤ s.cfg.numEp) : ArmsNext 0 .out false 8 s (ep0ArmSetup s) :=
  rearmNext_arms h (zero_lt_numEp h1) _ _

/-- The end of a status stage is the commit, then the arm and the stage (41 R207). -/
theorem statusComplete_arms (h : s.Shaped) (h1 : 1 ≤ s.cfg.numEp) :
    ArmsNext 0 .out false 8 { commitAddress s with stage := .setup } (statusComplete s) := by
  have k := keeps_commitAddress s
  exact (ep0ArmSetup_arms (k.shaped h) (by rw [k.cfg]; exact h1)).withStage _

/-! DATA_IN (41 R200, R201). -/

/-- A packet of bytes is due (41 R201). -/
theorem dataInNext_packet (h : s.ctl.bytesRemaining ≠ 0) :
    dataInNext s = ep0SendIn (min s.ctl.bytesRemaining.toNat s.cfg.ep0Max.bytes) s := if_pos h

/-- The zero-length packet is due (41 R201). -/
theorem dataInNext_zlp (h : s.ctl.bytesRemaining = 0) (hz : s.ctl.sendShortZlp = true) :
    dataInNext s = ep0SendIn 0 { s with ctl := { s.ctl with sendShortZlp := false } } := by
  simp [dataInNext, h, hz]

/-- All is sent, the host's status packet is due (41 R201). -/
theorem dataInNext_status (h : s.ctl.bytesRemaining = 0) (hz : s.ctl.sendShortZlp = false) :
    dataInNext s = { ep0ArmStatusOut s with stage := .statusOut } := by
  simp [dataInNext, h, hz]

theorem zlpOwed_eq (c : Config) (d w : Nat) : zlpOwed c d w = decide (d < w ∧ d % c.ep0Max.bytes = 0) := by
  simp [zlpOwed, Bool.beq_eq_decide_eq]

/-- `start_data_in` of a request that takes data (41 R200). -/
theorem startDataIn_loads (src : Source) (ptr : Addr) (d : Nat) (hw : wLength s.setup ≠ 0) :
    startDataIn src ptr d s =
      dataInNext
        { s with
          ctl :=
            ⟨src, ptr, BitVec.ofNat 16 (min d (wLength s.setup).toNat), 0,
              decide (d < (wLength s.setup).toNat ∧ d % s.cfg.ep0Max.bytes = 0)⟩
          stage := .dataIn } := by
  have h0 : (wLength s.setup).toNat ≠ 0 := fun hc => hw (BitVec.eq_of_toNat_eq hc)
  rw [← zlpOwed_eq]
  exact if_neg h0

theorem startDataIn_status (src : Source) (ptr : Addr) (d : Nat) (hw : wLength s.setup = 0) :
    startDataIn src ptr d s = statusIn s := by
  simp [startDataIn, hw]

/-- The zero-length packet moves the pointer by none and leaves the count (41 R201). -/
theorem sendZlp_sends (hs : s.Sound) (ho : (s.bd 0 .inp (s.nextPar 0 .inp)).stat.own = false) :
    SendsIn 0 [] { s with ctl := { s.ctl with ptr := place s.cfg.addrW s.ctl.ptr 0, sendShortZlp := false } }
      (ep0SendIn 0 { s with ctl := { s.ctl with sendShortZlp := false } }) := by
  have h := ep0SendIn_sends ((keeps_ctl s { s.ctl with sendShortZlp := false } s.stage).sound hs) (Nat.zero_le _) ho
  rw [List.eq_nil_of_length_eq_zero (length_fetchBytes _ _ _ 0)] at h
  have h0 : s.ctl.bytesRemaining - BitVec.ofNat 16 0 = s.ctl.bytesRemaining := BitVec.sub_zero _
  dsimp only at h
  rw [h0] at h
  exact h

/-! DATA_OUT (41 R202, R203). -/

/-- `start_data_out` of a transfer with data (41 R202). -/
theorem startDataOut_arms (hs : s.Shaped) (h1 : 1 ≤ s.cfg.numEp) (target : Addr) {len : Nat} (hl : len < 2 ^ 16)
    (h0 : len ≠ 0) :
    ArmsNext 0 .out (s.epsAt 0 .out).toggle (min s.cfg.ep0Max.bytes len)
      { s with
        ctl := { s.ctl with ptr := target, bytesRemaining := BitVec.ofNat 16 len, bytesReceived := 0 }
        stage := .dataOut }
      (startDataOut target len s) := by
  have k := keeps_ctl s { s.ctl with ptr := target, bytesRemaining := BitVec.ofNat 16 len, bytesReceived := 0 } .dataOut
  rw [startDataOut, if_neg h0, ep0ArmDataOut]
  dsimp only
  rw [BitVec.toNat_ofNat, Nat.mod_eq_of_lt hl]
  exact rearmNext_arms (k.shaped hs) (zero_lt_numEp h1) _ _

theorem storeDataOut_holds (hs : s.Sound) (par : Parity) {n : Nat} (hn : n ≤ 1023) :
    HoldsAt s.cfg.addrW s.ctl.ptr (readBytes s.cfg.addrW s.buf (s.bd 0 .out par).address n) s.ram
      (storeDataOut par n s).ram := by
  have ha := hs.addrs
  exact writeBytes_holds _ _ hs.canonical.ram (by rw [length_readBytes]; omega)

/-- More data is due after this chunk (41 R203). -/
theorem dataOutStep_more {par : Parity} {n : Nat} (hr : (storeDataOut par n s).ctl.bytesRemaining ≠ 0)
    (hn : s.cfg.ep0Max.bytes ≤ n) : dataOutStep par n s = ep0ArmDataOut (storeDataOut par n s) :=
  if_neg (not_or.2 ⟨hr, Nat.not_lt.2 hn⟩)

/-- The final chunk (41 R203). -/
theorem dataOutStep_last {par : Parity} {n : Nat}
    (h : (storeDataOut par n s).ctl.bytesRemaining = 0 ∨ n < s.cfg.ep0Max.bytes) :
    dataOutStep par n s = finishDataOut (outControlFinished (ep0ArmSetup (storeDataOut par n s))) := if_pos h

/-- The hook's answer gives the end of a control write (41 R203). -/
theorem finishDataOut_ends (hs : s.Shaped) (h1 : 1 ≤ s.cfg.numEp) :
    (s.reply.accepted = true → EndsStatusIn s (finishDataOut s)) ∧
      (s.reply.accepted = false → RefusesRequest s (finishDataOut s)) := by
  refine ⟨fun ha => ?_, fun ha => ?_⟩
  · rw [finishDataOut, if_pos ha]
    exact statusIn_ends hs h1
  · rw [finishDataOut, if_neg (by simp [ha])]
    exact requestError_refuses hs h1

end

/-- Settles O27: the end of a status stage is `statusComplete_arms`, with `commitAddress` written out; a stray OUT is the arm
alone. -/
theorem statusAndStrayCompletions : Obligations.StatusAndStrayCompletions := by
  unfold Obligations.StatusAndStrayCompletions
  intro s h h1
  have hend : ArmsNext 0 .out false 8
      (if s.addressPending then
        { s with
          stage := .setup
          sie := { s.sie with address := s.pendingAddress }
          deviceState := if s.pendingAddress ≠ 0 then .address else .dflt
          addressPending := false }
      else { s with stage := .setup }) (statusComplete s) := by
    have k := statusComplete_arms h h1
    unfold commitAddress at k
    split at k
    · next hp => rwa [if_pos hp]
    · next hp => rwa [if_neg hp]
  refine ⟨fun i hi => ⟨statusComplete s, ?_, hend⟩, ⟨_, rfl, ep0ArmSetup_arms h h1⟩, rfl, fun _ _ => rfl⟩
  simp only [List.mem_cons, List.not_mem_nil, or_false] at hi
  obtain rfl | rfl | rfl | rfl := hi <;> rfl

/-- Settles O25: the three branches of R201 are `dataInNext_packet`, `dataInNext_zlp` and `dataInNext_status`. -/
theorem dataInStage : Obligations.DataInStage := by
  unfold Obligations.DataInStage
  intro s hs
  have h1 := hs.numEp_pos
  refine ⟨fun src ptr d => ⟨fun hw => ⟨_, rfl, ?_⟩, fun hw => ⟨_, rfl, ?_⟩⟩, fun i hi => ?_⟩
  · rw [startDataIn_status src ptr d hw]
    exact statusIn_ends hs.shaped h1
  · exact congrArg Host.Outcome.next (startDataIn_loads src ptr d hw).symm
  · have he : exec i s = .next (dataInNext s) := by
      simp only [List.mem_cons, List.not_mem_nil, or_false] at hi
      obtain rfl | rfl := hi <;> rfl
    refine ⟨fun hr ho => ⟨_, he, ?_⟩, fun hr hz ho => ⟨_, he, ?_⟩, fun hr hz => ⟨_, he, ?_⟩⟩
    · rw [dataInNext_packet hr]
      exact ep0SendIn_sends hs (Nat.min_le_right _ _) ho
    · rw [dataInNext_zlp hr hz]
      exact sendZlp_sends hs ho
    · rw [dataInNext_status hr hz]
      exact (rearmNext_arms hs.shaped (zero_lt_numEp h1) _ _).withStage _

/-- Settles O26: a chunk is stored (`storeDataOut_holds`), then `dataOutStep_more` or `dataOutStep_last`. -/
theorem dataOutStage : Obligations.DataOutStage := by
  unfold Obligations.DataOutStage
  intro s hs
  have h1 := hs.numEp_pos
  refine ⟨fun target len hl => ⟨fun h0 => ⟨_, rfl, ?_⟩, fun h0 => ⟨_, rfl, startDataOut_arms hs.shaped h1 target hl h0⟩⟩,
    fun par n hn i hi => ⟨storeDataOut par n s, storeDataOut_holds hs par hn, rfl, ?_⟩⟩
  · rw [startDataOut, if_pos h0]
    exact statusIn_ends hs.shaped h1
  · have he : exec i s = .next (dataOutStep par n s) := by
      simp only [List.mem_cons, List.not_mem_nil, or_false] at hi
      obtain rfl | rfl := hi <;> rfl
    have ku := keeps_storeDataOut s par n
    refine ⟨fun hr hm => ⟨_, he, ?_⟩, fun hend => ?_⟩
    · rw [dataOutStep_more hr hm]
      exact rearmNext_arms (ku.shaped hs.shaped) (zero_lt_numEp h1) _ _
    · have kv := ku.trans (keeps_ep0ArmSetup (storeDataOut par n s))
      have kx := kv.trans (keeps_outControlFinished _)
      refine ⟨_, _, _, ep0ArmSetup_arms (ku.shaped hs.shaped) h1, rfl, he, ?_⟩
      rw [dataOutStep_last hend]
      exact finishDataOut_ends (kx.shaped hs.shaped) (by rw [kx.cfg]; exact h1)

end Sys2Proof.Machine
end

section
/-! The SETUP handler (41 R194; O24): its steps 1 to 5a, said once. -/

namespace Sys2Proof.Machine

section

variable {s : State}

/-- What steps 1 to 5a of the SETUP handler leave: the packet copied, EP0 IN cancelled, EP0 OUT armed for a SETUP, both
toggles DATA1, the previous transfer and a recorded address dropped (41 R194). -/
structure TakesSetup (par : Parity) (s u : State) : Prop where
  setup : u.setup = readBytes s.cfg.addrW s.buf (s.bd 0 .out par).address 8
  inBds : ∀ p ∈ parities s.cfg.ppMode 0 .inp, u.bd 0 .inp p = { s.bd 0 .inp p with stat := statClear }
  outBd : u.bd 0 .out (s.nextPar 0 .out) = armedBd false 8 (s.nextAddr 0 .out)
  outOther : ∀ p, s.pp 0 .out = true → p ≠ s.nextPar 0 .out → u.bd 0 .out p = s.bd 0 .out p
  away : ∀ e d p, e ≠ 0 → u.bd e d p = s.bd e d p ∧ u.epsAt e d = s.epsAt e d
  toggles : ∀ d, u.epsAt 0 d = { s.epsAt 0 d with toggle := true }
  rest : u =
    { s with
      setup := u.setup
      stage := .setup
      addressPending := false
      ctl := { s.ctl with sendShortZlp := false, bytesRemaining := 0, bytesReceived := 0 }
      sie := { s.sie with pktDisable := false }
      bdt := u.bdt
      eps := u.eps }

/-- Step 5 writes the toggle of both records of endpoint 0 (41 R194). -/
theorem epsAt_resetEp0Toggles (h : s.Shaped) (h1 : 1 ≤ s.cfg.numEp) (d : Dir) :
    (resetEp0Toggles s).epsAt 0 d = { s.epsAt 0 d with toggle := true } := by
  have hl : ∀ d, epsIndex 0 d < s.eps.length := fun d => h.eps_lt (zero_lt_numEp h1)
  have hl' : epsIndex 0 .inp < (setToggle 0 .out true s).eps.length := by
    rw [(keeps_setToggle s 0 .out true).eps]
    exact hl .inp
  cases d with
  | out => exact (State.epsAt_setEps_other _ (.inr (by decide))).trans (epsAt_setToggle (hl .out) true)
  | inp =>
    have ho : (setToggle 0 .out true s).epsAt 0 .inp = s.epsAt 0 .inp := State.epsAt_setEps_other _ (.inr (by decide))
    rw [resetEp0Toggles, epsAt_setToggle hl', ho]

theorem epsAt_resetEp0Toggles_other {e : Ep} (he : e ≠ 0) (d : Dir) : (resetEp0Toggles s).epsAt e d = s.epsAt e d :=
  (State.epsAt_setEps_other _ (.inl he)).trans (State.epsAt_setEps_other _ (.inl he))

/-- Steps 1 to 4 of the SETUP handler (41 R194). -/
def setupArm (par : Parity) (s : State) : State := ep0ArmSetup (enablePackets (cancelEp0In (copySetup par s)))

theorem keeps_copySetup (par : Parity) (s : State) : Keeps s (copySetup par s) :=
  ⟨rfl, rfl, rfl, rfl, rfl, fun _ => by simp [copySetup, readBytes], id, id, id, id, id, id, id, fun _ => id⟩

theorem keeps_enablePackets (s : State) : Keeps s (enablePackets s) := keeps_pktDisable s false

theorem keeps_setupArm (par : Parity) (s : State) : Keeps s (setupArm par s) :=
  ((keeps_copySetup par s).trans (keeps_cancelEp0In _)).trans ((keeps_enablePackets _).trans (keeps_ep0ArmSetup _))

/-- Steps 1 to 4 clear EP0 IN, arm the next EP0 OUT BD and write no other BD (41 R194). -/
theorem setupArm_bds (par : Parity) (h : s.Shaped) (h1 : 1 ≤ s.cfg.numEp) :
    (∀ p ∈ parities s.cfg.ppMode 0 .inp, (setupArm par s).bd 0 .inp p = { s.bd 0 .inp p with stat := statClear }) ∧
    (setupArm par s).bd 0 .out (s.nextPar 0 .out) = armedBd false 8 (s.nextAddr 0 .out) ∧
    (∀ p, s.pp 0 .out = true → p ≠ s.nextPar 0 .out → (setupArm par s).bd 0 .out p = s.bd 0 .out p) ∧
    (∀ e d p, e ≠ 0 → (setupArm par s).bd e d p = s.bd e d p) ∧
    setupArm par s =
      { s with
        setup := readBytes s.cfg.addrW s.buf (s.bd 0 .out par).address 8
        sie := { s.sie with pktDisable := false }
        bdt := (setupArm par s).bdt } := by
  have hc := (keeps_copySetup par s).shaped h
  have hd := (keeps_cancelEp0In (copySetup par s)).shaped hc
  obtain ⟨hin, hother, hrest⟩ := cancelEp0In_spec hc h1
  unfold setupArm
  generalize cancelEp0In (copySetup par s) = d at hd hin hother hrest ⊢
  have hcfg : d.cfg = s.cfg := by rw [hrest]; rfl
  have hn : (enablePackets d).nextPar 0 .out = s.nextPar 0 .out := nextPar_congr hcfg (by rw [hrest]; rfl)
  obtain ⟨hbd, hbds, hr⟩ := ep0ArmSetup_arms ((keeps_enablePackets d).shaped hd) (hcfg ▸ h1)
  rw [hn] at hbd hbds
  generalize ep0ArmSetup (enablePackets d) = f at hbd hbds hr ⊢
  refine ⟨fun p hp => ?_, ?_, fun p hpp hne => ?_, fun e x p he => ?_, ?_⟩
  · exact (hbds _ _ _ (bdIndex_ne (.inr (by decide)))).trans (hin p hp)
  · rw [hbd, State.nextAddr, hn]
    exact congrArg (fun b : Bd => armedBd false 8 b.address) (hother 0 .out _ (.inr (by decide)))
  · refine (hbds _ _ _ fun hc => hne ?_).trans (hother 0 .out p (.inr (by decide)))
    rw [show (enablePackets d).cfg = s.cfg from hcfg] at hc
    exact (bdIndex_inj (mem_parities.2 (.inr hpp)) (mem_parities.2 (.inr hpp)) hc).2.2
  · exact (hbds _ _ _ (bdIndex_ne (.inl he))).trans (hother e x p (.inl he))
  · rw [hr, hrest]
    rfl

/-- The SETUP handler's steps, all together (41 R194). -/
theorem setupSteps_takes (par : Parity) (h : s.Shaped) (h1 : 1 ≤ s.cfg.numEp) : TakesSetup par s (setupSteps par s) := by
  obtain ⟨hin, hout, hother, haway, hrest⟩ := setupArm_bds par h h1
  have hv := (keeps_setupArm par s).shaped h
  have hn := (keeps_setupArm par s).cfg ▸ h1
  unfold setupSteps
  rw [← setupArm]
  generalize setupArm par s = v at hin hout hother haway hrest hv hn ⊢
  have heps : ∀ x d, v.epsAt x d = s.epsAt x d := fun x d => by rw [hrest]; rfl
  have hu : abandonTransfer (resetEp0Toggles v) =
      { v with
        stage := .setup
        addressPending := false
        ctl := { v.ctl with sendShortZlp := false, bytesRemaining := 0, bytesReceived := 0 }
        eps := (resetEp0Toggles v).eps } := rfl
  have hbd : ∀ e d p, (abandonTransfer (resetEp0Toggles v)).bd e d p = v.bd e d p := fun _ _ _ => rfl
  refine ⟨?_, fun p hp => (hbd ..).trans (hin p hp), (hbd ..).trans hout,
    fun p hpp hne => (hbd ..).trans (hother p hpp hne),
    fun x d p he => ⟨(hbd ..).trans (haway x d p he), (epsAt_resetEp0Toggles_other he d).trans (heps x d)⟩,
    fun d => (epsAt_resetEp0Toggles hv hn d).trans (by rw [heps]), ?_⟩
  · rw [hu, hrest]
  · rw [hu, hrest]
end

/-- Settles O24: the state before the dispatch is `setupSteps`, of which `setupSteps_takes` says everything. -/
theorem setupHandlerStepsThenDispatch : Obligations.SetupHandlerStepsThenDispatch := by
  unfold Obligations.SetupHandlerStepsThenDispatch
  intro s par hs _
  obtain ⟨hsetup, hin, hout, hother, haway, htog, hrest⟩ := setupSteps_takes par hs.shaped hs.numEp_pos
  exact ⟨_, _, rfl, rfl, hsetup, hin, hout, hother, haway, htog, hrest⟩

end Sys2Proof.Machine
end

section
/-! A whole SET_ADDRESS transfer (41 R194, R207, 42 R240; O60): the SETUP packet and its service, then the status packet and
its service. -/

namespace Sys2Proof.Machine

section

variable {s t : State}

/-! The tokens to endpoint 0 of a quiet device. -/

/-- A device that takes the next token to endpoint 0: attached, awake, endpoint 0 enabled, no flag pending, the SIE in step
(10 R41 to R50). -/
structure QuietEp0 (s : State) : Prop where
  sound : s.Sound
  instep : s.InStep
  ev : s.ev = evReset
  awake : s.deviceState ≠ .suspended
  enable : s.sie.enable = true
  ctrl : s.ctrlAt 0 = ⟨true, true, true⟩
  packets : s.sie.pktDisable = false

theorem QuietEp0.trn (q : QuietEp0 s) : s.ev.trn = false := by
  rw [q.ev]
  rfl

theorem QuietEp0.ep_lt (q : QuietEp0 s) : (0 : Ep).toNat < s.cfg.numEp := zero_lt_numEp q.sound.numEp_pos

theorem QuietEp0.listens (q : QuietEp0 s) (dir : Dir) : s.listens none 0 dir :=
  ⟨q.enable, .inl rfl, q.ep_lt, fun _ => by rw [q.ctrl], fun _ => by rw [q.ctrl]⟩

/-- With no completion pending the SIE consults the BD that the engine arms next (10 R50). -/
theorem QuietEp0.siePar (q : QuietEp0 s) (dir : Dir) : s.siePar 0 dir = s.nextPar 0 dir := by
  cases hp : s.pp 0 dir with
  | false => rw [State.siePar, State.nextPar, hp, if_neg (by decide), if_neg (by decide)]
  | true =>
    have h := q.instep 0 dir hp q.ep_lt
    rw [if_neg (by simp [q.trn])] at h
    rw [State.siePar, if_pos hp, h]

/-- A token on a device that is not suspended sets no flag (60 R426). -/
theorem QuietEp0.wake (q : QuietEp0 s) : wake s = s := by
  simp [Machine.wake, q.awake]

/-- `isr()` with a completion as its one flag is the service of that completion (60 R401). -/
theorem isr_of_trn (hev : s.ev = { evReset with trn := true }) (h : trnService s = .next t) : isr s = .next t := by
  have ht : t.ev = evReset := by rw [trnService_ev h, hev]; rfl
  obtain ⟨hone, hirq⟩ := serviceOne_decoded (s := s) (i := .trn) (by rw [hev]; rfl)
  rw [isr_unfold hirq, hone]
  show andThen (trnService s) isr = _
  rw [h]
  exact isr_quiet ht

/-! The request (42 R240). -/

/-- The address stands in the low byte of `wValue` (42 R240). -/
theorem address_halfOf (a b : Byte) : (halfOf a b).extractLsb' 0 7 = b.extractLsb' 0 7 := by
  apply BitVec.eq_of_getLsbD_eq
  intro i hi
  have h8 : i < 8 := by omega
  simp only [halfOf, BitVec.getLsbD_append, BitVec.getLsbD_extractLsb']
  simp [hi, h8]

/-- The packet of SET_ADDRESS is served as that request (41 R195, 42 R230, R240). -/
theorem typeDispatch_setAddress {x : Byte} (h : s.setup = [0x00, 0x05, x, 0x00, 0x00, 0x00, 0x00, 0x00]) :
    typeDispatch s = setAddress (x.extractLsb' 0 7) s := by
  have he : s.setup = setupBytes 0 5 (halfOf 0 x) 0 0 := by
    rw [h, setupBytes, loByte_halfOf, hiByte_halfOf]
    rfl
  unfold typeDispatch standardDispatch
  rw [he, reqType_setup, bRequest_setup, wValue_setup, address_halfOf]
  rfl

theorem keeps_recordAddress (a : DevAddr) (s : State) : Keeps s { s with pendingAddress := a, addressPending := true } :=
  ⟨rfl, rfl, rfl, rfl, rfl, id, id, id, id, id, id, id, id, fun _ => id⟩

/-- SET_ADDRESS records the address and arms the status packet (42 R240). -/
theorem setAddress_ends (a : DevAddr) (h : s.Shaped) (h1 : 1 ≤ s.cfg.numEp) :
    EndsStatusIn { s with pendingAddress := a, addressPending := true } (setAddress a s) :=
  statusIn_ends ((keeps_recordAddress a s).shaped h) h1

/-- What was armed is still the next BD. -/
theorem ArmsNext.bd_next {ep : Ep} {dir : Dir} {tog : Bool} {n : Nat} (k : ArmsNext ep dir tog n s t) :
    t.bd ep dir (t.nextPar ep dir) = armedBd tog n (t.nextAddr ep dir) := by
  have hn : t.nextPar ep dir = s.nextPar ep dir := by rw [k.rest]; rfl
  rw [State.nextAddr, hn, k.bd]
  rfl

/-! The SETUP packet and its service. -/

/-- The state that a packet's reception leaves: the completion is the one flag, and its BD is in the latch (20 R89). -/
theorem Completes.latchedBd {ep : Ep} {dir : Dir} {par : Parity} {pid : BitVec 4} {n : Nat} {pkt : Bool} {w : Answer}
    (k : Completes ep dir par pid n pkt w s t) : t.latchedBd = t.bd ep dir par := by
  have hl : t.sie.lastTrn = ⟨ep, dir, par⟩ := by rw [k.rest]
  rw [State.latchedBd, hl]

/-- The service of a latched SETUP is the SETUP handler (41 R191, R192). -/
theorem trnService_setup {par : Parity} {n : Nat} {pkt : Bool} {w : Answer}
    (k : Completes 0 .out par pidSetup n pkt w s t) (h1 : 1 ≤ s.cfg.numEp) :
    trnService t = .next (setupHandler par (booked t)) := by
  have hl : t.sie.lastTrn = ⟨0, .out, par⟩ := by rw [k.rest]
  have hc : t.cfg = s.cfg := by rw [k.rest]
  rw [trnService_decoded (by rw [hl, hc]; exact zero_lt_numEp h1), hl, k.latchedBd, k.pid,
    exec_decodeTrn_zero (hc ▸ h1) (by rw [booked_rest])]
  rfl

/-- The service of a latched IN packet of EP0 in stage STATUS_IN is the end of the status stage (41 R191, R192). -/
theorem trnService_statusIn {par : Parity} {pid : BitVec 4} {n : Nat} {pkt : Bool} {w : Answer}
    (k : Completes 0 .inp par pid n pkt w s t) (h1 : 1 ≤ s.cfg.numEp) (hst : s.stage = .statusIn) :
    trnService t = .next (statusComplete (booked t)) := by
  have hl : t.sie.lastTrn = ⟨0, .inp, par⟩ := by rw [k.rest]
  have hc : t.cfg = s.cfg := by rw [k.rest]
  have hst : t.stage = .statusIn := by rw [k.rest]; exact hst
  have hsb : (booked t).stage = .statusIn := by rw [booked_rest]; exact hst
  rw [trnService_decoded (by rw [hl, hc]; exact zero_lt_numEp h1), hl,
    exec_decodeTrn_zero (hc ▸ h1) (by rw [booked_rest]), ep0Dispatch, hsb]

/-- A second BD of a direction exists under ping-pong alone (20 R80). -/
theorem pp_of_mem_of_ne {ep : Ep} {dir : Dir} {p : Parity} (hm : p ∈ parities s.cfg.ppMode ep dir)
    (hne : p ≠ s.nextPar ep dir) : s.pp ep dir = true := by
  obtain rfl | hp := mem_parities.1 hm
  · by_contra hpp
    exact hne (if_neg hpp).symm
  · exact hp

/-- After the reception of a SETUP packet no EP0 OUT BD is armed (70 R441). -/
theorem Completes.noneArmed {pid : BitVec 4} {n : Nat} {pkt : Bool} {w : Answer}
    (k : Completes 0 .out (s.nextPar 0 .out) pid n pkt w s t) (h1 : 1 ≤ s.cfg.numEp) (ha : s.Ep0OutArmed) :
    ∀ p ∈ parities s.cfg.ppMode 0 .out, (t.bd 0 .out p).stat.own = false := by
  intro p hm
  by_cases hp : p = s.nextPar 0 .out
  · rw [hp]
    exact k.own
  · have hn := mem_parities.2 (validBd_nextPar (dir := .out) (zero_lt_numEp h1)).2
    rw [k.bds 0 .out p fun hc => hp (bdIndex_inj hm hn hc).2.2, ha p hm]
    exact decide_eq_false hp

/-- The SETUP handler arms the next EP0 OUT BD and no other (70 R441). -/
theorem TakesSetup.armed {par : Parity} {u : State} (k : TakesSetup par s u)
    (h : ∀ p ∈ parities s.cfg.ppMode 0 .out, (s.bd 0 .out p).stat.own = false) : u.Ep0OutArmed := by
  have hc : u.cfg = s.cfg := by rw [k.rest]
  have hn : u.nextPar 0 .out = s.nextPar 0 .out := nextPar_congr hc (by rw [k.toggles])
  intro p hm
  rw [hc] at hm
  rw [hn]
  by_cases hp : p = s.nextPar 0 .out
  · rw [hp, k.outBd]
    exact (decide_eq_true rfl).symm
  · rw [k.outOther p (pp_of_mem_of_ne hm hp) hp, h p hm]
    exact (decide_eq_false hp).symm

/-- What the SETUP packet of SET_ADDRESS and its service leave: the address `a` recorded and not committed, a zero-length
status packet armed on EP0 IN, EP0 OUT armed again (41 R194, 42 R240). -/
structure RecordsAddress (a : DevAddr) (s u : State) : Prop where
  status : u.bd 0 .inp (u.nextPar 0 .inp) = armedBd true 0 (u.nextAddr 0 .inp)
  armed : u.Ep0OutArmed
  rest : u =
    { s with
      setup := u.setup
      stage := .statusIn
      pendingAddress := a
      addressPending := true
      ctl := u.ctl
      sie := { s.sie with pktDisable := false, lastTrn := u.sie.lastTrn, ptr := u.sie.ptr }
      bdt := u.bdt
      eps := u.eps
      buf := u.buf
      ev := u.ev
      wire := u.wire
      hostTog := u.hostTog
      free := u.free }

/-- The SETUP handler over the packet of SET_ADDRESS records the address (41 R194, 42 R240). -/
theorem setupHandler_setAddress {x : Byte} {par : Parity} (hs : s.Sound)
    (hset : readBytes s.cfg.addrW s.buf (s.bd 0 .out par).address 8 = [0x00, 0x05, x, 0x00, 0x00, 0x00, 0x00, 0x00])
    (hfree : ∀ p ∈ parities s.cfg.ppMode 0 .out, (s.bd 0 .out p).stat.own = false) :
    RecordsAddress (x.extractLsb' 0 7) s (setupHandler par s) := by
  have k := setupSteps_takes par hs.shaped hs.numEp_pos
  have hw := (keeps_setupSteps s par).sound hs
  rw [setupHandler, typeDispatch_setAddress (k.setup.trans hset)]
  generalize setupSteps par s = w at k hw ⊢
  have harm := (outs_setAddress w (x.extractLsb' 0 7) hw.cfg).armed (k.armed hfree)
  have hk := setAddress_ends (x.extractLsb' 0 7) hw.shaped hw.numEp_pos
  generalize setAddress (x.extractLsb' 0 7) w = u at harm hk ⊢
  refine ⟨ArmsNext.bd_next hk, harm, ?_⟩
  rw [hk.rest, k.rest]

/-- Reception and bookkeeping touch nothing that the record of an address speaks of. -/
theorem RecordsAddress.of_completion {a : DevAddr} {par : Parity} {pid : BitVec 4} {n : Nat} {pkt : Bool} {w : Answer}
    {u : State} (c : Completes 0 .out par pid n pkt w s t) (k : RecordsAddress a (booked t) u) : RecordsAddress a s u :=
  ⟨k.status, k.armed, by rw [k.rest, booked_rest, c.rest]⟩

/-- Bytes that a memory holds are read back. -/
theorem HoldsAt.readBytes {w : Nat} {a : Addr} {b : List Byte} {m m' : Memory} (k : HoldsAt w a b m m') :
    readBytes w m' a b.length = b := by
  refine List.ext_getElem (length_readBytes ..) fun i h1 h2 => ?_
  simp only [Machine.readBytes, List.getElem_map, List.getElem_range]
  rw [k.bytes i h2]
  exact List.getD_eq_getElem _ _ h2

theorem keeps_booked (s : State) : Keeps s (booked s) := (keeps_ev s _).trans (keeps_bookCompletion _ _ _ _ _)

theorem State.Ep0OutReady.armed (h : s.Ep0OutReady) (hv : s.ev.trn = false) : s.Ep0OutArmed := by
  rwa [State.Ep0OutReady, if_neg (by simp [hv])] at h

/-- A SETUP packet to a quiet device with EP0 ready is taken whole (20 R91, 70 R441). -/
theorem setupLine_taken {b : List Byte} (hb : b.length = 8) (q : QuietEp0 s) (ha : s.Ep0OutArmed)
    (hn : 8 ≤ (s.bd 0 .out (s.nextPar 0 .out)).count.toNat) :
    Completes 0 .out (s.nextPar 0 .out) pidSetup 8 true .ack s (applyLine (.setup none b) s) ∧
      HoldsAt s.cfg.addrW (s.nextAddr 0 .out) b s.buf (applyLine (.setup none b) s).buf := by
  have hown : (s.bd 0 .out (s.nextPar 0 .out)).stat.own = true := by
    rw [ha _ (mem_parities.2 (validBd_nextPar q.ep_lt).2)]
    exact decide_eq_true rfl
  rw [← q.siePar] at hown hn
  obtain ⟨k, hbuf, -⟩ :=
    setupToken_completes (addr := none) q.sound (q.listens .out) (mute_eq_false.2 ⟨q.packets, hown⟩) q.trn hb hn
  rw [q.siePar] at k hbuf
  rw [applyLine, q.wake]
  exact ⟨k, hbuf⟩

/-- The SETUP packet of SET_ADDRESS, taken by a quiet device with EP0 ready, and its service (41 R194, 42 R240). -/
theorem setAddressSetup_records (x : Byte) (q : QuietEp0 s) (ha : s.Ep0OutArmed)
    (hn : 8 ≤ (s.bd 0 .out (s.nextPar 0 .out)).count.toNat) :
    ∃ u, isr (applyLine (.setup none [0x00, 0x05, x, 0x00, 0x00, 0x00, 0x00, 0x00]) s) = .next u ∧
      RecordsAddress (x.extractLsb' 0 7) s u ∧ QuietEp0 u := by
  have h1 := q.sound.numEp_pos
  generalize hb : [0x00, 0x05, x, 0x00, 0x00, 0x00, 0x00, 0x00] = b
  have hl : b.length = 8 := by rw [← hb]; rfl
  obtain ⟨k, hbuf⟩ := setupLine_taken hl q ha hn
  have hv := (keeps_applyLine s (.setup none b)).sound q.sound
  have hvi := (applyLine_keeps (.setup none b) q.sound.shaped).2 q.instep
  generalize applyLine (.setup none b) s = v at k hbuf hv hvi ⊢
  have hvev : v.ev = { evReset with trn := true } := by rw [k.rest, q.ev]
  have hread : readBytes (booked v).cfg.addrW (booked v).buf ((booked v).bd 0 .out (s.nextPar 0 .out)).address 8 = b := by
    have h := hbuf.readBytes
    rw [hl, State.nextAddr, ← k.address] at h
    rw [← h, booked_rest, k.rest]
    rfl
  have hfree : ∀ p ∈ parities (booked v).cfg.ppMode 0 .out, ((booked v).bd 0 .out p).stat.own = false := by
    have h := k.noneArmed h1 ha
    rw [k.rest] at h
    rw [booked_rest, k.rest]
    exact h
  have hserve := trnService_setup k h1
  have hisr := isr_of_trn hvev hserve
  have hu := (setupHandler_setAddress ((keeps_booked v).sound hv) (hread.trans hb.symm) hfree).of_completion k
  refine ⟨_, hisr, hu, (keepsR_trnService v _ hserve).sound hv, trn_instep hserve hv.shaped hvi (by rw [hvev]),
    isr_clears hisr, ?_, ?_, ?_, ?_⟩
  · rw [hu.rest]; exact q.awake
  · rw [hu.rest]; exact q.enable
  · rw [hu.rest]; exact q.ctrl
  · rw [hu.rest]

/-! The status packet and its service. -/

/-- The host's status packet to a quiet device with its answer armed gets that answer (20 R92, 40 R164). -/
theorem statusLine_answered (q : QuietEp0 s) (hb : s.bd 0 .inp (s.nextPar 0 .inp) = armedBd true 0 (s.nextAddr 0 .inp)) :
    Completes 0 .inp (s.nextPar 0 .inp) pidIn 0 false (.data true []) s (applyLine (.inp none 0 true) s) := by
  have hbd : s.bd 0 .inp (s.siePar 0 .inp) = armedBd true 0 (s.nextAddr 0 .inp) := by rw [q.siePar, hb]
  have hown : (s.bd 0 .inp (s.siePar 0 .inp)).stat.own = true := by rw [hbd]; rfl
  have hstall : BdStat.stallBit (s.bd 0 .inp (s.siePar 0 .inp)).stat = false := by rw [hbd]; rfl
  have k := (inLine_completes (addr := none) q.sound (q.listens .inp) (mute_eq_false.2 ⟨q.packets, hown⟩) hstall q.trn).1
  rw [hbd, q.siePar] at k
  rw [applyLine, q.wake]
  exact k

/-- A completion on EP0 IN leaves the EP0 OUT BDs and the parity that comes next there. -/
theorem Completes.spares {par : Parity} {pid : BitVec 4} {n : Nat} {pkt : Bool} {w : Answer}
    (k : Completes 0 .inp par pid n pkt w s t) : Spares s (booked t) := by
  have hc : (booked t).cfg = s.cfg := by rw [booked_rest, k.rest]
  have hl : t.sie.lastTrn.dir = .inp := by rw [k.rest]
  have he : (booked t).epsAt 0 .out = t.epsAt 0 .out := booked_other t 0 .out (.inr (by rw [hl]; decide))
  have hte : t.epsAt 0 .out = s.epsAt 0 .out := by rw [k.rest]; rfl
  have hbd : ∀ p, (booked t).bd 0 .out p = t.bd 0 .out p := fun p => by rw [booked_rest]; rfl
  exact ⟨hc, by rw [he, hte], fun p _ => .inl (by rw [hbd, k.bds 0 .out p (bdIndex_ne (.inr (by decide)))])⟩

/-- The service of the status packet commits the recorded address (41 R207). -/
theorem statusPacket_commits (q : QuietEp0 s) (ha : s.Ep0OutArmed) (hst : s.stage = .statusIn)
    (hb : s.bd 0 .inp (s.nextPar 0 .inp) = armedBd true 0 (s.nextAddr 0 .inp)) (hpend : s.addressPending = true) :
    ∃ t, isr (applyLine (.inp none 0 true) s) = .next t ∧ t.wire = .data true [] ∧ t.sie.address = s.pendingAddress ∧
      t.addressPending = false ∧ t.stage = .setup ∧
      t.deviceState = (if s.pendingAddress ≠ 0 then .address else .dflt) ∧ t.Ep0OutReady := by
  have k := statusLine_answered q hb
  have hv := (keeps_applyLine s (.inp none 0 true)).sound q.sound
  generalize applyLine (.inp none 0 true) s = v at k hv ⊢
  have hserve := trnService_statusIn k q.sound.numEp_pos hst
  have hisr := isr_of_trn (by rw [k.rest, q.ev]) hserve
  have hz := (keeps_booked v).sound hv
  have hpz : (booked v).addressPending = true := by rw [booked_rest, k.rest]; exact hpend
  have hcommit : commitAddress (booked v) = _ := if_pos hpz
  have harms := statusComplete_arms hz.shaped hz.numEp_pos
  have harmed := (outs_statusComplete (booked v) hz.cfg).armed (k.spares.armed ha)
  have hev := isr_clears hisr
  refine ⟨_, hisr, ?_, ?_, ?_, ?_, ?_, ?_⟩
  · rw [harms.rest, hcommit, booked_rest, k.rest]
  · rw [harms.rest, hcommit, booked_rest, k.rest]
  · rw [harms.rest, hcommit]
  · rw [harms.rest]
  · rw [harms.rest, hcommit, booked_rest, k.rest]
  · rw [State.Ep0OutReady, if_neg (by simp [hev, evReset])]
    exact harmed

end

/-- Settles O60: after the SETUP packet the address is recorded (`setAddressSetup_records`), after the status packet it is
committed (`statusPacket_commits`). -/
theorem setAddressTransferCommitsAfterStatus : Obligations.SetAddressTransferCommitsAfterStatus := by
  unfold Obligations.SetAddressTransferCommitsAfterStatus
  intro s x hs hi hr hev hd he hc hp hn
  have q : QuietEp0 s := ⟨hs, hi, hev, hd, he, hc, hp⟩
  obtain ⟨u, hu, k, qu⟩ := setAddressSetup_records x q (hr.armed q.trn) hn
  obtain ⟨t, ht, hwire, haddr, hpend, hstage, hdev, hready⟩ :=
    statusPacket_commits qu k.armed (by rw [k.rest]) k.status (by rw [k.rest])
  have hpa : u.pendingAddress = x.extractLsb' 0 7 := by rw [k.rest]
  refine ⟨u, t, hu, by rw [k.rest], hpa, by rw [k.rest], by rw [k.rest], by rw [k.rest],
    andThen_eq_next.2 ⟨u, hu, (runLines_single _ u).trans ht⟩, hwire, haddr.trans hpa, hpend, hstage, ?_, hready⟩
  rw [hdev, hpa]
  exact ite_not _ _ _

end Sys2Proof.Machine
end

section
/-! The standard requests (42; O28 to O34): what each does by the branch of its rule that applies, then the ends that the
statements name. The ends themselves are those of `Laws.Ops`. -/

namespace Sys2Proof.Machine

section

variable {s t : State}

/-! The three ends of a request, from any state that an operation reached (40 R168, 42 R231). -/

theorem Keeps.statusIn_ends (k : Keeps s t) (h : s.Shaped) (h1 : 1 ≤ s.cfg.numEp) : EndsStatusIn t (statusIn t) :=
  Machine.statusIn_ends (k.shaped h) (k.cfg.symm ▸ h1)

theorem Keeps.requestError_refuses (k : Keeps s t) (h : s.Shaped) (h1 : 1 ≤ s.cfg.numEp) :
    RefusesRequest t (requestError t) :=
  Machine.requestError_refuses (k.shaped h) (k.cfg.symm ▸ h1)

/-- An answer of at most two bytes stands in `ctl.scratch` when its DATA_IN stage starts (42 R231). -/
theorem answerScratch_answers (hs : s.Sound) (b : List Byte) (hb : b.length ≤ 2) : AnswersScratch b s (answerScratch b s) := by
  have ha := hs.addrs
  exact ⟨s.setScratch b, writeBytes_holds _ b hs.canonical.ram (by omega), rfl, rfl⟩

/-! GET_STATUS (42 R231, R232, R233). -/

/-- Bit 0 is self-powered, bit 1 remote wakeup (30 R116). -/
theorem deviceStatus_bits (wakeup powered : Bool) :
    (BitVec.ofBool wakeup ++ BitVec.ofBool powered).setWidth 8 =
      (if powered then (1 : Byte) else 0) ||| (if wakeup then 2 else 0) := by
  cases wakeup <;> cases powered <;> rfl

theorem bitByte_eq (b : Bool) : bitByte b = if b then 1 else 0 := by
  cases b <;> rfl

theorem getStatusDevice_eq (s : State) :
    getStatusDevice s = answerScratch [(if s.cfg.selfPowered then 1 else 0) ||| (if s.remoteWakeup then 2 else 0), 0] s := by
  rw [getStatusDevice, deviceStatus_bits]

theorem getStatusInterface_exists {iface : Byte} (h : iface.toNat < s.cfg.numInterfaces) :
    getStatusInterface iface s = answerScratch [0, 0] s := if_neg (Nat.not_le.2 h)

theorem getStatusInterface_missing {iface : Byte} (h : s.cfg.numInterfaces ≤ iface.toNat) :
    getStatusInterface iface s = requestError s := if_pos h

theorem getStatusEndpoint_exists {ep : Ep} (dir : Dir) (h : ep.toNat < s.cfg.numEp) :
    getStatusEndpoint ep dir s = answerScratch [if (s.epsAt ep dir).halted then 1 else 0, 0] s := by
  rw [getStatusEndpoint, if_neg (Nat.not_le.2 h), bitByte_eq]

theorem getStatusEndpoint_missing {ep : Ep} (dir : Dir) (h : s.cfg.numEp ≤ ep.toNat) :
    getStatusEndpoint ep dir s = requestError s := if_pos h

/-! SET_ADDRESS (42 R240). -/

theorem keeps_pendingAddress (s : State) (a : DevAddr) : Keeps s { s with pendingAddress := a, addressPending := true } :=
  ⟨rfl, rfl, rfl, rfl, rfl, id, id, id, id, id, id, id, id, fun _ => id⟩

/-! The endpoint features (42 R237, R238). -/

theorem haltRefused_iff {c : Config} {sel : Half} {ep : Ep} :
    haltRefused c sel ep = true ↔ sel ≠ 0 ∨ ep = 0 ∨ c.numEp ≤ ep.toNat := by
  simp [haltRefused, or_assoc]

theorem not_haltRefused {c : Config} {ep : Ep} (h0 : ep ≠ 0) (hep : ep.toNat < c.numEp) : ¬ haltRefused c 0 ep = true := by
  rw [haltRefused_iff]
  rintro (h | h | h)
  · exact h rfl
  · exact h0 h
  · exact Nat.not_le.2 hep h

/-! SET_CONFIGURATION (42 R248, R249). -/

theorem addressed_iff {d : DeviceState} : addressed d = true ↔ d = .address ∨ d = .configured := by
  simp [addressed]

theorem addressed_eq_false_iff {d : DeviceState} : addressed d = false ↔ d ≠ .address ∧ d ≠ .configured := by
  simp [addressed]

/-- The entries of a table from place `k` on, after a change of all of them. -/
theorem getD_take_append_map_drop {α : Type} (f : α → α) (l : List α) {k i : Nat} {d : α} (hd : f d = d) (hi : k ≤ i) :
    (l.take k ++ (l.drop k).map f).getD i d = f (l.getD i d) := by
  by_cases hl : k ≤ l.length
  · rw [getD_take_append _ _ _ _ _ hl hi, getD_map_same _ _ _ _ hd, getD_drop _ _ _ _ hi]
  · have hli : l.length ≤ i := by omega
    rw [List.take_of_length_le (by omega), List.drop_eq_nil_of_le (by omega), List.map_nil, List.append_nil,
      List.getD_eq_default _ _ hli, hd]

/-- The BDs of a non-zero endpoint come after those of endpoint 0 (20 R80). -/
theorem ep0Entries_le_bdIndex (m : PpMode) {ep : Ep} (dir : Dir) (par : Parity) (h : ep ≠ 0) :
    ep0Entries m ≤ bdIndex m ep dir par := by
  have hz := ep_toNat_ne_zero h
  cases m <;> simp only [ep0Entries, bdIndex, if_neg h] <;> omega

theorem bd_clearNonzero {ep : Ep} (dir : Dir) (par : Parity) (h : ep ≠ 0) :
    (clearNonzero s).bd ep dir par = { s.bd ep dir par with stat := statClear } :=
  getD_take_append_map_drop (fun b : Bd => { b with stat := statClear }) s.bdt rfl (ep0Entries_le_bdIndex _ dir par h)

theorem ctrlAt_clearNonzero {ep : Ep} (h : ep ≠ 0) : (clearNonzero s).ctrlAt ep = ctrlOff :=
  getD_take_append_map_drop (fun _ => ctrlOff) s.sie.epCtrl rfl (Nat.one_le_iff_ne_zero.2 (ep_toNat_ne_zero h))

theorem ctrlAt_clearNonzero_zero : (clearNonzero s).ctrlAt 0 = s.ctrlAt 0 := by
  unfold State.ctrlAt clearNonzero
  cases s.sie.epCtrl <;> rfl

theorem setConfigZero_addressed (h : s.deviceState = .address ∨ s.deviceState = .configured) :
    setConfigZero s = statusIn { s with deviceState := .address, currentConfiguration := 0 } := if_pos (addressed_iff.2 h)

theorem setConfigZero_refused (ha : s.deviceState ≠ .address) (hc : s.deviceState ≠ .configured) :
    setConfigZero s = requestError s := by
  rw [setConfigZero, addressed_eq_false_iff.2 ⟨ha, hc⟩]
  rfl

theorem setConfigNonzero_refused {v : Byte}
    (h : s.cfg.configDescs.length < v.toNat ∨ (s.deviceState ≠ .address ∧ s.deviceState ≠ .configured)) :
    setConfigNonzero v s = requestError s := if_pos (h.imp_right addressed_eq_false_iff.2)

/-- The machine right before `init()`: parities reset, the non-zero endpoints cleared, the value recorded (42 R248). -/
def tornDown (v : Byte) (s : State) : State := { clearNonzero (ppReset s) with currentConfiguration := v }

theorem keeps_tornDown (v : Byte) (s : State) : Keeps s (tornDown v s) :=
  keeps_device ((keeps_ppReset s).trans (keeps_clearNonzero _)) s.deviceState v

theorem setConfigNonzero_accepted {v : Byte} (hv : v.toNat ≤ s.cfg.configDescs.length)
    (h : s.deviceState = .address ∨ s.deviceState = .configured) :
    setConfigNonzero v s = statusIn { fnInit (tornDown v s) with deviceState := .configured } :=
  if_neg (not_or.2 ⟨Nat.not_lt.2 hv, by rw [addressed_iff.2 h]; decide⟩)

/-- A non-zero endpoint right before `init()`. -/
theorem tornDown_nonzero (v : Byte) (s : State) {ep : Ep} (dir : Dir) (h : ep ≠ 0) :
    (tornDown v s).epsAt ep dir = ⟨false, false, .odd⟩ ∧ (tornDown v s).ptrAt ep dir = .even ∧
      (tornDown v s).ctrlAt ep = ctrlOff ∧
      ∀ par, (tornDown v s).bd ep dir par = { s.bd ep dir par with stat := statClear } := by
  refine ⟨(epsAt_clearNonzero (ppReset s) ep dir h).trans ?_, ptrAt_ppReset s ep dir h, ctrlAt_clearNonzero h,
    fun par => bd_clearNonzero (s := ppReset s) dir par h⟩
  rw [epsAt_ppReset s ep dir h]

/-- Endpoint 0 is left as it was. -/
theorem tornDown_zero (v : Byte) (s : State) (dir : Dir) (par : Parity) :
    (tornDown v s).epsAt 0 dir = s.epsAt 0 dir ∧ (tornDown v s).ptrAt 0 dir = s.ptrAt 0 dir ∧
      (tornDown v s).ctrlAt 0 = s.ctrlAt 0 ∧ (tornDown v s).bd 0 dir par = s.bd 0 dir par :=
  ⟨(epsAt_clearNonzero_zero (ppReset s) dir).trans (epsAt_ppReset_zero s dir), ptrAt_ppReset_zero s dir,
    ctrlAt_clearNonzero_zero (s := ppReset s), bd_clearNonzero_zero (ppReset s) dir par⟩

/-! The descriptors in ROM (42 R242 to R244, log 22). -/

/-- The descriptor store fits the ROM space (00 R15). -/
theorem rom_fits {c : Config} (h : c.wf = true) : (rom c).length + c.romBase ≤ 2 ^ c.addrW := by
  simp only [Config.wf, Config.romOk, Bool.and_eq_true, decide_eq_true_eq] at h
  have hr : @LE.le Nat _ _ _ := h.1.1.2
  simp only [rom, List.length_append]
  omega

theorem le16_toNat (b0 b1 : Byte) : (le16 b0 b1).toNat = b0.toNat + 256 * b1.toNat := by
  rw [le16, BitVec.toNat_append, ← Nat.shiftLeft_add_eq_or_of_lt b0.isLt, Nat.shiftLeft_eq]
  omega

/-- Every descriptor names its own length (00 R10). -/
theorem descriptor_lengths {c : Config} (h : c.wf = true) :
    c.deviceDesc.length = 18 ∧ (∀ d ∈ c.configDescs, (le16 (byteAt d 2) (byteAt d 3)).toNat = d.length) ∧
      ∀ d ∈ c.stringDescs, (byteAt d 0).toNat = d.length := by
  have hw : c.descriptorsOk = true := by
    simp only [Config.wf, Bool.and_eq_true] at h
    exact h.1.1.1.1.1.1.1.1.1.2
  simp only [Config.descriptorsOk, Bool.and_eq_true, beq_iff_eq, List.all_eq_true] at hw
  obtain ⟨⟨⟨⟨⟨⟨hdev, -⟩, -⟩, -⟩, -⟩, hconf⟩, hstr⟩ := hw
  exact ⟨hdev, fun d hm => (le16_toNat _ _).trans (hconf d hm).2, fun d hm => (hstr d hm).2⟩

/-- A list of lists around its entry `i`. -/
theorem flatten_eq_around {α : Type} {l : List (List α)} {i : Nat} {d : List α} (h : l[i]? = some d) :
    l.flatten = (l.take i).flatten ++ d ++ (l.drop (i + 1)).flatten := by
  obtain ⟨hi, rfl⟩ := List.getElem?_eq_some_iff.1 h
  calc l.flatten = (l.take i ++ l[i] :: l.drop (i + 1)).flatten := by
        rw [← List.drop_eq_getElem_cons hi, List.take_append_drop]
    _ = _ := by rw [List.flatten_append, List.flatten_cons, List.append_assoc]

theorem romBytes_deviceDesc {c : Config} (h : c.wf = true) : romBytes c (deviceDescPtr c) 18 = c.deviceDesc := by
  have hd := (descriptor_lengths h).1
  have hf := rom_fits h
  have hl : 18 ≤ (rom c).length := by simp only [rom, List.length_append, hd]; omega
  have hp : place c.addrW c.romBase 0 = deviceDescPtr c := place_zero (by omega)
  have hr := romBytes_of_rom c (by omega) [] c.deviceDesc
    (c.configDescs.flatten ++ c.stringDescs.flatten ++ c.hid.hidDesc ++ c.hid.reportDesc) (by simp [rom])
  rwa [List.length_nil, hp, hd] at hr

theorem romBytes_configDesc {c : Config} (h : c.wf = true) {i : Nat} {d : List Byte} (hi : c.configDescs[i]? = some d) :
    romBytes c (configDescPtr c i) d.length = d := by
  have hr := romBytes_of_rom c (Nat.add_comm _ _ ▸ rom_fits h) (c.deviceDesc ++ (c.configDescs.take i).flatten) d
    ((c.configDescs.drop (i + 1)).flatten ++ c.stringDescs.flatten ++ c.hid.hidDesc ++ c.hid.reportDesc)
    (by simp [rom, flatten_eq_around hi])
  rwa [List.length_append] at hr

theorem romBytes_stringDesc {c : Config} (h : c.wf = true) {i : Nat} {d : List Byte} (hi : c.stringDescs[i]? = some d) :
    romBytes c (stringDescPtr c i) d.length = d := by
  have hr := romBytes_of_rom c (Nat.add_comm _ _ ▸ rom_fits h)
    (c.deviceDesc ++ c.configDescs.flatten ++ (c.stringDescs.take i).flatten) d
    ((c.stringDescs.drop (i + 1)).flatten ++ c.hid.hidDesc ++ c.hid.reportDesc) (by simp [rom, flatten_eq_around hi])
  rwa [List.length_append, List.length_append] at hr

theorem getDescConfig_of_some {i : Byte} {d : List Byte} (h : s.cfg.configDescs[i.toNat]? = some d) :
    getDescConfig i s =
      startDataIn .rom (configDescPtr s.cfg i.toNat) (le16 (byteAt d 2) (byteAt d 3)).toNat s := by
  rw [getDescConfig, h]
  rfl

theorem getDescConfig_of_length_le {i : Byte} (h : s.cfg.configDescs.length ≤ i.toNat) :
    getDescConfig i s = requestError s := by
  rw [getDescConfig, List.getElem?_eq_none h]

theorem getDescString_of_some {i : Byte} {d : List Byte} (h : s.cfg.stringDescs[i.toNat]? = some d) :
    getDescString i s = startDataIn .rom (stringDescPtr s.cfg i.toNat) (byteAt d 0).toNat s := by
  rw [getDescString, h]

theorem getDescString_of_length_le {i : Byte} (h : s.cfg.stringDescs.length ≤ i.toNat) :
    getDescString i s = requestError s := by
  rw [getDescString, List.getElem?_eq_none h]

theorem getDescClass_refused (h : (getClassDescriptor s).reply.accepted = false) :
    getDescClass s = requestError (getClassDescriptor s) := by
  simp [getDescClass, h]

theorem getDescClass_data {src : Source} {ptr : Addr} {len : Nat} (h : (getClassDescriptor s).reply.accepted = true)
    (hk : (getClassDescriptor s).reply.kind = .dataIn src ptr len) :
    getDescClass s = startDataIn src ptr len (getClassDescriptor s) := by
  simp [getDescClass, h, hk]

/-! The interface requests (42 R250, R251). -/

theorem getInterface_accepted {iface : Byte} (h : (getInterfaceHook iface s).reply.accepted = true) :
    getInterface iface s = answerScratch [(getInterfaceHook iface s).reply.alt] (getInterfaceHook iface s) := if_pos h

theorem getInterface_refused {iface : Byte} (h : (getInterfaceHook iface s).reply.accepted = false) :
    getInterface iface s = requestError (getInterfaceHook iface s) := by
  simp [getInterface, h]

theorem setInterface_accepted {alt iface : Byte} (h : (setInterfaceHook alt iface s).reply.accepted = true) :
    setInterface alt iface s =
      statusIn (clearToggles (interfaceEndpoints iface (setInterfaceHook alt iface s)).reply.endpoints
        (interfaceEndpoints iface (setInterfaceHook alt iface s))) := if_pos h

theorem setInterface_refused {alt iface : Byte} (h : (setInterfaceHook alt iface s).reply.accepted = false) :
    setInterface alt iface s = requestError (setInterfaceHook alt iface s) := by
  simp [setInterface, h]

theorem clearToggles_rest (l : List (Ep × Dir)) (s : State) :
    clearToggles l s = { s with eps := (clearToggles l s).eps } := by
  induction l generalizing s with
  | nil => rfl
  | cons e r ih => exact ih (setToggle e.1 e.2 false s)

theorem epsAt_setToggle_of_ne {e : Ep × Dir} {ep : Ep} {dir : Dir} (v : Bool) (h : (ep, dir) ≠ e) :
    (setToggle e.1 e.2 v s).epsAt ep dir = s.epsAt ep dir :=
  State.epsAt_setEps_other _ (not_and_or.1 fun hc => h (Prod.ext hc.1 hc.2))

theorem epsAt_clearToggles_of_not_mem {l : List (Ep × Dir)} {ep : Ep} {dir : Dir} (h : (ep, dir) ∉ l) :
    (clearToggles l s).epsAt ep dir = s.epsAt ep dir := by
  induction l generalizing s with
  | nil => rfl
  | cons e r ih =>
    exact (ih (s := setToggle e.1 e.2 false s) (List.not_mem_of_not_mem_cons h)).trans
      (epsAt_setToggle_of_ne false (List.ne_of_not_mem_cons h))

/-- A direction may be reported more than once: its last clear leaves what its first one left. -/
theorem epsAt_clearToggles_of_mem {l : List (Ep × Dir)} {ep : Ep} {dir : Dir} (hl : epsIndex ep dir < s.eps.length)
    (h : (ep, dir) ∈ l) : (clearToggles l s).epsAt ep dir = { s.epsAt ep dir with toggle := false } := by
  induction l generalizing s with
  | nil => cases h
  | cons e r ih =>
    have hu : epsIndex ep dir < (setToggle e.1 e.2 false s).eps.length := by rwa [(keeps_setToggle s e.1 e.2 false).eps]
    have rest : (ep, dir) ∈ r → (clearToggles (e :: r) s).epsAt ep dir =
        { (setToggle e.1 e.2 false s).epsAt ep dir with toggle := false } := ih hu
    by_cases he : (ep, dir) = e
    · subst he
      have own := epsAt_setToggle hl false
      by_cases hr : (ep, dir) ∈ r
      · rw [rest hr, own]
      · exact (epsAt_clearToggles_of_not_mem hr).trans own
    · rw [rest ((List.mem_cons.1 h).resolve_left he), epsAt_setToggle_of_ne false he]

end

/-- Settles O28: every one of these rows runs `request_error`. -/
theorem unsupportedRequestsAreRefused : Obligations.UnsupportedRequestsAreRefused := by
  unfold Obligations.UnsupportedRequestsAreRefused
  intro s code hs h1 i hi
  refine ⟨requestError s, ?_, requestError_refuses hs h1⟩
  simp only [List.mem_cons, List.not_mem_nil, or_false] at hi
  obtain rfl | rfl | rfl | rfl | rfl | rfl | rfl | rfl | rfl | rfl := hi <;> rfl

/-- Settles O29: each request is an answer in `ctl.scratch` (`answerScratch_answers`), or `request_error` of what does not
exist. -/
theorem statusAndConfigurationAnswers : Obligations.StatusAndConfigurationAnswers := by
  unfold Obligations.StatusAndConfigurationAnswers
  intro s hs
  have refused := requestError_refuses hs.shaped hs.numEp_pos
  refine ⟨⟨_, rfl, ?_⟩, fun iface => ⟨fun hl => ⟨_, rfl, ?_⟩, fun hl => ⟨_, rfl, ?_⟩⟩,
    fun ep dir => ⟨fun hl => ⟨_, rfl, ?_⟩, fun hl => ⟨_, rfl, ?_⟩⟩, _, rfl, answerScratch_answers hs _ (by simp)⟩
  · rw [getStatusDevice_eq]
    exact answerScratch_answers hs _ (by simp)
  · rw [getStatusInterface_exists hl]
    exact answerScratch_answers hs _ (by simp)
  · rwa [getStatusInterface_missing hl]
  · rw [getStatusEndpoint_exists dir hl]
    exact answerScratch_answers hs _ (by simp)
  · rwa [getStatusEndpoint_missing dir hl]

/-- Settles O30: selector 1 writes the flag and ends with STATUS_IN, any other is `request_error`; the recorded address is two
registers of the engine, not of the SIE. -/
theorem deviceFeaturesAndAddress : Obligations.DeviceFeaturesAndAddress := by
  unfold Obligations.DeviceFeaturesAndAddress
  intro s sel hs h1
  have refused := requestError_refuses hs h1
  refine ⟨fun h => ⟨⟨_, congrArg Host.Outcome.next (if_pos h), ?_⟩, ⟨_, congrArg Host.Outcome.next (if_pos h), ?_⟩⟩,
    fun h => ⟨⟨_, congrArg Host.Outcome.next (if_neg h), refused⟩, ⟨_, congrArg Host.Outcome.next (if_neg h), refused⟩⟩,
    fun a => ⟨_, rfl, ?_⟩⟩
  · exact (keeps_remoteWakeup s false).statusIn_ends hs h1
  · exact (keeps_remoteWakeup s true).statusIn_ends hs h1
  · exact (keeps_pendingAddress s a).statusIn_ends hs h1

/-- Settles O31: `haltRefused` is the refusing condition; otherwise the clear is `unstall_ep` and the hook, the set is
`stall_ep` (`stallEp_stalls`). -/
theorem endpointFeatures : Obligations.EndpointFeatures := by
  unfold Obligations.EndpointFeatures
  intro s sel ep dir hs
  have h1 := hs.numEp_pos
  refine ⟨fun h h0 hep => ?_, fun h => ?_⟩
  · subst h
    have hr := not_haltRefused h0 hep
    refine ⟨⟨_, _, _, rfl, rfl, congrArg Host.Outcome.next (if_neg hr), ?_⟩,
      ⟨_, _, stallEp_stalls hs.shaped hep, congrArg Host.Outcome.next (if_neg hr), ?_⟩⟩
    · exact ((keeps_unstallEp s ep dir).trans (keeps_clearHalt _ _ ep dir)).statusIn_ends hs.shaped h1
    · exact (keeps_stallEp s ep dir).statusIn_ends hs.shaped h1
  · have hr := haltRefused_iff.2 h
    have refused := requestError_refuses hs.shaped h1
    exact ⟨⟨_, congrArg Host.Outcome.next (if_pos hr), refused⟩, _, congrArg Host.Outcome.next (if_pos hr), refused⟩

/-- Settles O32: a descriptor in range starts a DATA_IN stage at its place in the store, where `romBytes_of_rom` finds its
bytes; the length that it names is its own (`descriptor_lengths`). -/
theorem descriptorsAreSentFromRom : Obligations.DescriptorsAreSentFromRom := by
  unfold Obligations.DescriptorsAreSentFromRom
  intro s hs
  have h1 := hs.numEp_pos
  have refused := requestError_refuses hs.shaped h1
  obtain ⟨-, hconf, hstr⟩ := descriptor_lengths hs.cfg
  refine ⟨⟨_, rfl, rfl⟩, romBytes_deviceDesc hs.cfg, fun i d hd => ⟨⟨_, rfl, ?_⟩, ?_⟩, fun i hi => ⟨_, rfl, ?_⟩,
    fun i d hd => ⟨⟨_, rfl, ?_⟩, ?_⟩, fun i hi => ⟨_, rfl, ?_⟩, _, _, rfl, rfl, fun ha => ?_, fun src ptr len ha hk => ?_⟩
  · rw [getDescConfig_of_some hd]
    rfl
  · rw [hconf d (List.mem_of_getElem? hd)]
    exact romBytes_configDesc hs.cfg hd
  · rwa [getDescConfig_of_length_le hi]
  · rw [getDescString_of_some hd]
    rfl
  · rw [hstr d (List.mem_of_getElem? hd)]
    exact romBytes_stringDesc hs.cfg hd
  · rwa [getDescString_of_length_le hi]
  · rw [getDescClass_refused ha]
    exact (keeps_getClassDescriptor s).requestError_refuses hs.shaped h1
  · rw [getDescClass_data ha hk]
    rfl

/-- Settles O33: the state before `init()` is `tornDown`, of which `tornDown_nonzero` and `tornDown_zero` say everything. -/
theorem setConfigurationByValueAndState : Obligations.SetConfigurationByValueAndState := by
  unfold Obligations.SetConfigurationByValueAndState
  refine ⟨fun s hs h1 i hi => ?_, fun s v hs hv i hi => ?_⟩
  · have he : exec i s = .next (setConfigZero s) := by
      simp only [List.mem_cons, List.not_mem_nil, or_false] at hi
      obtain rfl | rfl := hi <;> rfl
    refine ⟨fun h => ⟨_, he, ?_⟩, fun ha hc => ⟨_, he, ?_⟩⟩
    · rw [setConfigZero_addressed h]
      exact (keeps_device (.refl s) .address 0).statusIn_ends hs h1
    · rw [setConfigZero_refused ha hc]
      exact requestError_refuses hs h1
  · have h1 := hs.numEp_pos
    have he : exec i s = .next (setConfigNonzero v s) := by
      simp only [List.mem_cons, List.not_mem_nil, or_false] at hi
      obtain rfl | rfl := hi
      · exact congrArg Host.Outcome.next (if_neg hv)
      · rfl
    refine ⟨fun h => ⟨_, he, ?_⟩, fun hl h => ⟨tornDown v s, fnInit (tornDown v s), _, rfl, he, ?_,
      fun ep dir h0 _ => ?_, tornDown_zero v s, rfl⟩⟩
    · rw [setConfigNonzero_refused h]
      exact requestError_refuses hs.shaped h1
    · rw [setConfigNonzero_accepted hl h]
      exact (keeps_device ((keeps_tornDown v s).trans (keeps_fnInit _)) .configured _).statusIn_ends hs.shaped h1
    · obtain ⟨heps, hptr, hctrl, hbd⟩ := tornDown_nonzero v s dir h0
      exact ⟨heps, hptr, hctrl, fun par _ => hbd par⟩

/-- Settles O34: the hook's answer is the condition of both requests; the toggles are those of `clearToggles`. -/
theorem interfaceRequests : Obligations.InterfaceRequests := by
  unfold Obligations.InterfaceRequests
  intro s alt iface hs
  have h1 := hs.numEp_pos
  have kg := keeps_getInterfaceHook s iface
  have ks := keeps_setInterfaceHook s alt iface
  have kx := ks.trans (keeps_interfaceEndpoints _ iface)
  refine ⟨⟨_, _, rfl, rfl, fun ha => ?_, fun ha => ?_⟩, ⟨_, _, rfl, rfl, fun ha => ?_, fun ha => ?_⟩⟩
  · rw [getInterface_accepted ha]
    exact answerScratch_answers (kg.sound hs) _ (by simp)
  · rw [getInterface_refused ha]
    exact kg.requestError_refuses hs.shaped h1
  · rw [setInterface_refused ha]
    exact ks.requestError_refuses hs.shaped h1
  · rw [setInterface_accepted ha]
    refine ⟨_, _, rfl, (kx.trans (keeps_clearToggles _ _)).statusIn_ends hs.shaped h1, fun e he hl => ?_,
      fun ep dir hn => epsAt_clearToggles_of_not_mem hn, clearToggles_rest _ _⟩
    exact epsAt_clearToggles_of_mem ((kx.shaped hs.shaped).eps_lt (kx.cfg.symm ▸ hl)) he

end Sys2Proof.Machine
end

section
/-! The hooks of the function port (43): what no hook touches (O36), what each does where MSC is bound (O35). -/

namespace Sys2Proof.Machine

section Rights

variable {s t : State} {i : Instr}

/-- No hook touches endpoint 0 or the control engine (43 R278). -/
theorem apart_hook (hw : s.cfg.wf = true) (hi : isHook i = true) (hiw : i.wf s.cfg = true) (h : exec i s = .next t) :
    Apart s t := by
  cases i
  case hookClassRequest => cases h; exact away_classRequest s hw
  case hookGetClassDescriptor => cases h; exact away_getClassDescriptor s hw
  case hookInit => cases h; exact away_fnInit s hw
  case hookTasks ep dir par n => exact awayR_fnTasks s ep dir par n t h hw
  case hookClearHalt k ep dir =>
    cases h
    have h0 : ep ≠ 0 := bne_iff_ne.1 ((Bool.and_eq_true _ _).mp hiw).2
    exact away_clearHalt s k ep dir h0 hw
  case hookSetInterface alt iface => cases h; exact away_setInterfaceHook s alt iface hw
  case hookGetInterface iface => cases h; exact away_getInterfaceHook s iface hw
  case hookOutControlFinished => cases h; exact away_outControlFinished s hw
  case hookInterfaceEndpoints iface => cases h; exact away_interfaceEndpoints s iface hw
  all_goals cases hi

/-- `tasks()` returns while the ring has room (44 R293). -/
theorem fnTasks_returns (ep : Ep) (dir : Dir) (par : Parity) (n : Nat) (hq : s.bot.q.length < 4) :
    ∃ t, fnTasks ep dir par n s = .next t := by
  unfold fnTasks
  split
  · unfold botEnqueue
    rw [if_neg (Nat.not_le.2 hq)]
    split <;> exact ⟨_, rfl⟩
  all_goals exact ⟨_, rfl⟩

/-- Every hook returns while the ring has room. -/
theorem hook_returns (hi : isHook i = true) (hq : s.bot.q.length < 4) : ∃ t, exec i s = .next t := by
  cases i
  case hookTasks ep dir par n => exact fnTasks_returns ep dir par n hq
  case hookClassRequest | hookGetClassDescriptor | hookInit | hookClearHalt | hookSetInterface | hookGetInterface |
    hookOutControlFinished | hookInterfaceEndpoints => exact ⟨_, rfl⟩
  all_goals cases hi

end Rights

/-! The RAM of the MSC function is `bot.lun_byte` alone (10 R35). -/

section Ram

variable {s t : State} {i : Instr} {ep : Ep} {dir : Dir}

/-- The HAL touches no RAM. -/
theorem HalKeeps.ram (k : HalKeeps s t) : t.ram = s.ram := by rw [k.rest]

@[simp] theorem rearmNext_ram (tog : Bool) (n : Nat) : (rearmNext ep dir tog n s).ram = s.ram :=
  (hal_rearm _ _ _ _ _ _).ram

theorem bulkArmOut_ram (n : Nat) : (bulkArmOut n s).ram = s.ram := rearmNext_ram _ _

theorem sendCsw_ram : (sendCsw s).ram = s.ram := by
  have h : (senseOnComplete s).ram = s.ram := by unfold senseOnComplete; split <;> rfl
  simp [sendCsw, bulkArmIn, loadCsw, h]

theorem botClearHalt_ram (k : Nat) : (botClearHalt k ep dir s).ram = s.ram := by
  unfold botClearHalt
  split
  · exact (hal_stallEp s ep dir).ram
  · split
    exacts [sendCsw_ram, rfl]
  · split
    exacts [bulkArmOut_ram _, rfl]
  all_goals rfl

theorem bomsr_ram : (bomsr s).ram = s.ram := by
  have hin : (readyBulkIn (clearBot s)).ram = s.ram := by
    unfold readyBulkIn
    split
    exacts [rfl, (hal_forParities (clearBot s) _ .inp (reclaim _ .inp) fun p t => hal_setBd t _ _ p _).ram]
  show (readyBulkOut (readyBulkIn (clearBot s))).ram = s.ram
  unfold readyBulkOut
  split
  exacts [hin, (bulkArmOut_ram _).trans hin]

theorem botInit_ram : (botInit s).ram = s.ram := by
  have hc : ∀ u : State, (bulkCtrl u).ram = u.ram := fun u => by unfold bulkCtrl; split <;> rfl
  unfold botInit
  dsimp only
  rw [bulkArmOut_ram, hc, (hal_setAddresses _ _ _).ram, (hal_setAddresses _ _ _).ram]
  rfl

/-- A hook of MSC writes no RAM but `bot.lun_byte` (44 R314). -/
theorem msc_hook_ram (hs : s.Sound) (hf : s.cfg.function = .msc) (hi : isHook i = true) (h : exec i s = .next t)
    {k : Nat} (hk : k ≠ place s.cfg.addrW s.cfg.lunAddr 0) : memRead t.ram k = memRead s.ram k := by
  suffices e : t.ram = s.ram ∨ t = getMaxLun s by
    obtain e | rfl := e
    · rw [e]
    · refine memRead_writeBytes_other _ _ _ _ _ hs.canonical.ram fun j hj => ?_
      rw [Nat.lt_one_iff.1 hj]
      exact hk
  cases i
  case hookClassRequest =>
    cases h
    simp only [classRequest, hf, mscClassRequest]
    split
    · exact .inl bomsr_ram
    · split
      exacts [.inr rfl, .inl rfl]
  case hookGetClassDescriptor => cases h; simp only [getClassDescriptor, hf]; exact .inl rfl
  case hookInit => cases h; simp only [fnInit, hf]; exact .inl botInit_ram
  case hookTasks ep dir par n =>
    have h : fnTasks ep dir par n s = .next t := h
    simp only [fnTasks, hf, botEnqueue] at h
    split at h
    · split at h
      · cases h
      · cases h; exact .inl rfl
    · cases h; exact .inl rfl
  case hookClearHalt k ep dir => cases h; simp only [clearHalt, hf]; exact .inl (botClearHalt_ram k)
  case hookSetInterface a b => cases h; simp only [setInterfaceHook, hf]; split <;> exact .inl rfl
  case hookGetInterface a => cases h; simp only [getInterfaceHook, hf]; split <;> exact .inl rfl
  case hookOutControlFinished => cases h; simp only [outControlFinished, hf]; exact .inl rfl
  case hookInterfaceEndpoints a => cases h; simp only [interfaceEndpoints, hf]; exact .inl rfl
  all_goals cases hi

/-- A hook writes no RAM but the function's own, MSC's being `bot.lun_byte` (43 R278, 10 R35). -/
theorem hook_ram (hs : s.Sound) (hi : isHook i = true) (h : exec i s = .next t) {k : Nat}
    (hown : ¬OwnRam s.cfg k) (hlun : s.cfg.function = .msc → k ≠ place s.cfg.addrW s.cfg.lunAddr 0) :
    memRead t.ram k = memRead s.ram k := by
  by_cases hf : s.cfg.function = .msc
  · exact msc_hook_ram hs hf hi h (hlun hf)
  · exact (rights_hook hs.cfg hf hi h).ram hs.canonical.ram k hown

/-- The bytes of `ctl.scratch` are no RAM of the function's own (10 R27). -/
theorem scratch_not_own (hs : s.Sound) {j : Nat} (hj : j < 2) :
    ¬OwnRam s.cfg (place s.cfg.addrW s.cfg.scratch j) ∧
      place s.cfg.addrW s.cfg.scratch j ≠ place s.cfg.addrW s.cfg.lunAddr 0 := by
  have hc := hs.cfg
  simp only [Config.wf, Config.ramOk, Bool.and_eq_true, List.all_eq_true, decide_eq_true_eq, List.pairwise_cons] at hc
  obtain ⟨hfit, hapart, -⟩ := hc.1.1.1.2
  have key : ∀ x ∈ (s.cfg.lunAddr, 1) :: functionRam s.cfg, ∀ i, i < x.2 →
      place s.cfg.addrW s.cfg.scratch j ≠ place s.cfg.addrW x.1 i := fun x hx i hi hcon => by
    have hx1 := hfit x (List.mem_cons_of_mem _ hx)
    have hs1 := hfit _ List.mem_cons_self
    have ha := hapart x hx
    unfold place at hcon
    simp only [Addr] at *
    rw [Nat.mod_eq_of_lt (by omega), Nat.mod_eq_of_lt (by omega)] at hcon
    omega
  exact ⟨fun ⟨x, hx, i, hi, e⟩ => key x (List.mem_cons_of_mem _ hx) i hi e, key _ List.mem_cons_self 0 Nat.zero_lt_one⟩

end Ram

/-! The BDs that an `init()` leaves (43 R273, R280). -/

section Addresses

variable {s t u : State} {ep : Ep} {dir : Dir}

/-- No BD's address changed. -/
structure KeepsAddresses (s t : State) : Prop where
  cfg : t.cfg = s.cfg
  address : ∀ e d p, (t.bd e d p).address = (s.bd e d p).address

theorem KeepsAddresses.refl (s : State) : KeepsAddresses s s := ⟨rfl, fun _ _ _ => rfl⟩

theorem KeepsAddresses.trans (a : KeepsAddresses s t) (b : KeepsAddresses t u) : KeepsAddresses s u :=
  ⟨b.cfg.trans a.cfg, fun e d p => (b.address e d p).trans (a.address e d p)⟩

theorem keepsAddresses_of_bdt (hc : t.cfg = s.cfg) (hb : t.bdt = s.bdt) : KeepsAddresses s t :=
  ⟨hc, fun e d p => by simp only [State.bd, hc, hb]⟩

theorem keepsAddresses_setCtrl (c : EpCtrl) : KeepsAddresses s (s.setCtrl ep c) := keepsAddresses_of_bdt rfl rfl

theorem keepsAddresses_foldl {α : Type} (l : List α) (f : State → α → State) (hf : ∀ t a, KeepsAddresses t (f t a))
    (s : State) : KeepsAddresses s (l.foldl f s) := by
  induction l generalizing s with
  | nil => exact .refl s
  | cons a r ih => exact (hf s a).trans (ih _)

/-- What a written BD has in common with the BD that stood there, every BD still has. -/
theorem proj_bd_setBd {α : Type} (f : Bd → α) (par : Parity) {b : Bd} (hb : f b = f (s.bd ep dir par)) (e : Ep) (d : Dir)
    (p : Parity) : f ((s.setBd ep dir par b).bd e d p) = f (s.bd e d p) := by
  by_cases hx : bdIndex s.cfg.ppMode e d p = bdIndex s.cfg.ppMode ep dir par
  · by_cases hl : bdIndex s.cfg.ppMode ep dir par < s.bdt.length
    · have hs : s.bd e d p = s.bd ep dir par := by simp only [State.bd, hx]
      have ht : (s.setBd ep dir par b).bd e d p = (s.setBd ep dir par b).bd ep dir par := by
        simp only [State.bd, setBd_cfg, hx]
      rw [ht, State.bd_setBd b hl, hs, hb]
    · rw [show s.setBd ep dir par b = s by simp only [State.setBd, List.set_eq_of_length_le (Nat.le_of_not_lt hl)]]
  · rw [State.bd_setBd_of_ne b hx]

theorem keepsAddresses_setStat (s : State) (ep : Ep) (dir : Dir) (par : Parity) (t : BdStat) (n : Count) :
    KeepsAddresses s (s.setBd ep dir par { s.bd ep dir par with stat := t, count := n }) :=
  ⟨rfl, proj_bd_setBd Bd.address par rfl⟩

theorem keepsAddresses_armBd (par : Parity) (tog : Bool) (n : Nat) : KeepsAddresses s (armBd ep dir par tog n s) := by
  unfold armBd
  split
  · exact (keepsAddresses_setStat s ep dir par _ _).trans (keepsAddresses_of_bdt rfl rfl)
  · exact keepsAddresses_setStat s ep dir par _ _

theorem keepsAddresses_reclaim (par : Parity) : KeepsAddresses s (reclaim ep dir par s) :=
  keepsAddresses_setStat s ep dir par _ _

theorem keepsAddresses_rearm (par : Parity) (tog : Bool) (n : Nat) : KeepsAddresses s (rearm ep dir par tog n s) := by
  unfold rearm
  split
  · exact (keepsAddresses_reclaim par).trans (keepsAddresses_armBd par tog n)
  · exact keepsAddresses_armBd par tog n

theorem keepsAddresses_stallEp : KeepsAddresses s (stallEp ep dir s) := by
  have k : KeepsAddresses s (forParities ep dir (stall ep dir) s) :=
    keepsAddresses_foldl _ _ (fun t p => keepsAddresses_setStat t ep dir p _ _) s
  unfold stallEp
  dsimp only
  split
  exacts [k, k.trans (keepsAddresses_of_bdt rfl rfl)]

theorem keepsAddresses_fnFill (par : Parity) (b : List Byte) : KeepsAddresses s (fnFill ep dir par b s) := by
  unfold fnFill
  split
  · rw [fillOwn_rest]
    exact keepsAddresses_of_bdt rfl rfl
  · exact .refl s

theorem keepsAddresses_fnCall (i : Bool) (f : FnCall) : KeepsAddresses s (fnCall i s f) := by
  unfold fnCall
  cases f with
  | reclaim ep dir par => dsimp only; split; exacts [keepsAddresses_reclaim par, .refl s]
  | armOut ep par tog n => dsimp only; split; exacts [keepsAddresses_armBd par tog n, .refl s]
  | armIn ep par tog n => dsimp only; split; exacts [keepsAddresses_armBd par tog n, .refl s]
  | rearmOut ep par tog n => dsimp only; split; exacts [keepsAddresses_rearm par tog n, .refl s]
  | rearmIn ep par tog n => dsimp only; split; exacts [keepsAddresses_rearm par tog n, .refl s]
  | stallEp ep dir => dsimp only; split; exacts [keepsAddresses_stallEp, .refl s]
  | setCtrl ep c => dsimp only; split; exacts [keepsAddresses_setCtrl c, .refl s]
  | fill ep dir par b => exact keepsAddresses_fnFill par b

theorem keepsAddresses_fnWrite (w : Addr × Byte) : KeepsAddresses s (fnWrite s w) := by
  unfold fnWrite
  split
  exacts [keepsAddresses_of_bdt rfl rfl, .refl s]

theorem keepsAddresses_answerHook (i : Bool) (a : FnAnswer) : KeepsAddresses s (answerHook i a s) :=
  ((keepsAddresses_foldl _ _ (fun _ f => keepsAddresses_fnCall i f) s).trans
    (keepsAddresses_foldl _ _ (fun _ w => keepsAddresses_fnWrite w) _)).trans (keepsAddresses_of_bdt rfl rfl)

/-- The BDs of the endpoint directions `l` have the addresses of their buffers. -/
def State.AtHome (s : State) (l : List (Ep × Dir)) : Prop :=
  ∀ x ∈ l, ∀ par ∈ parities s.cfg.ppMode x.1 x.2, (s.bd x.1 x.2 par).address = s.bufAddr x.1 x.2 par

theorem State.AtHome.of_subset {l r : List (Ep × Dir)} (h : s.AtHome r) (hl : l ⊆ r) : s.AtHome l :=
  fun x hx => h x (hl hx)

theorem KeepsAddresses.atHome {l : List (Ep × Dir)} (k : KeepsAddresses s t) (h : s.AtHome l) : t.AtHome l :=
  fun x hx par hp => by
    rw [k.cfg] at hp
    simp only [k.address, State.bufAddr, k.cfg]
    exact h x hx par hp

/-- The SIE owns no BD of a function. -/
def State.FnFree (s : State) : Prop := ∀ e d p, e ≠ 0 → (s.bd e d p).stat.own = false

/-- The address writes of an `init()` leave every status byte. -/
theorem stat_setAddresses (s : State) (ep : Ep) (dir : Dir) (e : Ep) (d : Dir) (p : Parity) :
    ((setAddresses ep dir s).bd e d p).stat = (s.bd e d p).stat := by
  have one (t : State) (par : Parity) : ((writeAddress ep dir par t).bd e d p).stat = (t.bd e d p).stat := by
    obtain ⟨a, -, h⟩ := writeAddress_eq t ep dir par
    have same := proj_bd_setBd (s := t) (ep := ep) (dir := dir) Bd.stat par (b := { t.bd ep dir par with address := a }) rfl
    rw [h]
    exact same e d p
  unfold setAddresses forParities
  generalize parities s.cfg.ppMode ep dir = l
  induction l generalizing s with
  | nil => rfl
  | cons par r ih => exact (ih _).trans (one s par)

/-- The addresses of `l` were written from `s` to `t`, with none of these BDs owned by the SIE (43 R273). -/
structure Homed (l : List (Ep × Dir)) (s t : State) : Prop where
  keeps : Keeps s t
  free : t.FnFree
  home : t.AtHome l

theorem Homed.nil (k : Keeps s t) (h : t.FnFree) : Homed [] s t := ⟨k, h, fun _ hx => nomatch hx⟩

theorem Homed.cons {l : List (Ep × Dir)} (k : Homed l s t) (hs : s.Sound) (he : (ep, dir) ∈ functionEps s.cfg) :
    Homed ((ep, dir) :: l) s (setAddresses ep dir t) := by
  obtain ⟨h0, hep⟩ := functionEps_lt hs.cfg he
  have ke := keeps_setAddresses t ep dir
  obtain ⟨own, others, -⟩ := setAddresses_spec (dir := dir) (k.keeps.shaped hs.shaped) (by rw [k.keeps.cfg]; exact hep)
    (fun p _ => k.free ep dir p h0)
  refine ⟨k.keeps.trans ke, fun e d p h => by rw [stat_setAddresses]; exact k.free e d p h, fun x hx par hp => ?_⟩
  rw [ke.cfg] at hp
  simp only [State.bufAddr, ke.cfg]
  by_cases hxe : x = (ep, dir)
  · subst hxe
    rw [own par hp]
    rfl
  · have hne : x.1 ≠ ep ∨ x.2 ≠ dir := Decidable.or_iff_not_not_and_not.2 fun hc =>
      hxe (Prod.ext (by simpa using hc.1) (by simpa using hc.2))
    rw [others _ _ par hne]
    exact k.home x ((List.mem_cons.1 hx).resolve_left hxe) par hp

theorem Homed.addressOwn {l : List (Ep × Dir)} (k : Homed l s t) (hs : s.Sound) (r : List (Ep × Dir))
    (hr : r ⊆ functionEps s.cfg) :
    (r.foldl (fun u e => if ownDir s.cfg e.1 e.2 then setAddresses e.1 e.2 u else u) t).AtHome (r ++ l) := by
  induction r generalizing l t with
  | nil => exact k.home
  | cons x r ih =>
    obtain ⟨hx, hr⟩ := List.cons_subset.1 hr
    rw [List.foldl_cons, if_pos ((ownDir_iff hs.cfg).2 hx)]
    exact (ih (k.cons hs hx) hr).of_subset (by simp)

/-- The enables of the bulk endpoints are no addresses. -/
theorem keepsAddresses_bulkCtrl : KeepsAddresses s (bulkCtrl s) := by
  unfold bulkCtrl
  split <;> exact keepsAddresses_of_bdt rfl rfl

theorem botInit_atHome (hs : s.Sound) (hm : s.cfg.function = .msc) (hf : s.FnFree) :
    (botInit s).AtHome (functionEps s.cfg) := by
  have k0 : Homed [] s { clearBot s with sense := noSense } := .nil (keeps_sense (keeps_clearBot s) _) hf
  have k1 := k0.cons hs (ep := s.cfg.bulkOutEp) (dir := .out) (by simp [functionEps, hm])
  have k2 := k1.cons hs (ep := s.cfg.bulkInEp) (dir := .inp) (by simp [functionEps, hm])
  refine (KeepsAddresses.atHome ?_ k2.home).of_subset (by simp [functionEps, hm])
  exact keepsAddresses_bulkCtrl.trans (keepsAddresses_rearm _ _ _)

theorem cdcInit_atHome (hs : s.Sound) (hc : s.cfg.function = .cdc) (hf : s.FnFree) :
    (cdcInit s).AtHome (functionEps s.cfg) := by
  have k0 : Homed [] s { zeroRam s with cdc := cdcReset } := .nil (keeps_ramCdc s (zeroObjects_wf _)) hf
  have k1 := k0.cons hs (ep := s.cfg.cdc.notifyEp) (dir := .inp) (by simp [functionEps, hc])
  have k2 := k1.cons hs (ep := s.cfg.cdc.dataOutEp) (dir := .out) (by simp [functionEps, hc])
  have k3 := k2.cons hs (ep := s.cfg.cdc.dataInEp) (dir := .inp) (by simp [functionEps, hc])
  refine (KeepsAddresses.atHome ?_ k3.home).of_subset (by simp [functionEps, hc])
  exact (((keepsAddresses_setCtrl _).trans (keepsAddresses_setCtrl _)).trans (keepsAddresses_setCtrl _)).trans
    (keepsAddresses_armBd _ _ _)

theorem hidInit_atHome (hs : s.Sound) (hh : s.cfg.function = .hid) (hf : s.FnFree) :
    (hidInit s).AtHome (functionEps s.cfg) := by
  have k0 : Homed [] s { zeroRam s with hid := hidReset s.cfg } := .nil (keeps_ramHid s (zeroObjects_wf _)) hf
  have k1 := k0.cons hs (ep := s.cfg.hid.inEp) (dir := .inp) (by simp [functionEps, hh])
  unfold hidInit
  dsimp only
  split
  · next ho =>
    refine (KeepsAddresses.atHome ?_ k1.home).of_subset (by simp [functionEps, hh, ho])
    exact keepsAddresses_setCtrl _
  · next o ho =>
    have k2 := k1.cons hs (ep := o) (dir := .out) (by simp [functionEps, hh, ho])
    refine (KeepsAddresses.atHome ?_ k2.home).of_subset (by simp [functionEps, hh, ho])
    exact ((keepsAddresses_setCtrl _).trans (keepsAddresses_setCtrl _)).trans (keepsAddresses_armBd _ _ _)

theorem oracleInit_atHome (hs : s.Sound) (hf : s.FnFree) : (oracleInit s).AtHome (functionEps s.cfg) :=
  (keepsAddresses_answerHook true _).atHome
    (((Homed.nil (.refl s) hf).addressOwn hs _ (List.Subset.refl _)).of_subset (by simp))

/-- `init()` of any function, with no BD of a function owned by the SIE, leaves its BDs the addresses of their buffers. -/
theorem fnInit_atHome (hs : s.Sound) (hf : s.FnFree) : (fnInit s).AtHome (functionEps s.cfg) := by
  unfold fnInit
  split
  · exact botInit_atHome hs ‹_› hf
  · exact cdcInit_atHome hs ‹_› hf
  · exact hidInit_atHome hs ‹_› hf
  · exact (keepsAddresses_of_bdt rfl rfl).atHome (oracleInit_atHome hs hf)

/-- `init()` of MSC stays within what is the function's own (44 R315). -/
theorem rights_botInit (hm : s.cfg.function = .msc) : Rights s (botInit s) := by
  have ho : (s.cfg.bulkOutEp, Dir.out) ∈ functionEps s.cfg := by simp [functionEps, hm]
  have hi : (s.cfg.bulkInEp, Dir.inp) ∈ functionEps s.cfg := by simp [functionEps, hm]
  have ctrl : ∀ u : State, u.cfg = s.cfg → Rights u (bulkCtrl u) := fun u hu => by
    unfold bulkCtrl
    have r : ∀ c, Rights u (u.setCtrl u.cfg.bulkOutEp c) := rights_setCtrl u ⟨.out, by rw [hu]; exact ho⟩
    split
    · exact r _
    · exact (r _).trans (rights_setCtrl _ ⟨.inp, by simp only [setCtrl_cfg, hu]; exact hi⟩ _)
  have k0 : Rights s { clearBot s with sense := noSense } :=
    ⟨keeps_sense (keeps_clearBot s) _, fun _ _ _ => rfl, fun _ _ _ => rfl, fun _ _ _ _ => rfl, fun _ _ _ => rfl,
      fun _ _ => rfl⟩
  have k1 := k0.trans (rights_setAddresses _ (by rw [k0.keeps.cfg]; exact ho))
  have k2 := k1.trans (rights_setAddresses _ (by rw [k1.keeps.cfg]; exact hi))
  have k3 := k2.trans (ctrl _ k2.keeps.cfg)
  exact k3.trans (rights_rearm _ (by rw [k3.keeps.cfg]; exact ho) _ _ _)

theorem rights_fnInit (hw : s.cfg.wf = true) : Rights s (fnInit s) := by
  by_cases hm : s.cfg.function = .msc
  · simp only [fnInit, hm]
    exact rights_botInit hm
  · exact rights_hook (i := .hookInit) hw hm rfl rfl

end Addresses

/-- Settles O35: each binding is the MSC branch of its hook. -/
theorem mscHookBindings : Obligations.MscHookBindings := by
  unfold Obligations.MscHookBindings
  intro s hf
  refine ⟨?_, ?_, fun ep dir par n => ?_, fun k ep dir => ?_, fun alt iface => ?_, fun iface => ?_, ?_, ?_,
    fun hff hfe => ?_⟩
  · show Host.Outcome.next (getClassDescriptor s) = _
    rw [getClassDescriptor, hf]; rfl
  · show Host.Outcome.next (fnInit s) = .next (botInit s)
    rw [fnInit, hf]
  · show fnTasks ep dir par n s = botEnqueue ep dir par n s
    rw [fnTasks, hf]
  · show Host.Outcome.next (clearHalt k ep dir s) = .next (botClearHalt k ep dir s)
    rw [clearHalt, hf]
  · show Host.Outcome.next (setInterfaceHook alt iface s) = _
    simp only [setInterfaceHook, hf]
    split
    · next h => rw [decide_eq_true h]; rfl
    · next h => rw [decide_eq_false h]; rfl
  · show Host.Outcome.next (getInterfaceHook iface s) = _
    simp only [getInterfaceHook, hf]
    split
    · next h => rw [decide_eq_true h]; rfl
    · next h => rw [decide_eq_false h]; rfl
  · show Host.Outcome.next (outControlFinished s) = _
    rw [outControlFinished, hf]; rfl
  · show Host.Outcome.next (interfaceEndpoints 0 s) = _
    rw [interfaceEndpoints, hf]; rfl
  · show Host.Outcome.next (classRequest s) = _
    rw [classRequest, hf]
    exact congrArg _ ((if_neg hff).trans (if_neg hfe))

/-- Settles O36: what no hook touches is `apart_hook`, the RAM is `hook_ram`, the rights of a function outside the block are
`rights_hook`, and the addresses after `init()` are `fnInit_atHome`. -/
theorem hooksKeepToTheirWriteRights : Obligations.HooksKeepToTheirWriteRights := by
  unfold Obligations.HooksKeepToTheirWriteRights
  intro s i hs hi hiw
  refine ⟨fun _ _ _ _ => rfl, hook_returns hi, fun t h => ?_⟩
  have a := apart_hook hs.cfg hi hiw h
  have ram : ∀ k, (∀ x ∈ functionRam s.cfg, ∀ j, j < x.2 → k ≠ place s.cfg.addrW x.1 j) →
      (s.cfg.function = .msc → k ≠ place s.cfg.addrW s.cfg.lunAddr 0) → memRead t.ram k = memRead s.ram k :=
    fun k hown => hook_ram hs hi h fun ⟨x, hx, j, hj, e⟩ => hown x hx j hj e
  have scratch : ∀ j, j < 2 → memRead t.ram (place t.cfg.addrW t.cfg.scratch j) =
      memRead s.ram (place s.cfg.addrW s.cfg.scratch j) := fun j hj => by
    rw [a.cfg]
    exact hook_ram hs hi h (scratch_not_own hs hj).1 fun _ => (scratch_not_own hs hj).2
  refine ⟨a.stage, a.ctl, a.setup, a.device, a.pendingAddress, a.addressPending, a.ev, by rw [a.sie], by rw [a.sie],
    by rw [a.sie], by rw [a.sie], a.eps, a.bd, a.ctrl, scratch 0 (by decide), scratch 1 (by decide), ram,
    fun hf => ?_, fun hinit hfree => ?_⟩
  · have r := rights_hook hs.cfg hf hi h
    exact ⟨fun k hk => r.buf hs.canonical.buf k fun ⟨e, d, p, he, hv, j, hj, hc⟩ => hk e d p he hv j hj hc,
      fun e d hed => ⟨r.eps e d hed, r.bds e d hed⟩, r.ctrl⟩
  · subst hinit
    cases h
    have r := rights_fnInit hs.cfg
    have home : ∀ e d p, (e, d) ∈ functionEps s.cfg → s.validBd e d p → ((fnInit s).bd e d p).address = s.bufAddr e d p :=
      fun e d p he hv => by
        have hm := fnInit_atHome hs hfree (e, d) he p (by rw [r.keeps.cfg]; exact mem_parities.2 hv.2)
        simpa only [State.bufAddr, r.keeps.cfg] using hm
    refine ⟨home, fun e d p h0 hv ho _ => ?_⟩
    by_cases he : (e, d) ∈ functionEps s.cfg
    · exact home e d p he hv
    · have hb := r.bds e d he p
      rw [hb, hfree e d p h0] at ho
      cases ho

end Sys2Proof.Machine
end

section
/-! The other hooks of HID, and the turns of an application (43 R273, R278, R281, 46 R373 to R377; O39). -/

namespace Sys2Proof.Machine

/-! The BDs of an `init()` that arms one (43 R273). -/

section InitArm

variable {s u v : State} {l : List (Ep × Dir)} {o : Ep}

theorem armBd_rest (s : State) (ep : Ep) (dir : Dir) (par : Parity) (tog : Bool) (n : Nat) :
    armBd ep dir par tog n s =
      { s with bdt := (armBd ep dir par tog n s).bdt, free := (armBd ep dir par tog n s).free } := by
  unfold armBd
  split <;> rfl

/-- The addresses of `l` were written, then the EVEN OUT BD of `o`, one of them, was armed for `n` bytes. -/
structure ReaddressesAndArms (l : List (Ep × Dir)) (o : Ep) (n : Nat) (s t : State) : Prop where
  armed : ∃ c a, t.bd o .out .even = ⟨statArmed true false, c, a⟩ ∧ s.Addressed o .out .even a ∧
    ((s.bd o .out .even).stat.own = false → c = BitVec.ofNat 10 n)
  readdressed : ∀ e d, (e, d) ∈ l → ∀ par ∈ parities s.cfg.ppMode e d, ¬(e = o ∧ d = .out ∧ par = .even) →
    ∃ a, s.Addressed e d par a ∧ t.bd e d par = { s.bd e d par with address := a }
  others : ∀ e d p, (e, d) ∉ l → t.bd e d p = s.bd e d p

/-- The arm after the addresses, with the enables `u` written between. -/
theorem Readdresses.arm (k : Readdresses l s v) (hm : (o, Dir.out) ∈ l) (ho : o.toNat < s.cfg.numEp) (hu : u.Shaped)
    (hc : u.cfg = v.cfg) (hb : u.bdt = v.bdt) (n : Nat) : ReaddressesAndArms l o n s (armBd o .out .even false n u) := by
  have hcs : u.cfg = s.cfg := by rw [hc, k.rest]
  have bd : ∀ e d p, u.bd e d p = v.bd e d p := fun e d p => by simp only [State.bd, hc, hb]
  obtain ⟨⟨c, hown, hcount⟩, hoth, -⟩ := armBd_bd hu (ep := o) (dir := .out) (par := .even)
    ⟨by rw [hcs]; exact ho, .inl rfl⟩ false n
  have other : ∀ e d p, bdIndex s.cfg.ppMode e d p ≠ bdIndex s.cfg.ppMode o .out .even →
      (armBd o .out .even false n u).bd e d p = v.bd e d p := fun e d p hne => by
    rw [← bd]
    exact hoth e d p (by rw [hcs]; exact hne)
  refine ⟨?_, fun e d he par hp hne => ?_, fun e d p he => ?_⟩
  · obtain ⟨a, ha, hv⟩ := k.bds _ hm .even (mem_parities.2 (.inl rfl))
    rw [bd, hv] at hown hcount
    exact ⟨c, a, hown, ha, hcount⟩
  · rw [other e d par ?_]
    · exact k.bds (e, d) he par hp
    · by_cases hx : e = o ∧ d = .out
      · obtain ⟨rfl, rfl⟩ := hx
        have hpar : par ≠ .even := fun h => hne ⟨rfl, rfl, h⟩
        obtain rfl : par = .odd := by cases par <;> trivial
        exact bdIndex_par ((mem_parities.1 hp).resolve_left hpar) .odd
      · exact bdIndex_ne_of hx
  · rw [other e d p (bdIndex_ne_of fun hx => he (by rw [hx.1, hx.2]; exact hm))]
    exact k.others e d p he

end InitArm

section HidInit

variable {s : State}

/-- What `init()` of HID leaves (43 R273, 46 R375). -/
structure InitsHid (s t : State) : Prop where
  zeroes : ZeroesObjects s.cfg.addrW (functionRam s.cfg) s.ram t.ram
  inBds : ∀ par ∈ parities s.cfg.ppMode s.cfg.hid.inEp .inp, ∃ a, s.Addressed s.cfg.hid.inEp .inp par a ∧
    t.bd s.cfg.hid.inEp .inp par = { s.bd s.cfg.hid.inEp .inp par with address := a }
  outBds : ∀ o, s.cfg.hid.outEp = some o →
    ReaddressesAndArms [(o, .out), (s.cfg.hid.inEp, .inp)] o s.cfg.hid.max s t
  others : ∀ e d p, ¬(e = s.cfg.hid.inEp ∧ d = .inp) → ¬(s.cfg.hid.outEp = some e ∧ d = .out) → t.bd e d p = s.bd e d p
  ctrl : ∀ e, t.ctrlAt e =
    if s.cfg.hid.outEp = some e then ⟨true, decide (e = s.cfg.hid.inEp), true⟩
    else if e = s.cfg.hid.inEp then ⟨true, true, false⟩ else s.ctrlAt e
  rest : t =
    { s with
      ram := t.ram, bdt := t.bdt, hid := hidReset s.cfg, sie := { s.sie with epCtrl := t.sie.epCtrl }, free := t.free }

/-- The objects zeroed and the registers reset, the first thing that `init()` of HID does. -/
def hidBlank (s : State) : State := { zeroRam s with hid := hidReset s.cfg }

theorem hidBlank_shaped (h : s.Shaped) : (hidBlank s).Shaped := (keeps_ramHid s (zeroObjects_wf _)).shaped h

theorem hidBlank_zeroes (hs : s.Sound) : ZeroesObjects s.cfg.addrW (functionRam s.cfg) s.ram (hidBlank s).ram :=
  zeroObjects_zeroes _ hs.canonical.ram fun _ hx => functionRam_le hs hx

theorem hid_lt (hs : s.Sound) (hh : s.cfg.function = .hid) :
    s.cfg.hid.inEp.toNat < s.cfg.numEp ∧ ∀ o, s.cfg.hid.outEp = some o → o.toNat < s.cfg.numEp :=
  ⟨(functionEps_lt hs.cfg (dir := .inp) (by simp [functionEps, hh])).2,
    fun o ho => (functionEps_lt hs.cfg (ep := o) (dir := .out) (by simp [functionEps, hh, ho])).2⟩

/-- HID without an OUT endpoint: the IN BDs get their addresses, its endpoint is enabled. -/
theorem hidInit_inOnly (hs : s.Sound) (hh : s.cfg.function = .hid) (ho : s.cfg.hid.outEp = none) :
    InitsHid s (hidInit s) := by
  have hin := (hid_lt hs hh).1
  have e : hidInit s = (setAddresses s.cfg.hid.inEp .inp (hidBlank s)).setCtrl s.cfg.hid.inEp ⟨true, true, false⟩ := by
    simp only [hidInit, ho]
    rfl
  have k := (readdresses_nil (hidBlank_shaped hs.shaped)).cons (dir := .inp) hin List.not_mem_nil
  have z := hidBlank_zeroes hs
  have hl := k.shaped.ctrl
  rw [e]
  generalize setAddresses s.cfg.hid.inEp .inp (hidBlank s) = v at k hl ⊢
  refine ⟨?_, fun par hp => k.bds _ (List.mem_singleton.2 rfl) par hp, by simp [ho],
    fun x d p hx _ => k.others x d p (by simpa using hx), fun x => ?_, ?_⟩
  · rw [k.rest]
    exact z
  · rw [ctrlAt_setCtrl _ _ _ (by rw [hl, k.rest]; exact hin), k.rest, ho]
    rfl
  · rw [k.rest]
    rfl

/-- The enables of an IN endpoint `i` and an OUT endpoint `o` of HID, which may be one endpoint. -/
def hidEnable (i o : Ep) (s : State) : State :=
  (s.setCtrl i ⟨true, true, decide (o = i)⟩).setCtrl o ⟨true, decide (o = i), true⟩

theorem keeps_hidEnable (i o : Ep) (s : State) : Keeps s (hidEnable i o s) :=
  (keeps_setCtrl s i _).trans (keeps_setCtrl _ o _)

theorem ctrlAt_hidEnable (h : s.Shaped) {i o : Ep} (hi : i.toNat < s.cfg.numEp) (ho : o.toNat < s.cfg.numEp) (e : Ep) :
    (hidEnable i o s).ctrlAt e =
      if e = o then ⟨true, decide (o = i), true⟩ else if e = i then ⟨true, true, decide (o = i)⟩ else s.ctrlAt e := by
  rw [hidEnable, ctrlAt_setCtrl _ _ _ (by rw [(keeps_setCtrl s i _).ctrl, h.ctrl]; exact ho),
    ctrlAt_setCtrl _ _ _ (by rw [h.ctrl]; exact hi)]

/-- HID with an OUT endpoint: both get their addresses and enables, the EVEN OUT BD is armed. -/
theorem hidInit_inOut (hs : s.Sound) (hh : s.cfg.function = .hid) {o : Ep} (ho : s.cfg.hid.outEp = some o) :
    InitsHid s (hidInit s) := by
  obtain ⟨hin, hout⟩ := hid_lt hs hh
  have hout := hout o ho
  have k := ((readdresses_nil (hidBlank_shaped hs.shaped)).cons (dir := .inp) hin List.not_mem_nil).cons
    (ep := o) (dir := .out) hout (by simp)
  have z := hidBlank_zeroes hs
  have e : hidInit s =
      armBd o .out .even false s.cfg.hid.max
        (hidEnable s.cfg.hid.inEp o (setAddresses o .out (setAddresses s.cfg.hid.inEp .inp (hidBlank s)))) := by
    simp only [hidInit, ho]
    rfl
  rw [e]
  generalize setAddresses o .out (setAddresses s.cfg.hid.inEp .inp (hidBlank s)) = v at k ⊢
  have hc : v.cfg = s.cfg := by rw [k.rest]; rfl
  have ctrl := ctrlAt_hidEnable k.shaped (by rw [hc]; exact hin) (by rw [hc]; exact hout)
  have w := k.arm List.mem_cons_self hout ((keeps_hidEnable s.cfg.hid.inEp o v).shaped k.shaped) rfl rfl s.cfg.hid.max
  have r := armBd_rest (hidEnable s.cfg.hid.inEp o v) o .out .even false s.cfg.hid.max
  generalize armBd o .out .even false s.cfg.hid.max (hidEnable s.cfg.hid.inEp o v) = t at *
  refine ⟨?_, fun par hp => ?_, fun o' ho' => ?_, fun x d p hi hx => ?_, fun x => ?_, ?_⟩
  · rw [r]
    show ZeroesObjects _ _ _ v.ram
    rw [k.rest]
    exact z
  · exact w.readdressed _ _ (by simp) par hp (fun h => nomatch h.2.1)
  · cases ho.symm.trans ho'
    exact ⟨w.armed, w.readdressed, w.others⟩
  · refine w.others x d p fun hm => ?_
    obtain hm | hm := List.mem_cons.1 hm
    · cases hm; exact hx ⟨ho, rfl⟩
    · cases List.mem_singleton.1 hm; exact hi ⟨rfl, rfl⟩
  · rw [r]
    show (hidEnable s.cfg.hid.inEp o v).ctrlAt x = _
    rw [ctrl, ho, show v.ctrlAt x = s.ctrlAt x by rw [k.rest]; rfl]
    by_cases hx : x = o
    · subst hx
      rw [if_pos rfl, if_pos rfl]
    · rw [if_neg hx, if_neg fun h => hx (Option.some.inj h).symm]
      by_cases hxi : x = s.cfg.hid.inEp
      · rw [if_pos hxi, if_pos hxi, decide_eq_false fun h => hx (hxi.trans h.symm)]
      · rw [if_neg hxi, if_neg hxi]
  · rw [r]
    simp only [hidEnable, State.setCtrl]
    rw [k.rest]
    rfl

theorem hidInit_inits (hs : s.Sound) (hh : s.cfg.function = .hid) : InitsHid s (hidInit s) := by
  cases ho : s.cfg.hid.outEp with
  | none => exact hidInit_inOnly hs hh ho
  | some o => exact hidInit_inOut hs hh ho

end HidInit

section HidHooks

variable {s : State} {ep : Ep} {dir : Dir}

/-- The completion of the report in flight (46 R376). -/
theorem hidTasks_inFlight {i : Nat} (he : ep = s.cfg.hid.inEp) (hd : dir = .inp) (hi : s.hid.inFlight = some i) :
    hidTasks ep dir s =
      { s with
        hid :=
          { s.hid with
            counters := s.hid.counters.set i 0
            sent := (s.hid.sent.map (fun _ => false)).set i true
            sentGlobal := true
            inFlight := none } } := by
  unfold hidTasks
  rw [if_pos ⟨he, hd⟩, hi]

theorem hidTasks_other (h : ¬(ep = s.cfg.hid.inEp ∧ dir = .inp) ∨ s.hid.inFlight = none) : hidTasks ep dir s = s := by
  unfold hidTasks
  split
  · next hc => rw [h.resolve_left (not_not_intro hc)]
  · rfl

theorem getD_map_false (l : List Bool) (j : Nat) : (l.map (fun _ => false)).getD j false = false :=
  List.getD_map l false (fun _ => false)

/-- Of the booleans of sent reports that of report `i` alone is set, if it is one of them. -/
theorem getD_onlySent (l : List Bool) (i j : Nat) :
    ((l.map (fun _ => false)).set i true).getD j false = (decide (j = i) && decide (i < l.length)) := by
  by_cases hj : j = i
  · subst hj
    by_cases hl : j < l.length
    · rw [getD_set_eq _ _ _ _ (by simpa using hl)]
      simp [hl]
    · rw [List.getD_eq_default _ _ (by simpa using hl)]
      simp [hl]
  · rw [getD_set_ne _ _ _ _ _ (Ne.symm hj), getD_map_false]
    simp [hj]

/-- The endpoints of the one interface of HID (43 R282). -/
theorem mem_hidEndpoints {c : Config} {iface : Byte} {e : Ep} {d : Dir} :
    (e, d) ∈ hidEndpoints c iface ↔ iface = 0 ∧ ((e = c.hid.inEp ∧ d = .inp) ∨ (c.hid.outEp = some e ∧ d = .out)) := by
  unfold hidEndpoints
  split
  · next h => simp [h, eq_comm]
  · next h => exact iff_of_false List.not_mem_nil fun hc => h hc.1

end HidHooks

/-! What an application sends (46 R373, R374, R376). -/

section Sends

variable {s t : State} {ep : Ep}

/-- The registers of HID play no part in a packet's arm. -/
theorem SendsOwn.withHid {b : List Byte} (k : SendsOwn ep b s t) (h : Hid) :
    SendsOwn ep b { s with hid := h } { t with hid := h } :=
  ⟨k.bytes, k.armed, k.others, congrArg (fun u : State => { u with hid := h }) k.rest⟩

/-- Nor do those of CDC. -/
theorem SendsOwn.withCdc {b : List Byte} (k : SendsOwn ep b s t) (c : Cdc) :
    SendsOwn ep b { s with cdc := c } { t with cdc := c } :=
  ⟨k.bytes, k.armed, k.others, congrArg (fun u : State => { u with cdc := c }) k.rest⟩

/-- An IN report fits one packet. -/
theorem inSize_le (hs : s.Sound) (hh : s.cfg.function = .hid) (i : Nat) :
    s.cfg.hid.inSizes.getD i 0 ≤ 2 ^ s.cfg.addrW := by
  have ok := hidOk_of_wf hs.cfg hh
  simp only [Config.hidOk, Config.packetOk, Bool.and_eq_true, List.all_eq_true, decide_eq_true_eq] at ok
  obtain ⟨⟨⟨⟨⟨⟨-, hmax⟩, -⟩, -⟩, -⟩, -⟩, hall⟩ := ok
  have hb := hs.sizes.2.1
  have ha := hs.addrs
  by_cases hi : i < s.cfg.hid.inSizes.length
  · have := hall _ (List.getElem_mem hi)
    rw [List.getD_eq_getElem _ _ hi]
    omega
  · rw [List.getD_eq_default _ _ (Nat.le_of_not_lt hi)]
    exact Nat.zero_le _

theorem sendReportAt_owned {i : Nat} {b : List Byte}
    (ho : (s.bd s.cfg.hid.inEp .inp (s.nextPar s.cfg.hid.inEp .inp)).stat.own = true) : sendReportAt i b s = s :=
  if_pos ho

/-- The registers of HID after a `send_report(i)` (46 R376, R377). -/
def hidAfterSend (i : Nat) (h : Hid) : Hid :=
  { h with
    expired := h.expired.set i false
    sendNow := h.sendNow.set i false
    sent := h.sent.set i false
    sentGlobal := false
    inFlight := some i }

/-- A `send_report` stores its bytes, then sends the report (46 R376, R377). -/
theorem sendReportAt_sends (hs : s.Sound) (hh : s.cfg.function = .hid) (i : Nat) (b : List Byte)
    (ho : (s.bd s.cfg.hid.inEp .inp (s.nextPar s.cfg.hid.inEp .inp)).stat.own = false) :
    ∃ m, HoldsAt s.cfg.addrW (s.cfg.hid.inAddrs.getD i 0) (b.take (s.cfg.hid.inSizes.getD i 0)) s.ram m ∧
      SendsOwn s.cfg.hid.inEp (readBytes s.cfg.addrW m (s.cfg.hid.inAddrs.getD i 0) (s.cfg.hid.inSizes.getD i 0))
        { s with ram := m, hid := hidAfterSend i s.hid } (sendReportAt i b s) := by
  have hn := inSize_le hs hh i
  have hlen : (b.take (s.cfg.hid.inSizes.getD i 0)).length ≤ 2 ^ s.cfg.addrW :=
    Nat.le_trans (List.length_take_le _ _) hn
  let u : State :=
    { s with ram := writeBytes s.cfg.addrW s.ram (s.cfg.hid.inAddrs.getD i 0) (b.take (s.cfg.hid.inSizes.getD i 0)) }
  have hu : u.Shaped := (keeps_ram s (writeBytes_wf _ _)).shaped hs.shaped
  let report : List Byte := readBytes s.cfg.addrW u.ram (s.cfg.hid.inAddrs.getD i 0) (s.cfg.hid.inSizes.getD i 0)
  have k : SendsOwn s.cfg.hid.inEp report u (sendOwn s.cfg.hid.inEp report u) :=
    sendOwn_sends hu hs.canonical.buf (hid_lt hs hh).1 _ (by rw [length_readBytes]; exact hn) ho
  refine ⟨u.ram, writeBytes_holds _ _ hs.canonical.ram hlen, ?_⟩
  have e : sendReportAt i b s = { sendOwn s.cfg.hid.inEp report u with hid := hidAfterSend i s.hid } := if_neg (by rw [ho]; decide)
  rw [e]
  exact k.withHid _

theorem withReport_none {rid : Byte} {f : Nat → State → State}
    (h : reportIndex s.cfg.hid.useIds s.cfg.hid.inSizes.length rid = none) : withReport rid f s = s := by
  unfold withReport
  rw [h]

theorem withReport_some {rid : Byte} {f : Nat → State → State} {i : Nat}
    (h : reportIndex s.cfg.hid.useIds s.cfg.hid.inSizes.length rid = some i) : withReport rid f s = f i s := by
  unfold withReport
  rw [h]

/-- A report of no id, or a BD still the SIE's: nothing is sent. -/
theorem sendReport_dropped {rid : Byte} (b : List Byte)
    (h : reportIndex s.cfg.hid.useIds s.cfg.hid.inSizes.length rid = none ∨
      (s.bd s.cfg.hid.inEp .inp (s.nextPar s.cfg.hid.inEp .inp)).stat.own = true) : sendReport rid b s = s := by
  unfold sendReport withReport
  split
  · rfl
  · next hi => exact sendReportAt_owned (h.resolve_left (by rw [hi]; nofun))

/-- The poll sends a report that is due (46 R376). -/
theorem pollReport_some {rid : Byte} {i : Nat} (h : reportIndex s.cfg.hid.useIds s.cfg.hid.inSizes.length rid = some i) :
    pollReport rid s =
      if s.hid.expired.getD i false ∨ s.hid.sendNow.getD i false then sendReport rid [] s else s := by
  rw [pollReport, withReport_some h, sendReport, withReport_some h]
  simp only [Bool.or_eq_true]

/-- What the CDC configuration gives: its endpoints exist, a packet fits a buffer, the header of a
notification has 8 bytes (46 R370, R374). -/
theorem cdc_bounds (hs : s.Sound) (hc : s.cfg.function = .cdc) :
    (s.cfg.cdc.notifyEp.toNat < s.cfg.numEp ∧ s.cfg.cdc.dataOutEp.toNat < s.cfg.numEp ∧
      s.cfg.cdc.dataInEp.toNat < s.cfg.numEp) ∧ s.cfg.cdc.max ≤ 2 ^ s.cfg.addrW ∧
      ∀ header, s.cfg.cdc.serialHeader = some header → header.length = 8 := by
  have ok := cdcOk_of_wf hs.cfg hc
  simp only [Config.cdcOk, Config.packetOk, Config.notifyOk, Bool.and_eq_true, decide_eq_true_eq] at ok
  obtain ⟨⟨-, -, hmax⟩, hnot⟩ := ok
  have hb := hs.sizes.2.1
  have ha := hs.addrs
  have lt : ∀ e d, (e, d) ∈ functionEps s.cfg → e.toNat < s.cfg.numEp := fun e d h => (functionEps_lt hs.cfg h).2
  refine ⟨⟨lt _ .inp (by simp [functionEps, hc]), lt _ .out (by simp [functionEps, hc]),
    lt _ .inp (by simp [functionEps, hc])⟩, by omega, fun header hh => ?_⟩
  rw [hh] at hnot
  simp only [Option.all_some, Bool.and_eq_true, beq_iff_eq] at hnot
  exact hnot.1

/-- The next chunk, dropped or sent (46 R373). -/
theorem cdcSend_dropped {b : List Byte}
    (h : (s.bd s.cfg.cdc.dataInEp .inp (s.nextPar s.cfg.cdc.dataInEp .inp)).stat.own = true ∨ s.cfg.cdc.max < b.length) :
    cdcSend b s = s := if_pos h

theorem cdcSend_sends (hs : s.Sound) (hc : s.cfg.function = .cdc) {b : List Byte}
    (ho : (s.bd s.cfg.cdc.dataInEp .inp (s.nextPar s.cfg.cdc.dataInEp .inp)).stat.own = false)
    (hb : b.length ≤ s.cfg.cdc.max) :
    SendsOwn s.cfg.cdc.dataInEp b { s with cdc := { s.cdc with txReady := false } } (cdcSend b s) := by
  obtain ⟨⟨-, -, hep⟩, hmax, -⟩ := cdc_bounds hs hc
  have e : cdcSend b s = { sendOwn s.cfg.cdc.dataInEp b s with cdc := { s.cdc with txReady := false } } :=
    if_neg (by rw [ho]; exact fun h => h.elim nofun (Nat.not_lt.2 hb))
  rw [e]
  exact (sendOwn_sends hs.shaped hs.canonical.buf hep b (Nat.le_trans hb hmax) ho).withCdc _

theorem cdcReceive_owned (ho : (s.bd s.cfg.cdc.dataOutEp .out (s.nextPar s.cfg.cdc.dataOutEp .out)).stat.own = true) :
    cdcReceive s = { s with cdc := { s.cdc with rxCount := 0 } } := by
  simp only [cdcReceive, ho, if_true]

/-- The bytes received were taken: the next OUT BD is armed (46 R373). -/
theorem cdcReceive_arms (hs : s.Sound) (hc : s.cfg.function = .cdc)
    (ho : (s.bd s.cfg.cdc.dataOutEp .out (s.nextPar s.cfg.cdc.dataOutEp .out)).stat.own = false) :
    ArmsNext s.cfg.cdc.dataOutEp .out (s.epsAt s.cfg.cdc.dataOutEp .out).toggle s.cfg.cdc.max
      { s with cdc := { s.cdc with rxCount := 0 } } (cdcReceive s) := by
  have w := armBd_writes hs.shaped (validBd_nextPar (dir := .out) (cdc_bounds hs hc).1.2.1)
    (s.epsAt s.cfg.cdc.dataOutEp .out).toggle s.cfg.cdc.max ho
  have e : cdcReceive s =
      { armBd s.cfg.cdc.dataOutEp .out (s.nextPar s.cfg.cdc.dataOutEp .out) (s.epsAt s.cfg.cdc.dataOutEp .out).toggle
          s.cfg.cdc.max s with cdc := { s.cdc with rxCount := 0 } } := by
    simp only [cdcReceive, ho, Bool.false_eq_true, if_false]
  rw [e]
  exact ⟨w.bd, w.others, congrArg (fun u : State => { u with cdc := { s.cdc with rxCount := 0 } }) w.rest⟩

theorem serialNotify_dropped (h : s.cfg.cdc.serialHeader = none ∨
    (s.bd s.cfg.cdc.notifyEp .inp (s.nextPar s.cfg.cdc.notifyEp .inp)).stat.own = true) : serialNotify s = s := by
  unfold serialNotify
  dsimp only
  split
  · rfl
  · next hh => exact if_pos (h.resolve_left (by rw [hh]; nofun))

/-- The SERIAL_STATE notification (46 R374). -/
theorem serialNotify_sends (hs : s.Sound) (hc : s.cfg.function = .cdc) {header : List Byte}
    (hh : s.cfg.cdc.serialHeader = some header)
    (ho : (s.bd s.cfg.cdc.notifyEp .inp (s.nextPar s.cfg.cdc.notifyEp .inp)).stat.own = false) :
    SendsOwn s.cfg.cdc.notifyEp (serialPacket header s.cdc) s (serialNotify s) := by
  obtain ⟨⟨hep, -, -⟩, -, h8⟩ := cdc_bounds hs hc
  have e : serialNotify s = sendOwn s.cfg.cdc.notifyEp (serialPacket header s.cdc) s := by
    simp only [serialNotify, hh, ho, Bool.false_eq_true, if_false]
  have hlen : (serialPacket header s.cdc).length ≤ 2 ^ s.cfg.addrW := by
    simp only [serialPacket, List.length_append, List.length_cons, List.length_nil, h8 header hh]
    have := hs.addrs
    omega
  rw [e]
  exact sendOwn_sends hs.shaped hs.canonical.buf hep _ hlen ho

end Sends

/-! What the application's own code does from the main loop (43 R278, R281). -/

section OwnCode

variable {s : State} {ep : Ep} {dir : Dir} {par : Parity}

/-- A fill of what is not the function's own, or of more than a buffer holds, is dropped. -/
theorem fnFill_dropped (hw : s.cfg.wf = true) {b : List Byte}
    (h : (ep, dir) ∉ functionEps s.cfg ∨ ¬s.validBd ep dir par ∨ s.cfg.bulkMax < b.length) :
    fnFill ep dir par b s = s := by
  refine if_neg fun hc => ?_
  rw [Bool.and_eq_true, ownBd_iff hw, decide_eq_true_eq] at hc
  obtain ⟨⟨he, hv⟩, hb⟩ := hc
  exact h.elim (absurd he) fun h => h.elim (absurd hv) (Nat.not_lt.2 hb)

theorem fnFill_own (hw : s.cfg.wf = true) {b : List Byte} (he : (ep, dir) ∈ functionEps s.cfg) (hv : s.validBd ep dir par)
    (hb : b.length ≤ s.cfg.bulkMax) : fnFill ep dir par b s = fillOwn ep dir par b s :=
  if_pos (by rw [Bool.and_eq_true, ownBd_iff hw, decide_eq_true_eq]; exact ⟨⟨he, hv⟩, hb⟩)

/-- A fill of the function's own buffer puts the bytes there (43 R278). -/
theorem fnFill_holds (hs : s.Sound) {b : List Byte} (he : (ep, dir) ∈ functionEps s.cfg) (hv : s.validBd ep dir par)
    (hb : b.length ≤ s.cfg.bulkMax) (ho : (s.bd ep dir par).stat.own = false) :
    ∃ m, HoldsAt s.cfg.addrW (s.bufAddr ep dir par) b s.buf m ∧ fnFill ep dir par b s = { s with buf := m } := by
  have h1 := hs.sizes.2.1
  have h2 := hs.addrs
  rw [fnFill_own hs.cfg he hv hb, fillOwn_free_eq b ho]
  exact ⟨_, writeBytes_holds _ _ hs.canonical.buf (by omega), rfl⟩

/-- Where the SIE owns the BD, what stands in those bytes is open (70 R446). -/
theorem fnFill_owned (hs : s.Sound) {b : List Byte} (he : (ep, dir) ∈ functionEps s.cfg) (hv : s.validBd ep dir par)
    (hb : b.length ≤ s.cfg.bulkMax) (ho : (s.bd ep dir par).stat.own = true) :
    ∃ m, SameBytesBut s.cfg.addrW (s.bufAddr ep dir par) b.length s.buf m ∧
      fnFill ep dir par b s = { s with buf := m, free := s.free + 1 } := by
  have k := fillOwn_others (ep := ep) (dir := dir) (par := par) b hs.canonical.buf
  rw [fnFill_own hs.cfg he hv hb]
  rw [fillOwn, ho, putBuf_true] at k ⊢
  exact ⟨_, k, rfl⟩

/-- A byte of RAM of the function's own lies in one of its objects (43 R278). -/
theorem ownRam_iff {c : Config} {a : Addr} : ownRam c a = true ↔ ∃ x ∈ functionRam c, x.1 ≤ a ∧ a < x.1 + x.2 := by
  unfold ownRam holds
  simp only [List.any_eq_true, Bool.and_eq_true, decide_eq_true_eq]
  exact exists_congr fun x => and_congr_right fun _ => ⟨fun h => h.1, fun h => ⟨h, h.2⟩⟩

theorem fnWrite_own (hs : s.Sound) {a : Addr} (v : Byte) (h : ∃ x ∈ functionRam s.cfg, x.1 ≤ a ∧ a < x.1 + x.2) :
    ∃ m, HoldsAt s.cfg.addrW a [v] s.ram m ∧ fnWrite s (a, v) = { s with ram := m } := by
  have h1 := hs.addrs
  exact ⟨_, writeBytes_holds a [v] hs.canonical.ram (by simp only [List.length_cons, List.length_nil]; omega),
    if_pos (ownRam_iff.2 h)⟩

theorem fnWrite_foreign {a : Addr} (v : Byte) (h : ∀ x ∈ functionRam s.cfg, ¬(x.1 ≤ a ∧ a < x.1 + x.2)) :
    fnWrite s (a, v) = s :=
  if_neg fun hc => let ⟨x, hx, ha⟩ := ownRam_iff.1 hc; h x hx ha

/-- The registers of the function play no part in a write of RAM. -/
theorem fnWrite_withState (w : Addr × Byte) (n : Nat) :
    fnWrite { s with fnState := n } w = { fnWrite s w with fnState := n } := by
  unfold fnWrite
  split <;> rfl

theorem fnWrites_withState (r : List (Addr × Byte)) (s : State) (n : Nat) :
    r.foldl fnWrite { s with fnState := n } = { r.foldl fnWrite s with fnState := n } := by
  induction r generalizing s with
  | nil => rfl
  | cons w r ih => rw [List.foldl_cons, List.foldl_cons, fnWrite_withState, ih]

theorem fnRun_write (w : Addr × Byte) (n : Nat) : fnRun false [] [w] n s = { fnWrite s w with fnState := n } := rfl

/-- The writes of a call in their order, then its new state. -/
theorem fnRun_cons_write (w : Addr × Byte) (r : List (Addr × Byte)) (n : Nat) :
    fnRun false [] (w :: r) n s = fnRun false [] r n (fnRun false [] [w] n s) := by
  show { r.foldl fnWrite (fnWrite s w) with fnState := n } =
    { r.foldl fnWrite { fnWrite s w with fnState := n } with fnState := n }
  rw [fnWrites_withState r (fnWrite s w) n]

/-- One HAL call by itself. -/
theorem fnRun_single (f : FnCall) : fnRun false [f] [] s.fnState s = fnCall false s f := by
  show { fnCall false s f with fnState := s.fnState } = fnCall false s f
  rw [fnCall_rest]

/-- The HAL calls of a call in their order, before its writes. -/
theorem fnRun_cons_call (f : FnCall) (l : List FnCall) (r : List (Addr × Byte)) (n : Nat) :
    fnRun false (f :: l) r n s = fnRun false l r n (fnRun false [f] [] s.fnState s) := by
  rw [fnRun_single]
  rfl

/-- A HAL call that software may make is the operation itself, any other is skipped (43 R278, log 19). -/
theorem exec_fnCall (tog : Bool) (k : Nat) {p : FnCall × Instr}
    (hp : p ∈ [(FnCall.reclaim ep dir par, Instr.reclaim ep dir par), (.stallEp ep dir, .stallEp ep dir),
      (.armOut ep par tog k, .armOut ep par tog k), (.armIn ep par tog k, .armIn ep par tog k),
      (.rearmOut ep par tog k, .rearmOut ep par tog k), (.rearmIn ep par tog k, .rearmIn ep par tog k)]) :
    (callable s.cfg p.2 = true → exec p.2 s = .next (fnCall false s p.1)) ∧
      (callable s.cfg p.2 = false → fnCall false s p.1 = s) := by
  have pick {o : Bool} {t : State} : (o = true → Host.Outcome.next t = (.next (if o then t else s) : Result)) ∧
      (o = false → (if o then t else s) = s) := ⟨fun h => by rw [if_pos h], fun h => if_neg (by rw [h]; decide)⟩
  simp only [List.mem_cons, List.not_mem_nil, or_false] at hp
  obtain rfl | rfl | rfl | rfl | rfl | rfl := hp <;> exact pick

end OwnCode

/-! A turn of the application whose function is bound (43 R281). -/

section Turns

variable {s : State}

theorem runApp_sendReport (h : s.cfg.function = .hid) {rid : Byte} {b : List Byte} :
    runApp (.sendReport rid b) s = sendReport rid b s := if_pos h

theorem runApp_pollReport (h : s.cfg.function = .hid) {rid : Byte} :
    runApp (.pollReport rid) s = pollReport rid s := if_pos h

theorem runApp_requestReport (h : s.cfg.function = .hid) {rid : Byte} :
    runApp (.requestReport rid) s = requestReport rid s := if_pos h

theorem runApp_cdcSend (h : s.cfg.function = .cdc) {b : List Byte} : runApp (.cdcSend b) s = cdcSend b s := if_pos h

theorem runApp_cdcReceive (h : s.cfg.function = .cdc) : runApp .cdcReceive s = cdcReceive s := if_pos h

theorem runApp_serialNotify (h : s.cfg.function = .cdc) : runApp .serialNotify s = serialNotify s := if_pos h

theorem runApp_own (h : s.cfg.function ≠ .msc) {l : List FnCall} {r : List (Addr × Byte)} {n : Nat} :
    runApp (.own l r n) s = fnRun false l r n s := if_neg h

end Turns

/-- Settles O39: `init()` is `hidInit_inits`; a report is sent by `sendReportAt_sends`, a chunk by `cdcSend_sends`, a
notification by `serialNotify_sends`; a fill is `fnFill_holds`; the parts of a call are `exec_fnCall` and `fnWrite_own`. -/
theorem functionAndApplicationTurns : Obligations.FunctionAndApplicationTurns := by
  unfold Obligations.FunctionAndApplicationTurns
  intro s hs h c no
  refine ⟨fun hh => ?_, fun hc => ⟨fun b => ?_, ?_⟩,
    fun hc => ⟨fun dcd dsr => if_pos hc, fun hn => ?_, fun header hd => ?_⟩,
    fun ep dir par b => ⟨fnFill_dropped hs.cfg, fun he hv hb => ⟨fnFill_holds hs he hv hb, fnFill_owned hs he hv hb⟩⟩,
    fun l r n => ⟨fun hm => if_pos hm, fun hm => ?_⟩, fun rid b dcd dsr => ?_⟩
  · refine ⟨?_, fun ep dir par n => ?_, fun iface => ?_,
      fun rid b => ⟨fun hn => ?_, fun hn => ?_, fun i hi => ⟨fun ho => ?_, ?_, ?_⟩⟩,
      ⟨_, getD_map_false s.hid.sent, if_pos hh⟩⟩
    · have k := hidInit_inits hs hh
      refine ⟨hidInit s, ?_, k.zeroes, k.inBds, fun o ho => ⟨?_, (k.outBds o ho).armed, fun par hp hne => ?_⟩,
        k.others, ?_, fun e he ho => ?_, k.rest⟩
      · show Host.Outcome.next (fnInit s) = _
        rw [fnInit, hh]
      · rw [k.ctrl, if_pos ho]
      · exact (k.outBds o ho).readdressed o .out List.mem_cons_self par hp fun hc => hne hc.2.2
      · rw [k.ctrl]
        by_cases ho : h.outEp = some h.inEp
        · rw [if_pos ho, decide_eq_true rfl, decide_eq_true ho]
        · rw [if_neg ho, if_pos rfl, decide_eq_false ho]
      · rw [k.ctrl, if_neg ho, if_neg he]
    · have e : exec (.hookTasks ep dir par n) s = .next (hidTasks ep dir s) := by
        show fnTasks ep dir par n s = _
        rw [fnTasks, hh]
      rw [e]
      exact ⟨fun i he hd hi => ⟨_, congrArg _ (hidTasks_inFlight he hd hi), getD_onlySent _ _, rfl⟩,
        fun ho => congrArg _ (hidTasks_other ho)⟩
    · refine ⟨setReply ⟨true, .noData, 0, hidEndpoints s.cfg iface⟩ s, ?_, rfl, rfl, fun e d => mem_hidEndpoints⟩
      show Host.Outcome.next (interfaceEndpoints iface s) = _
      rw [interfaceEndpoints, hh]
    · rw [runApp_sendReport hh]
      exact sendReport_dropped b hn
    · rw [runApp_pollReport hh, runApp_requestReport hh]
      exact ⟨withReport_none hn, withReport_none hn⟩
    · rw [runApp_sendReport hh, sendReport, withReport_some hi]
      exact sendReportAt_sends hs hh i b ho
    · rw [runApp_pollReport hh, runApp_sendReport hh, pollReport_some hi]
    · rw [runApp_requestReport hh]
      exact withReport_some hi
  · rw [runApp_cdcSend hc]
    exact ⟨cdcSend_dropped, cdcSend_sends hs hc⟩
  · rw [runApp_cdcReceive hc]
    exact ⟨cdcReceive_owned, cdcReceive_arms hs hc⟩
  · rw [runApp_serialNotify hc]
    exact serialNotify_dropped hn
  · rw [runApp_serialNotify hc]
    exact ⟨(cdc_bounds hs hc).2.2 header hd, serialNotify_sends hs hc hd⟩
  · have call : ∀ f, runApp (.own [f] [] s.fnState) s = fnCall false s f := fun f => by
      rw [runApp_own hm, fnRun_single]
    refine ⟨runApp_own hm, fun a v => ⟨fun ha => ?_, fun ha => ?_, ?_⟩, fun f => ?_,
      fun ep dir par tog k e b => ⟨fun p hp => ?_, call _, call _⟩⟩
    · obtain ⟨m, hb, e⟩ := fnWrite_own hs v ha
      refine ⟨m, hb, ?_⟩
      rw [runApp_own hm, fnRun_write, e]
    · rw [runApp_own hm, fnRun_write, fnWrite_foreign v ha]
    · rw [runApp_own hm, runApp_own hm, runApp_own (by rw [fnRun_rest]; exact hm)]
      exact fnRun_cons_write _ _ _
    · rw [runApp_own hm, runApp_own hm, runApp_own (by rw [fnRun_rest]; exact hm)]
      exact fnRun_cons_call _ _ _ _
    · rw [call]
      exact exec_fnCall tog k hp
  · simp only [List.mem_cons, List.not_mem_nil, or_false]
    refine ⟨fun hf a ha => ?_, fun hf a ha => ?_⟩ <;> obtain rfl | rfl | rfl | rfl := ha <;> exact if_neg hf

end Sys2Proof.Machine
end

section
/-! The one fault of the machine is the ring's (44 R293, 70 R452; O13). -/

namespace Sys2Proof.Machine

/-- Every operation answers a next state, unless it finds the ring full (44 R293). -/
theorem exec_ends (i : Instr) (s : State) :
    (∃ t, exec i s = .next t) ∨ (exec i s = .fault .ringOverflow ∧ 4 ≤ s.bot.q.length) := by
  cases i
  case isr => exact isr_ends s
  case trn => exact trnService_ends s
  case epnCompletion ep dir par n => exact fnTasks_ends ep dir par n s
  case hookTasks ep dir par n => exact fnTasks_ends ep dir par n s
  case botEnqueue ep dir par n => exact botEnqueue_ends ep dir par n s
  case pseudoClearHalt | pseudoSetHalt | bomsrSeq | setAddressSeq | setConfigSeq => exact requestLines_ends _ s
  case cbwSeq tag h flags cdb =>
    show (∃ t, runLines [_] s = .next t) ∨ (runLines [_] s = .fault .ringOverflow ∧ _)
    rw [runLines_single, ← outLine_bot none s.cfg.bulkOutEp s.hostTog (cbwSeqBytes tag h flags cdb) s]
    exact isr_ends _
  all_goals exact .inl ⟨_, rfl⟩

/-- Settles O13: an operation ends in a next state or in the ring's fault (`exec_ends`). -/
theorem onlyAFullRingFaults : Obligations.OnlyAFullRingFaults := by
  unfold Obligations.OnlyAFullRingFaults
  intro s i
  obtain ⟨t, h⟩ | ⟨h, hq⟩ := exec_ends i s <;> rw [h]
  · exact ⟨nofun, nofun⟩
  · exact ⟨nofun, fun e he => by cases he; exact ⟨rfl, hq⟩⟩

end Sys2Proof.Machine
end

section
/-! The Bulk-Only Transport engine (44): every level of its dispatch is the decoded operation (R295, R296, R299, 45 R340;
O6). -/

namespace Sys2Proof.Machine

section

variable {s : State}

theorem byteAt_drop (b : List Byte) (k i : Nat) : byteAt (b.drop k) i = byteAt b (k + i) := by
  simp only [byteAt, List.getD_eq_getElem?_getD, List.getElem?_drop]

/-- A command block is the operation that its opcode decodes to, its operands those of `CB` (45 R340, 30 R137). -/
theorem exec_decodeCdb : exec (decodeCdb s.cfg.writeEnabled s.bot.opcode (s.cbw.drop 15)) s = .next (scsiDispatch s) := by
  have hlba : beWordAt (s.cbw.drop 15) 2 = s.cbLba := by simp only [beWordAt, byteAt_drop]; rfl
  have hlen : beHalfAt (s.cbw.drop 15) 7 = s.cbLen := by simp only [beHalfAt, byteAt_drop]; rfl
  unfold decodeCdb
  rewrite [hlba, hlen, byteAt_drop, byteAt_drop]
  split
  case h_7 heq =>
    unfold scsiDispatch
    rewrite [heq]
    cases s.cfg.writeEnabled <;> rfl
  case h_8 =>
    refine congrArg Host.Outcome.next ?_
    unfold scsiDispatch
    split
    case h_8 => rfl
    all_goals contradiction
  all_goals
    next heq =>
      unfold scsiDispatch
      rewrite [heq]
      rfl

/-- A cell of the 13-case matrix is its case (44 R299). -/
theorem exec_decodeCase (e : Expect) (d : Word) (src : Src) :
    exec (decodeCase e d s.hostLen s.bot.dir src) s = .next (arbitrate e d src s) := by
  unfold decodeCase arbitrate
  generalize (if d = 0 then Expect.dn else e) = x
  cases x <;> dsimp only <;> split_ifs <;> rfl

/-- A BOT step is what BOT state and direction decode to (44 R295). -/
theorem exec_decodeBotStep (e : QEntry) : exec (decodeBotStep s.bot.state e.dir e.par e.n) s = .next (botStep e s) := by
  unfold decodeBotStep botStep
  cases s.bot.state <;> cases e.dir <;> rfl

/-- The bytes of a word are those it was put together from (00 R16). -/
theorem le32Bytes_le32 (b0 b1 b2 b3 : Byte) : le32Bytes (le32 b0 b1 b2 b3) = [b0, b1, b2, b3] := by
  have h16 : ∀ i, 16 + i = 8 + (8 + i) := fun i => by omega
  have h24 : ∀ i, 24 + i = 8 + (8 + (8 + i)) := fun i => by omega
  simp only [le32Bytes, le32, List.cons.injEq, and_true]
  refine ⟨?_, ?_, ?_, ?_⟩ <;> refine BitVec.eq_of_getLsbD_eq fun i hi => ?_ <;>
    simp only [BitVec.getLsbD_extractLsb', BitVec.getLsbD_append, h16, h24, Nat.add_sub_cancel_left] <;> simp [hi]

/-- Thirty-one bytes with the signature are a CBW, built from its fields (30 R135). -/
theorem cbwBytes_fields {b : List Byte} (hl : b.length = 31) (hsig : wordAt b 0 = cbwSignature) :
    cbwBytes (cbwFields b) = b := by
  unfold cbwBytes
  rw [fit_self (by simp [cbwFields]), ← hsig]
  simp only [cbwFields, wordAt, le32Bytes_le32]
  exact map_byteAt hl

/-- A packet in state CBW is what the validator's word decodes to (44 R296). -/
theorem exec_decodeCbw (par : Parity) (n : Nat) :
    exec (decodeCbw n (cbwPacket par n s)) s = .next (handleCbw par n s) := by
  unfold decodeCbw handleCbw
  by_cases h : n = 31 ∧ wordAt (cbwPacket par n s) 0 = cbwSignature
  · rw [if_pos h, if_neg (by tauto)]
    have hl : (cbwPacket par n s).length = 31 := by rw [cbwPacket, length_readBytes, h.1]; rfl
    show Host.Outcome.next (acceptCbw (cbwBytes _) s) = _
    rw [cbwBytes_fields hl h.2]
  · rw [if_neg h, if_pos (by tauto)]
    rfl

end

/-- Settles O6: each dispatch is the operation its word decodes to, and a drain of one entry is one `bot_step`. -/
theorem commandRunsDecoded : Obligations.CommandRunsDecoded := by
  unfold Obligations.CommandRunsDecoded
  intro s par n e d src _
  exact ⟨⟨_, rfl, exec_decodeCdb⟩, ⟨_, rfl, exec_decodeCase e d src⟩, ⟨_, rfl, exec_decodeCbw par n⟩, fun st dir =>
    ⟨_, rfl, exec_decodeBotStep (s := { s with bot := { s.bot with state := st, q := [] } }) ⟨dir, par, n⟩⟩⟩

end Sys2Proof.Machine
end

section
/-! What the BOT engine leaves of the status wrapper and of the ring, and the BOT state that each operation ends in (44 R300,
R317); the cases and the arbiter (O42, O43) and the drain of the ring (O40). -/

namespace Sys2Proof.Machine

section Frame

variable {s t : State} {ep : Ep} {dir : Dir}

theorem HalKeeps.bot (k : HalKeeps s t) : t.bot = s.bot := by rw [k.rest]

theorem HalKeeps.csw (k : HalKeeps s t) : t.csw = s.csw := by rw [k.rest]

@[simp] theorem bulkArmIn_bot (n : Nat) : (bulkArmIn n s).bot = s.bot := (hal_rearm _ _ _ _ _ _).bot

@[simp] theorem bulkArmIn_csw (n : Nat) : (bulkArmIn n s).csw = s.csw := (hal_rearm _ _ _ _ _ _).csw

@[simp] theorem bulkArmOut_bot (n : Nat) : (bulkArmOut n s).bot = s.bot := (hal_rearm _ _ _ _ _ _).bot

@[simp] theorem bulkArmOut_csw (n : Nat) : (bulkArmOut n s).csw = s.csw := (hal_rearm _ _ _ _ _ _).csw

@[simp] theorem stallEp_bot : (stallEp ep dir s).bot = s.bot := (hal_stallEp _ _ _).bot

@[simp] theorem stallEp_csw : (stallEp ep dir s).csw = s.csw := (hal_stallEp _ _ _).csw

/-- The sense reset writes the sense alone (45 R343). -/
theorem senseOnComplete_eq (s : State) :
    senseOnComplete s = { s with sense := if s.csw.status = .passed then noSense else s.sense } := by
  unfold senseOnComplete
  split <;> rfl

@[simp] theorem sendCsw_bot : (sendCsw s).bot = { s.bot with state := .csw } := by
  simp [sendCsw, setBotState, loadCsw, loadBulkIn, senseOnComplete_eq]

@[simp] theorem sendCsw_csw : (sendCsw s).csw = s.csw := by
  simp [sendCsw, setBotState, loadCsw, loadBulkIn, senseOnComplete_eq]

@[simp] theorem noDataCsw_bot : (noDataCsw s).bot = { s.bot with state := .csw } := sendCsw_bot

@[simp] theorem noDataCsw_csw : (noDataCsw s).csw = s.csw := sendCsw_csw

@[simp] theorem stallAndWait_bot : (stallAndWait dir s).bot = { s.bot with stalled := some dir, state := .waitIllegal } := by
  simp [stallAndWait]

@[simp] theorem stallAndWait_csw : (stallAndWait dir s).csw = s.csw := stallEp_csw

/-- A packet loaded leaves wrapper and ring (44 R304). -/
theorem loadChunk_csw (n : Nat) : (loadChunk n s).csw = s.csw := by
  unfold loadChunk
  split <;> rfl

theorem loadChunk_q (n : Nat) : (loadChunk n s).bot.q = s.bot.q := by
  unfold loadChunk
  split <;> rfl

@[simp] theorem sendInChunk_csw : (sendInChunk s).csw = s.csw := by
  simp [sendInChunk, setBotState, countDown, loadChunk_csw]

@[simp] theorem sendInChunk_q : (sendInChunk s).bot.q = s.bot.q := by
  simp [sendInChunk, setBotState, countDown, loadChunk_q]

/-- After a packet to the host the engine is in the data stage or at its end (44 R304). -/
theorem sendInChunk_state : (sendInChunk s).bot.state ∈ [BotState.readData, .readFinished, .dataSent] := by
  show inState _ ∈ _
  unfold inState
  split
  · simp
  · split <;> simp

@[simp] theorem startIn_csw (src : Src) (n : Word) (act : EndAction) : (startIn src n act s).csw = s.csw := sendInChunk_csw

@[simp] theorem startIn_q (src : Src) (n : Word) (act : EndAction) : (startIn src n act s).bot.q = s.bot.q := sendInChunk_q

theorem startIn_state (src : Src) (n : Word) (act : EndAction) :
    (startIn src n act s).bot.state ∈ [BotState.readData, .readFinished, .dataSent] := sendInChunk_state

@[simp] theorem startOut_csw (n : Word) (act : EndAction) : (startOut n act s).csw = s.csw := by
  simp [startOut, setBotState]

@[simp] theorem startOut_bot (n : Word) (act : EndAction) :
    (startOut n act s).bot = { s.bot with xferRemaining := n, endAction := act, state := .writeData } := by
  simp [startOut, setBotState]

end Frame

section Cases

variable {s : State} {e : Expect} {d : Word}

/-- A failure sends the CSW at once where the host expects no data, else it stalls the host's direction (44 R309, R310). -/
theorem failStage_ends (s : State) :
    (s.hostLen = 0 → exec .sendCsw { s with bot := { s.bot with state := .noDataStage } } = .next (failStage s)) ∧
    (s.hostLen ≠ 0 → exec (.stallAndWait s.hostDir) s = .next (failStage s)) :=
  ⟨fun h => congrArg Host.Outcome.next (if_pos h).symm, fun h => congrArg Host.Outcome.next (if_neg h).symm⟩

/-- The row of the matrix for a command that moves no data (44 R299). -/
theorem arbitrate_dn (h : d = 0 ∨ e = .dn) (src : Src) :
    arbitrate e d src s = if s.hostLen = 0 then case1 s else if s.bot.dir then case4 s else case9 s := by
  have hx : (if d = 0 then Expect.dn else e) = .dn := by
    obtain rfl | rfl := h
    · rfl
    · exact ite_self _
  unfold arbitrate
  rw [hx]

/-- The row for data to the host. -/
theorem arbitrate_di (h : d ≠ 0) (src : Src) :
    arbitrate .di d src s =
      if s.hostLen = 0 then case2 s
      else if s.bot.dir then
        if d < s.hostLen then case5 d src s else if d = s.hostLen then case6 d src s else case7 src s
      else case10 s := by
  unfold arbitrate
  rw [if_neg h]

/-- The row for data from the host. -/
theorem arbitrate_dO (h : d ≠ 0) (src : Src) :
    arbitrate .dO d src s =
      if s.hostLen = 0 then case3 s
      else if s.bot.dir then case8 s
      else if d < s.hostLen then case11 d s
      else if d = s.hostLen then case12 d s
      else case13 s := by
  unfold arbitrate
  rw [if_neg h]

end Cases

/-- Settles O42: each case is its row by definition, and a failure is one of the two actions of `failStage_ends`. -/
theorem casesAndFailures : Obligations.CasesAndFailures := by
  unfold Obligations.CasesAndFailures
  refine ⟨fun s d src c hc => ?_, fun s e key asc ascq p hp => ?_⟩
  · simp only [List.mem_cons, List.not_mem_nil, or_false] at hc
    obtain rfl | rfl | rfl | rfl | rfl | rfl | rfl | rfl | rfl | rfl | rfl | rfl | rfl := hc <;> exact ⟨_, rfl, rfl⟩
  · simp only [List.mem_cons, List.not_mem_nil, or_false] at hp
    obtain rfl | rfl := hp <;>
      exact ⟨fun h => ⟨_, rfl, (failStage_ends _).1 h⟩, fun h => ⟨_, rfl, (failStage_ends _).2 h⟩⟩

section Outcome

variable {s t : State}

theorem setResidue_csw (h : s.csw.status = .passed) (r : Word) : (setResidue r s).csw = ⟨s.csw.tag, r, .passed⟩ := by
  rw [← h]
  rfl

theorem setPhaseError_csw {r : Word} : (setResidue r (setStatus .phaseError s)).csw = ⟨s.csw.tag, r, .phaseError⟩ := rfl

/-- The residue of a command that moves less than the host expects. -/
theorem residue_le {h d : Word} (hd : d < h) : (h - d).toNat ≤ h.toNat := by
  rw [BitVec.toNat_sub_of_le (BitVec.le_of_lt hd)]
  exact Nat.sub_le _ _

/-- The wrapper of `t` and a fact about its BOT state, as the statement of an arbitration lists them. -/
theorem outcome_of_csw {status : CswStatus} {residue h : Word} {p : Prop} (hc : t.csw = ⟨s.csw.tag, residue, status⟩)
    (hr : residue.toNat ≤ h.toNat) (hp : p) :
    t.csw.tag = s.csw.tag ∧ t.csw.residue.toNat ≤ h.toNat ∧
      (t.csw.status, t.csw.residue) = (status, residue) ∧ p := by
  rw [hc]
  exact ⟨rfl, hr, rfl, hp⟩

end Outcome

/-- Settles O43: the rows of the matrix case by case; each case writes the wrapper and is one of four actions, which keep it
and say the BOT state. -/
theorem arbitrationOutcome : Obligations.ArbitrationOutcome := by
  unfold Obligations.ArbitrationOutcome
  intro s e d src hp
  dsimp only
  refine ⟨_, rfl, ?_⟩
  have sends : ∀ u : State, (noDataCsw u).bot.state = .csw := fun u => by rw [noDataCsw_bot]
  have stalls : ∀ u : State,
      (stallAndWait .out u).bot.state = .waitIllegal ∧ (stallAndWait .out u).bot.stalled = some .out := fun u => by rw [stallAndWait_bot]; exact ⟨rfl, rfl⟩
  have receives : ∀ (n : Word) (act : EndAction) (u : State),
      (startOut n act u).bot.state = .writeData := fun n act u => by
    rw [startOut_bot]
  have passed := setResidue_csw hp
  have hrefl : s.hostLen.toNat ≤ s.hostLen.toNat := Nat.le_refl _
  have zero_le : (0 : Word).toNat ≤ s.hostLen.toNat := Nat.zero_le _
  by_cases hd : d = 0 ∨ e = .dn
  · have hno : ¬(d ≠ 0 ∧ e = .dO ∧ d.toNat ≤ s.hostLen.toNat) :=
      fun ⟨h1, h2, _⟩ => hd.elim h1 (by rw [h2]; exact nofun)
    rw [arbitrate_dn hd, if_pos hd, if_neg hno]
    split_ifs with h0 hb
    · rw [h0]
      exact outcome_of_csw (noDataCsw_csw.trans (passed _)) (Nat.le_refl _) (sends _)
    · exact outcome_of_csw ((startIn_csw _ _ _).trans (passed _)) hrefl (startIn_state _ _ _)
    · exact outcome_of_csw (stallAndWait_csw.trans (passed _)) hrefl (stalls _)
  have hd0 : d ≠ 0 := fun h => hd (.inl h)
  rw [if_neg hd]
  cases e with
  | dn => exact absurd (.inr rfl) hd
  | di =>
    have hno : ¬(d ≠ 0 ∧ Expect.di = .dO ∧ d.toNat ≤ s.hostLen.toNat) := fun h => nomatch h.2.1
    rw [arbitrate_di hd0, if_pos rfl, if_neg hno]
    cases hb : s.bot.dir with
    | false =>
      simp only [if_true, if_false, reduceCtorEq]
      split_ifs with h0
      · exact outcome_of_csw (noDataCsw_csw.trans setPhaseError_csw) hrefl (sends _)
      · exact outcome_of_csw (stallAndWait_csw.trans setPhaseError_csw) hrefl (stalls _)
    | true =>
      simp only [if_true, if_false, reduceCtorEq]
      split_ifs with h0 hlt heq
      · exact outcome_of_csw (noDataCsw_csw.trans setPhaseError_csw) hrefl (sends _)
      · exact outcome_of_csw ((startIn_csw _ _ _).trans (passed _)) (residue_le hlt) (startIn_state _ _ _)
      · exact outcome_of_csw ((startIn_csw _ _ _).trans (passed _)) zero_le (startIn_state _ _ _)
      · exact outcome_of_csw ((startIn_csw _ _ _).trans setPhaseError_csw) zero_le (startIn_state _ _ _)
  | dO =>
    rw [arbitrate_dO hd0, if_neg (show Expect.dO ≠ .di from nofun)]
    cases hb : s.bot.dir with
    | true =>
      simp only [if_true]
      split_ifs with h0
      · exact outcome_of_csw (noDataCsw_csw.trans setPhaseError_csw) hrefl (sends _)
      · exact outcome_of_csw ((startIn_csw _ _ _).trans setPhaseError_csw) hrefl (startIn_state _ _ _)
    | false =>
      simp only [if_false, Bool.false_eq_true]
      split_ifs with h0 hlt hle heq hle hle
      · exact outcome_of_csw (noDataCsw_csw.trans setPhaseError_csw) hrefl (sends _)
      · exact outcome_of_csw ((startOut_csw _ _).trans (passed _)) (residue_le hlt) (receives _ _ _)
      · exact absurd ⟨hd0, trivial, BitVec.le_of_lt hlt⟩ hle
      · exact outcome_of_csw ((startOut_csw _ _).trans (passed _)) zero_le (receives _ _ _)
      · exact absurd ⟨hd0, trivial, Nat.le_of_eq (congrArg _ heq)⟩ hle
      · exact absurd ((Nat.lt_or_eq_of_le hle.2.2).imp_right BitVec.eq_of_toNat_eq) (not_or.2 ⟨hlt, heq⟩)
      · exact outcome_of_csw (stallAndWait_csw.trans setPhaseError_csw) hrefl (stalls _)

end Sys2Proof.Machine
end

section
/-! The ring (44 R292 to R295): what serves an entry enqueues none, so a drain empties the ring in order (O40). -/

namespace Sys2Proof.Machine

section Ring

variable {s : State}

@[simp] theorem arbitrate_q (e : Expect) (d : Word) (src : Src) : (arbitrate e d src s).bot.q = s.bot.q := by
  by_cases hd : d = 0 ∨ e = .dn
  · rw [arbitrate_dn hd]
    split_ifs <;> simp [case1, case4, case9, setResidue]
  · cases e with
    | dn => exact absurd (.inr rfl) hd
    | di =>
      rw [arbitrate_di fun h => hd (.inl h)]
      split_ifs <;> simp [case2, case5, case6, case7, case10, setResidue, setStatus]
    | dO =>
      rw [arbitrate_dO fun h => hd (.inl h)]
      split_ifs <;> simp [case3, case8, case11, case12, case13, setResidue, setStatus]

@[simp] theorem failStage_q : (failStage s).bot.q = s.bot.q := by
  unfold failStage
  split <;> simp

@[simp] theorem failCommand_q (e : Expect) (key : BitVec 4) (asc ascq : Byte) :
    (failCommand e key asc ascq s).bot.q = s.bot.q := failStage_q

@[simp] theorem respond_q (b : List Byte) (d : Nat) : (respond b d s).bot.q = s.bot.q := arbitrate_q _ _ _

theorem scsiDispatch_q : (scsiDispatch s).bot.q = s.bot.q := by
  unfold scsiDispatch
  split
  · unfold testUnitReady
    split <;> simp
  · exact respond_q _ _
  · exact respond_q _ _
  · exact respond_q _ _
  · unfold readCapacity10
    split
    exacts [failStage_q, respond_q _ _]
  · unfold read10
    dsimp only
    split
    exacts [failCommand_q _ _ _ _, arbitrate_q _ _ _]
  · unfold write10
    dsimp only
    split_ifs
    exacts [failCommand_q _ _ _ _, failCommand_q _ _ _ _, arbitrate_q _ _ _, failCommand_q _ _ _ _]
  · exact failCommand_q _ _ _ _

theorem handleCbw_q (par : Parity) (n : Nat) : (handleCbw par n s).bot.q = s.bot.q := by
  unfold handleCbw
  split
  · simp [invalidCbw, setBotState]
  · exact scsiDispatch_q

theorem endOfDataIn_q : (endOfDataIn s).bot.q = s.bot.q := by
  unfold endOfDataIn
  split <;> simp

theorem storeChunk_q (par : Parity) (n : Nat) : (storeChunk par n s).bot.q = s.bot.q := by
  unfold storeChunk writeChunk
  split_ifs <;> rfl

theorem dataOutChunk_q (par : Parity) (n : Nat) : (dataOutChunk par n s).bot.q = s.bot.q := by
  have h : (countDown n (storeChunk par n s)).bot.q = s.bot.q := storeChunk_q par n
  unfold dataOutChunk
  dsimp only
  split
  · split <;> simp [h]
  · simp [h]

/-- No `bot_step` touches the ring (44 R295). -/
theorem botStep_q (e : QEntry) : (botStep e s).bot.q = s.bot.q := by
  unfold botStep
  split
  · exact handleCbw_q _ _
  · exact dataOutChunk_q _ _
  · exact sendInChunk_q
  · exact endOfDataIn_q
  · exact endOfDataIn_q
  · simp [cswComplete, setBotState]
  all_goals rfl

/-- A turn of the drain takes the head and leaves the rest (44 R294). -/
theorem serveHead_cons {e : QEntry} {r : List QEntry} (h : s.bot.q = e :: r) :
    serveHead s = botStep e { s with bot := { s.bot with q := r } } := by
  unfold serveHead
  rw [h]

theorem serveHead_q : (serveHead s).bot.q = s.bot.q.tail := by
  cases h : s.bot.q with
  | nil =>
    unfold serveHead
    rw [h]
    exact h
  | cons e r =>
    rw [serveHead_cons h]
    exact botStep_q e

/-- As many turns as there are entries empty the ring. -/
theorem drain_q (k : Nat) : (drain k s).bot.q = s.bot.q.drop k := by
  induction k generalizing s with
  | zero => rfl
  | succ k ih =>
    show (drain k (serveHead s)).bot.q = _
    rw [ih, serveHead_q, List.drop_tail]

theorem msdTasks_q : (msdTasks s).bot.q = [] := by
  unfold msdTasks
  rw [drain_q, List.drop_length]

/-- `msd_tasks` serves the head and goes on (44 R294). -/
theorem msdTasks_cons {e : QEntry} {r : List QEntry} (h : s.bot.q = e :: r) :
    msdTasks s = msdTasks (botStep e { s with bot := { s.bot with q := r } }) := by
  unfold msdTasks
  rw [botStep_q, h, ← serveHead_cons h]
  rfl

end Ring

section Enqueue

variable {s : State} {ep : Ep} {dir : Dir} {par : Parity} {n : Nat} {i : Instr}

/-- Whatever brings a completion to MSC, it is `bot_enqueue` that takes it (43 R274, 44 R292). -/
theorem exec_enqueues
    (h : i = .botEnqueue ep dir par n ∨
      s.cfg.function = .msc ∧ (i = .hookTasks ep dir par n ∨ i = .epnCompletion ep dir par n)) :
    exec i s = botEnqueue ep dir par n s := by
  obtain rfl | ⟨hf, rfl | rfl⟩ := h
  · rfl
  all_goals
    show fnTasks ep dir par n s = _
    rw [fnTasks, hf]

end Enqueue

/-- Settles O40: the ring's guards are those of `bot_enqueue`; `msd_tasks` takes the head (`msdTasks_cons`) and empties the
ring (`msdTasks_q`). -/
theorem ringIsFirstInFirstOut : Obligations.RingIsFirstInFirstOut := by
  unfold Obligations.RingIsFirstInFirstOut
  intro s
  refine ⟨fun ep dir par n i hi => ?_, fun h => ?_, fun e r h => ?_, ⟨_, rfl, msdTasks_q⟩, rfl⟩
  · rw [exec_enqueues hi, botEnqueue]
    refine ⟨fun hb => ⟨fun hq => ?_, fun hq => ?_⟩, fun ho hi => ?_⟩
    · rw [if_pos hb, if_neg (Nat.not_le.2 hq)]
    · rw [if_pos hb, if_pos hq]
    · rw [if_neg (not_or.2 ⟨ho, hi⟩)]
  · show Host.Outcome.next (drain s.bot.q.length s) = _
    rw [h]
    rfl
  · exact ⟨_, exec_decodeBotStep (s := { s with bot := { s.bot with q := r } }) e, botStep_q e,
      congrArg Host.Outcome.next (msdTasks_cons h)⟩

end Sys2Proof.Machine
end

section
/-! The end of a command and the recovery of a halt (44 R303, R305, R307, R308, R311; O46, O47). -/

namespace Sys2Proof.Machine

section BulkArms

variable {s : State}

/-- Bulk OUT armed with its own toggle (40 R176). -/
theorem bulkArmOut_arms (h : s.Shaped) (hb : s.cfg.bulkEpsOk = true) (n : Nat) :
    ArmsNext s.cfg.bulkOutEp .out (s.epsAt s.cfg.bulkOutEp .out).toggle n s (bulkArmOut n s) :=
  rearmNext_arms h (bulk_lt hb .out) _ _

/-- The BOT state may be written before the arm or after it. -/
theorem setBotState_rearmNext {ep : Ep} (h : s.Shaped) (hep : ep.toNat < s.cfg.numEp) (dir : Dir) (tog : Bool) (n : Nat)
    (b : BotState) : setBotState b (rearmNext ep dir tog n s) = rearmNext ep dir tog n (setBotState b s) := by
  rw [rearmNext_eq h hep, rearmNext_eq ((keeps_setBotState s b).shaped h) hep]
  rfl

theorem setBotState_bulkArmOut (h : s.Shaped) (hb : s.cfg.bulkEpsOk = true) (b : BotState) (n : Nat) :
    setBotState b (bulkArmOut n s) = bulkArmOut n (setBotState b s) :=
  setBotState_rearmNext h (bulk_lt hb .out) .out _ n b

theorem setBotState_bulkArmIn (h : s.Shaped) (hb : s.cfg.bulkEpsOk = true) (b : BotState) (n : Nat) :
    setBotState b (bulkArmIn n s) = bulkArmIn n (setBotState b s) :=
  setBotState_rearmNext h (bulk_lt hb .inp) .inp _ n b

/-- Bytes loaded into the next bulk IN buffer, then its arm: the packet is sent, whoever owned the BD (40 R166, R176). -/
theorem loadArm_sends (hs : s.Sound) (hb : s.cfg.bulkEpsOk = true) {b : List Byte} (hl : b.length ≤ 2 ^ s.cfg.addrW) :
    SendsIn s.cfg.bulkInEp b s (bulkArmIn b.length (loadBulkIn b s)) := by
  have k : ArmsNext _ _ _ _ (loadBulkIn b s) (bulkArmIn b.length (loadBulkIn b s)) :=
    rearmNext_arms ((keeps_loadBulkIn s b).shaped hs.shaped) (bulk_lt hb .inp) _ _
  refine ⟨?_, k.bd, k.others, by rw [k.rest]; rfl⟩
  rw [k.rest]
  exact writeBytes_holds _ _ hs.canonical.buf hl

end BulkArms

section Csw

variable {s : State}

/-- The wrapper written out (30 R136). -/
theorem cswBytes_eq (c : Csw) :
    cswBytes c =
      ([0x55, 0x53, 0x42, 0x53] : List Byte) ++ le32Bytes c.tag ++ le32Bytes c.residue ++
        ([match c.status with | .passed => 0 | .failed => 1 | .phaseError => 2] : List Byte) := by
  unfold cswBytes
  cases c.status <;> rfl

/-- `send_csw` loads the wrapper and arms it, with sense and BOT state written first (44 R307, 45 R343). -/
theorem sendCsw_eq (h : s.Shaped) (hb : s.cfg.bulkEpsOk = true) :
    sendCsw s =
      bulkArmIn 13
        (loadBulkIn (cswBytes s.csw)
          { s with
            sense := if s.csw.status = .passed then noSense else s.sense
            bot := { s.bot with state := .csw } }) := by
  unfold sendCsw
  rw [setBotState_bulkArmIn (((keeps_senseOnComplete s).trans (keeps_loadCsw _)).shaped h)
    (by rw [senseOnComplete_eq]; exact hb), senseOnComplete_eq]
  rfl

theorem sendCsw_sends (hs : s.Sound) (hb : s.cfg.bulkEpsOk = true) :
    SendsIn s.cfg.bulkInEp (cswBytes s.csw)
      { s with
        sense := if s.csw.status = .passed then noSense else s.sense
        bot := { s.bot with state := .csw } } (sendCsw s) := by
  rw [sendCsw_eq hs.shaped hb]
  have k := (keeps_sense (keeps_setBotState s .csw) (if s.csw.status = .passed then noSense else s.sense)).sound hs
  refine loadArm_sends k hb (Nat.le_trans ?_ k.addrs)
  show 13 ≤ 1024
  decide

/-- A sent wrapper is followed by the arm for the next one (44 R308). -/
theorem cswComplete_arms (hs : s.Sound) (hb : s.cfg.bulkEpsOk = true) :
    ArmsNext s.cfg.bulkOutEp .out (s.epsAt s.cfg.bulkOutEp .out).toggle s.cfg.bulkMax
      { s with bot := { s.bot with state := .cbw } } (cswComplete s) := by
  unfold cswComplete
  rw [setBotState_bulkArmOut hs.shaped hb]
  exact bulkArmOut_arms ((keeps_setBotState s .cbw).shaped hs.shaped) hb _

theorem endOfDataIn_stall (h : s.bot.endAction = .stallThenCsw) : endOfDataIn s = stallAndWait .inp s := by
  unfold endOfDataIn
  rw [h]

theorem endOfDataIn_csw (h : s.bot.endAction = .sendCsw) : endOfDataIn s = sendCsw s := by
  unfold endOfDataIn
  rw [h]

end Csw

/-- Settles O46: the stall is `stallEp_stalls`, the wrapper `sendCsw_sends` or, put alone, a write of the buffer; the arm for
the next command is `cswComplete_arms`. -/
theorem commandEnd : Obligations.CommandEnd := by
  unfold Obligations.CommandEnd
  intro s hs hb wrapper cleared
  have hw : wrapper = cswBytes s.csw := (cswBytes_eq _).symm
  rw [hw]
  refine ⟨fun dir => ⟨_, _, stallEp_stalls hs.shaped (bulk_lt hb dir), rfl, rfl⟩, ⟨_, rfl, sendCsw_sends hs hb⟩,
    ⟨_, rfl, fun ho => ?_, fun ho => ⟨fillBuf_others (cswBytes s.csw) hs.canonical.buf, ?_⟩⟩,
    congrArg Host.Outcome.next (senseOnComplete_eq s), fun i hi => ?_, fun i hi => ?_⟩
  · rw [fillBuf_free_eq _ ho]
    exact ⟨writeBytes_holds _ _ hs.canonical.buf (Nat.le_trans (show 13 ≤ 1024 by decide) hs.addrs), rfl⟩
  · rw [fillBuf, ho]
    rfl
  · have he : exec i s = .next (endOfDataIn s) := by
      simp only [List.mem_cons, List.not_mem_nil, or_false] at hi
      obtain rfl | rfl := hi <;> rfl
    exact ⟨fun h => ⟨_, he.trans (congrArg Host.Outcome.next (endOfDataIn_stall h)), rfl⟩,
      fun h => ⟨_, he.trans (congrArg Host.Outcome.next (endOfDataIn_csw h)), rfl⟩⟩
  · refine ⟨cswComplete s, ?_, cswComplete_arms hs hb⟩
    simp only [List.mem_cons, List.not_mem_nil, or_false] at hi
    obtain rfl | rfl := hi <;> rfl

section ClearHalt

variable {s : State} {ep : Ep} {dir : Dir} (index : Nat)

theorem botClearHalt_waitInvalid (h : s.bot.state = .waitInvalid) : botClearHalt index ep dir s = stallEp ep dir s := by
  unfold botClearHalt
  rw [h]

theorem botClearHalt_waitIllegal (h : s.bot.state = .waitIllegal) :
    botClearHalt index ep dir s =
      if s.bot.stalled = some dir then sendCsw { s with bot := { s.bot with stalled := none } } else s := by
  unfold botClearHalt
  rw [h]

theorem botClearHalt_cbw (h : s.bot.state = .cbw) :
    botClearHalt index ep dir s = if ep = s.cfg.bulkOutEp ∧ dir = .out then bulkArmOut s.cfg.bulkMax s else s := by
  unfold botClearHalt
  rw [h]

theorem botClearHalt_other (h1 : s.bot.state ≠ .waitInvalid) (h2 : s.bot.state ≠ .waitIllegal)
    (h3 : s.bot.state ≠ .cbw) : botClearHalt index ep dir s = s := by
  unfold botClearHalt
  split
  exacts [absurd ‹_› h1, absurd ‹_› h2, absurd ‹_› h3, rfl, rfl, rfl, rfl, rfl, rfl]

end ClearHalt

/-- Settles O47: `bot_clear_halt` by BOT state. -/
theorem clearHaltByBotState : Obligations.ClearHaltByBotState := by
  unfold Obligations.ClearHaltByBotState
  intro s k ep dir hs _ hep
  refine ⟨fun h => ⟨_, congrArg Host.Outcome.next (botClearHalt_waitInvalid k h), stallEp_stalls hs.shaped hep⟩,
    fun h hd => ?_, fun h hd => ?_, fun h he hd => ?_, fun h hn => ?_,
    fun h1 h2 h3 => congrArg Host.Outcome.next (botClearHalt_other k h1 h2 h3)⟩
  · exact ⟨_, congrArg Host.Outcome.next ((botClearHalt_waitIllegal k h).trans (if_pos hd)), rfl⟩
  · exact congrArg Host.Outcome.next ((botClearHalt_waitIllegal k h).trans (if_neg hd))
  · refine ⟨_, congrArg Host.Outcome.next ((botClearHalt_cbw k h).trans (if_pos ⟨he, hd⟩)), ?_⟩
    subst he hd
    exact rearmNext_arms hs.shaped hep _ _
  · exact congrArg Host.Outcome.next ((botClearHalt_cbw k h).trans (if_neg hn))

end Sys2Proof.Machine
end

section
/-! The data stages and the intake of a command (44 R296, R297, R301 to R306; O41, O44, O45). -/

namespace Sys2Proof.Machine

section DataIn

variable {s : State}

/-- The bytes of a packet to the host, by their source (44 R304). -/
def chunkBytes (n : Nat) (s : State) : List Byte :=
  match s.bot.src with
  | .resp => (List.range n).map (fun i => byteAt s.bot.resp (s.bot.respPtr + i))
  | .zeros => List.replicate n 0
  | .backend => readChunk n s

/-- The place in the source moved on by a packet of `n` bytes (44 R304). -/
def movedOn (n : Nat) (s : State) : State :=
  { s with
    bot := { s.bot with respPtr := if s.bot.src = .resp then s.bot.respPtr + n else s.bot.respPtr }
    rw :=
      { s.rw with
        currentLba :=
          if s.bot.src = .backend ∧ s.rw.byteOfSector + n = s.cfg.blockSize then s.rw.currentLba + 1 else s.rw.currentLba
        byteOfSector :=
          if s.bot.src = .backend then if s.rw.byteOfSector + n = s.cfg.blockSize then 0 else s.rw.byteOfSector + n
          else s.rw.byteOfSector }
    free := if s.bot.src = .backend ∧ s.mediaPresent = false then s.free + 1 else s.free }

/-- The registers after a packet of `n` bytes to the host: the place moved on, the counts less, the BOT state (44 R304). -/
def chunkSent (n : Nat) (s : State) : State :=
  setBotState (inState (countDown n (movedOn n s))) (countDown n (movedOn n s))

theorem length_chunkBytes (n : Nat) (s : State) : (chunkBytes n s).length = n := by
  unfold chunkBytes readChunk bytesFrom
  split
  · simp
  · simp
  · split <;> simp

theorem keeps_movedOn (n : Nat) (s : State) : Keeps s (movedOn n s) :=
  ⟨rfl, rfl, rfl, rfl, rfl, id, id, id, id, id, id, id, id, fun _ => id⟩

theorem keeps_chunkSent (n : Nat) (s : State) : Keeps s (chunkSent n s) :=
  (keeps_movedOn n s).trans ((keeps_countDown _ n).trans (keeps_setBotState _ _))

theorem advanceRw_eq (bs n : Nat) (r : Rw) :
    advanceRw bs n r =
      { r with
        currentLba := if r.byteOfSector + n = bs then r.currentLba + 1 else r.currentLba
        byteOfSector := if r.byteOfSector + n = bs then 0 else r.byteOfSector + n } := by
  unfold advanceRw
  split <;> rfl

theorem movedOn_resp (h : s.bot.src = .resp) (n : Nat) :
    movedOn n s = { s with bot := { s.bot with respPtr := s.bot.respPtr + n } } := by
  have hb : ¬s.bot.src = .backend := by rw [h]; nofun
  simp only [movedOn, if_pos h, if_neg hb, if_neg fun c => hb (And.left c)]

theorem movedOn_zeros (h : s.bot.src = .zeros) (n : Nat) : movedOn n s = s := by
  have hb : ¬s.bot.src = .backend := by rw [h]; nofun
  have hr : ¬s.bot.src = .resp := by rw [h]; nofun
  simp only [movedOn, if_neg hr, if_neg hb, if_neg fun c => hb (And.left c)]

theorem movedOn_backend (h : s.bot.src = .backend) (n : Nat) :
    movedOn n s =
      { s with rw := advanceRw s.cfg.blockSize n s.rw, free := if s.mediaPresent then s.free else s.free + 1 } := by
  have hr : ¬s.bot.src = .resp := by rw [h]; nofun
  simp only [movedOn, if_neg hr, if_pos h, and_iff_right h, advanceRw_eq]
  cases s.mediaPresent <;> rfl

/-- Whatever its source, a packet is put into the buffer and the place moved on (44 R304). -/
theorem loadChunk_eq (n : Nat) (s : State) : loadChunk n s = loadBulkIn (chunkBytes n s) (movedOn n s) := by
  unfold loadChunk chunkBytes
  cases h : s.bot.src with
  | resp => rw [movedOn_resp h]; rfl
  | zeros => rw [movedOn_zeros h]
  | backend => rw [movedOn_backend h]; rfl

theorem inState_eq (s : State) :
    inState s =
      if s.bot.xferRemaining ≠ 0 then .readData else if s.bot.src = .backend then .readFinished else .dataSent := by
  unfold inState
  cases s.bot.src <;> simp

theorem inChunk_eq (s : State) :
    inChunk s =
      if s.bot.src = .backend then min (min s.cfg.bulkMax s.bot.xferRemaining.toNat) (s.cfg.blockSize - s.rw.byteOfSector)
      else min s.cfg.bulkMax s.bot.xferRemaining.toNat := by
  unfold inChunk
  cases s.bot.src <;> simp

theorem inChunk_le (s : State) : inChunk s ≤ s.cfg.bulkMax := by
  rw [inChunk_eq]
  split
  exacts [Nat.le_trans (Nat.min_le_left _ _) (Nat.min_le_left _ _), Nat.min_le_left _ _]

theorem bulkArmIn_eq (h : s.Shaped) (hb : s.cfg.bulkEpsOk = true) (n : Nat) :
    bulkArmIn n s =
      s.setBd s.cfg.bulkInEp .inp (s.nextPar s.cfg.bulkInEp .inp)
        (armedBd (s.epsAt s.cfg.bulkInEp .inp).toggle n (s.nextAddr s.cfg.bulkInEp .inp)) :=
  rearmNext_eq h (bulk_lt hb .inp) _ n

/-- A packet to the host: the registers as they are after it, its bytes, its arm (44 R304). -/
theorem sendInChunk_eq (h : s.Shaped) (hb : s.cfg.bulkEpsOk = true) :
    sendInChunk s = bulkArmIn (inChunk s) (loadBulkIn (chunkBytes (inChunk s) s) (chunkSent (inChunk s) s)) := by
  have hl : (loadBulkIn (chunkBytes (inChunk s) s) (movedOn (inChunk s) s)).Shaped := by
    rw [← loadChunk_eq]
    exact (keeps_loadChunk s _).shaped h
  have kr := (keeps_chunkSent (inChunk s) s).trans (keeps_loadBulkIn _ (chunkBytes (inChunk s) s))
  unfold sendInChunk
  dsimp only
  rw [loadChunk_eq, bulkArmIn_eq hl hb, bulkArmIn_eq (kr.shaped h) (by rw [kr.cfg]; exact hb)]
  rfl

theorem sendInChunk_sends (hs : s.Sound) (hb : s.cfg.bulkEpsOk = true) :
    SendsIn s.cfg.bulkInEp (chunkBytes (inChunk s) s) (chunkSent (inChunk s) s) (sendInChunk s) := by
  have hu := (keeps_chunkSent (inChunk s) s).sound hs
  have hl : (chunkBytes (inChunk s) s).length ≤ 2 ^ s.cfg.addrW := by
    have hn := inChunk_le s
    have h64 := hs.sizes.2.1
    have h1024 := hs.addrs
    rw [length_chunkBytes]
    omega
  have k := loadArm_sends hu hb hl
  rw [length_chunkBytes] at k
  rw [sendInChunk_eq hs.shaped hb]
  exact k

/-- Within a block the place in the media moves on by what was sent (10 R34). -/
theorem advanceRw_place {bs n : Nat} {r : Rw} (hn : r.byteOfSector + n ≤ bs) (hbs : 0 < bs)
    (hl : r.currentLba.toNat + 1 < 2 ^ 32) :
    (advanceRw bs n r).currentLba.toNat * bs + (advanceRw bs n r).byteOfSector =
        r.currentLba.toNat * bs + r.byteOfSector + n ∧
      (advanceRw bs n r).byteOfSector < bs := by
  unfold advanceRw
  split
  · next he =>
    have h1 : (r.currentLba + 1).toNat = r.currentLba.toNat + 1 := by
      rw [BitVec.toNat_add]
      exact Nat.mod_eq_of_lt hl
    refine ⟨?_, hbs⟩
    show (r.currentLba + 1).toNat * bs + 0 = _
    rw [h1, Nat.succ_mul, Nat.add_assoc, Nat.add_assoc, he]
    rfl
  · next he => exact ⟨(Nat.add_assoc _ _ _).symm, Nat.lt_of_le_of_ne hn he⟩

theorem chunkSent_free (h : s.bot.src ≠ .backend ∨ s.mediaPresent = true) (n : Nat) : (chunkSent n s).free = s.free := by
  refine if_neg fun hc => ?_
  obtain h | h := h
  · exact h hc.1
  · rw [h] at hc
    exact nomatch hc.2

theorem chunkSent_place (h : s.bot.src = .backend) {n : Nat} (hn : s.rw.byteOfSector + n ≤ s.cfg.blockSize)
    (hbs : 0 < s.cfg.blockSize) (hl : s.rw.currentLba.toNat + 1 < 2 ^ 32) :
    (chunkSent n s).rw.currentLba.toNat * s.cfg.blockSize + (chunkSent n s).rw.byteOfSector = mediaKey s + n ∧
      (chunkSent n s).rw.byteOfSector < s.cfg.blockSize := by
  unfold chunkSent
  rw [movedOn_backend h]
  exact advanceRw_place hn hbs hl

end DataIn

/-- Settles O44: `start_in` is the loads and the first packet by definition, a packet is `sendInChunk_sends`, its place
`chunkSent_place`. -/
theorem dataInStreaming : Obligations.DataInStreaming := by
  unfold Obligations.DataInStreaming
  intro s hs hb
  refine ⟨fun src total act => ⟨_, rfl, rfl⟩, fun i hi => ?_⟩
  have hx : exec i s = .next (sendInChunk s) := by
    simp only [List.mem_cons, List.not_mem_nil, or_false] at hi
    obtain rfl | rfl := hi <;> rfl
  have k := sendInChunk_sends hs hb
  have hfree : (sendInChunk s).free = (chunkSent (inChunk s) s).free := by rw [k.rest]
  have hrw : (sendInChunk s).rw = (chunkSent (inChunk s) s).rw := by rw [k.rest]
  dsimp only
  rw [← inChunk_eq s]
  refine ⟨chunkBytes (inChunk s) s, _, hx, length_chunkBytes _ _, fun h => ?_, fun h => ?_, fun h hm => ?_,
    fun h => hfree.trans (chunkSent_free h _), ?_, fun h hlt hl => ?_⟩
  · unfold chunkBytes
    rw [h]
  · unfold chunkBytes
    rw [h]
  · unfold chunkBytes readChunk
    rw [h]
    exact if_pos hm
  · rw [hfree]
    unfold chunkSent at k ⊢
    rw [inState_eq] at k
    exact k
  · rw [hrw]
    refine chunkSent_place h ?_ hs.sizes.2.2 hl
    have hle : inChunk s ≤ s.cfg.blockSize - s.rw.byteOfSector := by
      rw [inChunk_eq, if_pos h]
      exact Nat.min_le_right _ _
    omega

end Sys2Proof.Machine
end

section
/-! Data from the host and the intake of a command (44 R296, R297, R302, R306; O41, O45). -/

namespace Sys2Proof.Machine

section DataOut

variable {s u : State}

/-- `start_out` with the BOT state written first (44 R302). -/
theorem startOut_arms (hs : s.Shaped) (hb : s.cfg.bulkEpsOk = true) (total : Word) (act : EndAction) :
    ArmsNext s.cfg.bulkOutEp .out (s.epsAt s.cfg.bulkOutEp .out).toggle
      (min (min s.cfg.bulkMax total.toNat) (s.cfg.blockSize - s.rw.byteOfSector))
      { s with bot := { s.bot with xferRemaining := total, endAction := act, state := .writeData } }
      (startOut total act s) := by
  let t : State := { s with bot := { s.bot with xferRemaining := total, endAction := act } }
  have ht : t.Shaped := ⟨hs.bdt, hs.eps, hs.ptr, hs.ctrl, hs.setup, hs.cbw, hs.resp, hs.ring⟩
  have e : startOut total act s = bulkArmOut (outCount t) (setBotState .writeData t) := setBotState_bulkArmOut ht hb _ _
  rw [e]
  exact bulkArmOut_arms ((keeps_setBotState t _).shaped ht) hb _

/-- A chunk given to the backend: whole or not at all where the media does not take it, no other byte touched (44 R306,
70 R460). -/
structure StoresChunk (b : List Byte) (s u : State) : Prop where
  others : ∀ a, a < mediaKey s ∨ mediaKey s + b.length ≤ a → memRead u.media a = memRead s.media a
  whole : (∀ j, j < b.length → memRead u.media (mediaKey s + j) = byteAt b j) ∨ u.media = s.media
  lands : s.mediaPresent = true → s.writeProtected = false →
    u.free = s.free ∧ ∀ j, j < b.length → memRead u.media (mediaKey s + j) = byteAt b j

theorem writeChunk_rest (b : List Byte) (s : State) :
    writeChunk b s = { s with media := (writeChunk b s).media, free := (writeChunk b s).free } := by
  unfold writeChunk
  split <;> rfl

theorem writeChunk_stores (hm : memWf s.media) (b : List Byte) : StoresChunk b s (writeChunk b s) := by
  have put : ∀ j, j < b.length → memRead (putFrom s.media (mediaKey s) b) (mediaKey s + j) = byteAt b j :=
    fun j hj => memRead_putFrom _ _ _ _ hm hj
  have other : ∀ a, a < mediaKey s ∨ mediaKey s + b.length ≤ a →
      memRead (putFrom s.media (mediaKey s) b) a = memRead s.media a := fun a ha => memRead_putFrom_other _ _ _ _ hm ha
  unfold writeChunk
  split
  · exact ⟨other, .inl put, fun _ _ => ⟨rfl, put⟩⟩
  · next hno =>
    refine ⟨?_, ?_, fun hp hw => absurd (by rw [hp, hw]; rfl) hno⟩ <;> dsimp only <;> split
    exacts [other, fun _ _ => rfl, .inl put, .inr rfl]

/-- The state after a packet from the host was stored and counted (44 R306). -/
def chunkReceived (par : Parity) (n : Nat) (s : State) : State := countDown n (storeChunk par n s)

/-- The bytes of the packet. -/
def receivedBytes (par : Parity) (n : Nat) (s : State) : List Byte :=
  readBytes s.cfg.addrW s.buf (s.bd s.cfg.bulkOutEp .out par).address n

theorem chunkReceived_stores (hm : memWf s.media) (par : Parity) (n : Nat) :
    StoresChunk (receivedBytes par n s) s (chunkReceived par n s) := by
  unfold chunkReceived storeChunk
  split
  · next h =>
    subst h
    exact ⟨fun _ _ => rfl, .inr rfl, fun _ _ => ⟨rfl, fun j hj => absurd hj (Nat.not_lt_zero j)⟩⟩
  · have k := writeChunk_stores hm (receivedBytes par n s)
    exact ⟨k.others, k.whole, k.lands⟩

/-- The registers after a packet from the host. -/
theorem chunkReceived_rest (par : Parity) (n : Nat) (s : State) :
    chunkReceived par n s =
      { s with
        media := (chunkReceived par n s).media
        free := (chunkReceived par n s).free
        bot := { s.bot with xferRemaining := s.bot.xferRemaining - BitVec.ofNat 32 n }
        rw :=
          { s.rw with
            cbwDeclaredBytes := s.rw.cbwDeclaredBytes - BitVec.ofNat 32 n
            currentLba :=
              if n ≠ 0 ∧ s.rw.byteOfSector + n = s.cfg.blockSize then s.rw.currentLba + 1 else s.rw.currentLba
            byteOfSector :=
              if n ≠ 0 ∧ s.rw.byteOfSector + n = s.cfg.blockSize then 0 else s.rw.byteOfSector + n } } := by
  unfold chunkReceived storeChunk
  split
  · next h =>
    subst h
    rfl
  · next h =>
    rw [writeChunk_rest, advanceRw_eq]
    simp only [and_iff_right h]
    rfl

theorem keeps_chunkReceived (par : Parity) (n : Nat) (s : State) : Keeps s (chunkReceived par n s) :=
  (keeps_storeChunk s par n).trans (keeps_countDown _ n)

theorem dataOutChunk_stall {par : Parity} {n : Nat} (h : (chunkReceived par n s).bot.xferRemaining = 0)
    (he : s.bot.endAction = .stallThenCsw) : dataOutChunk par n s = stallAndWait .out (chunkReceived par n s) := by
  have hu : (chunkReceived par n s).bot.endAction = .stallThenCsw := by rw [chunkReceived_rest]; exact he
  unfold chunkReceived at h hu ⊢
  unfold dataOutChunk
  dsimp only
  rw [if_pos h, hu]

theorem dataOutChunk_csw {par : Parity} {n : Nat} (h : (chunkReceived par n s).bot.xferRemaining = 0)
    (he : s.bot.endAction = .sendCsw) : dataOutChunk par n s = sendCsw (chunkReceived par n s) := by
  have hu : (chunkReceived par n s).bot.endAction = .sendCsw := by rw [chunkReceived_rest]; exact he
  unfold chunkReceived at h hu ⊢
  unfold dataOutChunk
  dsimp only
  rw [if_pos h, hu]

theorem dataOutChunk_more {par : Parity} {n : Nat} (h : (chunkReceived par n s).bot.xferRemaining ≠ 0) :
    dataOutChunk par n s = bulkArmOut (outCount (chunkReceived par n s)) (chunkReceived par n s) := if_neg h

theorem dataOutChunk_arms (hs : s.Shaped) (hb : s.cfg.bulkEpsOk = true) {par : Parity} {n : Nat}
    (h : (chunkReceived par n s).bot.xferRemaining ≠ 0) :
    ArmsNext s.cfg.bulkOutEp .out (s.epsAt s.cfg.bulkOutEp .out).toggle
      (min (min s.cfg.bulkMax (chunkReceived par n s).bot.xferRemaining.toNat)
        (s.cfg.blockSize - (chunkReceived par n s).rw.byteOfSector))
      (chunkReceived par n s) (dataOutChunk par n s) := by
  have hu := (keeps_chunkReceived par n s).shaped hs
  have hc : (chunkReceived par n s).cfg = s.cfg := by rw [chunkReceived_rest]
  have he : ∀ e d, (chunkReceived par n s).epsAt e d = s.epsAt e d := fun e d => by rw [chunkReceived_rest]; rfl
  rw [dataOutChunk_more h]
  generalize chunkReceived par n s = u at *
  rw [outCount, hc]
  have k := bulkArmOut_arms hu (hc ▸ hb)
    (min (min s.cfg.bulkMax u.bot.xferRemaining.toNat) (s.cfg.blockSize - u.rw.byteOfSector))
  rw [hc, he] at k
  exact k

end DataOut

/-- Settles O45: `start_out` is `startOut_arms`; a packet is stored (`chunkReceived_stores`) and counted
(`chunkReceived_rest`), and one of three operations follows. -/
theorem dataOutStreaming : Obligations.DataOutStreaming := by
  unfold Obligations.DataOutStreaming
  intro s hs hb
  refine ⟨fun total act => ⟨_, rfl, startOut_arms hs.shaped hb total act⟩, fun par n _ i hi => ?_⟩
  have hx : exec i s = .next (dataOutChunk par n s) := by
    simp only [List.mem_cons, List.not_mem_nil, or_false] at hi
    obtain rfl | rfl := hi <;> rfl
  have k := chunkReceived_stores hs.canonical.media par n
  have hl : (receivedBytes par n s).length = n := length_readBytes _ _ _ _
  have others := k.others
  have whole := k.whole
  have lands := k.lands
  rw [hl] at others whole lands
  refine ⟨chunkReceived par n s, fun h => ?_, others, whole, lands, chunkReceived_rest par n s,
    fun h he => ⟨_, hx, congrArg Host.Outcome.next (dataOutChunk_stall h he).symm⟩,
    fun h he => ⟨_, hx, congrArg Host.Outcome.next (dataOutChunk_csw h he).symm⟩,
    fun h => ⟨_, hx, dataOutChunk_arms hs.shaped hb h⟩⟩
  subst h
  exact ⟨rfl, rfl⟩

section Cbw

variable {s : State} {par : Parity} {n : Nat}

/-- Anything but 31 bytes with the signature is an invalid CBW (44 R297). -/
theorem handleCbw_invalid (h : ¬(n = 31 ∧ wordAt (cbwPacket par 31 s) 0 = cbwSignature)) :
    handleCbw par n s = invalidCbw s := by
  refine if_pos (Decidable.or_iff_not_not_and_not.2 fun ⟨hn, hw⟩ => h ?_)
  have hn : n = 31 := Decidable.not_not.1 hn
  subst hn
  exact ⟨rfl, Decidable.not_not.1 hw⟩

/-- A CBW's 31 bytes with the signature are loaded and dispatched (44 R296). -/
theorem handleCbw_valid (h : wordAt (cbwPacket par 31 s) 0 = cbwSignature) :
    handleCbw par 31 s = scsiDispatch (loadCbw (cbwPacket par 31 s) s) := if_neg (by simp [h])

/-- `loadCbw` of 31 bytes stores them as they are. -/
theorem loadCbw_eq {b : List Byte} (hb : b.length = 31) :
    loadCbw b s =
      { s with
        cbw := b
        csw := ⟨wordAt b 4, 0, .passed⟩
        bot := { s.bot with dir := (byteAt b 12).getLsbD 7, opcode := byteAt b 15, stalled := none }
        rw := { s.rw with cbwDeclaredBytes := wordAt b 8 } } := by
  unfold loadCbw
  rw [fit_self hb]

theorem length_cbwBytes (c : Cbw) : (cbwBytes c).length = 31 := by simp [cbwBytes, le32Bytes, length_fit]

/-- The fields of a CBW stand at their places in its bytes (30 R135). -/
theorem byteAt_cbwBytes {c : Cbw} (hc : c.cb.length = 16) :
    wordAt (cbwBytes c) 4 = c.tag ∧ wordAt (cbwBytes c) 8 = c.h ∧ byteAt (cbwBytes c) 12 = c.flags ∧
      ∀ i, i < 16 → byteAt (cbwBytes c) (15 + i) = byteAt c.cb i := by
  have h := (cbwFields_bytes c hc).2
  have hcb : (List.range 16).map (fun i => byteAt (cbwBytes c) (15 + i)) = c.cb := congrArg Cbw.cb h
  refine ⟨congrArg Cbw.tag h, congrArg Cbw.h h, rfl, fun i hi => ?_⟩
  rw [← hcb]
  simp [byteAt, hi]

theorem invalidCbw_stalls (hs : s.Sound) (hb : s.cfg.bulkEpsOk = true) :
    ∃ u v, StallsEp s.cfg.bulkInEp .inp s u ∧ StallsEp s.cfg.bulkOutEp .out u v ∧
      invalidCbw s = { v with bot := { v.bot with state := .waitInvalid } } := by
  have ku := keeps_stallEp s s.cfg.bulkInEp .inp
  refine ⟨_, _, stallEp_stalls hs.shaped (bulk_lt hb .inp), stallEp_stalls (ku.shaped hs.shaped) ?_, rfl⟩
  rw [ku.cfg]
  exact bulk_lt hb .out

end Cbw

/-- Settles O41: a valid CBW is loaded as it is (`loadCbw_eq`) and dispatched, its fields at their places
(`byteAt_cbwBytes`); the guard of an invalid one is the complement. -/
theorem cbwValidation : Obligations.CbwValidation := by
  unfold Obligations.CbwValidation
  intro s par n hs hb
  dsimp only
  refine ⟨fun ⟨hn, hsig⟩ => ?_, fun c hc => ?_, fun i hi => ?_⟩
  · subst hn
    have hl : (cbwPacket par 31 s).length = 31 := length_readBytes _ _ _ _
    exact ⟨_, congrArg Host.Outcome.next (handleCbw_valid hsig), congrArg (exec .scsiDispatch) (loadCbw_eq hl).symm⟩
  · refine ⟨cbwBytes c, _, rfl, congrArg (exec .scsiDispatch) (loadCbw_eq (length_cbwBytes c)).symm,
      length_cbwBytes c, ?_⟩
    obtain ⟨htag, hh, hflags, hcb⟩ := byteAt_cbwBytes hc
    exact ⟨htag, hh, congrArg (fun b => b.getLsbD 7) hflags, hcb 0 (by decide), hcb⟩
  · obtain ⟨u, v, hu, hv, e⟩ := invalidCbw_stalls hs hb
    refine ⟨u, v, _, hu, hv, ?_, e⟩
    obtain rfl | ⟨rfl, hno⟩ := hi
    · rfl
    · exact congrArg Host.Outcome.next (handleCbw_invalid hno)

end Sys2Proof.Machine
end

section
/-! Recovery and reset of the BOT engine (44 R313 to R315; O48, O49). -/

namespace Sys2Proof.Machine

section Ready

variable {s : State}

/-- Bulk IN is reclaimed unless it is halted (44 R313). -/
theorem readyBulkIn_reclaims (h : s.Shaped) (hb : s.cfg.bulkEpsOk = true) :
    (∀ par ∈ parities s.cfg.ppMode s.cfg.bulkInEp .inp, (readyBulkIn s).bd s.cfg.bulkInEp .inp par =
      if (s.epsAt s.cfg.bulkInEp .inp).halted then s.bd s.cfg.bulkInEp .inp par
      else { s.bd s.cfg.bulkInEp .inp par with stat := statClear }) ∧
    SameBdsButEp s.cfg.bulkInEp .inp s (readyBulkIn s) ∧ readyBulkIn s = { s with bdt := (readyBulkIn s).bdt } := by
  unfold readyBulkIn
  split
  · exact ⟨fun _ _ => rfl, fun _ _ _ _ => rfl, rfl⟩
  · exact reclaimAll_spec h (bulk_lt hb .inp)

/-- Bulk OUT is armed unless it is halted (44 R313). -/
theorem readyBulkOut_arms (h : s.Shaped) (hb : s.cfg.bulkEpsOk = true) :
    (readyBulkOut s).bd s.cfg.bulkOutEp .out (s.nextPar s.cfg.bulkOutEp .out) =
      (if (s.epsAt s.cfg.bulkOutEp .out).halted then s.bd s.cfg.bulkOutEp .out (s.nextPar s.cfg.bulkOutEp .out)
      else armedBd (s.epsAt s.cfg.bulkOutEp .out).toggle s.cfg.bulkMax (s.nextAddr s.cfg.bulkOutEp .out)) ∧
    SameBdsBut s.cfg.bulkOutEp .out (s.nextPar s.cfg.bulkOutEp .out) s (readyBulkOut s) ∧
    readyBulkOut s = { s with bdt := (readyBulkOut s).bdt } := by
  unfold readyBulkOut
  split
  · exact ⟨rfl, fun _ _ _ _ => rfl, rfl⟩
  · have k := bulkArmOut_arms h hb s.cfg.bulkMax
    exact ⟨k.bd, k.others, k.rest⟩

/-- Both bulk directions made ready: IN reclaimed, OUT armed, each unless it is halted (44 R313). -/
structure ReadiesBulk (s u : State) : Prop where
  inBds : ∀ par ∈ parities s.cfg.ppMode s.cfg.bulkInEp .inp, u.bd s.cfg.bulkInEp .inp par =
    if (s.epsAt s.cfg.bulkInEp .inp).halted then s.bd s.cfg.bulkInEp .inp par
    else { s.bd s.cfg.bulkInEp .inp par with stat := statClear }
  outBd : u.bd s.cfg.bulkOutEp .out (s.nextPar s.cfg.bulkOutEp .out) =
    if (s.epsAt s.cfg.bulkOutEp .out).halted then s.bd s.cfg.bulkOutEp .out (s.nextPar s.cfg.bulkOutEp .out)
    else armedBd (s.epsAt s.cfg.bulkOutEp .out).toggle s.cfg.bulkMax (s.nextAddr s.cfg.bulkOutEp .out)
  others : ∀ e d p, ¬(e = s.cfg.bulkInEp ∧ d = .inp) →
    bdIndex s.cfg.ppMode e d p ≠ bdIndex s.cfg.ppMode s.cfg.bulkOutEp .out (s.nextPar s.cfg.bulkOutEp .out) →
    u.bd e d p = s.bd e d p
  rest : u = { s with bdt := u.bdt }

theorem readyBulk_readies (h : s.Shaped) (hb : s.cfg.bulkEpsOk = true) : ReadiesBulk s (readyBulkOut (readyBulkIn s)) := by
  have hv := (keeps_readyBulkIn s).shaped h
  obtain ⟨inBds, inOthers, inRest⟩ := readyBulkIn_reclaims h hb
  generalize readyBulkIn s = v at *
  obtain ⟨b, rfl⟩ : ∃ b, v = { s with bdt := b } := ⟨_, inRest⟩
  obtain ⟨outBd, outOthers, outRest⟩ := readyBulkOut_arms hv hb
  have hnext := inOthers s.cfg.bulkOutEp .out (s.nextPar s.cfg.bulkOutEp .out) (.inr nofun)
  refine ⟨fun par hp => (outOthers s.cfg.bulkInEp .inp par (bdIndex_ne (.inr nofun))).trans (inBds par hp), ?_,
    fun e d p hi ho => (outOthers e d p ho).trans (inOthers e d p (Decidable.or_iff_not_not_and_not.2 (by simpa using hi))),
    outRest⟩
  rw [State.nextAddr, ← hnext]
  exact outBd

end Ready

/-- Settles O48: the bookkeeping is `clearBot`, the bulk directions are `readyBulk_readies`, and each stage is the one
that the reply asks for. -/
theorem mscClassRequests : Obligations.MscClassRequests := by
  unfold Obligations.MscClassRequests
  intro s hs hb
  have k := readyBulk_readies ((keeps_clearBot s).shaped hs.shaped) hb
  have kb := keeps_bomsr s
  refine ⟨⟨bomsr s, _, rfl, ?_, fun hf hr => ?_, k.inBds, k.outBd, k.others,
      congrArg (fun u : State => { u with reply := acceptedReply .noData }) k.rest⟩,
    ⟨getMaxLun s, _, rfl, rfl, fun hf hr => ?_, ?_, rfl⟩, _, rfl, ?_⟩
  · have hr : respondStage (bomsr s) = statusIn (bomsr s) := rfl
    rw [hr]
    exact statusIn_ends (kb.shaped hs.shaped) (kb.cfg ▸ hs.numEp_pos)
  · show Host.Outcome.next (classRequest s) = _
    rw [classRequest, hf]
    exact congrArg Host.Outcome.next (if_pos hr)
  · show Host.Outcome.next (classRequest s) = _
    rw [classRequest, hf]
    refine congrArg Host.Outcome.next ((if_neg ?_).trans (if_pos hr))
    rw [hr]
    decide
  · exact writeBytes_holds _ _ hs.canonical.ram (Nat.one_le_two_pow)
  · exact requestError_refuses ((keeps_refuse s).shaped hs.shaped) hs.numEp_pos

end Sys2Proof.Machine
end

section
/-! The start of the BOT engine (44 R315; O49). -/

namespace Sys2Proof.Machine

section BulkInit

variable {s v : State}

/-- The enables of the bulk endpoints, which may be one endpoint. -/
theorem ctrlAt_bulkCtrl (h : s.Shaped) (hb : s.cfg.bulkEpsOk = true) (e : Ep) :
    (bulkCtrl s).ctrlAt e =
      if e = s.cfg.bulkInEp then ⟨true, true, decide (s.cfg.bulkInEp = s.cfg.bulkOutEp)⟩
      else if e = s.cfg.bulkOutEp then ⟨true, decide (s.cfg.bulkInEp = s.cfg.bulkOutEp), true⟩
      else s.ctrlAt e := by
  have hi : s.cfg.bulkInEp.toNat < s.sie.epCtrl.length := h.ctrl ▸ bulk_lt hb .inp
  have ho : s.cfg.bulkOutEp.toNat < s.sie.epCtrl.length := h.ctrl ▸ bulk_lt hb .out
  unfold bulkCtrl
  split
  · next heq =>
    rw [ctrlAt_setCtrl s _ e ho, heq]
    by_cases he : e = s.cfg.bulkInEp <;> simp [he]
  · next hne =>
    have hc : decide (s.cfg.bulkInEp = s.cfg.bulkOutEp) = false := decide_eq_false fun hc => hne hc.symm
    rw [ctrlAt_setCtrl _ _ e (by rw [(keeps_setCtrl s _ _).ctrl]; exact hi), ctrlAt_setCtrl s _ e ho, hc]

theorem bulkCtrl_rest (s : State) :
    bulkCtrl s = { s with sie := { s.sie with epCtrl := (bulkCtrl s).sie.epCtrl } } := by
  unfold bulkCtrl
  split <;> rfl

/-- The bulk endpoint directions, IN first. -/
def bulkDirs (c : Config) : List (Ep × Dir) := [(c.bulkInEp, .inp), (c.bulkOutEp, .out)]

/-- What `bot_init` does to the bulk endpoints once the engine is blank (44 R315). -/
def readyBulkEps (s : State) : State :=
  bulkArmOut s.cfg.bulkMax (bulkCtrl (setAddresses s.cfg.bulkInEp .inp (setAddresses s.cfg.bulkOutEp .out s)))

/-- The engine with nothing of a command left (44 R315). -/
def blankBot (s : State) : State := { clearBot s with sense := noSense }

@[simp] theorem blankBot_cfg (s : State) : (blankBot s).cfg = s.cfg := rfl

theorem blankBot_shaped (h : s.Shaped) : (blankBot s).Shaped := (keeps_sense (keeps_clearBot s) noSense).shaped h

theorem botInit_eq (s : State) : botInit s = readyBulkEps (blankBot s) := rfl

/-- The bulk BDs after the addresses and the arm, and the enables of the bulk endpoints. -/
structure ReadiesBulkEps (s t : State) : Prop where
  armed : ∃ a, s.Addressed s.cfg.bulkOutEp .out (s.nextPar s.cfg.bulkOutEp .out) a ∧
    t.bd s.cfg.bulkOutEp .out (s.nextPar s.cfg.bulkOutEp .out) =
      armedBd (s.epsAt s.cfg.bulkOutEp .out).toggle s.cfg.bulkMax a
  readdressed : ∀ e d, (e, d) ∈ bulkDirs s.cfg → ∀ par ∈ parities s.cfg.ppMode e d,
    ((e, d) = (s.cfg.bulkOutEp, .out) → par ≠ s.nextPar s.cfg.bulkOutEp .out) →
    ∃ a, s.Addressed e d par a ∧ t.bd e d par = { s.bd e d par with address := a }
  others : ∀ e d p, (e, d) ∉ bulkDirs s.cfg → t.bd e d p = s.bd e d p
  ctrl : ∀ e, t.ctrlAt e =
    if e = s.cfg.bulkInEp then ⟨true, true, decide (s.cfg.bulkInEp = s.cfg.bulkOutEp)⟩
    else if e = s.cfg.bulkOutEp then ⟨true, decide (s.cfg.bulkInEp = s.cfg.bulkOutEp), true⟩
    else s.ctrlAt e
  rest : t = { s with bdt := t.bdt, sie := { s.sie with epCtrl := t.sie.epCtrl }, free := t.free }

/-- The addresses of both bulk directions are written, the OUT direction's first. -/
theorem bulkAddresses_readdress (h : s.Shaped) (hb : s.cfg.bulkEpsOk = true) :
    Readdresses (bulkDirs s.cfg) s (setAddresses s.cfg.bulkInEp .inp (setAddresses s.cfg.bulkOutEp .out s)) :=
  ((readdresses_nil h).cons (bulk_lt hb .out) List.not_mem_nil).cons (bulk_lt hb .inp) (by simp)

/-- The arm after the addresses, with the enables written between. -/
theorem Readdresses.armBulk (k : Readdresses (bulkDirs s.cfg) s v) (hb : s.cfg.bulkEpsOk = true) :
    ReadiesBulkEps s (bulkArmOut s.cfg.bulkMax (bulkCtrl v)) := by
  have shaped := (keeps_bulkCtrl v).shaped k.shaped
  have ctrl := ctrlAt_bulkCtrl k.shaped (by rw [k.rest]; exact hb)
  obtain ⟨c, hc⟩ : ∃ c, bulkCtrl v = { v with sie := { v.sie with epCtrl := c } } := ⟨_, bulkCtrl_rest v⟩
  have hout : (s.cfg.bulkOutEp, Dir.out) ∈ bulkDirs s.cfg := by simp [bulkDirs]
  rw [hc] at shaped ctrl ⊢
  clear hc
  obtain ⟨-, bds, others, rest⟩ := k
  obtain ⟨b, f, rfl⟩ : ∃ b f, v = { s with bdt := b, free := f } := ⟨_, _, rest⟩
  have arms := bulkArmOut_arms shaped hb s.cfg.bulkMax
  have hnext : s.nextPar s.cfg.bulkOutEp .out ∈ parities s.cfg.ppMode s.cfg.bulkOutEp .out :=
    mem_parities.2 (validBd_nextPar (bulk_lt hb .out)).2
  refine ⟨?_, fun e d he par hp hne => ?_, fun e d p he => ?_, fun e => ?_, ?_⟩
  · obtain ⟨a, ha, hv⟩ := bds _ hout _ hnext
    exact ⟨a, ha, arms.bd.trans (congrArg (armedBd _ _) (congrArg Bd.address hv))⟩
  · obtain ⟨a, ha, hv⟩ := bds (e, d) he par hp
    refine ⟨a, ha, (arms.others e d par fun hx => ?_).trans hv⟩
    obtain ⟨rfl, rfl, rfl⟩ := bdIndex_inj hp hnext hx
    exact hne rfl rfl
  · refine (arms.others e d p (bdIndex_ne_of fun hx => he ?_)).trans (others e d p he)
    rw [hx.1, hx.2]
    exact hout
  · rw [arms.rest]
    exact ctrl e
  · rw [arms.rest]

end BulkInit

/-- Settles O49: after the blank engine, the BDs and the enables are those of `Readdresses.armBulk`. -/
theorem botInitReadiesTheBulkEndpoints : Obligations.BotInitReadiesTheBulkEndpoints := by
  unfold Obligations.BotInitReadiesTheBulkEndpoints
  intro s hs hb
  have k : ReadiesBulkEps (blankBot s) (readyBulkEps (blankBot s)) :=
    (bulkAddresses_readdress (blankBot_shaped hs.shaped) hb).armBulk hb
  refine ⟨readyBulkEps (blankBot s), congrArg Host.Outcome.next (botInit_eq s), k.armed,
    fun par hp hne => k.readdressed _ _ (List.mem_cons_of_mem _ List.mem_cons_self) par hp fun _ => hne,
    fun par hp => k.readdressed _ _ List.mem_cons_self par hp (by simp),
    fun e d p hi ho => k.others e d p ?_, (k.ctrl _).trans ?_, (k.ctrl _).trans (if_pos rfl),
    fun e hi ho => (k.ctrl e).trans ((if_neg hi).trans (if_neg ho)), k.rest⟩
  · simpa [bulkDirs] using not_or.2 ⟨hi, ho⟩
  · by_cases he : s.cfg.bulkOutEp = s.cfg.bulkInEp
    · simp [he]
    · exact (if_neg he).trans (if_pos rfl)

end Sys2Proof.Machine
end

section
/-! The SCSI responder: what a response leaves in the buffer, and which command each branch asks of the arbiter (45; O50,
O51). -/

namespace Sys2Proof.Machine

/-- Two operations with equal next states answer the same. -/
theorem answers_same {t u : State} (h : t = u) :
    ∃ v, (Host.Outcome.next t : Result) = .next v ∧ (Host.Outcome.next u : Result) = .next v :=
  ⟨u, congrArg _ h, rfl⟩

section Response

variable {s : State} {b : List Byte} {d : Nat}

/-- `respond` looks at its first `d` bytes alone (45 R341). -/
theorem respond_take (b : List Byte) (d : Nat) (s : State) : respond (b.take d) d s = respond b d s := by
  unfold respond
  rw [List.take_take, Nat.min_self]

/-- The response stands in front of what the buffer held behind it (45 R341). -/
theorem respond_eq (hs : s.Shaped) (hb : b.length = d) (hd : d ≤ 36) :
    respond b d s =
      arbitrate .di (BitVec.ofNat 32 d) .resp { s with bot := { s.bot with resp := b ++ s.bot.resp.drop d } } := by
  have hlen : (b ++ s.bot.resp.drop d).length = 36 := by
    rw [List.length_append, List.length_drop, hs.resp]
    omega
  unfold respond
  rw [List.take_of_length_le hb.le, fit_self hlen]

/-- Behind the first list, an append reads as the old buffer does. -/
theorem byteAt_append_drop {i : Nat} (hb : b.length = d) (hi : d ≤ i) (r : List Byte) :
    byteAt (b ++ r.drop d) i = byteAt r i := by
  calc byteAt (b ++ r.drop d) i = byteAt (r.drop d) (i - b.length) := List.getD_append_right _ _ _ _ (hb ▸ hi)
    _ = byteAt r (d + (i - d)) := by rw [byteAt_drop, hb]
    _ = byteAt r i := by rw [Nat.add_sub_cancel' hi]

end Response

section Commands

variable {s : State} {lba : Word}

theorem testUnitReady_present (h : s.mediaPresent = true) : testUnitReady s = arbitrate .dn 0 .resp s := if_pos h

theorem testUnitReady_absent (h : s.mediaPresent = false) : testUnitReady s = failCommand .dn 0x2 0x3A 0x00 s :=
  if_neg (Bool.eq_false_iff.1 h)

theorem readCapacity10_phaseFail (h : lba ≠ 0) : readCapacity10 lba false s = phaseFail s := if_pos ⟨rfl, h⟩

theorem readCapacity10_responds {pmi : Bool} (h : pmi = true ∨ lba = 0) :
    readCapacity10 lba pmi s = respond (capacityBytes s.cfg) 8 s := by
  refine if_neg fun ⟨hpmi, hlba⟩ => ?_
  obtain rfl | rfl := h
  · cases hpmi
  · exact hlba rfl

/-- A backend with blocks has a last one (30 R142, log 22). -/
theorem lastLba_of_ne_zero {c : Config} (h : c.capacity ≠ 0) : lastLba c = BitVec.ofNat 32 (c.capacity - 1) := if_neg h

end Commands

/-- Settles O50: a response is `respond_eq`; every command is its branch, and REQUEST SENSE gives its bytes already cut. -/
theorem scsiResponses : Obligations.ScsiResponses := by
  unfold Obligations.ScsiResponses
  intro s hs
  refine ⟨fun b d hb hd => ?_, ⟨_, rfl, fun h => ?_, fun h => ?_⟩, ⟨_, rfl, rfl⟩, ⟨_, rfl, rfl⟩,
    fun lba h => answers_same (readCapacity10_phaseFail h),
    fun lba pmi h => ⟨_, rfl, lastLba s.cfg, lastLba_of_ne_zero, ?_⟩, fun alloc => answers_same ?_, _, rfl, rfl⟩
  · exact ⟨{ s with bot := { s.bot with resp := b ++ s.bot.resp.drop d } }, _,
      congrArg Host.Outcome.next (respond_eq hs.shaped hb hd), rfl,
      fun i hi => List.getD_append _ _ _ _ (hb ▸ hi), fun i hi => byteAt_append_drop hb hi s.bot.resp, rfl⟩
  · exact congrArg Host.Outcome.next (testUnitReady_present h).symm
  · exact congrArg Host.Outcome.next (testUnitReady_absent h).symm
  · exact congrArg Host.Outcome.next (readCapacity10_responds h).symm
  · exact (respond_take (senseBytes s.sense) _ { s with sense := noSense }).symm

section Transfers

variable {s : State} {lba : Word} {len : Half}

/-- The byte count of the longest transfer fits 32 bits (00 R13). -/
theorem State.Sound.transferBytes_lt (hs : s.Sound) (len : Half) : len.toNat * s.cfg.blockSize < 2 ^ 32 := by
  have h := hs.cfg
  simp only [Config.wf, Config.sizesOk, Bool.and_eq_true, decide_eq_true_eq] at h
  obtain ⟨⟨⟨⟨⟨⟨⟨-, ⟨-, hblock⟩, -⟩, -⟩, -⟩, -⟩, -⟩, -⟩, -⟩ := h
  exact (Nat.mul_le_mul_right _ (Nat.le_pred_of_lt len.isLt)).trans_lt hblock

theorem outOfRange_iff {c : Config} : outOfRange c lba len = true ↔ c.capacity < lba.toNat + len.toNat := decide_eq_true_iff

theorem inRange_iff {c : Config} : ¬ outOfRange c lba len = true ↔ lba.toNat + len.toNat ≤ c.capacity := by
  rw [outOfRange_iff, Nat.not_lt]

theorem read10_outOfRange (h : s.cfg.capacity < lba.toNat + len.toNat) :
    read10 lba len s = failCommand .di 0x5 0x21 0x00 (rwLoad lba len s) := if_pos (outOfRange_iff.2 h)

theorem read10_inRange (h : lba.toNat + len.toNat ≤ s.cfg.capacity) :
    read10 lba len s =
      arbitrate .di (BitVec.ofNat 32 (len.toNat * s.cfg.blockSize)) .backend (rwLoad lba len s) := if_neg (inRange_iff.2 h)

theorem write10_protected (h : s.writeProtected = true) :
    write10 lba len s = failCommand .dO 0x7 0x27 0x00 (rwLoad lba len s) := if_pos h

theorem write10_outOfRange (hp : s.writeProtected = false) (h : s.cfg.capacity < lba.toNat + len.toNat) :
    write10 lba len s = failCommand .dO 0x5 0x21 0x00 (rwLoad lba len s) :=
  (if_neg (Bool.eq_false_iff.1 hp)).trans (if_pos (outOfRange_iff.2 h))

theorem write10_inRange (hp : s.writeProtected = false) (h : lba.toNat + len.toNat ≤ s.cfg.capacity) :
    write10 lba len s =
      arbitrate .dO (BitVec.ofNat 32 (len.toNat * s.cfg.blockSize)) .backend (rwLoad lba len s) :=
  (if_neg (Bool.eq_false_iff.1 hp)).trans (if_neg (inRange_iff.2 h))

end Transfers

/-- Settles O51: the working set is `rwLoad` on the fields of the command block, and each clause is one branch of the checks
in their order. -/
theorem readAndWriteTen : Obligations.ReadAndWriteTen := by
  unfold Obligations.ReadAndWriteTen
  intro s lba len hs
  refine ⟨Nat.mod_eq_of_lt (hs.transferBytes_lt len), ?_, fun h => answers_same (read10_outOfRange h),
    fun h => answers_same (read10_inRange h), fun hp => answers_same (write10_protected hp),
    fun hp h => answers_same (write10_outOfRange hp h), fun hp h => answers_same (write10_inRange hp h)⟩
  rintro rfl rfl
  rfl

end Sys2Proof.Machine
end

section
/-! The stage that a function's reply asks for (41 R196), and CDC (46 R370 to R374; O37). -/

namespace Sys2Proof.Machine

/-! What the engine makes of the reply of a class request (41 R196). -/

section Replies

variable {s u v : State} {r : Result}

/-- A refused request. -/
theorem refusal_refuses (hs : s.Sound) (hr : r = .next (respondStage v)) (hv : v = refuse s) :
    ∃ t, r = .next t ∧ RefusesRequest { s with reply := ⟨false, .noData, 0, []⟩ } t := by
  subst hv
  exact ⟨_, hr, (keeps_refuse s).requestError_refuses hs.shaped hs.numEp_pos⟩

/-- A request accepted without data, in the state `u` that the handler left. -/
theorem acceptance_ends (hs : s.Sound) (k : Keeps s u) (hr : r = .next (respondStage v)) (hv : v = u)
    (hu : u.reply = acceptedReply .noData) : ∃ t, r = .next t ∧ EndsStatusIn u t := by
  subst hv
  refine ⟨statusIn v, hr.trans ?_, k.statusIn_ends hs.shaped hs.numEp_pos⟩
  rw [respondStage, hu]
  rfl

/-- A request accepted with a DATA_IN stage, in the state `u` that the handler left. -/
theorem dataIn_starts {src : Source} {a : Addr} {n : Nat} (hr : r = .next (respondStage v)) (hv : v = u)
    (hu : u.reply = acceptedReply (.dataIn src a n)) : ∃ t, r = .next t ∧ exec (.startDataIn src a n) u = .next t := by
  subst hv
  refine ⟨_, hr, ?_⟩
  rw [respondStage, hu]
  rfl

/-- A request accepted with a DATA_OUT stage. -/
theorem dataOut_starts {a : Addr} {n : Nat} (hr : r = .next (respondStage v)) (hv : v = u)
    (hu : u.reply = acceptedReply (.dataOut a n)) : ∃ t, r = .next t ∧ exec (.startDataOut a n) u = .next t := by
  subst hv
  refine ⟨_, hr, ?_⟩
  rw [respondStage, hu]
  rfl

end Replies

/-! The two requests of CDC that receive data, by their `wLength` (46 R371). -/

section CdcWrites

variable {s : State}

theorem cdcSetLineCoding_fits (h : (wLength s.setup).toNat ≤ 7) :
    cdcSetLineCoding s =
      setReply (acceptedReply (.dataOut s.cfg.cdc.staging 7)) { s with cdc := { s.cdc with pending := .lineCoding } } :=
  if_neg (Nat.not_lt.2 h)

theorem cdcSetLineCoding_tooLong (h : 7 < (wLength s.setup).toNat) : cdcSetLineCoding s = refuse s := if_pos h

theorem cdcSendEncapsulated_fits (h : (wLength s.setup).toNat ≤ 8) :
    cdcSendEncapsulated s =
      setReply (acceptedReply (.dataOut s.cfg.cdc.encapsulated 8))
        { s with cdc := { s.cdc with pending := .encapsulated } } :=
  if_neg (Nat.not_lt.2 h)

theorem cdcSendEncapsulated_tooLong (h : 8 < (wLength s.setup).toNat) : cdcSendEncapsulated s = refuse s := if_pos h

end CdcWrites

/-! The hooks of CDC (43 R273, R277, R282, 46 R371). -/

section CdcHooks

variable {s : State}

theorem hookOutControlFinished_cdc (hc : s.cfg.function = .cdc) :
    exec .hookOutControlFinished s = .next (cdcOutFinished s) := by
  show Host.Outcome.next (outControlFinished s) = _
  rw [outControlFinished, hc]

theorem cdcOutFinished_encapsulated (h : s.cdc.pending = .encapsulated) :
    cdcOutFinished s = accept { s with cdc := { s.cdc with pending := .none } } := by
  rw [cdcOutFinished, h]

theorem cdcOutFinished_none (h : s.cdc.pending = .none) : cdcOutFinished s = refuse s := by
  rw [cdcOutFinished, h]

/-- The line coding after the commit of the staged one (46 R371). -/
def cdcCommit (s : State) : State :=
  { s with
    ram := writeBytes s.cfg.addrW s.ram s.cfg.cdc.lineCoding (readBytes s.cfg.addrW s.ram s.cfg.cdc.staging 7)
    cdc := { s.cdc with pending := .none } }

theorem cdcOutFinished_lineCoding (h : s.cdc.pending = .lineCoding) : cdcOutFinished s = accept (cdcCommit s) := by
  rw [cdcOutFinished, h]
  rfl

theorem cdcCommit_holds (hs : s.Sound) :
    HoldsAt s.cfg.addrW s.cfg.cdc.lineCoding (readBytes s.cfg.addrW s.ram s.cfg.cdc.staging 7) s.ram (cdcCommit s).ram := by
  have ha := hs.addrs
  exact writeBytes_holds _ _ hs.canonical.ram (by rw [length_readBytes]; omega)

theorem hookTasks_cdc (hc : s.cfg.function = .cdc) (ep : Ep) (dir : Dir) (par : Parity) (n : Nat) :
    exec (.hookTasks ep dir par n) s = .next (cdcTasks ep dir par n s) := by
  show fnTasks ep dir par n s = _
  rw [fnTasks, hc]

theorem hookInterfaceEndpoints_cdc (hc : s.cfg.function = .cdc) (iface : Byte) :
    exec (.hookInterfaceEndpoints iface) s = .next (setReply ⟨true, .noData, 0, cdcEndpoints s.cfg iface⟩ s) := by
  show Host.Outcome.next (interfaceEndpoints iface s) = _
  rw [interfaceEndpoints, hc]

end CdcHooks

/-! `init()` of CDC (43 R273, 46 R370). -/

section CdcInit

variable {s : State}

/-- The objects zeroed and the registers reset, the first thing that `init()` of CDC does. -/
def cdcBlank (s : State) : State := { zeroRam s with cdc := cdcReset }

theorem cdcBlank_shaped (h : s.Shaped) : (cdcBlank s).Shaped := (keeps_ramCdc s (zeroObjects_wf _)).shaped h

theorem cdcBlank_zeroes (hs : s.Sound) : ZeroesObjects s.cfg.addrW (functionRam s.cfg) s.ram (cdcBlank s).ram :=
  zeroObjects_zeroes _ hs.canonical.ram fun _ hx => functionRam_le hs hx

/-- The BDs of the three endpoints addressed, the last first. -/
def cdcAddress (s : State) : State :=
  setAddresses s.cfg.cdc.dataInEp .inp (setAddresses s.cfg.cdc.dataOutEp .out (setAddresses s.cfg.cdc.notifyEp .inp s))

/-- The endpoint directions of CDC, in the order of the address writes, the last first. -/
def cdcDirs (c : Config) : List (Ep × Dir) := [(c.cdc.dataInEp, .inp), (c.cdc.dataOutEp, .out), (c.cdc.notifyEp, .inp)]

theorem mem_cdcDirs {c : Config} {x : Ep × Dir} :
    x ∈ cdcDirs c ↔ x ∈ [(c.cdc.notifyEp, Dir.inp), (c.cdc.dataOutEp, .out), (c.cdc.dataInEp, .inp)] := by
  simp only [cdcDirs, List.mem_cons, List.not_mem_nil, or_false]
  tauto

theorem cdcAddress_readdresses (hs : s.Sound) (hc : s.cfg.function = .cdc) :
    Readdresses (cdcDirs s.cfg) (cdcBlank s) (cdcAddress (cdcBlank s)) := by
  obtain ⟨⟨hnotify, hout, hin⟩, -, -⟩ := cdc_bounds hs hc
  have ok := cdcOk_of_wf hs.cfg hc
  simp only [Config.cdcOk, Bool.and_eq_true, bne_iff_ne] at ok
  obtain ⟨⟨⟨-, hne⟩, -⟩, -⟩ := ok
  have k1 := (readdresses_nil (cdcBlank_shaped hs.shaped)).cons (dir := .inp) hnotify List.not_mem_nil
  have k2 := k1.cons (dir := .out) hout (by simp)
  exact k2.cons (dir := .inp) hin (by simp [Ne.symm hne])

/-- What an endpoint of CDC is enabled for (46 R370). -/
def cdcCtrl (c : Config) (ep : Ep) : EpCtrl :=
  ⟨true, decide (ep = c.cdc.notifyEp ∨ ep = c.cdc.dataInEp), decide (ep = c.cdc.dataOutEp)⟩

/-- The endpoints of CDC enabled, two of which may be one endpoint. -/
def cdcEnable (c : Config) (s : State) : State :=
  ((s.setCtrl c.cdc.notifyEp (cdcCtrl c c.cdc.notifyEp)).setCtrl c.cdc.dataOutEp (cdcCtrl c c.cdc.dataOutEp)).setCtrl
    c.cdc.dataInEp (cdcCtrl c c.cdc.dataInEp)

theorem keeps_cdcEnable (c : Config) (s : State) : Keeps s (cdcEnable c s) :=
  ((keeps_setCtrl s _ _).trans (keeps_setCtrl _ _ _)).trans (keeps_setCtrl _ _ _)

theorem ctrlAt_cdcEnable {c : Config} {t : State} (hn : c.cdc.notifyEp.toNat < t.sie.epCtrl.length)
    (ho : c.cdc.dataOutEp.toNat < t.sie.epCtrl.length) (hi : c.cdc.dataInEp.toNat < t.sie.epCtrl.length) (e : Ep) :
    (cdcEnable c t).ctrlAt e =
      if e ∈ [c.cdc.notifyEp, c.cdc.dataOutEp, c.cdc.dataInEp] then cdcCtrl c e else t.ctrlAt e := by
  have k1 := keeps_setCtrl t c.cdc.notifyEp (cdcCtrl c c.cdc.notifyEp)
  have k2 := k1.trans (keeps_setCtrl _ c.cdc.dataOutEp (cdcCtrl c c.cdc.dataOutEp))
  rw [cdcEnable, ctrlAt_setCtrl _ _ _ (by rwa [k2.ctrl]), ctrlAt_setCtrl _ _ _ (by rwa [k1.ctrl]),
    ctrlAt_setCtrl _ _ _ hn]
  by_cases h1 : e = c.cdc.dataInEp
  · rw [if_pos h1, h1, if_pos (by simp)]
  · by_cases h2 : e = c.cdc.dataOutEp
    · rw [if_neg h1, if_pos h2, h2, if_pos (by simp)]
    · by_cases h3 : e = c.cdc.notifyEp
      · rw [if_neg h1, if_neg h2, if_pos h3, h3, if_pos (by simp)]
      · rw [if_neg h1, if_neg h2, if_neg h3, if_neg (by simp [h1, h2, h3])]

/-- What `init()` of CDC leaves (43 R273, 46 R370). -/
structure InitsCdc (s t : State) : Prop where
  zeroes : ZeroesObjects s.cfg.addrW (functionRam s.cfg) s.ram t.ram
  bds : ReaddressesAndArms (cdcDirs s.cfg) s.cfg.cdc.dataOutEp s.cfg.cdc.max s t
  ctrl : ∀ e, t.ctrlAt e =
    if e ∈ [s.cfg.cdc.notifyEp, s.cfg.cdc.dataOutEp, s.cfg.cdc.dataInEp] then cdcCtrl s.cfg e else s.ctrlAt e
  rest : t =
    { s with
      ram := t.ram, bdt := t.bdt, cdc := cdcReset, sie := { s.sie with epCtrl := t.sie.epCtrl }, free := t.free }

theorem cdcInit_eq (s : State) :
    cdcInit s =
      armBd s.cfg.cdc.dataOutEp .out .even false s.cfg.cdc.max (cdcEnable s.cfg (cdcAddress (cdcBlank s))) := rfl

theorem cdcInit_inits (hs : s.Sound) (hc : s.cfg.function = .cdc) : InitsCdc s (cdcInit s) := by
  obtain ⟨⟨hnotify, hout, hin⟩, -, -⟩ := cdc_bounds hs hc
  have k := cdcAddress_readdresses hs hc
  have z := cdcBlank_zeroes hs
  rw [cdcInit_eq]
  generalize cdcAddress (cdcBlank s) = v at k ⊢
  have hlen : v.sie.epCtrl.length = s.cfg.numEp := by rw [k.shaped.ctrl, k.rest]; rfl
  have ctrl := ctrlAt_cdcEnable (c := s.cfg) (by rwa [hlen]) (by rwa [hlen]) (by rwa [hlen])
  have w := k.arm (o := s.cfg.cdc.dataOutEp) (by simp [cdcDirs]) hout ((keeps_cdcEnable s.cfg v).shaped k.shaped) rfl rfl
    s.cfg.cdc.max
  have r := armBd_rest (cdcEnable s.cfg v) s.cfg.cdc.dataOutEp .out .even false s.cfg.cdc.max
  generalize armBd s.cfg.cdc.dataOutEp .out .even false s.cfg.cdc.max (cdcEnable s.cfg v) = t at *
  refine ⟨?_, ⟨w.armed, w.readdressed, w.others⟩, fun e => ?_, ?_⟩
  · rw [r]
    show ZeroesObjects _ _ _ v.ram
    rw [k.rest]
    exact z
  · rw [r]
    show (cdcEnable s.cfg v).ctrlAt e = _
    rw [ctrl, show v.ctrlAt e = s.ctrlAt e by rw [k.rest]; rfl]
  · rw [r]
    simp only [cdcEnable, State.setCtrl]
    rw [k.rest]
    rfl

end CdcInit

/-- Settles O37: the replies of the requests start the stages of `Replies`; the commit is `cdcCommit_holds`, and `init()` is
`cdcInit_inits`. -/
theorem cdcRequests : Obligations.CdcRequests := by
  unfold Obligations.CdcRequests
  intro s hs c
  refine ⟨fun h => dataOut_starts rfl (cdcSetLineCoding_fits h) rfl,
    fun h => refusal_refuses hs rfl (cdcSetLineCoding_tooLong h), dataIn_starts rfl rfl rfl, fun dtr rts => ?_,
    fun h => dataOut_starts rfl (cdcSendEncapsulated_fits h) rfl,
    fun h => refusal_refuses hs rfl (cdcSendEncapsulated_tooLong h), dataIn_starts rfl rfl rfl,
    fun hc hp => ?_, fun hc => ⟨fun hp => ?_, fun hp => ?_⟩,
    fun hc => ?_, fun hc ep dir par n => ?_, fun hc iface => ?_⟩
  · exact acceptance_ends hs (keeps_cdcSetControlLineState s dtr rts) rfl rfl rfl
  · rw [hookOutControlFinished_cdc hc, cdcOutFinished_lineCoding hp]
    exact ⟨_, rfl, rfl, cdcCommit_holds hs, rfl⟩
  · rw [hookOutControlFinished_cdc hc, cdcOutFinished_encapsulated hp]
    rfl
  · rw [hookOutControlFinished_cdc hc, cdcOutFinished_none hp]
    rfl
  · intro eps
    have k := cdcInit_inits hs hc
    have z := k.zeroes
    rw [functionRam, hc] at z
    refine ⟨cdcInit s, ?_, z, k.bds.armed, fun x hx par hp hne => ?_, fun e d p he => ?_, k.ctrl, k.rest⟩
    · show Host.Outcome.next (fnInit s) = _
      rw [fnInit, hc]
    · exact k.bds.readdressed x.1 x.2 (mem_cdcDirs.2 hx) par hp fun h => hne h.2
    · exact k.bds.others e d p fun h => he (mem_cdcDirs.1 h)
  · rw [hookTasks_cdc hc]
    rfl
  · rw [hookInterfaceEndpoints_cdc hc]
    rfl

end Sys2Proof.Machine
end

section
/-! The requests of HID, its descriptors and its SOF count (46 R375, R376; O38). -/

namespace Sys2Proof.Machine

/-! GET_REPORT and SET_REPORT (46 R375). -/

section Reports

variable {s : State} {rtype rid : Byte} {i : Nat} {sizes : List Nat} {addrs : List Addr} {p : Nat → HidPending}

/-- The report types that GET_REPORT sends, with the sizes and the places of their reports. -/
def sentReports (h : HidConfig) : List (Byte × List Nat × List Addr) :=
  [(1, h.inSizes, h.inAddrs), (3, h.featureSizes, h.featureAddrs)]

theorem hidGetReport_some (hm : (rtype, sizes, addrs) ∈ sentReports s.cfg.hid)
    (hi : reportIndex s.cfg.hid.useIds sizes.length rid = some i) :
    hidGetReport rtype rid s = setReply (acceptedReply (.dataIn .ram (addrs.getD i 0) (sizes.getD i 0))) s := by
  simp only [sentReports, List.mem_cons, Prod.mk.injEq, List.not_mem_nil, or_false] at hm
  obtain ⟨rfl, rfl, rfl⟩ | ⟨rfl, rfl, rfl⟩ := hm <;> simp [hidGetReport, hi]

theorem hidGetReport_none (hm : (rtype, sizes, addrs) ∈ sentReports s.cfg.hid)
    (hi : reportIndex s.cfg.hid.useIds sizes.length rid = none) : hidGetReport rtype rid s = refuse s := by
  simp only [sentReports, List.mem_cons, Prod.mk.injEq, List.not_mem_nil, or_false] at hm
  obtain ⟨rfl, rfl, rfl⟩ | ⟨rfl, rfl, rfl⟩ := hm <;> simp [hidGetReport, hi]

theorem hidGetReport_otherType (h1 : rtype ≠ 1) (h3 : rtype ≠ 3) : hidGetReport rtype rid s = refuse s := by
  unfold hidGetReport
  dsimp only
  split
  · next h => exact absurd (BitVec.eq_of_toNat_eq h) h1
  · next h => exact absurd (BitVec.eq_of_toNat_eq h) h3
  · rfl

/-- The report types that SET_REPORT takes, with the sizes of their reports and what it records for the commit. -/
def takenReports (h : HidConfig) : List (Byte × List Nat × (Nat → HidPending)) :=
  [(2, h.outSizes, .output), (3, h.featureSizes, .feature)]

theorem hidSetReport_taken (hm : (rtype, sizes, p) ∈ takenReports s.cfg.hid) :
    hidSetReport rtype rid s = takeReport sizes rid p s := by
  simp only [takenReports, List.mem_cons, Prod.mk.injEq, List.not_mem_nil, or_false] at hm
  obtain ⟨rfl, rfl, rfl⟩ | ⟨rfl, rfl, rfl⟩ := hm <;> rfl

theorem hidSetReport_otherType (h2 : rtype ≠ 2) (h3 : rtype ≠ 3) : hidSetReport rtype rid s = refuse s := by
  unfold hidSetReport
  split
  · next h => exact absurd (BitVec.eq_of_toNat_eq h) h2
  · next h => exact absurd (BitVec.eq_of_toNat_eq h) h3
  · rfl

theorem takeReport_fits (hi : reportIndex s.cfg.hid.useIds sizes.length rid = some i)
    (hw : (wLength s.setup).toNat ≤ sizes.getD i 0) :
    takeReport sizes rid p s =
      setReply (acceptedReply (.dataOut s.cfg.hid.staging (wLength s.setup).toNat))
        { s with hid := { s.hid with pending := p i } } := by
  simp only [takeReport, hi]
  exact if_neg (Nat.not_lt.2 hw)

theorem takeReport_refused (h : reportIndex s.cfg.hid.useIds sizes.length rid = none ∨
    (reportIndex s.cfg.hid.useIds sizes.length rid = some i ∧ sizes.getD i 0 < (wLength s.setup).toNat)) :
    takeReport sizes rid p s = refuse s := by
  obtain hi | ⟨hi, hw⟩ := h
  · simp only [takeReport, hi]
  · simp only [takeReport, hi]
    exact if_pos hw

end Reports

/-! The commit of a collected report (43 R277, 46 R375). -/

section Commit

variable {s : State} {i : Nat} {sizes : List Nat} {addrs : List Addr} {p : Nat → HidPending}

theorem hookOutControlFinished_hid (hh : s.cfg.function = .hid) :
    exec .hookOutControlFinished s = .next (hidOutFinished s) := by
  show Host.Outcome.next (outControlFinished s) = _
  rw [outControlFinished, hh]

/-- The reports that a commit writes: their sizes and places, and what was recorded of them. -/
def committedReports (h : HidConfig) : List (List Nat × List Addr × (Nat → HidPending)) :=
  [(h.outSizes, h.outAddrs, .output), (h.featureSizes, h.featureAddrs, .feature)]

theorem hidOutFinished_none (h : s.hid.pending = .none) : hidOutFinished s = refuse s := by
  simp only [hidOutFinished, h]

theorem hidOutFinished_commits (hm : (sizes, addrs, p) ∈ committedReports s.cfg.hid) (h : s.hid.pending = p i) :
    hidOutFinished s = commitReport (addrs.getD i 0) (sizes.getD i 0) s := by
  simp only [committedReports, List.mem_cons, Prod.mk.injEq, List.not_mem_nil, or_false] at hm
  obtain ⟨rfl, rfl, rfl⟩ | ⟨rfl, rfl, rfl⟩ := hm <;> simp only [hidOutFinished, h]

/-- The storage of a report that a commit writes is an object of the function's RAM. -/
theorem committedReport_mem (hs : s.Sound) (hh : s.cfg.function = .hid)
    (hm : (sizes, addrs, p) ∈ committedReports s.cfg.hid) (hi : i < sizes.length) :
    (addrs.getD i 0, sizes.getD i 0) ∈ functionRam s.cfg := by
  have ok := hidOk_of_wf hs.cfg hh
  simp only [Config.hidOk, Bool.and_eq_true, beq_iff_eq] at ok
  obtain ⟨⟨⟨-, hout⟩, hfeature⟩, -⟩ := ok
  have zip (hl : sizes.length = addrs.length) : (addrs.getD i 0, sizes.getD i 0) ∈ addrs.zip sizes := by
    rw [List.getD_eq_getElem _ _ hi, List.getD_eq_getElem _ _ (hl ▸ hi), ← List.getElem_zip]
    exact List.getElem_mem (by rw [List.length_zip]; omega)
  simp only [committedReports, List.mem_cons, Prod.mk.injEq, List.not_mem_nil, or_false] at hm
  obtain ⟨rfl, rfl, rfl⟩ | ⟨rfl, rfl, rfl⟩ := hm
  · simp only [functionRam, hh, List.mem_append, zip hout, true_or, or_true]
  · simp only [functionRam, hh, List.mem_append, zip hfeature, true_or, or_true]

theorem commitReport_holds (hs : s.Sound) (a : Addr) {n : Nat} (hn : n ≤ 2 ^ s.cfg.addrW) :
    HoldsAt s.cfg.addrW a (readBytes s.cfg.addrW s.ram s.cfg.hid.staging (min n s.ctl.bytesReceived.toNat)) s.ram
      (commitReport a n s).ram :=
  writeBytes_holds _ _ hs.canonical.ram (by rw [length_readBytes]; exact (Nat.min_le_left _ _).trans hn)

end Commit

/-! GET_IDLE and SET_IDLE (46 R375). -/

section Idle

variable {s : State} {d rid : Byte} {i : Nat}

/-- Id 0 of GET_IDLE stands for the first report, if there is one (log 12). -/
theorem idleIndex_zero (u : Bool) (k : Nat) :
    reportIndex (u && (0 : Byte) != 0) k 0 = if k = 0 then none else some 0 := by
  simp [reportIndex]

theorem idleIndex_of_ne (u : Bool) (k : Nat) (h : rid ≠ 0) : reportIndex (u && rid != 0) k rid = reportIndex u k rid := by
  rw [bne_iff_ne.2 h, Bool.and_true]

theorem hidGetIdle_some (h : (rid = 0 ∧ s.cfg.hid.inSizes ≠ [] ∧ i = 0) ∨
    (rid ≠ 0 ∧ reportIndex s.cfg.hid.useIds s.cfg.hid.inSizes.length rid = some i)) :
    hidGetIdle rid s = setReply (acceptedReply (.dataIn .ram (idlePtr s.cfg i) 1)) s := by
  obtain ⟨rfl, hn, rfl⟩ | ⟨hr, hi⟩ := h
  · simp only [hidGetIdle, idleIndex_zero, List.length_eq_zero_iff, hn, if_false]
  · simp only [hidGetIdle, idleIndex_of_ne _ _ hr, hi]

theorem hidGetIdle_none (h : (rid = 0 ∧ s.cfg.hid.inSizes = []) ∨
    (rid ≠ 0 ∧ reportIndex s.cfg.hid.useIds s.cfg.hid.inSizes.length rid = none)) : hidGetIdle rid s = refuse s := by
  obtain ⟨rfl, hn⟩ | ⟨hr, hi⟩ := h
  · simp only [hidGetIdle, idleIndex_zero, List.length_eq_zero_iff, hn, if_true]
  · simp only [hidGetIdle, idleIndex_of_ne _ _ hr, hi]

theorem hidSetIdle_some (hr : rid ≠ 0) (hi : reportIndex s.cfg.hid.useIds s.cfg.hid.inSizes.length rid = some i) :
    hidSetIdle d rid s = accept (setIdle d s i) := by
  simp only [hidSetIdle, hr, if_false, hi]

theorem hidSetIdle_none (hr : rid ≠ 0) (hi : reportIndex s.cfg.hid.useIds s.cfg.hid.inSizes.length rid = none) :
    hidSetIdle d rid s = refuse s := by
  simp only [hidSetIdle, hr, if_false, hi]

theorem hidSetIdle_zero :
    hidSetIdle d 0 s = accept ((List.range s.cfg.hid.inSizes.length).foldl (setIdle d) s) := by
  simp only [hidSetIdle, if_true]

/-- The byte of one idle duration, written. -/
theorem setIdle_holds (hs : s.Sound) (d : Byte) (i : Nat) :
    HoldsAt s.cfg.addrW (idlePtr s.cfg i) [d] s.ram (setIdle d s i).ram := by
  have ha := hs.addrs
  have k := writeBytes_holds (w := s.cfg.addrW) (idlePtr s.cfg i) [d] hs.canonical.ram
    (by simp only [List.length_cons, List.length_nil]; omega)
  have hp : place s.cfg.addrW (idlePtr s.cfg i) 0 = idlePtr s.cfg i := place_zero (place_lt _ _ _)
  rwa [writeBytes, writeBytes, hp] at k

end Idle

/-! The descriptors of HID (43 R272, 46 R375). -/

section Descriptors

variable {s : State} {c : Config}

theorem hookGetClassDescriptor_hid (hh : s.cfg.function = .hid) :
    exec .hookGetClassDescriptor s = .next (hidClassDescriptor s) := by
  show Host.Outcome.next (getClassDescriptor s) = _
  rw [getClassDescriptor, hh]

theorem hidClassDescriptor_hid (h : hiByte (wValue s.setup) = 0x21) :
    hidClassDescriptor s = setReply (acceptedReply (.dataIn .rom (hidDescPtr s.cfg) s.cfg.hid.hidDesc.length)) s := by
  rw [hidClassDescriptor, h]
  rfl

theorem hidClassDescriptor_report (h : hiByte (wValue s.setup) = 0x22) :
    hidClassDescriptor s = setReply (acceptedReply (.dataIn .rom (reportDescPtr s.cfg) s.cfg.hid.reportDesc.length)) s := by
  rw [hidClassDescriptor, h]
  rfl

theorem hidClassDescriptor_other (h1 : hiByte (wValue s.setup) ≠ 0x21) (h2 : hiByte (wValue s.setup) ≠ 0x22) :
    hidClassDescriptor s = refuse s := by
  unfold hidClassDescriptor
  dsimp only
  split
  · next h => exact absurd (BitVec.eq_of_toNat_eq h) h1
  · next h => exact absurd (BitVec.eq_of_toNat_eq h) h2
  · rfl

theorem romBytes_hidDesc (h : c.wf = true) : romBytes c (hidDescPtr c) c.hid.hidDesc.length = c.hid.hidDesc := by
  have hr := romBytes_of_rom c (Nat.add_comm _ _ ▸ rom_fits h)
    (c.deviceDesc ++ c.configDescs.flatten ++ c.stringDescs.flatten) c.hid.hidDesc c.hid.reportDesc rfl
  rwa [List.length_append, List.length_append] at hr

theorem romBytes_reportDesc (h : c.wf = true) :
    romBytes c (reportDescPtr c) c.hid.reportDesc.length = c.hid.reportDesc := by
  have hr := romBytes_of_rom c (Nat.add_comm _ _ ▸ rom_fits h)
    (c.deviceDesc ++ c.configDescs.flatten ++ c.stringDescs.flatten ++ c.hid.hidDesc) c.hid.reportDesc []
    (List.append_nil _).symm
  rwa [List.length_append, List.length_append, List.length_append] at hr

end Descriptors

/-- What a start of frame does where HID is bound: the flag is taken down, each report counts (60 R415, 46 R376). -/
theorem serviceSof_counts {s : State} (hh : s.cfg.function = .hid) (hc : s.hid.counters.length = s.cfg.hid.inSizes.length)
    (he : s.hid.expired.length = s.cfg.hid.inSizes.length) :
    CountsSof (List.range s.cfg.hid.inSizes.length) { s with ev := { s.ev with sof := false } } (serviceSof s) := by
  have e : serviceSof s = hidSof { s with ev := { s.ev with sof := false } } := by
    rw [serviceSof, fnSof, hh]
  rw [e]
  exact sofReports_count _ List.nodup_range _ fun i hi => ⟨hc ▸ List.mem_range.1 hi, he ▸ List.mem_range.1 hi⟩

/-- Settles O38: each request is the branch of its handler that its operands select; the commit is `commitReport_holds`, the
idle durations are `setIdle_holds` and `setIdles_set`, the count is `serviceSof_counts`. -/
theorem hidRequests : Obligations.HidRequests := by
  unfold Obligations.HidRequests
  intro s hs h w answered refused
  refine ⟨fun rtype rid i sizes addrs hm => ⟨fun hi => dataIn_starts rfl (hidGetReport_some hm hi) rfl,
      fun hi => refusal_refuses hs rfl (hidGetReport_none hm hi)⟩,
    fun rtype rid i sizes p hm =>
      ⟨fun hi hw => dataOut_starts rfl ((hidSetReport_taken hm).trans (takeReport_fits hi hw)) rfl,
        fun hr => refusal_refuses hs rfl ((hidSetReport_taken hm).trans (takeReport_refused hr))⟩,
    fun hh => ⟨fun hp => ?_, fun i sizes addrs p hm hi hp => ?_⟩,
    fun rid hr hi => ⟨refusal_refuses hs rfl (hidGetIdle_none (.inr ⟨hr, hi⟩)),
      fun d => refusal_refuses hs rfl (hidSetIdle_none hr hi)⟩,
    fun rtype rid h1 h3 => refusal_refuses hs rfl (hidGetReport_otherType h1 h3),
    fun rtype rid h2 h3 => refusal_refuses hs rfl (hidSetReport_otherType h2 h3),
    fun hn => refusal_refuses hs rfl (hidGetIdle_none (.inl ⟨rfl, hn⟩)),
    fun rid i hi => dataIn_starts rfl (hidGetIdle_some hi) rfl,
    fun d rid i hr hi => ?_, fun d => ?_, fun i hi => ?_,
    fun hh => ⟨fun hd => ?_, fun hd => ?_, fun h1 h2 => ?_⟩, romBytes_hidDesc hs.cfg, romBytes_reportDesc hs.cfg,
    fun hh hc he => ?_⟩
  · rw [hookOutControlFinished_hid hh, hidOutFinished_none hp]
    rfl
  · rw [hookOutControlFinished_hid hh, hidOutFinished_commits hm hp]
    exact ⟨_, rfl, commitReport_holds hs _ (functionRam_le hs (committedReport_mem hs hh hm hi)), rfl⟩
  · have k : Keeps s (accept (setIdle d s i)) := (keeps_setIdle s d i).trans (keeps_accept _)
    obtain ⟨t, ht, hends⟩ := acceptance_ends hs k rfl (hidSetIdle_some hr hi) rfl
    exact ⟨_, t, ht, hends, setIdle_holds hs d i, rfl⟩
  · have k := (hidSetIdle_zero (d := d) (s := s)) ▸ keeps_hidSetIdle s d 0
    obtain ⟨t, ht, hends⟩ := acceptance_ends hs k rfl hidSetIdle_zero rfl
    obtain ⟨-, hset, hothers, hcounters, hexpired, hrest⟩ :=
      setIdles_set d (List.range s.cfg.hid.inSizes.length) s hs.canonical.ram
    refine ⟨_, t, ht, hends, fun i hi => ?_, fun k hk => ?_, fun i hi => ?_, ?_⟩
    · have hm := List.mem_range.2 hi
      exact ⟨hset i hm, (hcounters i).trans (if_pos hm), (hexpired i).trans (if_pos hm)⟩
    · exact hothers k fun i hi => hk i (List.mem_range.1 hi)
    · have hm : i ∉ List.range s.cfg.hid.inSizes.length := fun hc => Nat.not_lt.2 hi (List.mem_range.1 hc)
      exact ⟨(hcounters i).trans (if_neg hm), (hexpired i).trans (if_neg hm)⟩
    · exact congrArg accept hrest
  · simp only [List.mem_cons, List.not_mem_nil, or_false] at hi
    obtain rfl | rfl := hi <;> exact refusal_refuses hs rfl rfl
  · rw [hookGetClassDescriptor_hid hh, hidClassDescriptor_hid hd]
    rfl
  · rw [hookGetClassDescriptor_hid hh, hidClassDescriptor_report hd]
    rfl
  · rw [hookGetClassDescriptor_hid hh, hidClassDescriptor_other h1 h2]
    rfl
  · obtain ⟨hcounters, hexpired, hrest⟩ := serviceSof_counts hh hc he
    refine ⟨_, rfl, ?_, ?_, fun i hi => ?_⟩
    · rw [hrest]
    · rw [hrest]
    · intro d k
      have hm := List.mem_range.2 hi
      refine ⟨(hcounters i).trans ?_, (hexpired i).trans (if_pos hm)⟩
      by_cases hd : d = 0
      · exact (if_neg fun hx => hx.2 hd).trans (if_pos hd).symm
      · exact (if_pos ⟨hm, hd⟩).trans (if_neg hd).symm

end Sys2Proof.Machine
end

section
/-! The turns (60 R401, R420, 30 R150; O3): where a step finds its operation, by the head of the script. -/

namespace Sys2Proof.Machine

variable {s t : State} {i j : Instr} {l : Line} {a : Turn} {r : List Turn}

theorem step_fetched (h : fetch s = some (i, t)) : step s = exec i t := by rw [step, h]

theorem step_unfetched (h : fetch s = none) : step s = .next (environment s) := by rw [step, h]

theorem fetch_pending (h : decodeEvent s.ev = some i) : fetch s = fetchPending i s := by rw [fetch, h]

theorem fetch_idle (h : decodeEvent s.ev = none) : fetch s = fetchIdle s := by rw [fetch, h]

/-- The environment takes the turn at the head of the script. -/
theorem environment_cons (h : s.script = a :: r) : environment s = applyTurn a { s with script := r } := by
  rw [environment, h]

/-- The drain is the one line that needs an engine step before it (00 R18). -/
theorem outside_of_ne_drain (h : l ≠ .drain) : l.outside = true := by
  cases l
  case drain => exact absurd rfl h
  all_goals rfl

/-! While a flag is pending (20 R85, 43 R281, 30 R150). -/

section Pending

variable (hd : decodeEvent s.ev = some i)
include hd

theorem step_service (h : s.script = .service :: r) : step s = exec i { s with script := r } :=
  step_fetched ((fetch_pending hd).trans (by rw [fetchPending, h]))

theorem step_callIsr (h : s.script = .call .isr :: r) : step s = exec .isr { s with script := r } :=
  step_fetched ((fetch_pending hd).trans (by rw [fetchPending, h]; rfl))

/-- A line of the SIE, the host or the backend comes before the service. -/
theorem step_early (hl : l ≠ .drain) (h : s.script = .early l :: r) :
    step s = .next (applyLine l { s with script := r }) := by
  have hn : fetch s = none := (fetch_pending hd).trans (by rw [fetchPending, h]; exact if_pos (outside_of_ne_drain hl))
  rw [step_unfetched hn, environment_cons h]
  rfl

/-- Every other turn waits for the service. -/
theorem step_waits (h : s.script = [] ∨ ∃ a r, s.script = a :: r ∧
    ((∃ j, j ≠ .isr ∧ a = .call j) ∨ (∃ l, a = .line l) ∨ a = .early .drain ∨ a = .close ∨ ∃ b, a = .app b)) :
    step s = exec i s := by
  refine step_fetched ((fetch_pending hd).trans ?_)
  unfold fetchPending
  obtain h | ⟨a, r, h, ⟨j, hj, rfl⟩ | ⟨l, rfl⟩ | rfl | rfl | ⟨b, rfl⟩⟩ := h <;> rw [h]
  · exact if_neg hj
  · rfl

end Pending

/-! With no flag pending. -/

section Idle

variable (hd : decodeEvent s.ev = none)
include hd

/-- With nothing scripted the main loop drains a ring that is not empty (70 R442). -/
theorem step_drainsRing (h : s.script = []) (hq : s.bot.q ≠ []) : step s = exec .msdTasks s :=
  step_fetched ((fetch_idle hd).trans (by rw [fetchIdle, h]; exact if_neg hq))

theorem step_drain (ha : a = .line .drain ∨ a = .early .drain) (h : s.script = a :: r) :
    step s = exec .msdTasks { s with script := r } := by
  refine step_fetched ((fetch_idle hd).trans ?_)
  obtain rfl | rfl := ha <;> rw [fetchIdle, h]

theorem step_call (h : s.script = .call j :: r) (hc : callable s.cfg j = true) : step s = exec j { s with script := r } :=
  step_fetched ((fetch_idle hd).trans (by rw [fetchIdle, h]; exact if_pos hc))

/-- A turn at which `fetchIdle` finds no operation is the environment's. -/
theorem step_environment (h : s.script = a :: r) (hf : fetchIdle s = none) :
    step s = .next (applyTurn a { s with script := r }) := by
  rw [step_unfetched ((fetch_idle hd).trans hf), environment_cons h]

theorem step_skippedCall (h : s.script = .call j :: r) (hc : callable s.cfg j = false) :
    step s = .next { s with script := r } :=
  step_environment hd h (by rw [fetchIdle, h]; exact if_neg (by rw [hc]; decide))

theorem step_line (hl : l ≠ .drain) (ha : a = .line l ∨ a = .early l) (h : s.script = a :: r) :
    step s = .next (applyLine l { s with script := r }) := by
  obtain rfl | rfl := ha <;> refine step_environment hd h ?_ <;> rw [fetchIdle, h] <;> simp [hl]

/-- A step of a quiescent machine with nothing scripted changes nothing (10 R52). -/
theorem step_rests (h : s.script = []) (hq : s.bot.q = []) : step s = .next s := by
  have hn : fetch s = none := (fetch_idle hd).trans (by rw [fetchIdle, h]; exact if_pos hq)
  rw [step_unfetched hn, environment, h]

end Idle

/-- Settles O3: each kind of turn is a lemma above. -/
theorem stepRunsTheDecodedOperation : Obligations.StepRunsTheDecodedOperation := by
  unfold Obligations.StepRunsTheDecodedOperation
  intro s r u
  refine ⟨fun i hd => ⟨fun h => step_waits hd (.inl h), step_service hd, step_callIsr hd,
      fun j hj h => step_waits hd (.inr ⟨_, r, h, .inl ⟨j, hj, rfl⟩⟩), fun l hl => step_early hd hl,
      fun a ha h => step_waits hd (.inr ⟨a, r, h, .inr ha⟩)⟩,
    fun hd => ⟨step_drainsRing hd, fun h => step_environment hd h (by rw [fetchIdle, h]), fun j => step_call hd,
      fun j => step_skippedCall hd, fun a => step_drain hd, fun a l => step_line hd,
      fun h => step_environment hd h (by rw [fetchIdle, h]), fun b h => step_environment hd h (by rw [fetchIdle, h])⟩,
    fun ⟨hd, hq⟩ h => step_rests hd h hq⟩

end Sys2Proof.Machine
end

section
/-! The events and their recovery (60 R401, R410 to R416, 70 R440; O8, O52, O54, O55, O57). -/

namespace Sys2Proof.Machine

/-- Settles O8: a step keeps the agreement of device state and attachment (`step_keepsBusInStep`). -/
theorem stepKeepsBusState : Obligations.StepKeepsBusState :=
  fun _ _ hs hb h => (step_keepsBusInStep h hs).1 hb

/-- Settles O57: one turn of the loop is the decoded operation, no turn sets a flag, and the ring stops none while it has
room. -/
theorem isrServicesEveryFlag : Obligations.IsrServicesEveryFlag := by
  unfold Obligations.IsrServicesEveryFlag
  refine fun s => ⟨fun h => isr_quiet (decodeEvent_none h), fun i h => ?_, fun t => isr_clears, fun hq => ?_⟩
  · obtain ⟨hone, hirq⟩ := serviceOne_decoded h
    rw [← hone]
    exact isr_unfold hirq
  · exact (isr_ends s).resolve_right fun ⟨_, hfull⟩ => Nat.not_lt.2 hfull hq

/-! SOF (60 R415). -/

/-- The function's SOF handler leaves every register of the block (43 R278). -/
theorem fnSof_rest (s : State) :
    fnSof s =
      { s with
        bdt := (fnSof s).bdt
        eps := (fnSof s).eps
        sie := { s.sie with epCtrl := (fnSof s).sie.epCtrl }
        buf := (fnSof s).buf
        ram := (fnSof s).ram
        hid := (fnSof s).hid
        fnState := (fnSof s).fnState
        free := (fnSof s).free } := by
  unfold fnSof
  split
  · rfl
  · rfl
  · rw [hidSof_rest]
  · rw [keepReply, setReply, oracleHook_rest]

/-- MSC and CDC have no SOF handler (60 R415). -/
theorem fnSof_of_noHandler {s : State} (h : s.cfg.function = .msc ∨ s.cfg.function = .cdc) : fnSof s = s := by
  obtain h | h := h <;> rw [fnSof, h]

theorem suspendable_iff (d : DeviceState) :
    suspendable d = true ↔ d ∈ [DeviceState.powered, .dflt, .address, .configured] := by
  cases d <;> decide

/-- Settles O52: attach, idle and activity are the two branches of their handlers; what SOF leaves is `fnSof_rest`. -/
theorem eventTransitions : Obligations.EventTransitions := by
  unfold Obligations.EventTransitions
  refine fun s => ⟨fun h => congrArg _ (if_pos h), fun h => congrArg _ (if_neg h),
    fun h => congrArg _ (if_pos ((suspendable_iff _).2 h)), fun h => congrArg _ (if_neg fun hc => h ((suspendable_iff _).1 hc)),
    fun h => congrArg _ (if_pos h), fun h => congrArg _ (if_neg h),
    fun h => congrArg Host.Outcome.next (fnSof_of_noHandler h), ⟨_, rfl, ?_⟩, rfl⟩
  rw [serviceSof, fnSof_rest]
  exact ⟨rfl, rfl, rfl, rfl, rfl, rfl, rfl⟩

/-- Settles O54: `onReset` is not accepted in DETACHED. -/
theorem resetIsNotAcceptedWhenDetached : Obligations.ResetIsNotAcceptedWhenDetached :=
  fun _ h => congrArg _ (if_pos h)

/-! Power-on (70 R440). -/

section PowerOn

variable (s : State)

/-- A detach is the same re-initialisation: power-on writes the flags and the module's enable itself (60 R411). -/
theorem serviceDetach_eq : serviceDetach s = powerOnInit s := rfl

theorem powerOnInit_ctrl (ep : Ep) : (powerOnInit s).ctrlAt ep = ctrlOff := by
  unfold powerOnInit
  dsimp only
  split <;> exact getD_map_same s.sie.epCtrl (fun _ => ctrlOff) _ _ rfl

/-- A table of BDs that differ in their addresses alone, all clear, reads clear at every place. -/
theorem getD_clearBds (addr : Nat → Addr) (n i : Nat) :
    ∃ a, ((List.range n).map fun k => (⟨statClear, 0, addr k⟩ : Bd)).getD i bdReset = ⟨statClear, 0, a⟩ := by
  simp only [List.getD_eq_getElem?_getD, List.getElem?_map]
  cases (List.range n)[i]? <;> exact ⟨_, rfl⟩

/-- No BD is armed after power-on; where its buffer lies is open. -/
theorem powerOnInit_bd (ep : Ep) (dir : Dir) (par : Parity) :
    ∃ a, (powerOnInit s).bd ep dir par = ⟨statClear, 0, a⟩ := by
  unfold powerOnInit
  dsimp only
  split <;> exact getD_clearBds _ _ _

theorem powerOnInit_ram :
    (powerOnInit s).ram =
      writeBytes s.cfg.addrW
        (writeBytes s.cfg.addrW (memOf s.cfg.addrW (Config.powerOnByte s.free false)) s.cfg.scratch [0, 0])
        s.cfg.lunAddr [0] := by
  unfold powerOnInit
  dsimp only
  split <;> rfl

/-- What `power_on_init()` writes: what it does not write is kept (log 11). -/
theorem powerOnInit_rest :
    powerOnInit s =
      { s with
        ev := evReset
        deviceState := .detached
        suspendedFrom := .dflt
        stage := .setup
        setup := (powerOnInit s).setup
        ctl := ctlReset
        pendingAddress := 0
        addressPending := false
        currentConfiguration := 0
        remoteWakeup := false
        cbw := if s.cfg.function = .msc then cbwReset else s.cbw
        csw := if s.cfg.function = .msc then cswReset else s.csw
        rw := if s.cfg.function = .msc then rwReset else s.rw
        bot := if s.cfg.function = .msc then botReset else s.bot
        sense := if s.cfg.function = .msc then noSense else s.sense
        buf := (powerOnInit s).buf
        ram := (powerOnInit s).ram
        bdt := (powerOnInit s).bdt
        eps := (powerOnInit s).eps
        sie := ⟨0, false, (powerOnInit s).sie.epCtrl, (powerOnInit s).sie.lastTrn, false, (powerOnInit s).sie.ptr⟩
        free := (powerOnInit s).free } := by
  unfold powerOnInit
  dsimp only
  split
  · next hf =>
    simp only [hf, if_true]
    rfl
  all_goals next hf => simp only [hf, reduceCtorEq, if_false]

/-- The bytes of `ctl.scratch` and `bot.lun_byte` are 0: they lie apart (10 R27, R35). -/
theorem powerOnInit_bytes {s : State} (hs : s.Sound) :
    (powerOnInit s).scratch0 = 0 ∧ (powerOnInit s).scratch1 = 0 ∧ (powerOnInit s).lunByte = 0 := by
  have hm := memOf_wf s.cfg.addrW (Config.powerOnByte s.free false)
  unfold State.scratch0 State.scratch1 State.lunByte
  rw [powerOnInit_ram, (keeps_powerOnInit s).cfg]
  generalize memOf s.cfg.addrW (Config.powerOnByte s.free false) = m at hm ⊢
  have hscratch := writeBytes_holds (w := s.cfg.addrW) s.cfg.scratch [0, 0] hm (Nat.le_trans (by decide) hs.addrs)
  have hlun := writeBytes_holds (w := s.cfg.addrW) s.cfg.lunAddr [0] (writeBytes_wf (w := s.cfg.addrW) s.cfg.scratch [0, 0] hm)
    (Nat.le_trans (by decide) hs.addrs)
  have kept {j : Nat} (hj : j < 2) := (hlun.others _ fun i hi => by
    obtain rfl : i = 0 := Nat.lt_one_iff.1 hi
    exact (scratch_not_own hs hj).2).trans (hscratch.bytes j hj)
  exact ⟨kept Nat.two_pos, kept Nat.one_lt_two, hlun.bytes 0 Nat.one_pos⟩

end PowerOn

/-- Settles O55: a detach is a power-on (`serviceDetach_eq`), whose values are the lemmas above. -/
theorem powerOnValues : Obligations.PowerOnValues := by
  unfold Obligations.PowerOnValues
  intro s i hs hi
  have he : exec i s = .next (powerOnInit s) := by
    obtain rfl | rfl := hi
    · rfl
    · exact congrArg Host.Outcome.next (serviceDetach_eq s)
  obtain ⟨-, -, -, -, heps, hptr, -⟩ := powerOnInit_facts s
  obtain ⟨hscratch0, hscratch1, hlun⟩ := powerOnInit_bytes hs
  refine ⟨_, he, (keeps_powerOnInit s).sound hs, hscratch0, hscratch1, hlun,
    fun ep dir => ⟨heps ep dir, hptr ep dir, powerOnInit_ctrl s ep⟩, fun ep dir par => ?_, powerOnInit_rest s⟩
  obtain ⟨a, ha⟩ := powerOnInit_bd s ep dir par
  rw [ha]
  exact ⟨rfl, rfl⟩

end Sys2Proof.Machine
end

section
/-! The bus reset (60 R412, 70 R430 to R436; O53): its steps 1 to 4 on the tables, then endpoint 0 and the function. -/

namespace Sys2Proof.Machine

section

variable {s : State}

theorem resetTables_sound (hs : s.Sound) : (resetTables s).Sound where
  cfg := hs.cfg
  shaped := by
    refine shaped_of hs.shaped rfl (List.length_map _) (List.length_map _) (List.length_map _) ?_ rfl rfl rfl hs.shaped.ring
    show (s.sie.epCtrl.take 1 ++ (s.sie.epCtrl.drop 1).map fun _ => ctrlOff).length = _
    rw [List.length_append, List.length_map, ← List.length_append, List.take_append_drop]
  canonical := ⟨hs.canonical.buf, writeBytes_wf _ _ hs.canonical.ram, hs.canonical.media⟩

/-- No BD is armed once the tables are reset (70 R432). -/
theorem resetTables_free (s : State) (ep : Ep) (dir : Dir) (par : Parity) :
    ((resetTables s).bd ep dir par).stat.own = false := by
  rw [bd_resetTables]
  rfl

theorem away_resetFunction (s : State) : Away s (resetFunction s) := by
  unfold resetFunction
  split
  · exact away_sense (away_clearBot s) noSense
  all_goals exact .refl s

/-- Endpoint 0 with its buffers and its enables, not armed yet (70 R434). -/
def homeEp0 (s : State) : State := (setAddresses 0 .inp (setAddresses 0 .out s)).setCtrl 0 ⟨true, true, true⟩

theorem resetEp0_eq (s : State) : resetEp0 s = ep0ArmSetup (homeEp0 s) := rfl

/-- The two directions of endpoint 0. -/
def ep0Dirs : List (Ep × Dir) := [(0, .inp), (0, .out)]

theorem keeps_homeEp0 (s : State) : Keeps s (homeEp0 s) :=
  ((keeps_setAddresses s 0 .out).trans (keeps_setAddresses _ 0 .inp)).trans (keeps_setCtrl _ 0 _)

/-- The flags that the service of a reset takes down before the sequence (60 R401). -/
def resetFlags (s : State) : State := { s with ev := { s.ev with reset := false, trn := false, idle := false } }

/-- A reset that is accepted is the bus-reset sequence (60 R412). -/
theorem serviceReset_eq (hd : s.deviceState ≠ .detached) : serviceReset s = busReset (resetFlags s) := if_neg hd

theorem keeps_resetFlags (s : State) : Keeps s (resetFlags s) := keeps_ev s _

/-- The values of endpoint 0 after step 5, from tables without an armed BD (70 R434): `s` stands before the step. -/
structure StartsEp0 (s t : State) : Prop where
  armed : t.bd 0 .out (s.nextPar 0 .out) = armedBd false 8 (s.bufAddr 0 .out (s.nextPar 0 .out))
  bds : ∀ ep dir par, par ∈ parities s.cfg.ppMode ep dir → ¬(ep = 0 ∧ dir = .out ∧ par = s.nextPar 0 .out) →
    t.bd ep dir par = { s.bd ep dir par with
      address := if ep = 0 then s.bufAddr ep dir par else (s.bd ep dir par).address }
  ctrl : ∀ ep, t.ctrlAt ep = if ep = 0 then ⟨true, true, true⟩ else s.ctrlAt ep
  rest : t = { s with bdt := t.bdt, sie := { s.sie with epCtrl := t.sie.epCtrl }, free := t.free }

theorem mem_ep0Dirs {ep : Ep} {dir : Dir} : (ep, dir) ∈ ep0Dirs ↔ ep = 0 := by
  cases dir <;> simp [ep0Dirs]

theorem homeEp0_readdresses (hs : s.Sound) :
    Readdresses ep0Dirs s (setAddresses 0 .inp (setAddresses 0 .out s)) :=
  ((readdresses_nil hs.shaped).cons (zero_lt_numEp hs.numEp_pos) List.not_mem_nil).cons (zero_lt_numEp hs.numEp_pos)
    (by decide)

/-- Step 5 before the arm: endpoint 0's BDs point to their buffers, no other BD changes (70 R434). -/
theorem homeEp0_bd (hs : s.Sound) (hf : ∀ ep dir par, (s.bd ep dir par).stat.own = false) {ep : Ep} {dir : Dir}
    {par : Parity} (hp : par ∈ parities s.cfg.ppMode ep dir) :
    (homeEp0 s).bd ep dir par =
      { s.bd ep dir par with address := if ep = 0 then s.bufAddr ep dir par else (s.bd ep dir par).address } := by
  have k := homeEp0_readdresses hs
  show (setAddresses 0 .inp (setAddresses 0 .out s)).bd ep dir par = _
  by_cases h0 : ep = 0
  · obtain ⟨a, ha, hb⟩ := k.bds (ep, dir) (mem_ep0Dirs.2 h0) par hp
    rw [hb, ha (hf ..), if_pos h0]
  · rw [k.others _ _ _ fun hm => h0 (mem_ep0Dirs.1 hm), if_neg h0]

theorem homeEp0_ctrl (hs : s.Sound) (ep : Ep) :
    (homeEp0 s).ctrlAt ep = if ep = 0 then ⟨true, true, true⟩ else s.ctrlAt ep := by
  have k := homeEp0_readdresses hs
  have hl : (0 : Ep).toNat < (setAddresses 0 .inp (setAddresses 0 .out s)).sie.epCtrl.length := by
    rw [k.shaped.ctrl, k.rest]
    exact zero_lt_numEp hs.numEp_pos
  have hc : (setAddresses 0 .inp (setAddresses 0 .out s)).ctrlAt ep = s.ctrlAt ep := by rw [k.rest]; rfl
  rw [homeEp0, ctrlAt_setCtrl _ _ _ hl, hc]

theorem homeEp0_rest (hs : s.Sound) :
    homeEp0 s =
      { s with
        bdt := (homeEp0 s).bdt
        sie := { s.sie with epCtrl := (homeEp0 s).sie.epCtrl }
        free := (homeEp0 s).free } := by
  have k := (homeEp0_readdresses hs).rest
  unfold homeEp0
  generalize setAddresses 0 .inp (setAddresses 0 .out s) = u at k ⊢
  rw [k]
  rfl

/-- What step 5 leaves: over `homeEp0`, whose next EP0 OUT BD is free, it is one arm (70 R434). -/
theorem resetEp0_starts (hs : s.Sound) (hf : ∀ ep dir par, (s.bd ep dir par).stat.own = false) :
    StartsEp0 s (resetEp0 s) := by
  have hh := (keeps_homeEp0 s).sound hs
  have hbd : ∀ ep dir par, par ∈ parities s.cfg.ppMode ep dir → (homeEp0 s).bd ep dir par = _ :=
    fun _ _ _ => homeEp0_bd hs hf
  have hctrl := homeEp0_ctrl hs
  have hrest := homeEp0_rest hs
  have hm := mem_parities.2 (validBd_nextPar (dir := .out) (zero_lt_numEp hs.numEp_pos)).2
  rw [resetEp0_eq]
  generalize homeEp0 s = u at hh hbd hctrl hrest ⊢
  have hc : u.cfg = s.cfg := by rw [hrest]
  have hn : u.nextPar 0 .out = s.nextPar 0 .out := by rw [hrest]; rfl
  obtain ⟨kbd, kbds, krest⟩ := ep0ArmSetup_arms hh.shaped hh.numEp_pos
  rw [hn] at kbd kbds
  rw [SameBdsBut, hc] at kbds
  refine ⟨?_, fun ep dir par hp hne => ?_, fun ep => ?_, ?_⟩
  · rw [kbd, State.nextAddr, hn, hbd _ _ _ hm, if_pos rfl]
  · rw [kbds _ _ _ fun hx => hne (bdIndex_inj hp hm hx), hbd _ _ _ hp]
  · rw [krest]
    exact hctrl ep
  · rw [krest, hrest]

/-- Step 6: the registers of MSC where it is bound, nothing elsewhere (70 R435). -/
theorem resetFunction_rest (s : State) :
    resetFunction s =
      { s with
        cbw := if s.cfg.function = .msc then cbwReset else s.cbw
        csw := if s.cfg.function = .msc then cswReset else s.csw
        rw := if s.cfg.function = .msc then rwReset else s.rw
        bot := if s.cfg.function = .msc then botReset else s.bot
        sense := if s.cfg.function = .msc then noSense else s.sense } := by
  unfold resetFunction
  split
  · next hf => simp only [hf, if_true]; rfl
  all_goals next hf => simp only [hf, reduceCtorEq, if_false]

end

/-- Settles O53: the tables and the sequencing registers are cleared first (`resetTables`); over them endpoint 0 starts
(`resetEp0_starts`), and the function's part writes the registers of MSC alone (`resetFunction_rest`). -/
theorem busResetSequence : Obligations.BusResetSequence := by
  unfold Obligations.BusResetSequence
  intro s hs hd
  have heps := epsAt_resetTables (resetFlags s)
  have hptr := ptrAt_resetTables (resetFlags s)
  have hbd := bd_resetTables (resetFlags s)
  have hctrl := ctrl_resetTables (resetFlags s)
  obtain ⟨karmed, kbds, kctrl, krest⟩ :=
    resetEp0_starts (resetTables_sound ((keeps_resetFlags s).sound hs)) (resetTables_free (resetFlags s))
  rw [nextPar_of_odd (congrArg Eps.lastParity (heps 0 .out))] at karmed kbds
  refine ⟨_, congrArg Host.Outcome.next (serviceReset_eq hd), ?_⟩
  rw [busReset, ← resetTables, resetFunction_rest]
  generalize resetEp0 (resetTables (resetFlags s)) = t at karmed kbds kctrl krest ⊢
  have keps : ∀ ep dir, t.epsAt ep dir = epsReset := fun ep dir => by rw [krest]; exact heps ep dir
  refine ⟨?_, fun ep dir _ => ⟨keps ep dir, ?_, nextPar_of_odd (congrArg Eps.lastParity (keps ep dir)), ?_⟩, karmed,
    fun ep dir par hv hne => ?_, ?_⟩
  · rw [krest]
    exact writeBytes_holds _ _ hs.canonical.ram (Nat.le_trans (by decide) hs.addrs)
  · rw [krest]
    exact hptr ep dir
  · refine (kctrl ep).trans ?_
    split
    · rfl
    · next h => exact hctrl ep h
  · show (t.bd ep dir par).stat = _ ∧ (t.bd ep dir par).count = _ ∧ (t.bd ep dir par).address = _
    rw [kbds ep dir par (mem_parities.2 hv.2) hne, hbd]
    exact ⟨rfl, rfl, rfl⟩
  · rw [krest]
    rfl

end Sys2Proof.Machine
end

section
/-! EP0 OUT stays ready for the host (41 R209, 70 R441; O11). -/

namespace Sys2Proof.Machine

section

variable {s t : State}

/-- No EP0 OUT BD is owned: the state between a completion there and its service (70 R441). -/
def State.Ep0OutFree (s : State) : Prop := ∀ par ∈ parities s.cfg.ppMode 0 .out, (s.bd 0 .out par).stat.own = false

theorem State.Ep0OutFree.lone (h : s.Ep0OutFree) : Lone s := fun par hp _ => h par hp

theorem State.Ep0OutFree.of_eq (h : s.Ep0OutFree) (hc : t.cfg = s.cfg) (hb : ∀ par, t.bd 0 .out par = s.bd 0 .out par) :
    t.Ep0OutFree := fun par hp => by
  rw [hb]
  exact h par (hc ▸ hp)

theorem State.Ep0OutArmed.ready (h : s.Ep0OutArmed) (hv : s.ev.trn = false) : s.Ep0OutReady := by
  rwa [State.Ep0OutReady, if_neg (by simp [hv])]

/-- What touches nothing of endpoint 0 leaves EP0 OUT as ready as it was. -/
theorem Apart.ready (k : Apart s t) (h : s.Ep0OutReady) : t.Ep0OutReady := by
  have hl : t.sie.lastTrn = s.sie.lastTrn := by rw [k.sie]
  unfold State.Ep0OutReady at h ⊢
  rw [k.ev, hl]
  split at h
  · next hc =>
    rw [if_pos hc]
    exact State.Ep0OutFree.of_eq h k.cfg (k.bd .out)
  · next hc =>
    rw [if_neg hc]
    exact k.spares.armed h

theorem setupSteps_armed (par : Parity) (hs : s.Sound) (h : s.Ep0OutFree) : (setupSteps par s).Ep0OutArmed :=
  (setupSteps_takes par hs.shaped hs.numEp_pos).armed h

theorem setupHandler_armed (par : Parity) (hs : s.Sound) (h : s.Ep0OutFree) : (setupHandler par s).Ep0OutArmed :=
  (outs_typeDispatch _ ((keeps_setupSteps s par).sound hs).cfg).armed (setupSteps_armed par hs h)

theorem statusComplete_armed (hs : s.Sound) (h : s.Ep0OutFree) : (statusComplete s).Ep0OutArmed := by
  have k := (keeps_commitAddress s).sound hs
  exact arm_armed k.shaped k.numEp_pos ((outs_commitAddress s hs.cfg).lone h.lone) false 8

theorem dataOutStep_armed (par : Parity) (n : Nat) (hs : s.Sound) (h : s.Ep0OutFree) :
    (dataOutStep par n s).Ep0OutArmed := by
  have k := (keeps_storeDataOut s par n).sound hs
  have hl := (outs_storeDataOut s par n hs.cfg).lone h.lone
  have arm := arm_armed k.shaped k.numEp_pos hl
  unfold dataOutStep
  dsimp only
  split
  · have ka := (keeps_ep0ArmSetup (storeDataOut par n s)).sound k
    exact (((outs_outControlFinished _).trans (outs_finishDataOut _)) ka.cfg).armed (arm false 8)
  · exact arm _ _

/-- The service of a completion on EP0 OUT arms its next BD, whatever packet it was (41 R192, R209). -/
theorem ep0Dispatch_out_armed (pid : BitVec 4) (par : Parity) (n : Nat) (hs : s.Sound) (h : s.Ep0OutFree) :
    (ep0Dispatch .out pid par n s).Ep0OutArmed := by
  unfold ep0Dispatch
  dsimp only
  split
  · exact setupHandler_armed par hs h
  · have stray := arm_armed hs.shaped hs.numEp_pos h.lone false 8
    split
    · exact dataOutStep_armed par n hs h
    · exact statusComplete_armed hs h
    · exact statusComplete_armed hs h
    · exact stray
    · exact stray

/-- The service of a completion on EP0 IN leaves what is armed on EP0 OUT (41 R192). -/
theorem outs_ep0Dispatch_inp (s : State) (pid : BitVec 4) (par : Parity) (n : Nat) : Outs s (ep0Dispatch .inp pid par n s) := by
  unfold ep0Dispatch
  dsimp only
  split
  · exact outs_dataInNext s
  · exact outs_statusComplete s
  all_goals exact .refl s

/-- Booking a completion elsewhere leaves EP0 OUT. -/
theorem booked_spares (h : ¬(s.sie.lastTrn.ep = 0 ∧ s.sie.lastTrn.dir = .out)) : Spares s (booked s) := by
  have hr := booked_rest s
  refine ⟨by rw [hr], ?_, fun par _ => .inl (by rw [hr]; rfl)⟩
  rw [booked_other s 0 .out (by tauto)]

/-- The service of an EP0 completion, on the state its bookkeeping leaves (41 R191). -/
theorem trnService_zero (h0 : s.sie.lastTrn.ep = 0) (h1 : 1 ≤ s.cfg.numEp) :
    trnService s = .next (ep0Dispatch s.sie.lastTrn.dir (BdStat.pid s.latchedBd.stat) s.sie.lastTrn.parity
      s.latchedBd.count.toNat (booked s)) := by
  rw [trnService_decoded (by rw [h0]; exact zero_lt_numEp h1), h0, exec_decodeTrn_zero h1 (by rw [booked_rest])]

/-- The service of any other completion is the function's (41 R191, 43 R274). -/
theorem trnService_nonzero (h0 : s.sie.lastTrn.ep ≠ 0) (h : s.sie.lastTrn.ep.toNat < s.cfg.numEp) :
    trnService s = fnTasks s.sie.lastTrn.ep s.sie.lastTrn.dir s.sie.lastTrn.parity s.latchedBd.count.toNat (booked s) := by
  unfold trnService
  dsimp only
  rw [if_neg (Nat.not_le.2 h), if_neg h0, booked]

/-- The service of a completion leaves EP0 OUT armed (41 R209): one on EP0 OUT arms it, any other leaves it armed. -/
theorem trnService_armed (hs : s.Sound) (hr : s.Ep0OutReady) (hv : s.ev.trn = true) (h : trnService s = .next t) :
    t.Ep0OutArmed := by
  have hk := (keeps_booked s).sound hs
  unfold State.Ep0OutReady at hr
  by_cases hout : s.sie.lastTrn.ep = 0 ∧ s.sie.lastTrn.dir = .out
  · rw [if_pos ⟨hv, hout⟩] at hr
    rw [trnService_zero hout.1 hs.numEp_pos, hout.2] at h
    cases h
    exact ep0Dispatch_out_armed _ _ _ hk
      (State.Ep0OutFree.of_eq hr (keeps_booked s).cfg fun par => by rw [booked_rest]; rfl)
  rw [if_neg fun hc => hout hc.2] at hr
  have ha := (booked_spares hout).armed hr
  by_cases h0 : s.sie.lastTrn.ep = 0
  · have hd : s.sie.lastTrn.dir = .inp := by
      cases hd : s.sie.lastTrn.dir
      · exact absurd ⟨h0, hd⟩ hout
      · rfl
    rw [trnService_zero h0 hs.numEp_pos, hd] at h
    cases h
    exact (outs_ep0Dispatch_inp _ _ _ _ hk.cfg).armed ha
  by_cases hl : s.sie.lastTrn.ep.toNat < s.cfg.numEp
  · rw [trnService_nonzero h0 hl] at h
    exact (awayR_fnTasks _ _ _ _ _ _ h hk.cfg).spares.armed ha
  · rw [trnService_outOfRange (Nat.not_lt.1 hl)] at h
    cases h
    exact hr

/-- The events that a set of flags decodes to (60 R401). -/
theorem decodeEvent_cases {e : Events} {i : Instr} (h : decodeEvent e = some i) :
    i ∈ [Instr.detach, .attach, .activity, .reset, .idle, .sof, .error] ∨ (i = .trn ∧ e.trn = true) := by
  unfold decodeEvent at h
  iterate 7
    split at h
    · cases h
      exact .inl (by simp)
  split at h
  · next ht => exact .inr ⟨(Option.some.inj h).symm, ht⟩
  · cases h

/-- The bus reset arms EP0 OUT, and the function's part of it leaves that arm (70 R434, R435). -/
theorem busReset_armed (hs : s.Sound) : (busReset s).Ep0OutArmed := by
  have k := (keeps_homeEp0 (resetTables s)).sound (resetTables_sound hs)
  have hfree : (homeEp0 (resetTables s)).Ep0OutFree := fun par hp => by
    rw [homeEp0_bd (resetTables_sound hs) (resetTables_free s) ((keeps_homeEp0 _).cfg ▸ hp)]
    exact resetTables_free s 0 .out par
  have ke := (keeps_ep0ArmSetup (homeEp0 (resetTables s))).sound k
  exact (away_resetFunction _ ke.cfg).spares.armed (arm_armed k.shaped k.numEp_pos hfree.lone false 8)

/-- Of the events but a detach, the bus reset arms EP0 OUT itself; the others touch no BD of it (70 R434, R441). -/
theorem event_ready {i : Instr} (hs : s.Sound) (hd : s.deviceState ≠ .detached) (hr : s.Ep0OutReady)
    (hi : i ∈ [Instr.attach, .activity, .reset, .idle, .sof, .error]) (h : exec i s = .next t) : t.Ep0OutReady := by
  simp only [List.mem_cons, List.not_mem_nil, or_false] at hi
  obtain rfl | rfl | rfl | rfl | rfl | rfl := hi <;> cases h
  · rw [serviceAttach, onAttach, if_neg hd]
    exact hr
  · unfold serviceActivity onActivity
    split <;> exact hr
  · rw [serviceReset_eq hd]
    exact (busReset_armed ((keeps_resetFlags s).sound hs)).ready (by rw [busReset_ev]; rfl)
  · unfold serviceIdle onIdle
    split <;> exact hr
  · exact (away_fnSof { s with ev := { s.ev with sof := false } } hs.cfg).ready hr
  · exact hr

end

/-- Settles O11: a completion is `trnService_armed`, any other event `event_ready`; a drain stays away from endpoint 0. -/
theorem ep0OutStaysArmed : Obligations.Ep0OutStaysArmed := by
  unfold Obligations.Ep0OutStaysArmed
  intro s t i hs _ hd hr hi h
  obtain ⟨he, hn⟩ | rfl := hi
  · obtain hm | ⟨rfl, hv⟩ := decodeEvent_cases he
    · exact event_ready hs hd hr ((List.mem_cons.1 hm).resolve_left hn) h
    · exact (trnService_armed hs hr hv h).ready (by rw [trnService_ev h])
  · cases h
    exact (away_msdTasks s hs.cfg).ready hr

end Sys2Proof.Machine
end

section
/-! An arm of a BD that the SIE owns (70 R445; O17). -/

namespace Sys2Proof.Machine

/-- Settles O17: the arm of an owned BD is one write of it with a free count (`armBd_owned_writes`), for both directions. -/
theorem armingAnOwnedBdLeavesTheCountOpen : Obligations.ArmingAnOwnedBdLeavesTheCountOpen := by
  unfold Obligations.ArmingAnOwnedBdLeavesTheCountOpen
  intro s ep par tog n hs
  exact ⟨fun hv ho => ⟨_, _, rfl, armBd_owned_writes hs hv tog n ho⟩,
    fun hv ho => ⟨_, _, rfl, armBd_owned_writes hs hv tog n ho⟩⟩

end Sys2Proof.Machine
end

section
/-! The state after reset (10 section 8, 70 R440; O10, O56). -/

namespace Sys2Proof.Machine

section PowerOnState

variable (c : Config)

theorem powerOn_shaped : (State.powerOn c).Shaped :=
  ⟨List.length_replicate, List.length_replicate, List.length_replicate, List.length_replicate, rfl, rfl, rfl,
    Nat.zero_le 4⟩

theorem powerOn_epsAt (ep : Ep) (dir : Dir) : (State.powerOn c).epsAt ep dir = epsReset :=
  List.getD_eq_getElem?_getD.trans (List.getElem?_getD_replicate_default_eq ..)

theorem powerOn_ptrAt (ep : Ep) (dir : Dir) : (State.powerOn c).ptrAt ep dir = .even :=
  List.getD_eq_getElem?_getD.trans (List.getElem?_getD_replicate_default_eq ..)

theorem powerOn_bdsFit : (State.powerOn c).BdsFit := fun b hb => by
  rw [List.eq_of_mem_replicate hb]
  exact Nat.two_pow_pos _

theorem powerOn_busState : (State.powerOn c).BusState := ⟨iff_of_true rfl rfl, fun _ => rfl, nofun, rfl⟩

end PowerOnState

/-- Settles O10: the power-on state of any configuration meets them; that of configuration A is also well-formed. -/
theorem resetMeetsTheInvariants : Obligations.ResetMeetsTheInvariants :=
  ⟨⟨by decide, powerOn_shaped _, nil_wf, nil_wf, nil_wf⟩, powerOn_bdsFit _,
    fun dir => congrArg Eps.halted (powerOn_epsAt _ 0 dir), powerOn_busState _,
    instep_fresh (powerOn_epsAt _) (powerOn_ptrAt _) rfl⟩

/-- Settles O56: the registers are the definition's; every table repeats one entry. -/
theorem resetStateValues : Obligations.ResetStateValues := by
  unfold Obligations.ResetStateValues
  refine ⟨rfl, rfl, rfl, rfl, rfl, rfl, rfl, rfl, rfl, rfl, rfl, rfl, rfl, rfl, rfl, rfl, rfl,
    fun _ => List.eq_of_mem_replicate, fun _ => List.eq_of_mem_replicate, fun _ => List.eq_of_mem_replicate,
    fun b hb => ?_, rfl, rfl, rfl⟩
  rw [List.eq_of_mem_replicate hb]
  exact ⟨rfl, rfl⟩

end Sys2Proof.Machine
end

section
/-! Words of the spec and what they decode to (30; O2). -/

namespace Sys2Proof.Machine

/-- Settles O2: the words are closed but for the number of endpoints, which the latch alone is compared with. -/
theorem specWordsDecode : Obligations.SpecWordsDecode := by
  unfold Obligations.SpecWordsDecode
  intro c hc
  have latch (ep : Ep) (dir : Dir) (par : Parity) (pid : BitVec 4) (stage : Stage) (n : Nat) :
      decode c (.trn ep dir par pid stage n) = some (decodeTrn 2 ep dir par pid stage n) := by rw [decode, hc]
  simp only [latch]
  exact ⟨rfl, rfl, rfl, rfl, rfl, rfl, rfl, rfl, rfl, rfl, rfl, rfl, rfl, rfl, rfl, rfl, rfl, rfl, rfl⟩

end Sys2Proof.Machine
end
